-- ==== Sys2Proof/Word.lean ====
section
/-! DEFINITION. The word types of the SVA-4816 (00 R3, 13 R232). -/
namespace Sys2Proof

/-- One byte of memory (00 R3). -/
abbrev Byte := BitVec 8
/-- A 32-bit register of a lane or strand; also a mask over the 32 lanes of a strand (13 R232, 00 R8). -/
abbrev Word := BitVec 32
/-- A 64-bit address, program counter or device time (13 R235, 00 R1). -/
abbrev Dword := BitVec 64
/-- A 96-bit instruction word: word 0 holds bits 31:0 (13 R235). -/
abbrev IWord := BitVec 96

end Sys2Proof
end

