-- ==== Sys2Proof/Syntax.lean ====
section
/-! DEFINITION. The instructions and events of the SVA-4816, one constructor of `Instr` for each row of the
opcode table. A row that has an encoding carries the header (13 R236) and the fields of its format (13 R238); a row
that is an event, a packet or a request carries what the event brings in from outside the state. -/
namespace Sys2Proof

/-- The operand kinds of 13 R239. -/
inductive Kind where
  | v | k | p | imm
deriving DecidableEq, Repr

/-- The header, bits 95:64 of an instruction less OP and the reserved bit 64 (13 R236). -/
structure Hdr where
  gn : Bool
  gp : BitVec 5
  stall : BitVec 4
  sbset : BitVec 3
  sbwait : BitVec 7
  yld : Bool
deriving DecidableEq, Repr

/-- Format R (13 R238): three operands with their kinds, and MOD 19:0. -/
structure FmtR where
  d : BitVec 11
  a : BitVec 11
  b : BitVec 11
  c : BitVec 11
  kd : Bool
  ka : Kind
  kb : Kind
  kc : Kind
  ty : BitVec 4
  rnd : BitVec 3
  sat : Bool
  sub : BitVec 5
deriving DecidableEq, Repr

/-- Format I (13 R238): IMM32 in place of B and C. -/
structure FmtI where
  d : BitVec 11
  a : BitVec 11
  imm : BitVec 32
  kd : Bool
  ka : Kind
  ty : BitVec 4
  sub : BitVec 3
deriving DecidableEq, Repr

/-- Format M (13 R238): OFF24 is signed; `ka` false reads a v register or pair, true a k register or pair (R239). -/
structure FmtM where
  d : BitVec 11
  a : BitVec 11
  off : BitVec 24
  width : BitVec 4
  ord : BitVec 3
  scope : BitVec 3
  cache : BitVec 2
  ka : Bool
  raw : Bool
  sub : BitVec 4
deriving DecidableEq, Repr

/-- Format A (13 R238, 17 R332): OFF12 is signed; WIDTH holds the code less 6. -/
structure FmtA where
  d : BitVec 11
  a : BitVec 11
  b : BitVec 11
  c : BitVec 11
  off : BitVec 12
  width : BitVec 2
  ord : BitVec 2
  scope : BitVec 3
  noret : Bool
deriving DecidableEq, Repr

/-- Format B (13 R238, 15 R290): TGT32 is a signed count of instructions. -/
structure FmtB where
  tgt : BitVec 32
  a : BitVec 11
  ka : Kind
  sub : BitVec 3
  rsv : BitVec 16
deriving DecidableEq, Repr

/-- Format X (13 R238). -/
structure FmtX where
  d : BitVec 11
  a : BitVec 11
  b : BitVec 11
  imm : BitVec 31
deriving DecidableEq, Repr

/-- An LML packet as it arrives or leaves (02 R27). -/
structure LmlPkt where
  spkg : Nat
  dpkg : Nat
  flow : Nat
  seq : Word
  qtag : Nat
  unordered : Bool
  rel : Bool
  /-- TYPE of the header. -/
  ty : Nat
  va : Dword
  data : List Byte
  /-- A reserved bit of the header is not 0. -/
  rsv : Bool := false
  /-- Link that it comes in or goes out on; 16 when no route is up. -/
  via : Nat := 16
deriving DecidableEq, Repr

/-- A network data packet, with what its message says of itself (02 R38, R40, R41). -/
structure UePkt where
  src : Nat
  /-- The receiving context of this package. -/
  ctx : Nat
  /-- The number of the sender's delivery context. -/
  pdc : Nat
  rod : Bool
  psn : Word
  /-- First PSN of the delivery context; first PSN and packets of the message. -/
  start : Word
  first : Word
  count : Nat
  opc : Nat
  rkey : Word
  raddr : Dword
  off : Nat
  len : Nat
  msgid : Word
  rcen : Bool
  rctr : Nat
  data : List Byte
  /-- QTAG (04 R74) and entropy value (02 R40). -/
  qtag : Nat := 0
  ent : Nat := 0
  /-- SPI and SDI of the security association that protects it (02 R37). -/
  sa : Option (Word × Word) := none
deriving DecidableEq, Repr

/-- A skip notice (02 R407): the PSNs of a failed message. -/
structure UeSkip where
  src : Nat
  ctx : Nat
  pdc : Nat
  rod : Bool
  first : Word
  last : Word
  /-- First PSN of the delivery context. -/
  start : Word := 0
deriving DecidableEq, Repr

/-- The instructions and events: one constructor per row of the opcode table. -/
inductive Instr where
  /-- IADD (R258). Adds two 32-bit integers per active lane, wrapping or saturating to the type. -/
  | iadd (h : Hdr) (f : FmtR)
  /-- ISUB (R258). Subtracts two 32-bit integers per active lane, wrapping or saturating to the type. -/
  | isub (h : Hdr) (f : FmtR)
  /-- IADD3 (R258). Adds three optionally negated 32-bit operands modulo 2^32. -/
  | iadd3 (h : Hdr) (f : FmtR)
  /-- IADDC (R259). Adds with a carry predicate read and written per lane. -/
  | iaddc (h : Hdr) (f : FmtR)
  /-- ISUBB (R259). Subtracts with a borrow predicate read and written per lane. -/
  | isubb (h : Hdr) (f : FmtR)
  /-- IMUL (R260). Multiplies two 32-bit integers and keeps the low word, wrapped or saturated. -/
  | imul (h : Hdr) (f : FmtR)
  /-- IMULHI (R260). Multiplies two 32-bit integers and keeps the high word of the 64-bit product. -/
  | imulhi (h : Hdr) (f : FmtR)
  /-- IMAD (R260). Multiplies and adds an optionally negated addend, clamped once if saturating. -/
  | imad (h : Hdr) (f : FmtR)
  /-- IMADW (R261). Widening 32x32 multiply added to a 64-bit pair, written to a pair. -/
  | imadw (h : Hdr) (f : FmtR)
  /-- IMIN (R262). Writes the lesser of two integers under the type's signedness. -/
  | imin (h : Hdr) (f : FmtR)
  /-- IMAX (R262). Writes the greater of two integers under the type's signedness. -/
  | imax (h : Hdr) (f : FmtR)
  /-- IABS (R262). Writes the absolute value of a signed 32-bit integer, optionally saturated. -/
  | iabs (h : Hdr) (f : FmtR)
  /-- IDIV (R263). Issues a truncating integer division with fixed results for zero divisors and overflow. -/
  | idiv (h : Hdr) (f : FmtR)
  /-- IREM (R263). Issues an integer remainder with the dividend's sign and fixed special cases. -/
  | irem (h : Hdr) (f : FmtR)
  /-- IADD64 (R264). Adds two 64-bit pairs without any arena check. -/
  | iadd64 (h : Hdr) (f : FmtR)
  /-- ISUB64 (R264). Subtracts two 64-bit pairs without any arena check. -/
  | isub64 (h : Hdr) (f : FmtR)
  /-- AADD (R265). Adds an offset to a pointer and traps if an arena pointer would leave its arena name. -/
  | aadd (h : Hdr) (f : FmtR)
  /-- IDOT4 (R267). Adds four byte products to a 32-bit accumulator. -/
  | idot4 (h : Hdr) (f : FmtR)
  /-- LGC3 (R268). Computes any three-input bitwise function given by an 8-bit table. -/
  | lgc3 (h : Hdr) (f : FmtR)
  /-- SHL (R270). Shifts left by an unmasked amount, giving 0 at 32 or more. -/
  | shl (h : Hdr) (f : FmtR)
  /-- SHR (R270). Shifts right logically or arithmetically by an unmasked amount. -/
  | shr (h : Hdr) (f : FmtR)
  /-- DSH (R271). Shifts a 64-bit register pair value left or right and returns one word. -/
  | dsh (h : Hdr) (f : FmtR)
  /-- ROT (R272). Rotates a 32-bit value left or right by the amount mod 32. -/
  | rot (h : Hdr) (f : FmtR)
  /-- POPC (R273). Counts the set bits of a word. -/
  | popc (h : Hdr) (f : FmtR)
  /-- CLZ (R273). Counts leading zeros of a word. -/
  | clz (h : Hdr) (f : FmtR)
  /-- BREV (R273). Reverses the bit order of a word. -/
  | brev (h : Hdr) (f : FmtR)
  /-- BFE (R274). Extracts a bit field and sign- or zero-extends it. -/
  | bfe (h : Hdr) (f : FmtR)
  /-- BFI (R275). Inserts the low bits of one value into a field of another. -/
  | bfi (h : Hdr) (f : FmtR)
  /-- BSHUF (R276). Builds each result byte from a selected byte with a fill mode. -/
  | bshuf (h : Hdr) (f : FmtR)
  /-- ISETP (R280). Compares integers and combines the result into a predicate. -/
  | isetp (h : Hdr) (f : FmtR)
  /-- FSETP (R280). Compares floating values, ordered or unordered, into a predicate. -/
  | fsetp (h : Hdr) (f : FmtR)
  /-- PSETP (R281). Computes a three-input predicate function from a table. -/
  | psetp (h : Hdr) (f : FmtR)
  /-- SEL (R282). Selects one of two sources per lane by a predicate. -/
  | sel (h : Hdr) (f : FmtR)
  /-- MOV (R282). Copies a source to a register. -/
  | mov (h : Hdr) (f : FmtR)
  /-- MOVI (R282). Writes a 32-bit immediate to a register. -/
  | movi (h : Hdr) (f : FmtI)
  /-- READLANE (R283). Copies one active lane's v register into a k register. -/
  | readlane (h : Hdr) (f : FmtR)
  /-- BCAST (R282). Copies a k register into a v register of every active lane. -/
  | bcast (h : Hdr) (f : FmtR)
  /-- SHFL (R284). Exchanges values among active lanes within segments. -/
  | shfl (h : Hdr) (f : FmtR)
  /-- VOTE (R285). Computes all, any or ballot of a predicate over the active lanes. -/
  | vote (h : Hdr) (f : FmtR)
  /-- MATCH (R286). Finds the active lanes that hold equal values. -/
  | lmatch (h : Hdr) (f : FmtR)
  /-- GETSR (R288). Reads a special register. -/
  | getsr (h : Hdr) (f : FmtR)
  /-- SETSR (R288). Writes a writable special register. -/
  | setsr (h : Hdr) (f : FmtR)
  /-- P2V (R289). Packs the lane's predicates into a masked register value. -/
  | p2v (h : Hdr) (f : FmtR)
  /-- V2P (R289). Writes selected predicates p0-p30 from register bits. -/
  | v2p (h : Hdr) (f : FmtR)
  /-- REDUX (R287). Reduces a value over the active lanes with add, min, max or a bitwise operation. -/
  | redux (h : Hdr) (f : FmtR)
  /-- BRA (R292). Branches to a relative target, splitting the fragment when lanes diverge. -/
  | bra (h : Hdr) (f : FmtB)
  /-- BRX (R292). Branches to per-lane 64-bit targets, splitting as needed. -/
  | brx (h : Hdr) (f : FmtB)
  /-- CALL (R294). Branches like BRA and pushes a return entry for each resulting fragment. -/
  | call (h : Hdr) (f : FmtB)
  /-- CALLX (R294). Branches like BRX and pushes return entries. -/
  | callx (h : Hdr) (f : FmtB)
  /-- RET (R294). Returns all lanes of EM to the newest entry that the fragment owns. -/
  | ret (h : Hdr) (f : FmtB)
  /-- RCV (R295). Sets the fragment's pending reconvergence address. -/
  | rcv (h : Hdr) (f : FmtB)
  /-- EXIT (R296). Removes the active lanes from the fragment permanently and ends their lane arenas. -/
  | exit (h : Hdr) (f : FmtB)
  /-- MASKR (R297). Reads the fragment's execution mask. -/
  | maskr (h : Hdr) (f : FmtB)
  /-- MASKW (R297). Writes the execution mask within M and resets the block-entry mask. -/
  | maskw (h : Hdr) (f : FmtB)
  /-- NOP (R298). Issues and folds its signature record only. -/
  | nop (h : Hdr) (f : FmtB)
  /-- YIELD (R298). Demotes the fragment and stops it for pre-emption when a request is pending. -/
  | yield (h : Hdr) (f : FmtB)
  /-- YIELD_REQ (R298). Acts as a plain YIELD only when a pre-emption request is pending, otherwise as a NOP. -/
  | yieldReq (h : Hdr) (f : FmtB)
  /-- SLEEP (R299). Parks the fragment for a count of device-time cycles. -/
  | sleep (h : Hdr) (f : FmtB)
  /-- SLEEP_EXPIRY (R299). A sleeping fragment wakes when its count elapses or a pre-emption request arrives. -/
  | sleepExpiry (t : Nat) (fr : Nat)
  /-- CONT (R300). Registers the strand's continuation address for replayable faults. -/
  | cont (h : Hdr) (f : FmtB)
  /-- CONT_OFF (R300). Clears the strand's continuation address. -/
  | contOff (h : Hdr) (f : FmtB)
  /-- CRET (R300). Waits for the saved fault's service, restores the frame and reissues the faulted instruction. -/
  | cret (h : Hdr) (f : FmtB)
  /-- FADD (R305). Adds floating values with one rounding per element. -/
  | fadd (h : Hdr) (f : FmtR)
  /-- FMUL (R305). Multiplies floating values with one rounding per element. -/
  | fmul (h : Hdr) (f : FmtR)
  /-- FFMA (R305). Fused multiply-add with a single rounding. -/
  | ffma (h : Hdr) (f : FmtR)
  /-- FMIN (R306). Writes minimumNumber of two floating operands. -/
  | fmin (h : Hdr) (f : FmtR)
  /-- FMAX (R306). Writes maximumNumber of two floating operands. -/
  | fmax (h : Hdr) (f : FmtR)
  /-- FRND (R307). Rounds each element to an integral value by the chosen mode. -/
  | frnd (h : Hdr) (f : FmtR)
  /-- FCLASS (R308). Writes a one-hot class mask for each floating element. -/
  | fclass (h : Hdr) (f : FmtR)
  /-- FDOT2 (R309). Adds a two-element packed dot product to FP32 with one rounding. -/
  | fdot2 (h : Hdr) (f : FmtR)
  /-- FSCALE (R310). Multiplies each element by a power of two. -/
  | fscale (h : Hdr) (f : FmtR)
  /-- FFREXP (R311). Splits an FP32 value into significand and exponent. -/
  | ffrexp (h : Hdr) (f : FmtR)
  /-- CVT (R312). Converts between integer and floating types with rounding and saturation. -/
  | cvt (h : Hdr) (f : FmtR)
  /-- CVT_Q (R313). Quantises FP32 under a format slot. -/
  | cvtQ (h : Hdr) (f : FmtR)
  /-- CVT_DQ (R313). Dequantises to FP32 under a format slot. -/
  | cvtDq (h : Hdr) (f : FmtR)
  /-- PACK (R314). Packs two floats or clamped integers into one word. -/
  | pack (h : Hdr) (f : FmtR)
  /-- UNPK (R315). Unpacks packed elements into a register pair. -/
  | unpk (h : Hdr) (f : FmtR)
  /-- BPNSPL (R316). Splits one byte of every active lane into bit-plane words. -/
  | bpnspl (h : Hdr) (f : FmtR)
  /-- BPNJN (R317). Rebuilds each lane's byte from p bit-plane words. -/
  | bpnjn (h : Hdr) (f : FmtR)
  /-- FRCP (R319). Approximates the reciprocal within 1 ulp. -/
  | frcp (h : Hdr) (f : FmtR)
  /-- FRSQ (R319). Approximates the reciprocal square root. -/
  | frsq (h : Hdr) (f : FmtR)
  /-- FSQRT (R318). Computes a correctly rounded square root. -/
  | fsqrt (h : Hdr) (f : FmtR)
  /-- FEX2 (R319). Approximates 2^x. -/
  | fex2 (h : Hdr) (f : FmtR)
  /-- FLG2 (R319). Approximates log2 x. -/
  | flg2 (h : Hdr) (f : FmtR)
  /-- FSIN (R319). Approximates sin x. -/
  | fsin (h : Hdr) (f : FmtR)
  /-- FCOS (R319). Approximates cos x. -/
  | fcos (h : Hdr) (f : FmtR)
  /-- FTANH (R319). Approximates tanh x. -/
  | ftanh (h : Hdr) (f : FmtR)
  /-- FDIV (R318). Computes a correctly rounded FP32 quotient. -/
  | fdiv (h : Hdr) (f : FmtR)
  /-- QSHR (R320). Shifts with rounding half away, adds a zero point and saturates. -/
  | qshr (h : Hdr) (f : FmtR)
  /-- QMUL (R321). Forms the rounding doubling high product of two q31 values. -/
  | qmul (h : Hdr) (f : FmtR)
  /-- LD (R326). Loads from memory or an arena after the checks of R324. -/
  | ld (h : Hdr) (f : FmtM)
  /-- ST (R326). Stores to memory or an arena after the checks of R324, including the escape check. -/
  | st (h : Hdr) (f : FmtM)
  /-- LDS (R327). Loads from the block's scratchpad, parking on empty lines. -/
  | lds (h : Hdr) (f : FmtM)
  /-- STS (R327). Stores to the block's scratchpad, optionally setting lines full. -/
  | sts (h : Hdr) (f : FmtM)
  /-- TLD (R328). Loads from the block's tile store. -/
  | tld (h : Hdr) (f : FmtM)
  /-- TST (R328). Stores to the block's tile store. -/
  | tst (h : Hdr) (f : FmtM)
  /-- LDK (R329). Reads the launch record, the format slots or argument bytes. -/
  | ldk (h : Hdr) (f : FmtM)
  /-- PREF (R330). Prefetches lines into the caches without performing an access. -/
  | pref (h : Hdr) (f : FmtM)
  /-- FESET (R331). Sets scratchpad lines full as a release at block scope. -/
  | feset (h : Hdr) (f : FmtM)
  /-- FECLR (R331). Clears scratchpad lines to empty. -/
  | feclr (h : Hdr) (f : FmtM)
  /-- ATOM (R333). Performs an atomic read-modify-write on memory per lane. -/
  | atom (h : Hdr) (f : FmtA)
  /-- ATOMCAS (R333). Performs compare-and-swap on memory per lane. -/
  | atomcas (h : Hdr) (f : FmtA)
  /-- ATOMS (R333). Performs an atomic operation on scratchpad per lane. -/
  | atoms (h : Hdr) (f : FmtA)
  /-- ATOMSCAS (R333). Performs compare-and-swap on scratchpad per lane. -/
  | atomscas (h : Hdr) (f : FmtA)
  /-- RED (R333). Performs an atomic reduction on memory without returning a value. -/
  | red (h : Hdr) (f : FmtA)
  /-- FENCE (R335). Orders the fragment's accesses at a scope. -/
  | fence (h : Hdr) (f : FmtX)
  /-- MWAIT (R336). Loads watched words and parks while they hold expected values. -/
  | mwait (h : Hdr) (f : FmtA)
  /-- MWAIT_WAKE (R336). A parked MWAIT re-reads its words after a store to their home, a snoop, the timeout or a restore. -/
  | mwaitWake (t : Nat) (fr : Nat)
  /-- MWAIT_REMOTE_REREAD (R336). A watched word on a remote or PCIe-only page is re-read at least every 2^12 cycles. -/
  | mwaitRemoteReread (t : Nat) (fr : Nat)
  /-- BAR (R339). Arrives at a counted phase and parks the strand until it completes. -/
  | bar (h : Hdr) (f : FmtX)
  /-- PHREG (R340). Registers the strand as a phaser member with a mode. -/
  | phreg (h : Hdr) (f : FmtX)
  /-- PHDROP (R340). Drops the strand's phaser membership. -/
  | phdrop (h : Hdr) (f : FmtX)
  /-- PHSIG (R340). Signals the current phase as a release. -/
  | phsig (h : Hdr) (f : FmtX)
  /-- PHWAIT (R340). Waits for a phase to complete. -/
  | phwait (h : Hdr) (f : FmtX)
  /-- PHSW (R340). Signals and waits in one instruction. -/
  | phsw (h : Hdr) (f : FmtX)
  /-- GSYNC (R341). Arrives at a grid-wide barrier of a COOP grid. -/
  | gsync (h : Hdr) (f : FmtX)
  /-- ABASE (R343). Writes the address of offset 0 of the lane's arena at a level. -/
  | abase (h : Hdr) (f : FmtR)
  /-- ABUMP (R344). Allocates from an arena's bump pointer. -/
  | abump (h : Hdr) (f : FmtR)
  /-- APROM (R345). Moves arena granules to an ancestor arena or the export range. -/
  | aprom (h : Hdr) (f : FmtR)
  /-- AHAND (R345). Hands arena granules to a held child launch or to the host. -/
  | ahand (h : Hdr) (f : FmtR)
  /-- AQRY (R346). Reports an address's arena state without trapping. -/
  | aqry (h : Hdr) (f : FmtR)
  /-- ACHK (R346). Sets a predicate if an arena address is usable. -/
  | achk (h : Hdr) (f : FmtR)
  /-- ADROP (R347). Returns whole arena granules to the unbacked state. -/
  | adrop (h : Hdr) (f : FmtR)
  /-- CPY (R351). Contributes the strand's slice to a collective copy command under a tag. -/
  | cpy (h : Hdr) (f : FmtX)
  /-- CPYT (R352). Issues a tensor-tile copy described in scratchpad. -/
  | cpyt (h : Hdr) (f : FmtX)
  /-- SORTK (R353). Issues a stable bucket sort and count command. -/
  | sortk (h : Hdr) (f : FmtX)
  /-- NPOST (R354). Posts a network work request to the Ultra Ethernet engine. -/
  | npost (h : Hdr) (f : FmtX)
  /-- ERUN (R356). Releases a held command. -/
  | erun (h : Hdr) (f : FmtX)
  /-- ESTAT (R357). Reads a command's state and status as an acquire. -/
  | estat (h : Hdr) (f : FmtX)
  /-- ELINK (R356). Records that one command precedes a held later one. -/
  | elink (h : Hdr) (f : FmtX)
  /-- LAUNCH (R355). Launches a child grid from a launch record in device memory. -/
  | launch (h : Hdr) (f : FmtX)
  /-- ENGINE_COMMAND_START (R356). A released command starts once its predecessor count reaches zero. -/
  | engineCommandStart (c : Nat)
  /-- ENGINE_LINE_LANDED (R108). All of a command's bytes in a scratchpad line have landed, setting the line full and waking waiters. -/
  | engineLineLanded (c : Nat) (line : Nat)
  /-- ENGINE_COMMAND_FINISH (R350). A command finishes, releases its range locks, sets its status and increments its counter. -/
  | engineCommandFinish (c : Nat) (code : Nat)
  /-- MMA (R361). Queues a dense matrix multiply-accumulate command. -/
  | mma (h : Hdr) (f : FmtX)
  /-- MMASP (R362). Queues a 2:4 sparse matrix multiply-accumulate command. -/
  | mmasp (h : Hdr) (f : FmtX)
  /-- MMAG (R363). Queues a masked matrix command from a descriptor in device memory. -/
  | mmag (h : Hdr) (f : FmtX)
  /-- MXZ (R364). Queues zeroing of an accumulator. -/
  | mxz (h : Hdr) (f : FmtX)
  /-- MXDR (R365). Queues a drain of an accumulator by store, add or requantisation. -/
  | mxdr (h : Hdr) (f : FmtX)
  /-- MXBL (R364). Queues a copy of rows into the tile store. -/
  | mxbl (h : Hdr) (f : FmtX)
  /-- MXSPEC (R366). Opens matrix speculation with shadow accumulators. -/
  | mxspec (h : Hdr) (f : FmtX)
  /-- MXCMT (R366). Commits the shadow accumulators and ends speculation. -/
  | mxcmt (h : Hdr) (f : FmtX)
  /-- MXDSC (R366). Discards the shadow accumulators and ends speculation. -/
  | mxdsc (h : Hdr) (f : FmtX)
  /-- MXWAIT (R367). Parks the context until at most n matrix commands remain incomplete. -/
  | mxwait (h : Hdr) (f : FmtX)
  /-- MATRIX_COMMAND_COMPLETE (R112). A matrix command completes in queue order and the next queued command starts. -/
  | matrixCommandComplete (core : Nat)
  /-- ASSIST_ENTRY (R190). A control context enters its assist routine at the next boundary after a flagged subnormal result. -/
  | assistEntry (t : Nat)
  /-- CFN (R371). Allocates and writes an FN callable entry from a scratchpad image. -/
  | cfn (h : Hdr) (f : FmtR)
  /-- CCOR (R371). Allocates and writes a COR callable entry from an image. -/
  | ccor (h : Hdr) (f : FmtR)
  /-- CSEQ (R371). Allocates a SEQ composite entry. -/
  | cseq (h : Hdr) (f : FmtR)
  /-- CPAR (R371). Allocates a PAR composite entry. -/
  | cpar (h : Hdr) (f : FmtR)
  /-- CPIPE (R371). Allocates a PIPE composite entry. -/
  | cpipe (h : Hdr) (f : FmtR)
  /-- CFARM (R371). Allocates a FARM composite entry. -/
  | cfarm (h : Hdr) (f : FmtR)
  /-- CLOOP (R371). Allocates a LOOP composite entry. -/
  | cloop (h : Hdr) (f : FmtR)
  /-- APPLY (R373). Snapshots a nest, registers it and returns an apply handle. -/
  | apply (h : Hdr) (f : FmtR)
  /-- APPLY_CLAIM (R206). A waiting nest's claim fits and is taken as one gang transaction. -/
  | applyClaim (n : Nat)
  /-- NODE_COMPLETE (R199). A callable node completes with a status and its parent starts, replaces, repeats or completes. -/
  | nodeComplete (n : Nat) (i : Nat)
  /-- AWAITC (R374). Parks until a nest completes and returns its status. -/
  | awaitc (h : Hdr) (f : FmtR)
  /-- CYLD (R375). Exits the active lanes and marks the coroutine strand as yielded. -/
  | cyld (h : Hdr) (f : FmtR)
  /-- CHPUT (R376). Appends one item per active lane to a pipe channel. -/
  | chput (h : Hdr) (f : FmtR)
  /-- CHGET (R376). Removes one item per active lane from a pipe channel. -/
  | chget (h : Hdr) (f : FmtR)
  /-- FTAKE (R377). Takes the next items from a farm's source. -/
  | ftake (h : Hdr) (f : FmtR)
  /-- CFREE (R372). Sets a callable entry FREE. -/
  | cfree (h : Hdr) (f : FmtR)
  /-- TRAP (R379). Raises the TRAP precise trap with an immediate. -/
  | trap (h : Hdr) (f : FmtI)
  /-- BKPT (R379). Raises the BKPT precise trap and writes a debug-stop trace record. -/
  | bkpt (h : Hdr) (f : FmtR)
  /-- TRAP_HANDLER_ENTRY (R168). Once the block has halted, the handler starts in trap mode on the trapping strand. -/
  | trapHandlerEntry (b : Nat)
  /-- TRET_RESUME (R380). Ends trap mode and resumes the trapping fragment at TPC. -/
  | tretResume (h : Hdr) (f : FmtR)
  /-- TRET_KILL (R380). Ends trap mode by killing the block. -/
  | tretKill (h : Hdr) (f : FmtR)
  /-- SIGCHK (R382). Compares the signature with an expected value and resets it. -/
  | sigchk (h : Hdr) (f : FmtI)
  /-- SIGRST (R382). Resets the signature and block-entry mask. -/
  | sigrst (h : Hdr) (f : FmtR)
  /-- MCHKR (R383). Reads a word of the block's last machine-check record. -/
  | mchkr (h : Hdr) (f : FmtR)
  /-- CLOCK (R384). Reads the 64-bit device time. -/
  | clock (h : Hdr) (f : FmtR)
  /-- PMARK (R385). Writes a Lacewing profiling marker record. -/
  | pmark (h : Hdr) (f : FmtI)
  /-- GETFMT (R384). Reads a format slot. -/
  | getfmt (h : Hdr) (f : FmtR)
  /-- SYSR (R381). Reads a trap register in trap mode. -/
  | sysr (h : Hdr) (f : FmtR)
  /-- SYSW (R381). Writes a trap register in trap mode. -/
  | sysw (h : Hdr) (f : FmtR)
  /-- ASRET (R386). Ends an assist routine and releases the matrix queue. -/
  | asret (h : Hdr) (f : FmtR)
  /-- VARIABLE_LATENCY_RESULT (R243). A variable-latency result is written and its scoreboard slot counts down. -/
  | variableLatencyResult (t : Nat) (i : Nat)
  /-- FRAGMENT_PROMOTE (R97). A fragment ready for 256 cycles without issuing is promoted. -/
  | fragmentPromote (t : Nat) (fr : Nat)
  /-- BLOCK_PLACE (R88). The distributor places a block where its claims fit and starts its strands. -/
  | blockPlace (part : Nat)
  /-- GANG_RESERVE (R94). The open gang transaction reserves one more block. -/
  | gangReserve (part : Nat)
  /-- GANG_COMMIT (R94). A gang transaction commits once every block is reserved. -/
  | gangCommit (part : Nat)
  /-- GANG_BLOCK_START (R94). A committed gang block is started. -/
  | gangBlockStart (part : Nat)
  /-- GANG_ABORT (R95). A higher-priority launch aborts an uncommitted gang and releases its reservations. -/
  | gangAbort (part : Nat)
  /-- PRIORITY_PREEMPTION (R93). The distributor chooses a lower-priority victim and requests its pre-emption. -/
  | priorityPreemption (part : Nat)
  /-- BLOCK_SAVE (R178). A block whose strands have all stopped is saved with quiescence. -/
  | blockSave (b : Nat)
  /-- FORCED_SAVE (R179). An expired pre-emption deadline stops issue and saves the block precisely. -/
  | forcedSave (b : Nat)
  /-- HANDLER_DEADLINE_EXPIRY (R170). A deferred event takes effect 8,192 cycles after handler entry or the request. -/
  | handlerDeadlineExpiry (b : Nat)
  /-- BLOCK_RESTORE (R181). A saved block is restored and its parked fragments re-evaluate their waits. -/
  | blockRestore (b : Nat)
  /-- COOP_RESUME (R78). A parked COOP grid that fits again is restored whole. -/
  | coopResume (g : Nat)
  /-- BLOCK_END (R88). A block ends when its strands and engine users are done and releases its resources. -/
  | blockEnd (b : Nat)
  /-- GRID_END (R123). A grid ends once its blocks, child grids, commands and nests have ended. -/
  | gridEnd (g : Nat)
  /-- SLICE_END (R80). A tenant slice expires and the tenant's contexts are saved before the next tenant is restored. -/
  | sliceEnd (part : Nat)
  /-- MODULE_TRIP (R14). A sensor above 115 C stops every context without saving and interrupts the host. -/
  | moduleTrip 
  /-- SCARAB_SCRUB (R104). Scarab finishes clearing a pool granule and sets its lines full. -/
  | scarabScrub (core : Nat)
  /-- COUNTER_COMMIT (R23). Lifetime counters are committed to flash every 10 minutes. -/
  | counterCommit 
  /-- POWER_LOSS (R23). Power is lost and uncommitted counter increments are discarded. -/
  | powerLoss 
  /-- MODULE_RESET (R56). The boot ROM verifies and measures the firmware and starts it. -/
  | moduleReset 
  /-- SHAWM_WATCHDOG (R54). The Shawm watchdog expires, SHAWM clears and the host is interrupted. -/
  | shawmWatchdog 
  /-- FLR_PF (R50). A physical function reset resets every virtual function first. -/
  | flrPf 
  /-- TIME_SYNC_EXCHANGE (R33). Every 2^20 cycles a package sends time-sync packets over its primary links. -/
  | timeSyncExchange 
  /-- TLOCK_LOSS (R33). TLOCK clears after a sync exchange is missed for 2^24 cycles. -/
  | tlockLoss (link : Nat)
  /-- UE_PACKET_TRANSMIT (R40). The engine sends the next packet of a running network command. -/
  | uePacketTransmit (m : Nat)
  /-- UE_NOT_READY_RETRY (R43). A message refused for a full ring is retried every 64 us up to 256 times. -/
  | ueNotReadyRetry (m : Nat)
  /-- RETRANSMIT_TIMEOUT (R44). A packet's 64 us timer expires and the packet is resent or the message fails. -/
  | retransmitTimeout (pdc : Nat) (psn : Nat)
  /-- PDC_IDLE_CLOSE (R35). A packet delivery context idle for 2^21 cycles closes. -/
  | pdcIdleClose (pdc : Nat)
  /-- LAUNCH_PACKET (R66). A LAUNCH packet dispatches a grid to its partition's distributor. -/
  | launchPacket (q : Nat)
  /-- APPLY_PACKET (R65). An APPLY packet applies a callable nest. -/
  | applyPacket (q : Nat)
  /-- COPY (R65). A COPY packet copies bytes with registered hazard intervals. -/
  | copy (q : Nat)
  /-- SIGNAL (R65). A SIGNAL packet stores or adds a 64-bit value as a system-scope release. -/
  | signal (q : Nat)
  /-- WAITSIG (R65). A WAITSIG packet holds its queue until a word meets its condition. -/
  | waitsig (q : Nat)
  /-- WAITSIG_REREAD (R65). A held WAITSIG word is re-read on an observed store or every 2^12 cycles. -/
  | waitsigReread (q : Nat)
  /-- LINK_RELEASE (R70). A LINK_RELEASE packet adds tokens to a queue link once earlier packets complete. -/
  | linkRelease (q : Nat)
  /-- LINK_WAIT (R70). A LINK_WAIT packet subtracts tokens once the link holds enough. -/
  | linkWait (q : Nat)
  /-- HOSTFLUSH (R65). A HOSTFLUSH packet pushes earlier posted writes to the host. -/
  | hostflush (q : Nat)
  /-- MARKER (R65). A MARKER packet writes its tag and device time and emits a trace marker. -/
  | marker (q : Nat)
  /-- RESETQ (R65). A RESETQ packet starts the reset of another queue of the function. -/
  | resetq (q : Nat)
  /-- PACKET_COMPLETE (R62). A packet completes, releases, writes its completion record, advances DONE and frees intervals. -/
  | packetComplete (q : Nat) (idx : Nat) (status : Nat)
  /-- WAKE_TOKEN_REFILL (R72). A wake token returns every 256 cycles and serves a queue with WAKE_AGAIN set. -/
  | wakeTokenRefill (fn : Nat)
  /-- QUEUE_MAP (R73). Shawm maps a woken unmapped queue to a free or displaced hardware slot. -/
  | queueMap (q : Nat)
  /-- QUEUE_RESET_DONE (R74). A queue reset finishes its steps, sets RDONE and writes the RESETQ record. -/
  | queueResetDone (q : Nat)
  /-- FAULT_RECORD_RETRY (R174). A waiting fault record is retried on a covering TLB_INV or every 2^20 cycles. -/
  | faultRecordRetry (ctx : Nat)
  /-- CICADA_TICK (R85). At each tick every bank latches and each owner's ring receives records. -/
  | cicadaTick 
  /-- HOST_COMPLETION_RING_SPACE (R143). An AHAND to HOST that is parked on a full host completion ring proceeds once the host has advanced RD. -/
  | hostCompletionRingSpace (ctx : Nat)
  /-- ORDERLY_SHUTDOWN (R23). At an orderly shutdown the lifetime counters held in Shawm memory are committed to flash. -/
  | orderlyShutdown 
  /-- THERMAL_MIGRATION (R99). A core above 95 C has its long-resident blocks pre-empted for migration. -/
  | thermalMigration (core : Nat) (cool : List Nat)
  /-- STACK_CLOCK_HALVE (R14). A sensor above 105 C halves its stack's arithmetic clock. -/
  | stackClockHalve (st : Nat)
  /-- STACK_CLOCK_RESTORE (R14). The halved clock returns when the sensor falls below 100 C. -/
  | stackClockRestore (st : Nat)
  /-- SUPPLY_DROOP (R16). A droop detector stretches its stack's clock and counts the event. -/
  | supplyDroop (st : Nat) (n : Nat)
  /-- CLUSTER_SWAP (R18). A spare cluster replaces a failing one at its quiescence. -/
  | clusterSwap (cl : Nat)
  /-- SRAM_ROW_SPARE (R17). A spare SRAM row replaces a failing row. -/
  | sramRowSpare (arr : Nat) (row : Nat)
  /-- LML_LANE_SPARE (R17). A spare LML lane is brought in and the link retrains. -/
  | lmlLaneSpare (link : Nat)
  /-- FAR_PIN_PAIR_SPARE (R17). A spare far-memory pin pair is brought in and the channel retrains. -/
  | farPinPairSpare (ch : Nat)
  /-- FLR_VF (R50). A virtual function reset resets its queues, destroys its contexts and scrubs their granules. -/
  | flrVf (fn : Nat)
  /-- LML_LINK_UP (R25). An LML link trains and starts carrying traffic. -/
  | lmlLinkUp (link : Nat) (lanes : Nat) (spares : Nat) (peer : Nat)
  /-- LML_LINK_DOWN (R31). An LML link goes down and traffic moves to a secondary route or flows fail. -/
  | lmlLinkDown (link : Nat)
  /-- ETH_PORT_UP (R406). An Ethernet port's link comes up. -/
  | ethPortUp (port : Nat)
  /-- ETH_PORT_DOWN (R406). An Ethernet port's link goes down or reports a fault. -/
  | ethPortDown (port : Nat) (lf : Bool) (rf : Bool)
  /-- FAR_CHANNEL_TRAINED (R52). A far-memory channel finishes training or retraining. -/
  | farChannelTrained (ch : Nat)
  /-- LML_READ_REQUEST (R29). A read request packet is performed at the destination. -/
  | lmlReadRequest (pk : LmlPkt)
  /-- LML_READ_RESPONSE (R27). A read response completes a remote load. -/
  | lmlReadResponse (pk : LmlPkt)
  /-- LML_WRITE (R29). A write packet takes effect at the destination in its flow's order. -/
  | lmlWrite (pk : LmlPkt)
  /-- LML_ATOMIC (R29). An atomic packet is performed at the destination's slice. -/
  | lmlAtomic (pk : LmlPkt)
  /-- LML_ATOMIC_RESPONSE (R27). An atomic response completes a remote atomic. -/
  | lmlAtomicResponse (pk : LmlPkt)
  /-- LML_ACK (R28). An acknowledgement retires outstanding packets of a flow. -/
  | lmlAck (pk : LmlPkt)
  /-- LML_RELEASE (R30). A release packet takes effect after all lower-sequence packets of its flow. -/
  | lmlRelease (pk : LmlPkt)
  /-- LML_TIME_SYNC (R33). A time-sync packet measures the round trip and slews device time. -/
  | lmlTimeSync (link : Nat) (err : Int) (hops : Nat)
  /-- UE_PACKET_RECEIVE (R41). A received packet is checked and placed, completing a message when it is the last. -/
  | uePacketReceive (pk : UePkt)
  /-- UE_ACK_RECEIVE (R44). A selective acknowledgement retires packets and may declare a loss. -/
  | ueAckReceive (pdc : Nat) (cum : Nat) (bits : Dword)
  /-- UE_NAK_RECEIVE (R407). A negative acknowledgement finishes the message with REMOTE_ACCESS. -/
  | ueNakReceive (m : Nat)
  /-- SKIP_NOTICE (R407). A skip notice marks a failed message's PSNs as skipped at the receiver. -/
  | skipNotice (pk : UeSkip)
  /-- PURGE_MARKER (R74). A purge marker makes the destination discard later packets of a reset queue's tag. -/
  | purgeMarker (src : Nat) (qtag : Nat)
  /-- WAKE (R72). A write to a queue's WAKE register makes the device re-read WRITE and dispatch. -/
  | wake (fn : Nat) (qid : Nat) (val : Dword)
  /-- QCTL_RESET (R74). Writing QCTL.RESET starts a queue reset. -/
  | qctlReset (fn : Nat) (qid : Nat)
  /-- FSERV_RETRY (R175). A retry answer re-translates everything waiting on the serviced record. -/
  | fservRetry (fn : Nat) (seq : Nat)
  /-- FSERV_KILL (R175). A kill answer kills the block, ends the command or resets the queue. -/
  | fservKill (fn : Nat) (seq : Nat)
  /-- REGISTER_WRITE (R4). A write to a register with no row of its own takes effect by its access code. -/
  | registerWrite (fn : Nat) (off : Nat) (width : Nat) (val : Dword)
  /-- READ_CTRS (R22). Writes one committed snapshot of lifetime counter records. -/
  | readCtrs (fn : Nat)
  /-- SET_THRESH (R20). Lowers one replacement trigger threshold. -/
  | setThresh (fn : Nat)
  /-- ATTEST (R57). Writes a signed attestation report over a nonce. -/
  | attest (fn : Nat)
  /-- GET_CERT (R55). Writes the certificate chain of the device key. -/
  | getCert (fn : Nat)
  /-- KEY_INSTALL (R37). Installs or revokes a context's network receive key. -/
  | keyInstall (fn : Nat)
  /-- FW_STAGE (R55). Stages a firmware image for the next module reset. -/
  | fwStage (fn : Nat)
  /-- RESTART (R55). Restarts Shawm from the boot ROM. -/
  | restart (fn : Nat)
  /-- CTX_CREATE (R58). Creates a context with a page-table root and PASID. -/
  | ctxCreate (fn : Nat)
  /-- CTX_ROOT (R58). Replaces a context's page-table root and drops its TLB entries. -/
  | ctxRoot (fn : Nat)
  /-- CTX_DESTROY (R58). Destroys a context with no queues and scrubs its granules. -/
  | ctxDestroy (fn : Nat)
  /-- QUEUE_CREATE (R59). Registers a queue from a descriptor. -/
  | queueCreate (fn : Nat)
  /-- QUEUE_DESTROY (R59). Removes a drained queue. -/
  | queueDestroy (fn : Nat)
  /-- LINK_CREATE (R59). Creates a token link between a producer and a consumer queue. -/
  | linkCreate (fn : Nat)
  /-- LINK_DESTROY (R59). Destroys a queue link and discards its count. -/
  | linkDestroy (fn : Nat)
  /-- PART_SET (R77). Applies a partition descriptor, pre-empting, scrubbing and restoring as needed. -/
  | partSet (fn : Nat)
  /-- PART_QUERY (R75). Writes the partition descriptors and their parked and scrub counts. -/
  | partQuery (fn : Nat)
  /-- SLICE_SET (R79). Sets a partition's tenant rotation. -/
  | sliceSet (fn : Nat)
  /-- LEASE (R84). Requests counter banks and Lacewing units. -/
  | lease (fn : Nat)
  /-- LEASE_END (R84). Returns leased counter banks and Lacewing units. -/
  | leaseEnd (fn : Nat)
  /-- CICADA_SET (R85). Sets a Cicada ring and, for the PF, the tick exponent. -/
  | cicadaSet (fn : Nat)
  /-- MIGRATE_KEY (R82). Writes the device's compatibility key. -/
  | migrateKey (fn : Nat)
  /-- MIGRATE_OUT (R82). Saves a context, writes its migration image and destroys it. -/
  | migrateOut (fn : Nat)
  /-- MIGRATE_IN (R82). Recreates a context from a migration image. -/
  | migrateIn (fn : Nat)
  /-- LACE_SET (R192). Sets a Lacewing unit's trace ring and filters. -/
  | laceSet (fn : Nat)
  /-- TLB_INV (R122). Drops TLB entries covering a range and waits for their accesses. -/
  | tlbInv (fn : Nat)
  /-- ARENA_CONFIG (R135). Configures a context's arena pool, export range and host ring. -/
  | arenaConfig (fn : Nat)
  /-- ARENA_RELEASE (R135). Returns export granules to the arena pool. -/
  | arenaRelease (fn : Nat)
  /-- CTX_EVENTS (R172). Sets a context's handler, fault ring, vector and save pool. -/
  | ctxEvents (fn : Nat)
  /-- DBG_STOP (R191). Stops a strand and saves its block for debugging. -/
  | dbgStop (fn : Nat)
  /-- DBG_RESUME (R172). Restores a block stopped by DBG_STOP. -/
  | dbgResume (fn : Nat)
  /-- CALLTAB_SET (R193). Sets the base of a context's callable table. -/
  | calltabSet (fn : Nat)
  /-- PKG_SET (R32). Sets the package number and time-master flag. -/
  | pkgSet (fn : Nat)
  /-- ROUTE_SET (R32). Replaces the LML route to a destination package. -/
  | routeSet (fn : Nat)
  /-- FLOW_CREATE (R32). Creates or re-creates a context's LML flow to a package. -/
  | flowCreate (fn : Nat)
  /-- FLOW_ACCEPT (R32). Installs a destination flow-table entry naming a context. -/
  | flowAccept (fn : Nat)
  /-- FLOW_DESTROY (R32). Removes a source or destination flow entry. -/
  | flowDestroy (fn : Nat)
  /-- NET_CONFIG (R37). Sets a context's receive counter array and statistics addresses. -/
  | netConfig (fn : Nat)
  /-- ADDR_SET (R37). Writes one address-resolution entry. -/
  | addrSet (fn : Nat)
  /-- SA_SET (R37). Installs one transport security association. -/
  | saSet (fn : Nat)
  /-- MEMORY_TIER_TRAINED (R52). A stack's memory tier finishes training, and once its enabled clusters' pools are scrubbed its STACK readiness bit sets and vector 1 is raised. -/
  | memoryTierTrained (st : Nat)
  /-- PATROL_SCRUB (R117). Patrol scrub reads near memory by itself, corrects and counts errors in data that nothing consumes, and copies rows for sparing. -/
  | patrolScrub (addr : Nat) (bits : Nat)
  /-- FLIT_CRC_REPLAY (R24). A flit that fails its CRC is replayed by the link layer, and the error counts toward the lane error rate. -/
  | flitCrcReplay (link : Nat) (lane : Nat)
  /-- LML_PACKET_DISCARD (R27). A received LML packet with a reserved TYPE or a nonzero reserved bit is discarded and counted as a link error. -/
  | lmlPacketDiscard (link : Nat)
deriving DecidableEq, Repr

end Sys2Proof
end

