-- ==== Sys2Proof/Machine/Legal.lean ====
section
/-! DEFINITION. What an encoding alone must satisfy (13 R233, R238, R240, R241, R246 and the field tables 14 R255,
15 R277, R290, 16 R302, 17 R322, R332, R338, R342, 18 R349, R360, 19 R369, R378), the registers each instruction
reads and writes, and the fixed latencies of 07 R101. -/
namespace Sys2Proof.Machine

/-- A register: file 0 v, 1 k, 2 p, 3 w (the code of 13 R244) and its number. -/
structure RegRef where
  file : Nat
  num : Nat
deriving DecidableEq, Repr

/-- What a D field of format R names. -/
inductive DstK where
  | none | v | vk | k | pair | pred
deriving DecidableEq, Repr

/-- What an A, B or C field of format R names. `imm lo hi` is kind 11 with a field value from lo to hi. -/
inductive SrcK where
  | none | src | pair | pred | rw | uni | vreg | kreg | imm (lo hi : Nat)
deriving DecidableEq, Repr

/-- The row of a format R instruction in its class's field table. -/
structure RowR where
  d : DstK
  a : SrcK
  b : SrcK
  c : SrcK
  /-- The TYPE codes allowed. -/
  ty : List Nat
  /-- Rounding codes 0-4 are allowed; else RND must be 0. -/
  rnd : Bool
  sat : Bool
  /-- The SUB bits that may be 1. -/
  sub : Nat
  /-- The entry defines a strand-uniform result (13 R240). -/
  uni : Bool
  /-- MOD 12:5 holds a table (LGC3, PSETP). -/
  table : Bool
  /-- 07 R101; none is variable latency. -/
  lat : Option Nat
deriving DecidableEq, Repr

def i32 : List Nat := [4, 5]
def i64 : List Nat := [6, 7]
def fvec : List Nat := [9, 10, 11]

def row (d : DstK) (a b c : SrcK) (ty : List Nat) (sat : Bool) (sub : Nat) (lat : Option Nat) : RowR :=
  { d := d, a := a, b := b, c := c, ty := ty, rnd := false, sat := sat, sub := sub, uni := false, table := false, lat := lat }

/-- 16 R302: rounding allowed. -/
def frow (d : DstK) (a b c : SrcK) (ty : List Nat) (rnd : Bool) (sub : Nat) (lat : Option Nat) : RowR :=
  { row d a b c ty false sub lat with rnd := rnd }

/-- A row whose result is strand-uniform. -/
def urow (d : DstK) (a b c : SrcK) (sub : Nat) (lat : Option Nat) : RowR :=
  { row d a b c [0] false sub lat with uni := true }

/-- The TYPE is one of the 64-bit integers. -/
def is64 (t : Nat) : Bool := t == 6 || t == 7
/-- The TYPE is one of f32, f16, bf16. -/
def isFlt (t : Nat) : Bool := t == 9 || t == 12 || t == 13

/-- The field rows of the format R instructions. -/
def rowR : Instr → Option (FmtR × RowR)
  | .iadd _ f => some (f, row .vk .src .src .none i32 true 0 (some 4))
  | .isub _ f => some (f, row .vk .src .src .none i32 true 0 (some 4))
  | .iadd3 _ f => some (f, row .vk .src .src .src [0] false 7 (some 4))
  | .iaddc _ f => some (f, row .v .src .src .rw [0] false 1 (some 4))
  | .isubb _ f => some (f, row .v .src .src .rw [0] false 1 (some 4))
  | .imul _ f => some (f, row .vk .src .src .none i32 true 0 (some 5))
  | .imulhi _ f => some (f, row .vk .src .src .none i32 false 0 (some 5))
  | .imad _ f => some (f, row .vk .src .src .src i32 true 4 (some 5))
  | .imadw _ f => some (f, row .pair .src .src .pair i32 true 0 (some 5))
  | .imin _ f => some (f, row .vk .src .src .none i32 false 0 (some 4))
  | .imax _ f => some (f, row .vk .src .src .none i32 false 0 (some 4))
  | .iabs _ f => some (f, row .vk .src .none .none [0] true 0 (some 4))
  | .idiv _ f => some (f, row .vk .src .src .none i32 false 0 none)
  | .irem _ f => some (f, row .vk .src .src .none i32 false 0 none)
  | .iadd64 _ f => some (f, row .pair .pair .pair .none i64 true 0 (some 4))
  | .isub64 _ f => some (f, row .pair .pair .pair .none i64 true 0 (some 4))
  | .aadd _ f => some (f, row .pair .pair .src .none [0] false 0 (some 5))
  | .idot4 _ f => some (f, row .vk .src .src .src [0, 1] true 1 (some 6))
  | .lgc3 _ f => some (f, { row .vk .src .src .src [0] false 0 (some 4) with table := true })
  | .shl _ f => some (f, row .vk .src .src .none [0] false 0 (some 4))
  | .shr _ f => some (f, row .vk .src .src .none i32 false 0 (some 4))
  | .dsh _ f => some (f, row .vk .src .src .src [0] false 1 (some 4))
  | .rot _ f => some (f, row .vk .src .src .none [0] false 1 (some 4))
  | .popc _ f => some (f, row .vk .src .none .none [0] false 0 (some 4))
  | .clz _ f => some (f, row .vk .src .none .none [0] false 0 (some 4))
  | .brev _ f => some (f, row .vk .src .none .none [0] false 0 (some 4))
  | .bfe _ f => some (f, row .vk .src .src .src i32 false 0 (some 4))
  | .bfi _ f => some (f, row .vk .src .src .src [0] false 0 (some 4))
  | .bshuf _ f => some (f, row .vk .src .src .src [0] false 0 (some 4))
  | .isetp _ f =>
    let s := if is64 f.ty.toNat then SrcK.pair else SrcK.src
    some (f, { row .pred s s .pred [4, 5, 6, 7] false 15 (some 4) with rnd := true })
  | .fsetp _ f => some (f, { row .pred .src .src .pred [9, 12, 13] false 31 (some 4) with rnd := true })
  | .psetp _ f => some (f, { row .pred .pred .pred .pred [0] false 0 (some 4) with table := true })
  | .sel _ f => some (f, row .vk .src .src .pred [0] false 0 (some 4))
  | .mov _ f => some (f, row .vk .src .none .none [0] false 0 (some 4))
  | .readlane _ f => some (f, urow .k .vreg .uni .none 0 (some 4))
  | .bcast _ f => some (f, row .v .kreg .none .none [0] false 0 (some 4))
  | .shfl _ f => some (f, row .v .vreg .src (.imm 1 32) [0] false 3 (some 6))
  | .vote _ f => some (f, urow (if f.sub.toNat = 2 then .vk else .pred) .pred .none .none 3 (some 6))
  | .lmatch _ f => some (f, row .v .src .none .none [0] false 1 (some 6))
  | .getsr _ f => some (f, urow .vk (.imm 0 0x11) .none .none 0 (some 4))
  | .setsr _ f => some (f, row .none (.imm 0x0F 0x11) .src .none [0] false 0 (some 4))
  | .p2v _ f => some (f, row .v .src .none .none [0] false 0 (some 4))
  | .v2p _ f => some (f, row .none .src .src .none [0] false 0 (some 4))
  | .redux _ f => some (f, { urow .vk .src .none .none 7 (some 6) with ty := i32 })
  | .fadd _ f => some (f, frow .vk .src .src .none fvec true 27 (some 5))
  | .fmul _ f => some (f, frow .vk .src .src .none fvec true 27 (some 5))
  | .ffma _ f => some (f, frow .vk .src .src .src fvec true 31 (some 5))
  | .fmin _ f => some (f, frow .vk .src .src .none fvec false 27 (some 5))
  | .fmax _ f => some (f, frow .vk .src .src .none fvec false 27 (some 5))
  | .frnd _ f => some (f, frow .vk .src .none .none fvec true 25 none)
  | .fclass _ f => some (f, frow .vk .src .none .none [9, 10, 11, 12, 13] false 0 none)
  | .fdot2 _ f => some (f, frow .vk .src .src .src [10, 11] true 31 (some 6))
  | .fscale _ f => some (f, frow .vk .src .src .none fvec true 25 none)
  | .ffrexp _ f => some (f, frow .pair .src .none .none [9] false 25 none)
  | .cvt _ f =>
    let wide := f.sub.toNat % 16
    some (f, { frow (if is64 f.ty.toNat then .pair else .vk) (if is64 wide then .pair else .src) .none .none
                [0, 1, 2, 3, 4, 5, 6, 7, 9, 12, 13] true 31 (some 6) with sat := true })
  | .cvtQ _ f => some (f, frow .vk .src (.imm 0 7) .none [0] false 14 (some 6))
  | .cvtDq _ f => some (f, frow .vk .src (.imm 0 7) .none [0] false 15 (some 6))
  | .pack _ f =>
    let t := f.ty.toNat
    let flt := t == 10 || t == 11
    some (f, frow .vk .src .src (if t ≤ 1 then .src else .none) [0, 1, 2, 3, 10, 11] flt 16 (some 6))
  | .unpk _ f =>
    let t := f.ty.toNat
    let flt := t == 10 || t == 11
    some (f, frow .pair .src (if t ≤ 1 then .imm 0 1 else .none) .none [0, 1, 2, 3, 10, 11] false (if flt then 16 else 0) (some 6))
  | .bpnspl _ f => some (f, frow .v .vreg .uni .none [0] false 0 none)
  | .bpnjn _ f => some (f, frow .v .vreg .uni (.imm 1 8) [0] false 0 none)
  | .frcp _ f => some (f, frow .vk .src .none .none [9] false 9 none)
  | .frsq _ f => some (f, frow .vk .src .none .none [9] false 9 none)
  | .fsqrt _ f => some (f, frow .vk .src .none .none [9] true 25 none)
  | .fex2 _ f => some (f, frow .vk .src .none .none [9] false 9 none)
  | .flg2 _ f => some (f, frow .vk .src .none .none [9] false 9 none)
  | .fsin _ f => some (f, frow .vk .src .none .none [9] false 9 none)
  | .fcos _ f => some (f, frow .vk .src .none .none [9] false 9 none)
  | .ftanh _ f => some (f, frow .vk .src .none .none [9] false 9 none)
  | .fdiv _ f => some (f, frow .vk .src .src .none [9] true 27 none)
  | .qshr _ f => some (f, frow .vk .src .src .src [0, 1, 2, 3, 4, 5] false 0 (some 6))
  | .qmul _ f => some (f, frow .vk .src .src .none [0] false 0 (some 6))
  | .abase _ f => some (f, urow .pair (.imm 0 7) .none .none 0 none)
  | .abump _ f => some (f, row .pair (.imm 0 7) .src .none [0] false 0 none)
  | .aprom _ f => some (f, row .pair .pair .src (if f.c = 0x7FF then .imm 0x7FF 0x7FF else .imm 0 7) [0] false 0 none)
  | .ahand _ f => some (f, row .pair .pair .src .src [0] false 0 none)
  | .aqry _ f => some (f, row .vk .pair .none .none [0] false 0 none)
  | .achk _ f => some (f, row .pred .pair .none .none [0] false 0 none)
  | .adrop _ f => some (f, row .none .pair .src .none [0] false 0 none)
  | .cfn _ f => some (f, urow .vk .src .none .none 0 none)
  | .ccor _ f => some (f, urow .vk .src .none .none 0 none)
  | .cseq _ f => some (f, urow .vk .src .src .none 0 none)
  | .cpar _ f => some (f, urow .vk .src .src .none 0 none)
  | .cpipe _ f => some (f, urow .vk .src .src .src 0 none)
  | .cfarm _ f => some (f, urow .vk .src .src .src 0 none)
  | .cloop _ f => some (f, urow .vk .src .pair .src 0 none)
  | .apply _ f => some (f, urow .vk .src .pair .none 0 none)
  | .awaitc _ f => some (f, urow .pair .src .none .none 1 none)
  | .cyld _ f => some (f, row .none .none .none .none [0] false 0 none)
  | .chput _ f => some (f, row .pred .src (.imm 0 15) .none [0] false 0 none)
  | .chget _ f => some (f, row .pred .src (.imm 0 15) .none [0] false 0 none)
  | .ftake _ f => some (f, urow .vk (.imm 0 15) .none .none 1 none)
  | .cfree _ f => some (f, row .none .src .none .none [0] false 0 none)
  | .tretResume _ f => some (f, row .none .none .none .none [0] false 0 none)
  | .tretKill _ f => some (f, row .none .none .none .none [0] false 1 none)
  | .sigrst _ f => some (f, row .none .none .none .none [0] false 0 none)
  | .mchkr _ f => some (f, urow .pair (.imm 0 3) .none .none 0 none)
  | .clock _ f => some (f, urow .pair .none .none .none 0 none)
  | .bkpt _ f => some (f, row .none .none .none .none [0] false 0 none)
  | .getfmt _ f => some (f, urow .pair (.imm 0 7) .none .none 0 (some 4))
  | .sysr _ f => some (f, urow .vk (.imm 0 0x7F) .none .none 0 (some 4))
  | .sysw _ f => some (f, row .none (.imm 1 0x17) .src .none [0] false 0 (some 4))
  | .asret _ f => some (f, row .none .none .none .none [0] false 0 none)
  | _ => none

/-- 13 R233 by encoding alone, for a source field. -/
def srcOk (s : SrcK) (k : Kind) (f : BitVec 11) : Bool :=
  let n := f.toNat
  match s, k with
  | .none, .v => n == 0
  | .none, _ => false
  | .src, .v => true
  | .src, .k => n < 64
  | .src, .p => n < 32
  | .src, .imm => true
  | .pair, .v => n % 2 == 0
  | .pair, .k => n < 64 && n % 2 == 0
  | .pair, .p => false
  | .pair, .imm => true
  | .pred, .p => n < 32
  | .pred, _ => false
  | .rw, .p => n < 32
  | .rw, _ => false
  | .uni, .k => n < 64
  | .uni, .imm => true
  | .uni, _ => false
  | .vreg, .v => true
  | .vreg, _ => false
  | .kreg, .k => n < 64
  | .kreg, _ => false
  | .imm lo hi, .imm => lo ≤ n && n ≤ hi
  | .imm _ _, _ => false

/-- The source is read once for the whole strand (kind 01 or 11), or is not read (13 R240). -/
def srcUniform (s : SrcK) (k : Kind) : Bool := s == .none || k == .k || k == .imm

/-- 13 R233, R240 for the destination field. -/
def dstOk (r : RowR) (f : FmtR) : Bool :=
  let n := f.d.toNat
  let kOk := r.uni || (srcUniform r.a f.ka && srcUniform r.b f.kb && srcUniform r.c f.kc)
  match r.d with
  | .none => n == 0 && !f.kd
  | .v => !f.kd
  | .vk => !f.kd || (n < 64 && kOk)
  | .k => f.kd && n < 64
  | .pair => n % 2 == 0 && (!f.kd || (n < 64 && kOk))
  | .pred => n < 32 && !f.kd

/-- The field rules that every format R instruction shares. -/
def rowOk (f : FmtR) (r : RowR) : Bool :=
  dstOk r f && srcOk r.a f.ka f.a && srcOk r.b f.kb f.b && srcOk r.c f.kc f.c
    && (r.table || (r.ty.contains f.ty.toNat && (if r.rnd then f.rnd.toNat ≤ 4 else f.rnd == 0) && (r.sat || !f.sat)))
    && f.sub.toNat &&& r.sub == f.sub.toNat

/-- Numbers of the special registers that SETSR may write (13 R234). -/
def setsrOk (n : Nat) : Bool := n == 0x0F || n == 0x11
/-- Numbers of the trap registers (10 R168). -/
def trapRegOk (n : Nat) : Bool := n ≤ 8 || (0x10 ≤ n && n ≤ 0x17) || (0x40 ≤ n && n ≤ 0x7F)
/-- Trap registers that SYSW may write (10 R168). -/
def trapRegRw (n : Nat) : Bool := (1 ≤ n && n ≤ 3) || (0x10 ≤ n && n ≤ 0x17)
/-- 15 R278: the CMP codes of FSETP. -/
def fcmpOk (c : Nat) : Bool := c ≤ 6 || (8 ≤ c && c ≤ 14)
/-- Every guard field but GP = 31, GN = 0 is a guard (13 R237). -/
def unguarded (h : Hdr) : Bool := h.gp == 31 && !h.gn

/-- 16 R312: rounding, saturation and FTZ of the plain CVT. -/
def cvtOk (f : FmtR) : Bool :=
  let dt := f.ty.toNat
  let st := f.sub.toNat % 16
  let ftz := f.sub.getLsbD 4
  (st ≤ 7 || isFlt st)
    && (if isFlt st || isFlt dt then !f.sat else f.rnd == 0 && !ftz)

/-- The rules of single format R instructions beyond their row. -/
def extraR : Instr → Bool
  | .isetp _ f => f.sub.toNat ≤ 5 && f.rnd.toNat ≤ 2
  | .fsetp _ f => fcmpOk (f.sub.toNat % 16) && f.rnd.toNat ≤ 2
  | .shfl _ f => [1, 2, 4, 8, 16, 32].contains f.c.toNat
  | .vote _ f => f.sub.toNat ≤ 2
  | .getsr _ f => !(f.kd && f.a == 0)
  | .setsr _ f => setsrOk f.a.toNat
  | .redux _ f => f.sub.toNat ≤ 5
  | .cvt _ f => cvtOk f
  | .cvtQ _ f => f.sub == 14
  | .cvtDq _ f => f.sub == 15
  | .bpnspl _ f => f.kb != .imm || f.b.toNat ≤ 3
  | .abase _ f => !f.kd || (1 ≤ f.a.toNat && f.a.toNat ≤ 3)
  | .abump _ f => !f.kd
  | .aprom _ f => !f.kd
  | .ahand _ f => !f.kd
  | .aqry _ f => !f.kd || f.ka == .k
  | .ftake _ f => !f.kd || f.sub.getLsbD 0
  | .tretResume h _ => unguarded h
  | .tretKill h f => unguarded h && f.sub == 1
  | .sysr _ f => trapRegOk f.a.toNat
  | .sysw _ f => trapRegRw f.a.toNat
  | _ => true

/-- Register field of format B with its kind (15 R290). -/
def bReg (k : Kind) (a : BitVec 11) : Bool :=
  match k with
  | .v => true
  | .k => a.toNat < 64
  | _ => false

/-- Class 0x3 (15 R290). -/
def okB (h : Hdr) (f : FmtB) (tgt reg pair imm : Bool) (sub : Nat) (guard : Bool) : Bool :=
  f.rsv == 0 && f.sub.toNat == sub && (guard || unguarded h)
    && (if imm && f.ka == .imm then f.a == 0
        else (tgt || f.tgt == 0)
          && (if reg then bReg f.ka f.a && (!pair || f.a.toNat % 2 == 0) else f.a == 0 && f.ka == .v))

/-- Bytes of a WIDTH code (13 R241). -/
def widthBytes (w : Nat) : Nat :=
  if w ≤ 2 then 1 else if w ≤ 5 then 2 else if w = 6 then 4 else if w = 7 then 8 else 16

/-- Registers that data of a WIDTH code takes. -/
def widthRegs (w : Nat) : Nat := if w = 7 then 2 else if w = 8 then 4 else 1

/-- Class 0x6 (17 R322). -/
def okM (f : FmtM) (base64 : Bool) (data : Bool) (widths : List Nat) (ords : List Nat) (scope cache : Bool) (raw : Bool)
    (sub : Nat) : Bool :=
  let w := f.width.toNat
  let a := f.a.toNat
  widths.contains w && ords.contains f.ord.toNat && (if scope then f.scope.toNat ≤ 4 else f.scope == 0)
    && (cache || f.cache == 0) && (!f.raw || (raw && 7 ≤ w)) && f.sub.toNat &&& sub == f.sub.toNat
    && (!f.ka || a < 64) && (!base64 || a % 2 == 0)
    && (!data || f.d.toNat % widthRegs w == 0)

def allWidths : List Nat := [0, 1, 2, 3, 4, 5, 6, 7, 8]

/-- Class 0x7 and MWAIT (17 R332, R336). -/
def okA (f : FmtA) (base64 cPair op : Bool) : Bool :=
  let w := f.width.toNat
  let even (r : BitVec 11) : Bool := w = 0 || r.toNat % 2 == 0
  w ≤ 1 && f.scope.toNat ≤ 4 && (!base64 || f.a.toNat % 2 == 0) && even f.b && even f.d && (!cPair || even f.c)
    && (!f.noret || f.d == 0)
    && (!op || (f.c.toNat ≤ 13 && (f.c.toNat ≤ 10 || w = 0)))

/-- Bits hi:lo of IMM31 as a number. -/
def immBits (f : FmtX) (hi lo : Nat) : Nat := f.imm.toNat / 2 ^ lo % 2 ^ (hi - lo + 1)

/-- 17 R337: ids 8-31 and 96-127 are illegal. -/
def phaserIdOk (id : Nat) : Bool := id < 8 || (32 ≤ id && id < 96)

/-- Format X: the D, A and B fields that an entry does not name are 0, and IMM31 has no bit outside `mask`. -/
def okX (f : FmtX) (d a b : Bool) (mask : Nat) : Bool :=
  (d || f.d == 0) && (a || f.a == 0) && (b || f.b == 0) && f.imm.toNat &&& mask == f.imm.toNat

def even (r : BitVec 11) : Bool := r.toNat % 2 == 0

/-- Fixed latency of an instruction (07 R101); none is variable latency or no result. -/
def latency (i : Instr) : Option Nat :=
  match i with
  | .movi .. => some 4
  | .maskr .. => some 4
  | _ => match rowR i with
    | some (_, r) => r.lat
    | none => none

/-- 13 R243, 19 R378: SBSET must be 0 on a fixed-latency instruction and on those that R378 marks. -/
def sbsetBanned (i : Instr) : Bool :=
  match i with
  | .trap .. | .tretResume .. | .tretKill .. | .sigchk .. | .sigrst .. | .bkpt .. | .pmark .. | .asret .. => true
  | _ => (latency i).isSome

/-- The header of an encoded instruction. -/
def hdr? : Instr → Option Hdr
  | .iadd h _ | .isub h _ | .iadd3 h _ | .iaddc h _ | .isubb h _ | .imul h _ | .imulhi h _ | .imad h _ | .imadw h _
  | .imin h _ | .imax h _ | .iabs h _ | .idiv h _ | .irem h _ | .iadd64 h _ | .isub64 h _ | .aadd h _ | .idot4 h _
  | .lgc3 h _ | .shl h _ | .shr h _ | .dsh h _ | .rot h _ | .popc h _ | .clz h _ | .brev h _ | .bfe h _ | .bfi h _
  | .bshuf h _ | .isetp h _ | .fsetp h _ | .psetp h _ | .sel h _ | .mov h _ | .movi h _ | .readlane h _ | .bcast h _
  | .shfl h _ | .vote h _ | .lmatch h _ | .getsr h _ | .setsr h _ | .p2v h _ | .v2p h _ | .redux h _ | .bra h _
  | .brx h _ | .call h _ | .callx h _ | .ret h _ | .rcv h _ | .exit h _ | .maskr h _ | .maskw h _ | .nop h _
  | .yield h _ | .yieldReq h _ | .sleep h _ | .cont h _ | .contOff h _ | .cret h _ | .fadd h _ | .fmul h _ | .ffma h _
  | .fmin h _ | .fmax h _ | .frnd h _ | .fclass h _ | .fdot2 h _ | .fscale h _ | .ffrexp h _ | .cvt h _ | .cvtQ h _
  | .cvtDq h _ | .pack h _ | .unpk h _ | .bpnspl h _ | .bpnjn h _ | .frcp h _ | .frsq h _ | .fsqrt h _ | .fex2 h _
  | .flg2 h _ | .fsin h _ | .fcos h _ | .ftanh h _ | .fdiv h _ | .qshr h _ | .qmul h _ | .ld h _ | .st h _ | .lds h _
  | .sts h _ | .tld h _ | .tst h _ | .ldk h _ | .pref h _ | .feset h _ | .feclr h _ | .atom h _ | .atomcas h _
  | .atoms h _ | .atomscas h _ | .red h _ | .fence h _ | .mwait h _ | .bar h _ | .phreg h _ | .phdrop h _ | .phsig h _
  | .phwait h _ | .phsw h _ | .gsync h _ | .abase h _ | .abump h _ | .aprom h _ | .ahand h _ | .aqry h _ | .achk h _
  | .adrop h _ | .cpy h _ | .cpyt h _ | .sortk h _ | .npost h _ | .erun h _ | .estat h _ | .elink h _ | .launch h _
  | .mma h _ | .mmasp h _ | .mmag h _ | .mxz h _ | .mxdr h _ | .mxbl h _ | .mxspec h _ | .mxcmt h _ | .mxdsc h _
  | .mxwait h _ | .cfn h _ | .ccor h _ | .cseq h _ | .cpar h _ | .cpipe h _ | .cfarm h _ | .cloop h _ | .apply h _
  | .awaitc h _ | .cyld h _ | .chput h _ | .chget h _ | .ftake h _ | .cfree h _ | .trap h _ | .bkpt h _
  | .tretResume h _ | .tretKill h _ | .sigchk h _ | .sigrst h _ | .mchkr h _ | .clock h _ | .pmark h _ | .getfmt h _
  | .sysr h _ | .sysw h _ | .asret h _ => some h
  | _ => none

/-- Format I: D, A and MOD, of which MOVI uses D and KD only and the others nothing. -/
def okI (f : FmtI) (dst : Bool) : Bool :=
  f.a == 0 && f.ka == .v && f.ty == 0 && f.sub == 0
    && (if dst then !f.kd || f.d.toNat < 64 else f.d == 0 && !f.kd)

/-- The field rules of the instructions of formats I, M, A, B and X. -/
def okOther : Instr → Bool
  | .movi _ f => okI f true
  | .trap _ f => okI f false && f.imm.toNat ≤ 65535
  | .sigchk _ f => okI f false
  | .pmark _ f => okI f false
  | .bra h f => okB h f true false false false 0 true
  | .brx h f => okB h f false true true false 0 true
  | .call h f => okB h f true false false false 0 true
  | .callx h f => okB h f false true true false 0 true
  | .ret h f => okB h f false false false false 0 true
  | .rcv h f => okB h f true false false false 0 false
  | .exit h f => okB h f false false false false 0 true
  | .maskr h f => okB h f false true false false 0 true
  | .maskw h f => okB h f false true false true 0 false
  | .nop h f => okB h f false false false false 0 true
  | .yield h f => okB h f false false false false 0 false
  | .yieldReq h f => okB h f false false false false 1 false
  | .sleep h f => okB h f false true false true 0 false
  | .cont h f => okB h f true false false false 0 false
  | .contOff h f => okB h f false false false false 1 false
  | .cret h f => okB h f false false false false 0 false
  | .ld _ f => okM f true true allWidths [0, 1, 2] true true false 0
  | .st _ f => okM f true true allWidths [0, 1, 3] true true true 0
  | .lds _ f => okM f false true allWidths [0, 1, 2] true false false 0
  | .sts _ f => okM f false true allWidths [0, 1, 3] true false true 1
  | .tld _ f => okM f false true [6, 7, 8] [0] false false false 0
  | .tst _ f => okM f false true [6, 7, 8] [0] false false true 0
  | .ldk _ f => okM f false true [6, 7, 8] [0] false false false 0 && f.a == 0 && !f.ka
  | .pref _ f => okM f true false [0] [0] true true false 0 && f.d == 0
  | .feset _ f => okM f false false [0] [0] false false false 0
  | .feclr _ f => okM f false false [0] [0] false false false 0
  | .atom _ f => okA f true false true
  | .atomcas _ f => okA f true true false
  | .atoms _ f => okA f false false true
  | .atomscas _ f => okA f false true false
  | .red _ f => okA f true false true && f.noret && (f.ord == 1 || f.ord == 3)
      && (f.c.toNat ≤ 7 || 11 ≤ f.c.toNat)
  | .mwait _ f => okA f true false false && f.ord == 2 && 3 ≤ f.scope.toNat && !f.noret
  | .fence _ f => okX f false false false 0x77 && [0, 2, 3, 4].contains (immBits f 2 0) && immBits f 6 4 ≤ 4
  | .bar _ f => okX f true false false 0x7FF7F && f.d.toNat < 32 && phaserIdOk (immBits f 6 0)
  | .phreg _ f => okX f false false false 0x37F && immBits f 9 8 ≠ 0 && phaserIdOk (immBits f 6 0)
  | .phdrop _ f => okX f false false false 0x7F && phaserIdOk (immBits f 6 0)
  | .phsig _ f => okX f false false false 0x7F && phaserIdOk (immBits f 6 0)
  | .phwait _ f => okX f true false false 0x7F && f.d.toNat < 32 && phaserIdOk (immBits f 6 0)
  | .phsw _ f => okX f true false false 0x7F && f.d.toNat < 32 && phaserIdOk (immBits f 6 0)
  | .gsync _ f => okX f true false false 0 && f.d.toNat < 32
  | .cpy _ f => okX f true true true 0x7FF007FF && immBits f 29 28 ≤ 2 && immBits f 10 0 % 4 == 0
      && (immBits f 29 28 == 1 || even f.a) && (immBits f 29 28 == 0 || even f.b)
  | .cpyt _ f => okX f true true false 0x40000000
  | .sortk _ f => okX f true true false 0x40000000
  | .npost _ f => okX f true true false 0x40000000
  | .erun _ f => okX f false true false 0
  | .estat _ f => okX f true true false 0
  | .elink _ f => okX f false true true 0
  | .launch _ f => okX f true true false 0x40000000 && even f.a
  | .mma _ f => okX f true true true (if f.imm.getLsbD 27 then 0x780007FF else 0x7800FFFF)
  | .mmasp _ f => okX f true true true 0x7BEF07FF
  | .mmag _ f => okX f false true false 0x70000000 && even f.a
  | .mxz _ f => okX f true false false 0
  | .mxdr _ f => okX f true false true 0x7E00FFFF && immBits f 27 26 ≤ 2 && (!f.imm.getLsbD 25 || even f.b)
  | .mxbl _ f => okX f true true false 0x02003FFF && 1 ≤ immBits f 13 0 && immBits f 13 0 ≤ 8192
      && (!f.imm.getLsbD 25 || even f.a)
  | .mxspec _ f => okX f false false false 0xFF
  | .mxcmt _ f => okX f false false false 0xFF
  | .mxdsc _ f => okX f false false false 0xFF
  | .mxwait _ f => okX f false false false 0x1F && immBits f 4 0 ≤ 16
  | _ => false

/-- An encoded instruction breaks no rule of 13 R246 that its encoding alone can break; an event has no encoding. -/
def encodable (i : Instr) : Bool :=
  match hdr? i with
  | none => false
  | some h => (!sbsetBanned i || h.sbset == 0)
      && (match rowR i with
          | some (f, r) => rowOk f r && extraR i
          | none => okOther i)

/-! ### Registers read and written -/

/-- Registers r, r+1, …, r+n−1 of a file. -/
def regSpan (file r n : Nat) : List RegRef := (List.range n).map fun j => ⟨file, r + j⟩

/-- Registers that a source of format R reads. -/
def srcRegs (s : SrcK) (k : Kind) (f : BitVec 11) : List RegRef :=
  let n := if s == .pair then 2 else 1
  match s, k with
  | .none, _ => []
  | _, .v => regSpan 0 f.toNat n
  | _, .k => regSpan 1 f.toNat n
  | _, .p => regSpan 2 f.toNat 1
  | _, .imm => []

/-- Registers that the destination of format R writes. -/
def dstRegs (d : DstK) (kd : Bool) (f : BitVec 11) : List RegRef :=
  match d with
  | .none => []
  | .pred => regSpan 2 f.toNat 1
  | .pair => regSpan (if kd then 1 else 0) f.toNat 2
  | _ => regSpan (if kd then 1 else 0) f.toNat 1

/-- Base registers of formats M. -/
def baseRegs (f : FmtM) (base64 : Bool) : List RegRef :=
  regSpan (if f.ka then 1 else 0) f.a.toNat (if base64 then 2 else 1)

def kindFile (k : Kind) : Nat := match k with | .v => 0 | .k => 1 | .p => 2 | .imm => 4

/-- The registers that an instruction reads, its guard predicate included (13 R244). -/
def reads (i : Instr) : List RegRef :=
  let g := match hdr? i with
    | some h => if h.gp == 31 then [] else regSpan 2 h.gp.toNat 1
    | none => []
  g ++ (match rowR i with
  | some (f, r) =>
    let c := if r.c == .rw && f.sub.getLsbD 0 then [] else srcRegs r.c f.kc f.c
    let ps := match i with | .p2v .. => regSpan 2 0 31 | _ => []
    srcRegs r.a f.ka f.a ++ srcRegs r.b f.kb f.b ++ c ++ ps
  | none => match i with
    | .brx _ f | .callx _ f => regSpan (kindFile f.ka) f.a.toNat 2
    | .maskw _ f | .sleep _ f => if f.ka == .imm then [] else regSpan (kindFile f.ka) f.a.toNat 1
    | .ld _ f => baseRegs f true
    | .st _ f => baseRegs f true ++ regSpan 0 f.d.toNat (widthRegs f.width.toNat)
    | .lds _ f | .tld _ f => baseRegs f false
    | .sts _ f | .tst _ f => baseRegs f false ++ regSpan 0 f.d.toNat (widthRegs f.width.toNat)
    | .pref _ f => baseRegs f true
    | .feset _ f | .feclr _ f => baseRegs f false
    | .atom _ f | .red _ f => regSpan 0 f.a.toNat 2 ++ regSpan 0 f.b.toNat (f.width.toNat + 1)
    | .atomcas _ f => regSpan 0 f.a.toNat 2 ++ regSpan 0 f.b.toNat (f.width.toNat + 1) ++ regSpan 0 f.c.toNat (f.width.toNat + 1)
    | .atoms _ f => regSpan 0 f.a.toNat 1 ++ regSpan 0 f.b.toNat (f.width.toNat + 1)
    | .atomscas _ f => regSpan 0 f.a.toNat 1 ++ regSpan 0 f.b.toNat (f.width.toNat + 1) ++ regSpan 0 f.c.toNat (f.width.toNat + 1)
    | .mwait _ f => regSpan 0 f.a.toNat 2 ++ regSpan 0 f.b.toNat (f.width.toNat + 1) ++ regSpan 0 f.c.toNat 1
    | .cpy _ f => regSpan 0 f.a.toNat (if immBits f 29 28 == 1 then 1 else 2)
        ++ regSpan 0 f.b.toNat (if immBits f 29 28 == 0 then 1 else 2) ++ regSpan 0 (immBits f 10 0) 4
    | .cpyt _ f | .sortk _ f | .npost _ f | .erun _ f | .estat _ f => regSpan 0 f.a.toNat 1
    | .elink _ f => regSpan 0 f.a.toNat 1 ++ regSpan 0 f.b.toNat 1
    | .launch _ f => regSpan 0 f.a.toNat 2
    | .mma _ f => regSpan 0 f.d.toNat 1 ++ regSpan 0 f.a.toNat 1 ++ regSpan 0 f.b.toNat 1
        ++ (if f.imm.getLsbD 27 then regSpan 0 (immBits f 10 0) 1 else [])
    | .mmasp _ f => regSpan 0 f.d.toNat 1 ++ regSpan 0 f.a.toNat 1 ++ regSpan 0 f.b.toNat 1
        ++ (if f.imm.getLsbD 27 then regSpan 0 (immBits f 10 0) 1 else [])
    | .mmag _ f => regSpan 0 f.a.toNat 2
    | .mxz _ f => regSpan 0 f.d.toNat 1
    | .mxdr _ f => regSpan 0 f.d.toNat 1 ++ regSpan 0 f.b.toNat (if f.imm.getLsbD 25 then 2 else 1)
    | .mxbl _ f => regSpan 0 f.d.toNat 1 ++ regSpan 0 f.a.toNat (if f.imm.getLsbD 25 then 2 else 1)
    | _ => [])

/-- The registers that an instruction writes. -/
def writes (i : Instr) : List RegRef :=
  match rowR i with
  | some (f, r) =>
    let c := if r.c == .rw then srcRegs r.c f.kc f.c else []
    let ps := match i with | .v2p .. => regSpan 2 0 31 | _ => []
    dstRegs r.d f.kd f.d ++ c ++ ps
  | none => match i with
    | .movi _ f => regSpan (if f.kd then 1 else 0) f.d.toNat 1
    | .maskr _ f => regSpan (kindFile f.ka) f.a.toNat 1
    | .ld _ f | .lds _ f | .tld _ f | .ldk _ f => regSpan 0 f.d.toNat (widthRegs f.width.toNat)
    | .atom _ f | .atomcas _ f | .atoms _ f | .atomscas _ f | .mwait _ f =>
        if f.noret then [] else regSpan 0 f.d.toNat (f.width.toNat + 1)
    | .bar _ f | .phwait _ f | .phsw _ f | .gsync _ f => regSpan 2 f.d.toNat 1
    | .cpy _ f | .cpyt _ f | .sortk _ f | .npost _ f | .estat _ f | .launch _ f => regSpan 0 f.d.toNat 1
    | _ => []

end Sys2Proof.Machine
end

