-- ==== Sys2Proof/Config.lean ====
section
/-! DEFINITION. What one device fixes and the spec leaves open. Every `opaque` constant has no body that a proof can
use: a claim about it holds for every value. `n` is the free-value counter of the state at the choice. -/
namespace Sys2Proof.Config

/-! ### Free choices and values (notes/assumptions/2.md, 8.md) -/

/-- 13 R244: a register of a lane read before its result has landed returns the new value. -/
opaque earlyNew : (n file reg lane : Nat) → Bool
/-- 13 R244: of two racing writes of a register of a lane, the later instruction's stays. -/
opaque raceLater : (n file reg lane : Nat) → Bool
/-- 07 R115: a load at strand or block scope is served from the copy that its core's L1 holds. -/
opaque l1Serves : (n line : Nat) → Bool
/-- 07 R102: a fetch is served from the line that the L0 holds. -/
opaque l0Serves : (n line : Nat) → Bool
/-- 07 R119: a translation is served from an entry of a TLB that covers it. -/
opaque tlbServes : (n unit page : Nat) → Bool
/-- How long a unit takes that the spec gives no time for: a result, a command, a packet. -/
opaque delay : (n : Nat) → Nat
/-- 07 R116: an access hits in its cluster slice. -/
opaque sliceHits : (n line : Nat) → Bool
/-- 05 R83: what a counter of cycles gains in one cycle of device time. -/
opaque cycles : (n cluster ctr : Nat) → Nat
/-- 18 R351: which of several overlapping slices a destination byte takes. -/
opaque overlap : (n byte : Nat) → Nat
/-- 06 R90: the core before the one that is tried first for a launch's first block. -/
opaque startCore : (grid : Nat) → Nat
/-- 04 R73: which of the queues that may be displaced loses its slot. -/
opaque victimSlot : (n : Nat) → Nat
/-- 01 R21: seconds that a die has spent in a bin of temperature since the last commit. -/
opaque dieSeconds : (n die bin : Nat) → Nat
/-- 01 R20, R23: how long the power is off. -/
opaque offTime : (n : Nat) → Nat
/-- 02 R40: the first PSN of a PDC. -/
opaque firstPsn : (pdc : Nat) → Word
/-- 02 R40: the port that a sprayed packet takes. -/
opaque sprayPort : (n psn : Nat) → Nat
/-- 02 R40: the entropy value that a packet carries. -/
opaque sprayEntropy : (n psn : Nat) → Nat
/-- 01 R19: the 64 KiB pages of near memory that a group of 64 rows lies in, and the page of near memory that backs a page of a context's
arenas. -/
opaque rowPages : (die group : Nat) → List Nat
opaque arenaPage : (context page : Nat) → Nat
/-- 01 R20: the row of an array that an address lies in. -/
opaque rowAt : (array addr : Nat) → Nat
/-- 11 R200: the cluster that holds a pipe channel. -/
opaque chanCluster : (nest chan : Nat) → Nat
/-- 10 R190: what an assist routine that a drain brings about finds in v1-v3. -/
opaque assistReg : (n reg : Nat) → Word
/-- 06 R88: a byte of a granule that last held registers. -/
opaque residue : (n granule byte : Nat) → Byte

/-! ### Special functions (16 R319): the same bits for the same input on every core -/

opaque frcp : Word → Word
opaque frsq : Word → Word
opaque fex2 : Word → Word
opaque flg2 : Word → Word
opaque fsin : Word → Word
opaque fcos : Word → Word
opaque ftanh : Word → Word

/-! ### Identity, firmware and keys (03 R51, R56, R57) -/

opaque devid : Word
opaque stepping : Dword
/-- 16 bytes. -/
opaque serial : List Byte
/-- The firmware image that the module comes with. -/
opaque fwFactory : List Byte
/-- Bytes of a firmware image, as its first 64 bytes tell. -/
opaque fwLength : (head : List Byte) → Nat
/-- The ECDSA P-521 signature of a firmware image holds against the Svetvor key. -/
opaque fwSignatureOk : (image : List Byte) → Bool
/-- The policy configuration that a firmware image runs with. -/
opaque fwPolicy : (image : List Byte) → List Byte
/-- The 132-byte signature over the SHA-512 of a report. -/
opaque signature : List Byte → List Byte
/-- The DER certificate chain of the device key. -/
opaque certificate : List Byte
/-- The integrity-protected body of a migration image (05 R82): its first bytes name the image. -/
opaque imageBody : (n : Nat) → List Byte
/-- Where in the save pool an image of a block goes, as a page number, and its bytes (10 R180, notes/assumptions/61.md). -/
opaque savePlace : (n : Nat) → Nat
opaque savedByte : (n i : Nat) → Byte

end Sys2Proof.Config
end

