-- ==== Sys2Proof/Machine/Table.lean ====
section
/-! DEFINITION. The two containers that hold everything sparse in the state, as plain lists in one canonical form:
tables of records by number, and stores of bit vectors whose unlisted entries read 0. -/
namespace Sys2Proof.Machine

/-- Records by number, numbers strictly rising. -/
abbrev Tab (α : Type) := List (Nat × α)

/-- Bit vectors by number; an unlisted number reads 0, no entry is 0, numbers strictly rising. -/
abbrev Sparse (n : Nat) := List (Nat × BitVec n)

/-- The numbers of a list are strictly rising. -/
def rising {α : Type} : List (Nat × α) → Bool
  | [] => true
  | [_] => true
  | a :: b :: r => a.1 < b.1 && rising (b :: r)

/-- The record of a number. -/
def tget {α : Type} : Tab α → Nat → Option α
  | [], _ => none
  | (j, x) :: r, i => if i = j then some x else tget r i

/-- Put a record under a number. -/
def tset {α : Type} : Tab α → Nat → α → Tab α
  | [], i, y => [(i, y)]
  | (j, x) :: r, i, y =>
    if i < j then (i, y) :: (j, x) :: r else if i = j then (i, y) :: r else (j, x) :: tset r i y

/-- Take a record away. -/
def tdel {α : Type} : Tab α → Nat → Tab α
  | [], _ => []
  | (j, x) :: r, i => if i = j then tdel r i else (j, x) :: tdel r i

/-- Change the record of a number, if there is one. -/
def tmod {α : Type} (t : Tab α) (i : Nat) (f : α → α) : Tab α :=
  match tget t i with
  | some x => tset t i (f x)
  | none => t

/-- Change every record. -/
def tmap {α : Type} (t : Tab α) (f : Nat → α → α) : Tab α := t.map fun e => (e.1, f e.1 e.2)

/-- The first record, by rising number, that a test accepts. -/
def tfind {α : Type} (t : Tab α) (p : Nat → α → Bool) : Option (Nat × α) := t.find? fun e => p e.1 e.2

/-- The least number, from `lo` on, below `lo + n`, that a table does not use and a test accepts. -/
def tfree {α : Type} (t : Tab α) (lo n : Nat) (p : Nat → Bool) : Option Nat :=
  ((List.range n).map (lo + ·)).find? fun i => (tget t i).isNone && p i

/-- Read a store: an unlisted number reads 0. -/
def sget {n : Nat} : Sparse n → Nat → BitVec n
  | [], _ => 0
  | (j, x) :: r, i => if i = j then x else sget r i

/-- Write a store: a 0 is not listed. -/
def sset {n : Nat} (s : Sparse n) (i : Nat) (y : BitVec n) : Sparse n :=
  if y = 0 then tdel s i else tset s i y

/-- The canonical form of a store. -/
def Sparse.wf {n : Nat} (s : Sparse n) : Bool := rising s && s.all fun e => e.2 != 0

/-- Write consecutive entries from `i` on. -/
def ssetList {n : Nat} (s : Sparse n) (i : Nat) : List (BitVec n) → Sparse n
  | [] => s
  | y :: ys => ssetList (sset s i y) (i + 1) ys

/-- Read `c` consecutive entries from `i` on. -/
def sgetList {n : Nat} (s : Sparse n) (i c : Nat) : List (BitVec n) := (List.range c).map fun j => sget s (i + j)

/-- Set the `c` entries from `i` on to 0. -/
def sclear {n : Nat} (s : Sparse n) (i c : Nat) : Sparse n := s.filter fun e => e.1 < i || i + c ≤ e.1

end Sys2Proof.Machine
end

