-- ==== Sys2Proof/Machine/State.lean ====
section
/-! DEFINITION. The state of the machine as plain data, the reasons a step can stop, and the state after reset.
Numbers name things inside the model: a thread is `128 · block + strand`, the control-core context of a block being
strand 64; grids, blocks, commands, nests and records are numbered from `nextId`. -/
namespace Sys2Proof.Machine

/-! ### Memory -/

/-- One entry of memory, by byte key. Keys: below 2^48 device physical addresses (07 R117); `hostBase` + address, host
physical memory (07 R118); `arenaBase` + 2^49 · context + 4,096 · page, the backing pages of arenas (08 R137). -/
abbrev Memory := List Host.Cell

/-- What a byte that nothing has written reads as (notes/assumptions/3.md, DESIGN CHOICE). -/
def memDefault : Byte := 0

def Memory.wf (m : Memory) : Bool := Sparse.wf (n := 8) m

def hostBase : Nat := 2 ^ 48
def arenaBase : Nat := 2 ^ 60

/-! ### Threads -/

/-- Why a fragment holds before an instruction that is to issue again. -/
inductive Wait where
  /-- Scratchpad lines of a block, until all of them are full (07 R108). -/
  | line (bid : Nat) (ls : List Nat)
  /-- The range-lock table is full (17 R325). -/
  | lock
  /-- A range-lock entry overlaps granules to be moved (17 R325, 08 R144). -/
  | moving
  /-- An earlier slice of the same CPY tag waits (18 R351). -/
  | tag
  /-- An applied nest (19 R374). -/
  | nest (n : Nat)
  /-- A pipe channel (19 R376, R377). -/
  | chan
  /-- The host completion ring is full (08 R143). -/
  | ring
  /-- The matrix command queue is full (07 R112). -/
  | queue
  /-- No grid slot is free (08 R139). -/
  | gslot
  /-- Packets of other packages that it waits for: acknowledgements of earlier accesses, bytes that it has asked for (02 R30, 09 R150). -/
  | flow
  /-- A far-memory channel that is not trained (01 R17, 03 R53). -/
  | train
deriving DecidableEq, Repr

/-- One watched word of an MWAIT: lane, memory key, expected value, and a value that a store has changed it to; of a word on another
package: the package, its address in `key`, and the value last read. -/
structure Watch where
  lane : Nat
  key : Nat
  /-- Its virtual address. -/
  va : Nat := 0
  want : Nat
  pkg : Option Nat := none
  got : Option Nat := none
deriving DecidableEq, Repr

/-- A FENCE whose obligations are not met (17 R335): its token, scope and order, and its address. -/
structure Fence where
  tok : Nat
  scope : Nat
  ord : Nat
  pc : Dword
deriving DecidableEq, Repr

/-- What a fragment is doing (06 R96). -/
inductive Park where
  | run
  /-- At its split's reconvergence address (08 R129). -/
  | join
  /-- SLEEP until a device time (15 R299). -/
  | sleep (till : Nat)
  /-- MWAIT (17 R336): destination (none with NORET), bytes, words, start, timeout, result token. -/
  | mwait (d : Nat) (w : Nat) (ws : List Watch) (sys : Bool) (start : Nat) (tmo : Nat) (tok : Nat)
  /-- A phaser wait (17 R339, R340): phaser, phase, pD, active lanes, token. -/
  | phase (cluster : Bool) (id : Nat) (ph : Nat) (pd : Nat) (act : Word) (tok : Nat)
  /-- GSYNC (17 R341). -/
  | gsync (ph : Nat) (pd : Nat) (act : Word) (tok : Nat)
  /-- The instruction issues again when the wait is over. -/
  | retry (why : Wait)
  /-- Replayable fault: records not yet serviced (10 R176). -/
  | fault (recs : List Nat)
  /-- CRET waits for the saved record (10 R176). -/
  | cret (rcd : Nat)
  /-- MXWAIT n (18 R367). -/
  | mxwait (n : Nat)
  /-- An acquire whose value comes from another package: its token. -/
  | remote (tok : Nat)
  /-- Stopped at YIELD for a pre-emption (10 R178). -/
  | stopped
deriving DecidableEq, Repr

/-- One fragment, an entry of the split table (08 R127, 10 R188). -/
structure Frag where
  pc : Dword
  m : Word
  em : Word
  /-- Pending reconvergence address (08 R128). -/
  rcv : Option Dword := none
  /-- Split that it belongs to; 0 none. -/
  split : Nat := 0
  sig : Word := 0xFFFFFFFF
  /-- Block-entry mask (10 R188). -/
  bmask : Word
  park : Park := .run
  demoted : Bool := false
  /-- Time of promotion (06 R97). -/
  promoted : Option Nat := none
  readySince : Option Nat := none
  /-- Time at which it last issued, or came out of a split or a fusion. -/
  busyAt : Option Nat := none
  /-- It runs the strand's continuation (10 R176). -/
  inCont : Bool := false
  /-- Frozen by trap mode (10 R168). -/
  frozen : Bool := false
  /-- Lanes that a channel or a farm has served of the instruction at `pc`, with what they received (19 R376, R377). -/
  prog : List (Nat × Word) := []
  /-- The scratchpad lines that it waited on, as they were when the last of them became full: block, line, bytes (07 R108, 09 R159). -/
  snaps : List (Nat × Nat × List Byte) := []
  /-- No later access of it is performed before the obligations of these are met (17 R335). -/
  fences : List Fence := []
deriving DecidableEq, Repr

/-- A split in progress (08 R128-R130). -/
structure Split where
  addr : Option Dword
  /-- Lanes in M but not in EM. -/
  dis : Word
  parent : Nat
  serial : Bool := false
  /-- Entry of the fragment that split. -/
  entry : Nat
  /-- It was the continuation's fragment. -/
  inCont : Bool := false
  /-- Members and enabled lanes of the children that have arrived. -/
  accM : Word := 0
  accEm : Word := 0
deriving DecidableEq, Repr

/-- An entry of the call stack, newest first (15 R293): a return entry, or a serial-mode record (08 R130). -/
structure Call where
  serial : Bool
  pc : Dword
  /-- 2 · entry of a fragment, or 2 · split + 1. -/
  owner : Nat
  lanes : Word := 0
  sig : Word := 0
  /-- Return entry that the record pushes when it runs: a CALL in serial mode. -/
  ret : Option Dword := none
deriving DecidableEq, Repr

/-- The continuation frame (10 R176). -/
structure Frame where
  pc : Dword
  em : Word
  sig : Word
  rcd : Nat
  /-- The record has been serviced. -/
  served : Bool := false
deriving DecidableEq, Repr

/-- A result that has not landed (13 R242-R244): the old values of a register, by lane (file 0), or in entry 0. -/
structure Pend where
  tok : Nat
  file : Nat
  num : Nat
  mask : Word
  old : Sparse 32
  /-- Time at which it lands; none for variable latency. -/
  due : Option Nat
deriving DecidableEq, Repr

/-- A precise trap, as detected (10 R165, R168). -/
structure TrapRec where
  code : Nat
  info : Nat
  pc : Dword
  em : Word
  lanes : Word
  addr : Dword
  frag : Nat
  time : Nat
deriving DecidableEq, Repr

/-- The open speculation of a control context (18 R366): shadows as (accumulator, shadow group). -/
structure Spec where
  tag : Nat
  shadows : List (Nat × Nat)
deriving DecidableEq, Repr

/-- The registers that an assist routine saves (10 R190). -/
structure AssistSave where
  pc : Dword
  v : List Word
  w0 : BitVec 1024
  w1 : BitVec 1024
deriving DecidableEq, Repr

/-- What a trap handler's strand holds aside (10 R168): the trapping fragment, its entry, the first number of the
handler's splits and the depth of the call stack. -/
structure Hand where
  old : Frag
  entry : Nat
  mark : Nat
  depth : Nat
deriving DecidableEq, Repr

/-- A strand, or a control-core context (13 R232, 08 R125, R126). -/
structure Thread where
  bid : Nat
  idx : Nat
  cc : Bool
  /-- v registers available (13 R232). -/
  nregs : Nat
  /-- Checking is on (13 R244). -/
  chk : Bool := false
  /-- v registers, key 32 · register + lane. -/
  v : Sparse 32 := []
  k : Sparse 32 := []
  /-- Predicates p0-p30 as masks over the lanes. -/
  p : Sparse 32 := []
  w : Sparse 1024 := []
  /-- Lanes that exist (08 R124) and lanes that have exited (08 R131). -/
  lanes : Word
  exited : Word := 0
  frags : Tab Frag := []
  splits : Tab Split := []
  calls : List Call := []
  /-- Granules that back the spill area (15 R293). -/
  spill : Nat := 0
  contAddr : Option Dword := none
  frame : Option Frame := none
  /-- Scoreboard slots 1-7 (13 R243). -/
  sb : Tab Nat := []
  /-- Slot that each outstanding result holds. -/
  flights : Tab Nat := []
  pend : List Pend := []
  /-- No fragment of the strand issues before this time (13 R242). -/
  stallTill : Nat := 0
  /-- Time of its last issue (06 R97). -/
  issuedAt : Option Nat := none
  sppass : Word := 0
  mxstat : Bool := false
  pendTrap : Option TrapRec := none
  hand : Option Hand := none
  /-- Halted (10 R166): instructions that may still issue; none when not halted. -/
  skidLeft : Option Nat := none
  skid : Nat := 0
  stopPc : Dword := 0
  stopParked : Bool := false
  killed : Bool := false
  /-- Executed CYLD (19 R375). -/
  yielded : Bool := false
  /-- Issue stops: a context stopped by FATAL_OVERFLOW, a forced save or a module trip. -/
  stopped : Bool := false
  assistSave : Option AssistSave := none
  /-- Commands that waited on replayable faults when its block was saved: it goes on once they have finished (05 R80, 09 R156). -/
  replay : List Nat := []
  /-- Flagged commands whose assist routine has not run: accumulator, A, B, K, flags (10 R190). -/
  assists : List (Nat × Nat × Nat × Nat × Nat) := []
  spec : Option Spec := none
  /-- Bytes of other packages that an instruction has asked for, by address. -/
  inbox : Tab (List Byte) := []
  /-- Source flows used since the last release on them (02 R30). -/
  flowUse : List Nat := []
deriving DecidableEq, Repr

/-! ### Blocks and grids -/

/-- A member of a registered phaser (17 R340). -/
structure Member where
  tid : Nat
  /-- 1 sig, 2 wait, 3 sigwait. -/
  mode : Nat
  lastSig : Option Nat := none
  lastWait : Option Nat := none
deriving DecidableEq, Repr

/-- A phaser slot (17 R337-R340). -/
structure Phaser where
  /-- 0 no mode, 1 counted, 2 registered. -/
  mode : Nat := 0
  phase : Nat := 0
  count : Nat := 0
  arrived : List Nat := []
  /-- Killed strands that count as arrived in every later counted phase (10 R186). -/
  killed : List Nat := []
  members : List Member := []
  signalled : List Nat := []
  /-- Phases that are abandoned. -/
  abandoned : List Nat := []
deriving DecidableEq, Repr

inductive BStage where
  /-- Resources taken: in an open gang, or committed and not started (06 R94). -/
  | reserved
  /-- Placed; it waits for the scrub of its granules (06 R88). -/
  | scrubbing
  | running
  | saved
  | ended
deriving DecidableEq, Repr

/-- The trap registers and the handler of a block (10 R168). -/
structure TrapMode where
  active : Bool := false
  /-- Thread whose handler runs. -/
  tid : Nat := 0
  since : Nat := 0
  tcause : Word := 0
  tpcl : Word := 0
  tpch : Word := 0
  tem : Word := 0
  tlanes : Word := 0
  taddrl : Word := 0
  taddrh : Word := 0
  tscr : Sparse 32 := []
deriving DecidableEq, Repr

/-- A queued matrix command (18 R359-R367). -/
structure MxCmd where
  tid : Nat
  /-- OP (13 R245). -/
  op : Nat
  pc : Dword
  acc : Nat := 0
  a : Nat := 0
  b : Nat := 0
  k : Nat := 0
  slot : Dword := 0
  m : Nat := 32
  n : Nat := 64
  sel : Nat := 0
  soff : Nat := 0
  ws : List (BitVec 1024) := []
  /-- Destination or source in memory; its pieces as offset in the data, length, key or address, package. -/
  dmem : Bool := false
  segs : List (Nat × Nat × Nat × Option Nat) := []
  fetched : Tab (List Byte) := []
  asked : List Nat := []
  at' : Nat := 0
  pitch : Nat := 0
  mode : Nat := 0
  rows : Nat := 0
  tag : Nat := 0
  /-- Shadow pairs that a commit copies. -/
  shadows : List (Nat × Nat) := []
  spec : Bool := false
  /-- Accumulator to load a fresh shadow from. -/
  fresh : Option Nat := none
  tok : Nat := 0
  marked : List Nat := []
  /-- Tile-store footprint: offset, length, written (07 R110). -/
  fp : List (Nat × Nat × Bool) := []
  /-- Scratchpad lines that the A port has streamed, in order, as they were then (07 R111). -/
  got : List (Nat × List Byte) := []
  /-- It has started. -/
  begun : Bool := false
  /-- Its block was saved since its operands in memory were translated, so that they translate again; replayable faults that it then
  waits on (07 R122). -/
  stale : Bool := false
  recs : List Nat := []
deriving DecidableEq, Repr

/-- What one block claims (06 R86): granules by use, strands, core phasers, a control context. -/
structure Need where
  reg : Nat
  sp : Nat
  ts : Nat
  str : Nat
  phs : Nat
  ctl : Bool
deriving DecidableEq, Repr

/-- Where a block is placed (06 R86). -/
structure Spot where
  core : Nat
  bslot : Nat
  gran : List Nat
  phSlots : List Nat
  sslots : List Nat
  ctl : Option Nat
  mirrored : Bool
deriving DecidableEq, Repr

/-- A block (06 R86, 08 R123), or a reserved seat of a nest (11 R205), whose grid is 0. -/
structure Block where
  gid : Nat
  part : Nat
  need : Need
  /-- Linear index in the grid and in its lanes. -/
  lin : Nat
  core : Nat
  bslot : Nat
  aslot : Nat
  gen : Nat
  mirrored : Bool := false
  /-- Number of the control-core context. -/
  ctl : Option Nat := none
  /-- Granules, in order of use: registers, scratchpad, tile store. -/
  gran : List Nat := []
  phSlots : List Nat := []
  /-- Strand slots on the core, 256 · quarter + slot, in the order of the strands (06 R86). -/
  sslots : List Nat := []
  stage : BStage := .running
  nstr : Nat
  placedAt : Nat := 0
  restored : Bool := false
  sp : Sparse 8 := []
  /-- Scratchpad lines that are empty (07 R108). -/
  empty : List Nat := []
  ts : Sparse 8 := []
  phs : Tab Phaser := []
  /-- Pre-emption reasons pending (06 R98). -/
  preq : List Nat := []
  preqAt : Nat := 0
  trap : TrapMode := {}
  /-- Halted for a trap or a debug stop (10 R166). -/
  halted : Bool := false
  /-- Last machine-check record (10 R185), four words. -/
  mc : List Dword := []
  killedStrands : Nat := 0
  /-- Reasons that wait for the end of trap mode (10 R170), and the time of the first request that waits. -/
  late : List Nat := []
  lateAt : Nat := 0
  /-- A stop without YIELD is asked for: 6 at a slice end (05 R80), 7 by DBG_STOP (10 R191); else 0. -/
  halt : Nat := 0
  /-- Of a saved block: the reason, and whether it may be restored now (05 R81). -/
  why : Nat := 0
  back : Bool := false
  savedAt : Nat := 0
  /-- Open CPY commands by tag (18 R351). -/
  tags : Tab Nat := []
  /-- Reserved block whose resources it uses: a seat of a nest (11 R207). -/
  seat : Option Nat := none
  /-- Matrix commands of a saved block (10 R180). -/
  mxSaved : List MxCmd := []
  /-- Of a saved block that a transaction in progress restores: the place that it had (06 R94). -/
  was : Option Spot := none
deriving DecidableEq, Repr

/-- A launch record (04 R66), its fields and its 256 bytes. -/
structure LRec where
  raw : List Byte
  code : Nat
  ctrl : Nat
  argp : Nat
  cctr : Nat
  assist : Nat
  gx : Nat
  gy : Nat
  gz : Nat
  lx : Nat
  ly : Nat
  lz : Nat
  grpx : Nat
  grpy : Nat
  grpz : Nat
  phasers : Nat
  regs : Nat
  scratch : Nat
  tiles : Nat
  shadow : Nat
  prio : Nat
  deadline : Nat
  argsz : Nat
  coop : Bool
  chk : Bool
  mirrorOk : Bool
  arlane : Nat
  arblock : Nat
  arclus : Nat
  argrid : Nat
  slots : List Dword
  /-- Hazard intervals: base, length, mode (04 R68). -/
  haz : List (Nat × Nat × Nat)
deriving DecidableEq, Repr

/-- A cluster group of a grid: its arena slot and generation, its cluster phasers (08 R123, 17 R337). -/
structure Group where
  slot : Nat
  gen : Nat
  cluster : Nat
  /-- Cluster phaser slots that it holds (05 R76, 17 R337). -/
  cph : List Nat := []
  phs : Tab Phaser := []
  started : Bool := false
  left : Nat := 0
deriving DecidableEq, Repr

/-- A grid. -/
structure Grid where
  ctx : Nat
  queue : Nat
  /-- Packet of its queue that it completes. -/
  pkt : Option Nat := none
  parent : Option Nat := none
  prio : Nat
  part : Nat
  lrec : LRec
  /-- Trap handler, and number of the event handling, when it dispatched (10 R172). -/
  handler : Dword := 0
  evNo : Nat := 0
  /-- Grid-arena slot and generation. -/
  slot : Nat
  gen : Nat
  groups : Tab Group := []
  /-- Next block of the placement order (06 R90). -/
  next : Nat := 0
  ended : Nat := 0
  /-- In the distributor; a held launch is not (06 R91). -/
  entered : Bool := false
  done : Bool := false
  /-- Fault code and block of the first fault (10 R171). -/
  fault : Option (Nat × Nat) := none
  killedStrands : Nat := 0
  cancelled : Bool := false
  gsPhase : Nat := 0
  gsArrived : List Nat := []
  gsAbandoned : List Nat := []
  parked : Bool := false
  /-- LAUNCH command that it finishes. -/
  cmd : Option Nat := none
  /-- Instance of a nest that it runs. -/
  nest : Option (Nat × Nat) := none
  /-- Suspensions before this start of a COR (11 R204). -/
  count : Nat := 0
  yielded : Bool := false
  skips : Nat := 0
  /-- Child seats left (11 R208). -/
  child : Nat := 0
  order : Nat := 0
  /-- Core that received the previous block (06 R90). -/
  lastCore : Option Nat := none
  /-- The same, as its open transaction began (06 R94). -/
  prevCore : Option Nat := none
  /-- Its next block, or its gang, fits nowhere until a block of the partition ends (06 R92, R94). -/
  waits : Bool := false
deriving DecidableEq, Repr

/-! ### Engine commands, matrix commands and nests -/

/-- A place that an engine reads or writes: a scratchpad offset, or an address. -/
structure Place where
  sp : Bool
  at' : Nat
deriving DecidableEq, Repr

/-- One slice or piece of a copy. -/
structure Slice where
  src : Place
  dst : Place
  len : Nat
  /-- Bytes that stand in place of a source. -/
  lit : Option (List Byte) := none
deriving DecidableEq, Repr

/-- An engine command (18 R348-R358). `kind` as in R348; `st` as STATE of R357. -/
structure Cmd where
  kind : Nat
  ctx : Nat
  gid : Nat
  bid : Nat
  index : Nat
  qslot : Nat
  cluster : Nat
  st : Nat
  code : Nat := 1
  preds : Nat := 0
  succs : List Nat := []
  skip : Bool := false
  dir : Nat := 0
  tag : Nat := 0
  ctr : Nat := 0
  slices : List Slice := []
  /-- Strands that have issued their slice (18 R351). -/
  issued : List Nat := []
  /-- Every slice is in. -/
  full : Bool := true
  desc : List Byte := []
  /-- Scratchpad lines that it marked empty, and those of them that have landed (07 R108). -/
  marked : List Nat := []
  landed : List Nat := []
  child : Option Nat := none
  /-- Network message (02 R38). -/
  msg : Option Nat := none
  /-- Replayable faults that it waits on (10 R175). -/
  recs : List Nat := []
  /-- Packet of a queue: a COPY packet's queue and index. -/
  pkt : Option (Nat × Nat) := none
  /-- Strand that issued it, and whether with `.hold`. -/
  tid : Nat := 0
  hold : Bool := false
  /-- Data from other packages by address, addresses asked for, writes to other packages not acknowledged. -/
  fetched : Tab (List Byte) := []
  asked : List Nat := []
  acks : Nat := 0
deriving DecidableEq, Repr

/-- A range-lock entry (17 R325). -/
structure Lock where
  cluster : Nat
  ctx : Nat
  lo : Nat
  len : Nat
  dst : Bool
  cmd : Nat
deriving DecidableEq, Repr

/-- A node of a nest's snapshot, in depth-first order (11 R195, R196, R198). -/
structure Node where
  kind : Nat
  handle : Nat
  entry : List Byte
  kids : List Nat := []
  /-- Extents of a leaf and its slots. -/
  ext : Nat × Nat × Nat := (0, 0, 0)
  slots : List Dword := []
deriving DecidableEq, Repr

/-- Status of a node (11 R209): the device time at which it came to be and the place in depth-first order rank faults. -/
structure NStat where
  /-- 0 OK, 1 FAULT, 2 TOOBIG, 3 CANCELLED, 4 DEGRADED. -/
  code : Nat
  fcode : Nat := 0
  handle : Nat := 0
  killed : Nat := 0
  time : Nat := 0
  order : Nat := 0
deriving DecidableEq, Repr

/-- A started node of a nest (11 R199-R204). -/
structure NInst where
  node : Nat
  parent : Option Nat
  /-- Position in its farm; positions of the farms between it and the nearest LOOP (11 R202, R204). -/
  pos : Nat := 0
  place : List Nat := []
  status : Option NStat := none
  cancelling : Bool := false
  /-- The parent has dealt with its completion. -/
  told : Bool := false
  gid : Option Nat := none
  /-- Children that have not completed; statuses of those that have. -/
  kids : List Nat := []
  got : List NStat := []
  /-- FARM: items taken, nonzero indices, exhausted by STOPF, log writes outstanding. -/
  next : Nat := 0
  items : List Nat := []
  stopped : Bool := false
  logs : Nat := 0
  /-- LOOP: iterations run. -/
  iter : Nat := 0
  /-- What the device read for it: COND, or the counts. -/
  data : Option (List Nat) := none
  /-- Fault code of a read that will not be answered (10 R405). -/
  lost : Option Nat := none
  /-- PIPE: channel items oldest first, producer and consumer done. -/
  chan : List (List Byte) := []
  aDone : Bool := false
  bDone : Bool := false
  /-- What its most recent take from its farm recorded (11 R211, 19 R377). -/
  lastItem : Word := 0xFFFFFFFF
deriving DecidableEq, Repr

/-- The saved coroutine of a place (11 R204). -/
structure CorSave where
  loop : Nat
  node : Nat
  place : List Nat
  slot : Nat
  count : Nat
deriving DecidableEq, Repr

/-- An applied nest (11 R195-R213). -/
structure Nest where
  ctx : Nat
  /-- Grid that issued APPLY, and that grid's block. -/
  gid : Option Nat
  pkt : Option (Nat × Nat) := none
  queue : Nat
  index : Nat
  qslot : Nat
  argp : Nat
  prio : Nat
  part : Nat
  nodes : List Node
  /-- Seat shape; seats of its own and channels of the claim that it takes (11 R205, R206). -/
  shape : Need := { reg := 0, sp := 0, ts := 0, str := 0, phs := 0, ctl := false }
  wide : Bool := true
  seatN : Nat := 0
  chanN : Nat := 0
  claimed : Bool := false
  /-- It held its claim before a pre-emption and retakes it (11 R207). -/
  saved : Bool := false
  /-- Seats of its own, seats out of the child reserve of the leaf that applied it, and the nest that lends them. -/
  seats : List Nat := []
  borrow : List Nat := []
  lender : Option Nat := none
  /-- Clusters that hold its channels (11 R200). -/
  chans : List Nat := []
  insts : Tab NInst := []
  nextInst : Nat := 0
  status : Option Dword := none
  cors : List CorSave := []
  skips : Nat := 0
  /-- It fits nowhere until a block of the partition ends. -/
  waits : Bool := false
  /-- Pre-empted as a gang: the reason, 0 when it is not; it may be restored now (11 R207). -/
  why : Nat := 0
  back : Bool := false
  savedAt : Nat := 0
deriving DecidableEq, Repr

/-! ### Contexts -/

/-- What stands at a granule of an arena (08 R137). -/
inductive GState where
  /-- Backed by a page; `big` when the page is one of the 16 of a 64 KiB backing page. -/
  | backed (page : Nat) (big : Bool)
  | handed
  /-- A granule of the export range that holds an unbacked granule. -/
  | held
deriving DecidableEq, Repr

/-- An arena descriptor (08 R136, R137). -/
structure Arena where
  gen : Nat
  live : Bool
  reserve : Nat
  bump : Nat := 0
  gran : Tab GState := []
  /-- Level instance that owns it: block, grid, or a group of a grid as grid + 2^64 · group. -/
  owner : Nat
deriving DecidableEq, Repr

/-- A fault record (10 R173). -/
structure FRec where
  kind : Nat
  code : Nat
  flags : Nat
  strand : Nat
  addr : Nat
  time : Nat
  body : List Byte
  /-- Event handling that it goes by, of the launch that it concerns; none: that in force (10 R172). -/
  ev : Option Nat := none
  /-- SEQ, once posted. -/
  seq : Option Nat := none
deriving DecidableEq, Repr

/-- Event handling of a context, as CTX_EVENTS gave it (10 R172): fault ring, log2 of its records, records written, vector, save pool and
its size in MiB. -/
structure Events where
  ring : Nat := 0
  log : Nat := 0
  wr : Nat := 0
  vec : Nat := 0
  pool : Nat := 0
  size : Nat := 0
deriving DecidableEq, Repr

/-- One access of the device's own (10 R405). -/
inductive DevOp where
  | store (va : Nat) (bytes : List Byte)
  | add (va : Nat) (n : Nat)
  /-- Add 1 to a local network counter and set its bit 63 (02 R45). -/
  | fail (va : Nat)
  /-- Read the COND word of a LOOP, the counts of a FARM (11 R201, R203): nest, instance, address, words. -/
  | words (n i va k : Nat)
  /-- Write an item at the index that a failure log's COUNT gives, if it is below a bound (11 R211). -/
  | logItem (va cap : Nat) (item : Word)
  /-- The writes of a failure log are done. -/
  | logged (n i : Nat)
  /-- Read the LEN word of a receive-ring status entry (02 R43). -/
  | lenRead (va : Nat)
  /-- A release at system scope for the writes with some QTAGs (04 R62), and the packets, by flow and sequence number, that it waits for. -/
  | release (tags : List Nat)
  | settled (pks : List (Nat × Word))
  /-- Raise a vector of a function. -/
  | raise (fn vec : Nat)
deriving DecidableEq, Repr

/-- Accesses of one completion, in order, held behind an unserviced record, or with none until a stall ends. -/
structure DevJob where
  ops : List DevOp
  /-- Queue that owns the structure, and QTAG of the work (02 R27). -/
  queue : Option Nat
  tag : Nat := 0
  /-- Queue whose work it belongs to (04 R74). -/
  owner : Option Nat := none
  /-- Cluster whose L1 copies the writes invalidate (07 R115). -/
  cluster : Option Nat := none
  rcd : Option Nat := none
  /-- Completions of a queue keep their order (04 R62): this one waits behind another. -/
  inOrder : Bool := false
  behind : Bool := false
deriving DecidableEq, Repr

/-- Network configuration of a context (02 R37). -/
structure CtxNet where
  /-- Key, address-resolution and association records by index, 64 bytes each. -/
  keys : Tab (List Byte) := []
  addrs : Tab (List Byte) := []
  sas : Tab (List Byte) := []
  ctrBase : Nat := 0
  stats : Nat := 0
  /-- Next slot of the receive ring of each key (02 R43). -/
  ringNext : Tab Nat := []
deriving DecidableEq, Repr

/-- A context (03 R58). -/
structure Ctx where
  fn : Nat
  root : Nat
  pasid : Nat
  /-- Stopped by FATAL_OVERFLOW or SAVE_OVERFLOW (10 R174, R180). -/
  stopped : Bool := false
  handler : Dword := 0
  faultRing : Nat := 0
  faultLog : Nat := 0
  vec : Nat := 0
  savePool : Nat := 0
  saveSize : Nat := 0
  /-- Number of the event handling that launches dispatched now take; earlier ones, that earlier launches keep (10 R172). -/
  evNo : Nat := 0
  evOld : Tab Events := []
  dropped : Nat := 0
  /-- Records not yet posted, oldest first, and records outstanding. -/
  waiting : List Nat := []
  recs : Tab FRec := []
  wr : Nat := 0
  /-- Arena pool in 64 KiB units, view, next page number. -/
  poolUnits : Nat := 0
  view : Nat := 0
  nextPage : Nat := 0
  exportBase : Nat := 0
  exportLen : Nat := 0
  exportGran : Tab GState := []
  ringAddr : Nat := 0
  ringLog : Nat := 0
  arenaSet : Bool := false
  arenas : Tab Arena := []
  /-- Generations of free slots; retired slots (08 R139). -/
  gens : Tab Nat := []
  retired : List Nat := []
  /-- Slots that reservations and the seats of claims hold (06 R89, R94). -/
  held : List Nat := []
  /-- Last freed block-arena slot by core (06 R89). -/
  freed : Tab Nat := []
  tbase : Option Nat := none
  cursor : Nat := 1
  cmdNo : Nat := 1
  nestNo : Nat := 1
  jobs : List DevJob := []
  net : CtxNet := {}
  saveUsed : Nat := 0
  /-- MIGRATE_OUT in progress: the number of its image (05 R82). -/
  leaving : Option Nat := none
deriving DecidableEq, Repr

/-! ### Queues (04) -/

/-- Progress of a dispatched packet. -/
structure PktState where
  idx : Nat
  cctr : Nat
  irq : Bool
  done : Bool := false
  /-- A HOSTFLUSH that waits for earlier packets; the link and count of a LINK_RELEASE that does (04 R65). -/
  flush : Bool := false
  todo : Option (Nat × Nat) := none
deriving DecidableEq, Repr

structure Queue where
  fn : Nat
  qid : Nat
  ctx : Nat
  desc : Nat
  ring : Nat
  size : Nat
  prio : Nat
  part : Nat
  vec : Nat
  nopre : Bool
  read : Nat := 0
  done : Nat := 0
  write : Nat := 0
  error : Bool := false
  errinfo : Dword := 0
  wakeAgain : Bool := false
  pkts : List PktState := []
  /-- The packet at the head, once it is reached; its pending interval entries stand in `intervals`. -/
  head : Option (List Byte) := none
  /-- Byte key of the word that a held WAITSIG waits on. -/
  watch : Option Nat := none
  slot : Option Nat := none
  /-- The slot that it held last: the QTAG of its work (02 R27); those that its work has had since its last reset. -/
  tag : Nat := 0
  tags : List Nat := []
  /-- It has read WRITE once more after its last packet, and waits for a wake (04 R72). -/
  idle : Bool := true
  rdone : Bool := false
  resetting : Bool := false
  /-- Step 4 of its reset: the markers are sent; packets of a QTAG that is another queue's by now (04 R74). -/
  purged : Bool := false
  drains : List (Nat × Word) := []
  /-- RESETQ packets that wait for the reset: queue and index. -/
  resetters : List (Nat × Nat) := []
  /-- Replayable fault on the ring or the descriptor. -/
  rcd : Option Nat := none
  gone : Bool := false
deriving DecidableEq, Repr

/-- A queue link (04 R70). -/
structure QLink where
  producer : Nat
  consumer : Nat
  count : Nat := 0
deriving DecidableEq, Repr

/-- An entry of the interval table (04 R69). -/
structure Interval where
  ctx : Nat
  lo : Nat
  len : Nat
  mode : Nat
  queue : Nat
  pkt : Nat
  live : Bool
deriving DecidableEq, Repr

/-! ### Partitions, tenancy and counters (05, 06) -/

structure Part where
  /-- The descriptor's fields (05 R76). -/
  clusters : List Nat := []
  sbase : Nat := 0
  scount : Nat := 0
  bbase : Nat := 0
  bcount : Nat := 0
  pbase : Nat := 0
  pcount : Nat := 0
  ccbase : Nat := 0
  cccount : Nat := 0
  gbase : Nat := 0
  gcount : Nat := 0
  rcap : Nat := 0
  scap : Nat := 0
  tcap : Nat := 0
  cpbase : Nat := 0
  cpcount : Nat := 0
  /-- Tenant rotation (05 R79): slices as (function, length in cycles), position, end of the current slice. -/
  slices : List (Nat × Nat) := []
  slicePos : Nat := 0
  sliceAt : Nat := 0
  /-- The slice has ended and its tenant's blocks are being saved; overrun by function, to be taken off its next slice (R80). -/
  switching : Bool := false
  overrun : Tab Nat := []
  /-- Copies of the tenant that were running as its slice ended (05 R80). -/
  drain : List Nat := []
  /-- By priority: the queue that was served last, and the launch being served, a grid or a nest (06 R92). -/
  lastQueue : Tab Nat := []
  serving : Tab (Bool × Nat) := []
  /-- Open gang: whether it is a grid, and the grid or the nest (06 R94). -/
  gang : Option (Bool × Nat) := none
  committed : Bool := false
  commitAt : Nat := 0
  /-- The saved blocks that the open gang restores. -/
  backs : List Nat := []
  /-- Victim of the priority pre-emption in progress (06 R93). -/
  victim : List Nat := []
  /-- A PART_SET in progress: the new descriptor and the old one. -/
  pending : Option (List Byte × List Byte) := none
  /-- A SLICE_SET waits for the saves of the tenant that ran before it. -/
  setting : Option Nat := none
deriving DecidableEq, Repr

/-- A lease (05 R84). -/
structure LeaseRec where
  fn : Nat
  /-- Partition in which a slice of a VF that holds the lease runs. -/
  part : Option Nat := none
  banks : List Nat
  units : List Nat
  /-- Banks outside its slices, by cluster: the counters and EN. -/
  saved : Tab (List Dword) := []
  /-- Units that pass to the PF at the end of the slice. -/
  pfBanks : List Nat := []
  pfUnits : List Nat := []
deriving DecidableEq, Repr

/-- A counter bank of a cluster (05 R83). -/
structure Bank where
  ctr : Sparse 64 := []
  en : Bool := false
  leased : Bool := false
  owner : Nat := 0
  /-- It has changed owner since its last Cicada record (05 R85). -/
  moved : Bool := false
deriving DecidableEq, Repr

/-- A Lacewing unit (10 R192). -/
structure Lace where
  owner : Option Nat := none
  ring : Nat := 0
  log : Nat := 0
  kinds : Nat := 0
  matchId : Word := 0
  mask : Word := 0
  wr : Nat := 0
  lost : Nat := 0
deriving DecidableEq, Repr

/-- A pool granule of a core that is not clean (07 R103, R104, 06 R88): the last launch that held it, its use, and the
bytes left. -/
structure Granule where
  last : Nat
  ctx : Nat
  /-- 0 registers, 1 scratchpad, 2 tile store. -/
  use : Nat
  left : Sparse 8
deriving DecidableEq, Repr

/-! ### Host attachment and package (01, 03) -/

/-- A function's registers (03 R51, R55, 10 R175, 04 R72). -/
structure Fn where
  mboxDb : Dword := 0
  mboxAddr : Nat := 0
  busy : Bool := false
  ovr : Bool := false
  fsctx : Word := 0
  fserv : Dword := 0
  tokens : Nat := 64
  lastServed : Nat := 0
  /-- WAKE registers by queue id (04 R71). -/
  wakes : Tab Dword := []
  /-- Cicada ring: address and log2 of its records; records written and lost (05 R85). -/
  ring : Option (Nat × Nat) := none
  ringWr : Nat := 0
  ringLost : Nat := 0
  /-- A function-level reset that waits for Scarab: the contexts that it destroyed (03 R50). -/
  flr : Option (List Nat) := none
deriving DecidableEq, Repr

/-- The MSI-X table and the pending-bit array of a function (03 R51): words of the table by index, but for vector control; vectors whose
mask bit is 0; pending bits (notes/assumptions/52.md). -/
structure VecTab where
  words : Sparse 32 := []
  opened : List Nat := []
  pending : List Nat := []
deriving DecidableEq, Repr

/-- Health of the package (01, 03 R52, R56). -/
structure Pkg where
  /-- Stacks that are trained and scrubbed, far-memory channels that are trained, clusters that are ready, SHAWM (03 R52). -/
  stkReady : List Nat := []
  chans : List Nat := []
  clready : List Nat := []
  shawm : Bool := false
  /-- Channels that are removed, and those to be removed at the next module reset (01 R19). -/
  chanRemoved : List Nat := []
  chanDoomed : List Nat := []
  clRetired : List Nat := []
  granRetired : List Nat := []
  spareClusters : Tab Nat := []
  spareRows : Tab Nat := []
  sparePins : Tab Nat := []
  swapping : List Nat := []
  halved : List Nat := []
  droops : Tab Nat := []
  tripped : Bool := false
  thresholds : Tab Nat := []
  /-- Lifetime counters: live and committed. -/
  life : Tab Nat := []
  flash : Tab Nat := []
  flashSeq : Nat := 0
  flashAt : Nat := 0
  /-- When the counters were last committed, by the device time of now (01 R23); what the device time lacks to a clock that no power loss
  stops. -/
  commitAt : Nat := 0
  epoch : Nat := 0
  /-- Bytes of the firmware image, once one has been staged, and of the staged one (03 R56). -/
  fwRunning : Option (List Byte) := none
  fwStaged : Option (List Byte) := none
  /-- Device time at which Shawm last showed that it runs (03 R54); function that it served last (03 R55); its own work that waits until it
  runs again. -/
  shawmAt : Nat := 0
  lastFn : Nat := 0
  backlog : List Instr := []
  /-- What thresholds count, of the last 7 days (01 R20): kind of event, unit, device time plus `epoch`. -/
  hist : List (Nat × Nat × Nat) := []
  /-- 64 KiB pages of near memory that hold a retired row group (01 R19). -/
  pagesRetired : List Nat := []
  /-- Granules, 512 · core + granule, whose row was repaired while a block held them; clusters whose spare Scarab scrubs (07 R104). -/
  rowScrub : List Nat := []
  swapScrub : List Nat := []
  /-- Cores that firmware last read at 90 C or less (06 R99). -/
  cool : List Nat := []
deriving DecidableEq, Repr

/-! ### Links and network (02) -/

structure LmlLink where
  up : Bool := false
  tlock : Bool := false
  lanes : Nat := 0
  spares : Nat := 0
  peer : Nat := 0
  errors : Nat := 0
  lastSync : Nat := 0
  /-- Cycles within which TLOCK is set, since the last exchange (02 R33). -/
  bound : Option Nat := none
  /-- It retrains, and holds its traffic (01 R17). -/
  training : Bool := false
  held : List LmlPkt := []
deriving DecidableEq, Repr

structure Route where
  prim : List Nat := []
  sec : List Nat := []
deriving DecidableEq, Repr

/-- A source flow: packets sent and not acknowledged, and what waits on them. -/
structure SrcFlow where
  ctx : Nat
  pkg : Nat
  unordered : Bool
  seq : Word := 0
  out : List LmlPkt := []
  /-- QTAGs of its traffic; those whose purge marker is not acknowledged (04 R74). -/
  tags : List Nat := []
  purging : List Nat := []
  failed : Bool := false
deriving DecidableEq, Repr

structure DstFlow where
  ctx : Nat
  src : Nat
  next : Word := 0
  held : List LmlPkt := []
  done : List Word := []
  purged : List Nat := []
  /-- Packets whose address does not translate, with their records. -/
  faults : List (Nat × LmlPkt) := []
deriving DecidableEq, Repr

/-- A packet that a strand waits on: thread, result token, register, lane, WIDTH code. `kind`: 0 load, 1 store or atomic
without a result, 2 atomic with a result, 3 re-read of an MWAIT, whose fragment is `d`, 4 and 5 read and write of an engine command
`tid`, 6 read for a matrix command, 7 read of an instruction at issue, at address `d`, 8 read of the device's own for context `tid`. -/
structure Remote where
  tid : Nat
  tok : Nat
  d : Nat
  lane : Nat
  width : Nat
  kind : Nat
  /-- An acquire at cluster scope or wider. -/
  acq : Bool := false
  /-- Fragment, PC, OP and active set of the instruction, for a machine check. -/
  fi : Nat := 0
  pc : Dword := 0
  op : Nat := 0
  act : Word := 0
  /-- Address on the other package and bytes (09 R149, R150); address here (07 R122). -/
  va : Nat := 0
  len : Nat := 0
  lva : Nat := 0
  ctx : Nat := 0
  gid : Nat := 0
  /-- A release; it has been acknowledged, and earlier writes of the strand have not (02 R30). -/
  rel : Bool := false
  acked : Bool := false
deriving DecidableEq, Repr

/-- Bytes of another package that the device itself reads (10 R405): context, address here, and what has arrived. -/
structure DevRead where
  ctx : Nat
  va : Nat
  len : Nat
  got : Option (List Byte) := none
  /-- 1 + the queue whose snapshot of a nest it is for, 0 for any other read (11 R195). -/
  who : Nat := 0
deriving DecidableEq, Repr

structure Links where
  pkgNum : Nat := 0
  timeMaster : Bool := false
  links : Tab LmlLink := []
  routes : Tab Route := []
  src : Tab SrcFlow := []
  dst : Tab DstFlow := []
  out : List LmlPkt := []
  /-- Purge markers sent: flow and QTAG (04 R74). -/
  purgeOut : List (Nat × Nat) := []
  remotes : Tab Remote := []
  /-- The device's own reads that are out or not yet used. -/
  box : List DevRead := []
  /-- Cycles by which device time is still to be corrected, and cycles since the last correction (02 R33). -/
  slew : Int := 0
  since : Nat := 0
deriving DecidableEq, Repr

structure EthPort where
  up : Bool := false
  lfault : Bool := false
  rfault : Bool := false
deriving DecidableEq, Repr

/-- A packet sent and not acknowledged, or a skip notice (02 R44, R407). -/
structure OutPkt where
  psn : Word
  msg : Nat
  notice : Bool := false
  tries : Nat := 0
  deadline : Nat
  /-- Its place among the transmissions of its delivery context; packets of higher PSN that were sent later and are acknowledged. -/
  ord : Nat := 0
  higher : Nat := 0
  /-- The receiver was not ready for it: it is sent again when its timer runs out (02 R43). -/
  again : Bool := false
  /-- Under ROD, the receiver holds it for its turn (02 R44): it is not lost, and not placed yet. -/
  held : Bool := false
  /-- First PSN of the message that a skip notice names (02 R407). -/
  from' : Word := 0
deriving DecidableEq, Repr

/-- A packet delivery context of the sender (02 R35, R40). -/
structure Pdc where
  ctx : Nat
  peer : Nat
  rod : Bool
  first : Word
  next : Word
  out : List OutPkt := []
  /-- Transmissions so far. -/
  ntx : Nat := 0
  /-- QTAGs of its traffic (04 R74). -/
  tags : List Nat := []
  used : Nat
deriving DecidableEq, Repr

/-- The receiver's side of a packet delivery context (02 R42, R407). -/
structure RPdc where
  ctx : Nat
  src : Nat
  /-- The number that the sender gives the delivery context. -/
  pdc : Nat
  rod : Bool
  /-- Every PSN before it is placed or skipped; `got` and `skipped` list those after it, and `skipped` some before it. -/
  next : Word
  got : List Word := []
  skipped : List Word := []
  held : List UePkt := []
  /-- QTAGs whose later packets are discarded (04 R74). -/
  purged : List Nat := []
  used : Nat
deriving DecidableEq, Repr

/-- A sender's message (02 R38-R46); `pdc` is none while it waits for one. -/
structure Msg where
  cmd : Nat
  ctx : Nat
  wr : List Byte
  pdc : Option Nat := none
  first : Word := 0
  total : Nat
  sent : Nat := 0
  nready : Nat := 0
deriving DecidableEq, Repr

/-- A receiver's message, named by its delivery context and its first PSN (02 R41-R43). -/
structure RMsg where
  pdc : Nat
  first : Word
  got : List Word := []
  /-- Slot of the receive ring of a context's key. -/
  slot : Option Nat := none
  ctx : Nat := 0
  key : Nat := 0
deriving DecidableEq, Repr

/-- What the receiver answers (02 R41, R43, R44). -/
inductive UeAns where
  /-- Every PSN below `cum` is held, and `cum` + 1 + i for each bit i. -/
  | ack (src ctx pdc : Nat) (cum : Word) (bits : Dword)
  | nak (src ctx pdc : Nat) (first : Word)
  | notReady (src ctx pdc : Nat) (first : Word)
  /-- A purge marker is answered (04 R74). -/
  | purged (src ctx pdc qtag : Nat)
deriving DecidableEq, Repr

structure Net where
  ports : Tab EthPort := []
  pdcs : Tab Pdc := []
  rpdcs : Tab RPdc := []
  msgs : Tab Msg := []
  rmsgs : List RMsg := []
  /-- Data packets sent, with port and destination endpoint (`ctx` is the sender's); skip notices with their destinations; answers. -/
  out : List (Nat × Nat × UePkt) := []
  skipOut : List (Nat × UeSkip) := []
  /-- Purge markers sent: delivery context and QTAG (04 R74). -/
  purgeOut : List (Nat × Nat) := []
  answers : List UeAns := []
deriving DecidableEq, Repr

/-! ### The whole state -/

/-- A TLB entry: it covers the addresses va with va / 2^shift = page. -/
structure TlbE where
  /-- L1 TLB of core `unit`, or L2 TLB of cluster `unit` - 2,048 (notes/assumptions/11.md). -/
  unit : Nat
  ctx : Nat
  page : Nat
  shift : Nat
  pte : Nat
deriving DecidableEq, Repr

/-- What the body of a migration image carries (05 R82, 08 R145): a context and its work, and the bytes of its arenas. -/
structure Image where
  ctx : Ctx
  cid : Nat
  grids : Tab Grid
  blocks : Tab Block
  threads : Tab Thread
  cmds : Tab Cmd
  nests : Tab Nest
  queues : Tab Queue
  intervals : List Interval
  locks : List Lock
  bytes : Memory
  /-- Every number in it is less. -/
  top : Nat
deriving DecidableEq, Repr

/-- The integrity-protected body of an image that another device wrote, if it is intact (05 R82, notes/assumptions/40.md). -/
opaque imageOf : (body : List Byte) → Option Image

/-- An error of the hardware that the checks of 10 R182-R187 find in a fragment's next instruction (notes/assumptions/9.md): the KIND,
UNIT, OPCODE, LANE, EXP and OBS of its record, and its DETAIL (register number or physical address). -/
structure Upset where
  kind : Nat
  unit : Nat
  op : Nat
  lane : Nat
  exp : Nat
  obs : Nat
  detail : Nat
  /-- Array whose count of corrected errors advances (01 R21). -/
  array : Nat
  /-- The retry fails, the mirror is bad too, or two bits of a word are wrong. -/
  bad : Bool
deriving DecidableEq, Repr

/-- What happens next: an event of the opcode table, an issue by a named fragment, a write of memory by the host or
another agent of the bus, an error of the hardware. -/
inductive Turn where
  | event (i : Instr)
  | issue (tid fr : Nat)
  | poke (key : Nat) (bytes : List Byte)
  | upset (tid fr : Nat) (u : Upset)
  /-- A column of the command at the head of a core's matrix queue has a wrong residue (10 R183). -/
  | mxUpset (core col exp obs : Nat) (bad : Bool)
  /-- A pin pair of a far-memory channel has a link-level retry (01 R20). -/
  | pinRetry (ch pair : Nat)
  /-- Shawm serves the request that a function's mailbox holds (03 R55). -/
  | mbox (fn : Nat)
deriving DecidableEq, Repr

/-- The machine. -/
structure State where
  /-- What happens next, in order (notes/assumptions/1.md). -/
  agenda : List Turn := []
  /-- What happens at a device time. -/
  timers : List (Nat × Turn) := []
  /-- The issuing thread and its fragment. -/
  cur : Nat := 0
  curFrag : Nat := 0
  /-- Counter that the free values are applied to (notes/assumptions/2.md). -/
  freeCtr : Nat := 0
  nextId : Nat := 1
  /-- Device time (00 R1, 01 R15). -/
  time : Nat := 0
  mem : Memory := []
  /-- L1 lines by core, then by memory key / 128 (07 R115). -/
  l1 : Tab (Tab (List Byte)) := []
  /-- Lines that L0 holds, or their parts in 4 KiB of memory: core, context, address, bytes (07 R102). -/
  l0 : List (Nat × Nat × Nat × List Byte) := []
  /-- TLB entries (07 R119). -/
  tlb : List TlbE := []
  locks : List Lock := []
  threads : Tab Thread := []
  blocks : Tab Block := []
  grids : Tab Grid := []
  cmds : Tab Cmd := []
  /-- Matrix queues by core (07 R112). -/
  mxq : Tab (List MxCmd) := []
  nests : Tab Nest := []
  ctxs : Tab Ctx := []
  queues : Tab Queue := []
  qlinks : Tab QLink := []
  intervals : List Interval := []
  /-- Hardware slots: queue of each (04 R73). -/
  slots : Tab Nat := []
  parts : Tab Part := []
  leases : Tab LeaseRec := []
  /-- Counter banks by cluster (05 R83). -/
  banks : Tab Bank := []
  lace : Tab Lace := []
  /-- Tick exponent of Cicada (05 R85). -/
  cicadaK : Nat := 16
  /-- Granules by 512 · core + granule; those queued for Scarab by core. -/
  granules : Tab Granule := []
  scrubQ : Tab (List Nat) := []
  /-- Last issue time by quarter 4 · core + quarter, or control core 8192 + cluster; context that a control core served last, by 16384 +
  cluster (06 R97, 07 R113). -/
  quarters : Tab Nat := []
  fns : Tab Fn := []
  /-- MSI-X vectors raised: function, vector, oldest first. -/
  msix : List (Nat × Nat) := []
  vecs : Tab VecTab := []
  pkg : Pkg := {}
  lnk : Links := {}
  net : Net := {}
  /-- Migration images written (05 R82), by number. -/
  images : Tab Image := []
deriving DecidableEq, Repr

/-- Why the machine stops. -/
inductive Fault where
  /-- `step`, on a write from outside to a byte key that no memory of 07 R117, R118 and 08 R137 holds. Safe: the
  machine does nothing with such a write. -/
  | noSuchAddress
deriving DecidableEq, Repr

/-- Why an instruction has no next state. -/
inductive Refusal where
  /-- An arm of `exec` whose instruction has no meaning yet. Safe: the machine stops. -/
  | notModelled (mnemonic : String)
  /-- `issue`: an encoded instruction is executed in a state whose current thread or fragment does not exist, so that
  no agent issues it. `step` never does this. Safe: the machine stops. -/
  | noIssuer
deriving DecidableEq, Repr

/-- Partition 0 at module reset (05 R76): every cluster and every resource. -/
def Part.whole : Part :=
  { clusters := List.range 192, scount := 256, bcount := 64, pcount := 32, cccount := 16, gcount := 384,
    rcap := 256, scap := 32, tcap := 96, cpcount := 64 }

/-- Ten minutes of device time (01 R15, R23). -/
def tenMinutes : Nat := 960000000000

/-- The machine right after module reset: nothing is trained, no context exists, partition 0 owns everything (05 R76),
and the periodic events of 05 R85, 01 R23 and 02 R33 are due. The boot ROM runs first (03 R56);
values that the spec does not give: notes/assumptions/4.md and 5.md. -/
def State.reset : State :=
  { timers := [(0, .event .moduleReset), (2 ^ 16, .event .cicadaTick), (tenMinutes, .event .counterCommit), (2 ^ 20, .event .timeSyncExchange)],
    parts := (0, Part.whole) :: (List.range 7).map fun i => (i + 1, {}) }

end Sys2Proof.Machine
end

