-- ==== Sys2Proof/Machine/Flags.lean ====
section
/-! DEFINITION. Comparisons, carries, predicate logic, residues and signatures: everything that the spec computes beside a
result (14 R258, R259, 15 R278, R281, 10 R182, R188). -/
namespace Sys2Proof.Machine

/-! ### Lanes and masks -/

/-- The mask of one lane. -/
def bit (l : Nat) : Word := (1 : Word) <<< l
/-- The lanes of a mask, ascending. -/
def lanesOf (m : Word) : List Nat := (List.range 32).filter fun l => m.getLsbD l
def lowest (m : Word) : Option Nat := (lanesOf m).head?
/-- The mask of the lanes that a test accepts. -/
def maskOf (p : Nat → Bool) : Word := (List.range 32).foldl (fun m l => if p l then m ||| bit l else m) 0
def popCount {n : Nat} (x : BitVec n) : Nat := ((List.range n).filter fun i => x.getLsbD i).length

/-! ### Carry and borrow (14 R259) -/

/-- The carry out of a 32-bit sum. -/
def carryOut (a b : Word) (c : Bool) : Bool := a.toNat + b.toNat + c.toNat ≥ 2 ^ 32
/-- The borrow out of a 32-bit difference. -/
def borrowOut (a b : Word) (c : Bool) : Bool := a.toNat < b.toNat + c.toNat

/-! ### Compare (15 R278) -/

/-- Integer comparison codes 0-5. -/
def icmp (c : Nat) (x y : Int) : Bool :=
  match c with
  | 0 => x == y | 1 => x != y | 2 => x < y | 3 => x ≤ y | 4 => x > y | _ => x ≥ y

/-- Floating comparison codes: `ord` is the order of the two values, none if either is NaN. -/
def fcmp (c : Nat) (ord : Option Ordering) : Bool :=
  match ord with
  | none => 8 ≤ c
  | some o => match c % 8 with
    | 0 => o == .eq | 1 => o != .eq | 2 => o == .lt | 3 => o != .gt | 4 => o == .gt | 5 => o != .lt
    | _ => c == 6

/-- COMB: 0 and, 1 or, 2 xor. -/
def comb (c : Nat) (x y : Bool) : Bool :=
  match c with
  | 0 => x && y | 1 => x || y | _ => xor x y

/-- A three-input function by its table (14 R268, 15 R281). -/
def table3 (t : BitVec 8) (a b c : Bool) : Bool := t.getLsbD (4 * a.toNat + 2 * b.toNat + c.toNat)

/-! ### Residues (10 R182) -/

def res7 (x : Nat) : Nat := x % 7
/-- The residue that the adder predicts: a carry out of 32 bits subtracts 4, of 64 bits 2. -/
def expectAdd32 (a b carry : Nat) : Nat := (res7 a + res7 b + 3 * carry) % 7
def expectAdd64 (a b carry : Nat) : Nat := (res7 a + res7 b + 5 * carry) % 7
def expectMul (a b : Nat) : Nat := res7 a * res7 b % 7
/-- A left shift of 32 bits: the bits shifted out, as an integer, weigh 2^32. -/
def expectShl (a n : Nat) : Nat :=
  let out := if n < 32 then a % 2 ^ 32 / 2 ^ (32 - n) else a
  let up := if n < 32 then n else 32
  (2 ^ (up % 3) * res7 a + 7 * 4 - res7 out * res7 (2 ^ 32)) % 7
/-- The divider's check, as the residue that q·d + r must have: that of n. -/
def expectDiv (n : Nat) : Nat := res7 n

/-! ### Signatures (10 R188) -/

/-- Fold the low `n` bits of a record, bit 0 first, into a CRC-32C. -/
def foldBits (sig : Word) (r : BitVec 16) : (fuel i : Nat) → Word
  | 0, _ => sig
  | f + 1, i =>
    let b := sig.getLsbD 0 != r.getLsbD i
    foldBits ((sig >>> 1) ^^^ (if b then 0x82F63B78 else 0)) r f (i + 1)

def fold (sig : Word) (r : BitVec 16) : Word := foldBits sig r 16 0
def sigReset : Word := 0xFFFFFFFF

/-- The record of an event: 0 issue, 1 split, 2 fuse, 3 continuation entry. -/
def sigRec (op : Nat) (emdiff : Bool) (event : Nat) : BitVec 16 :=
  BitVec.ofNat 16 ((if event < 2 then 8 * op else 0) + (if emdiff then 4 else 0) + event)

end Sys2Proof.Machine
end

