-- ==== Sys2Proof/WellFormed.lean ====
section
/-! DEFINITION. Well-formed instructions: those whose encoding raises no `ILLEGAL` by itself (13 R246). The rules stand
in `Sys2Proof/Machine/Legal.lean`, one row of the spec's field tables for each instruction. -/
namespace Sys2Proof

/-- No field of the encoding breaks a rule that the encoding alone can break. An event has no encoding. -/
def WellFormed (i : Instr) : Bool := Machine.encodable i

end Sys2Proof
end

