-- ==== Sys2Proof/Decode.lean ====
section
/-! DEFINITION. Decoding and encoding of the 96-bit instruction word (13 R235, R236, R238, R245, R246). -/
namespace Sys2Proof

/-- Why a word is no instruction (13 R246); each raises `ILLEGAL`. -/
inductive DecodeError where
  /-- OP is not assigned. -/
  | unassigned (op : Nat)
  /-- Header bit 64 is set. -/
  | reservedBit (op : Nat)
  /-- A field holds a value that the entry excludes. -/
  | badField (op : Nat)
deriving DecidableEq, Repr

def Kind.toBits : Kind → BitVec 2
  | .v => 0 | .k => 1 | .p => 2 | .imm => 3

def Kind.ofBits (b : BitVec 2) : Kind :=
  if b = 0 then .v else if b = 1 then .k else if b = 2 then .p else .imm

/-- The bit of a flag field. -/
def flagBit (b : Bool) : BitVec 1 := BitVec.ofBool b

/-- The header fields (13 R236). -/
def decodeHdr (w : IWord) : Hdr :=
  { gn := w.getLsbD 85, gp := w.extractLsb' 80 5, stall := w.extractLsb' 76 4, sbset := w.extractLsb' 73 3,
    sbwait := w.extractLsb' 66 7, yld := w.getLsbD 65 }

def decodeR (w : IWord) : FmtR :=
  { d := w.extractLsb' 53 11, a := w.extractLsb' 42 11, b := w.extractLsb' 31 11, c := w.extractLsb' 20 11,
    kd := w.getLsbD 19, ka := .ofBits (w.extractLsb' 17 2), kb := .ofBits (w.extractLsb' 15 2),
    kc := .ofBits (w.extractLsb' 13 2), ty := w.extractLsb' 9 4, rnd := w.extractLsb' 6 3, sat := w.getLsbD 5,
    sub := w.extractLsb' 0 5 }

def decodeI (w : IWord) : FmtI :=
  { d := w.extractLsb' 53 11, a := w.extractLsb' 42 11, imm := w.extractLsb' 10 32, kd := w.getLsbD 9,
    ka := .ofBits (w.extractLsb' 7 2), ty := w.extractLsb' 3 4, sub := w.extractLsb' 0 3 }

def decodeM (w : IWord) : FmtM :=
  { d := w.extractLsb' 53 11, a := w.extractLsb' 42 11, off := w.extractLsb' 18 24, width := w.extractLsb' 14 4,
    ord := w.extractLsb' 11 3, scope := w.extractLsb' 8 3, cache := w.extractLsb' 6 2, ka := w.getLsbD 5,
    raw := w.getLsbD 4, sub := w.extractLsb' 0 4 }

def decodeA (w : IWord) : FmtA :=
  { d := w.extractLsb' 53 11, a := w.extractLsb' 42 11, b := w.extractLsb' 31 11, c := w.extractLsb' 20 11,
    off := w.extractLsb' 8 12, width := w.extractLsb' 6 2, ord := w.extractLsb' 4 2, scope := w.extractLsb' 1 3,
    noret := w.getLsbD 0 }

def decodeB (w : IWord) : FmtB :=
  { tgt := w.extractLsb' 32 32, a := w.extractLsb' 21 11, ka := .ofBits (w.extractLsb' 19 2),
    sub := w.extractLsb' 16 3, rsv := w.extractLsb' 0 16 }

def decodeX (w : IWord) : FmtX :=
  { d := w.extractLsb' 53 11, a := w.extractLsb' 42 11, b := w.extractLsb' 31 11, imm := w.extractLsb' 0 31 }

/-- The OP field (13 R236). -/
def opField (w : IWord) : Nat := (w.extractLsb' 86 10).toNat

/-- The instruction of an assigned OP, its fields not yet checked (13 R245). -/
def decodeOp (w : IWord) : Option Instr :=
  let h := decodeHdr w
  match opField w with
  | 0x001 => some (.iadd h (decodeR w))
  | 0x002 => some (.isub h (decodeR w))
  | 0x003 => some (.iadd3 h (decodeR w))
  | 0x004 => some (.iaddc h (decodeR w))
  | 0x005 => some (.isubb h (decodeR w))
  | 0x006 => some (.imul h (decodeR w))
  | 0x007 => some (.imulhi h (decodeR w))
  | 0x008 => some (.imad h (decodeR w))
  | 0x009 => some (.imadw h (decodeR w))
  | 0x00A => some (.imin h (decodeR w))
  | 0x00B => some (.imax h (decodeR w))
  | 0x00C => some (.iabs h (decodeR w))
  | 0x00D => some (.idiv h (decodeR w))
  | 0x00E => some (.irem h (decodeR w))
  | 0x00F => some (.iadd64 h (decodeR w))
  | 0x010 => some (.isub64 h (decodeR w))
  | 0x011 => some (.aadd h (decodeR w))
  | 0x012 => some (.idot4 h (decodeR w))
  | 0x040 => some (.lgc3 h (decodeR w))
  | 0x041 => some (.shl h (decodeR w))
  | 0x042 => some (.shr h (decodeR w))
  | 0x043 => some (.dsh h (decodeR w))
  | 0x044 => some (.rot h (decodeR w))
  | 0x045 => some (.popc h (decodeR w))
  | 0x046 => some (.clz h (decodeR w))
  | 0x047 => some (.brev h (decodeR w))
  | 0x048 => some (.bfe h (decodeR w))
  | 0x049 => some (.bfi h (decodeR w))
  | 0x04A => some (.bshuf h (decodeR w))
  | 0x080 => some (.isetp h (decodeR w))
  | 0x081 => some (.fsetp h (decodeR w))
  | 0x082 => some (.psetp h (decodeR w))
  | 0x083 => some (.sel h (decodeR w))
  | 0x084 => some (.mov h (decodeR w))
  | 0x085 => some (.movi h (decodeI w))
  | 0x086 => some (.readlane h (decodeR w))
  | 0x087 => some (.bcast h (decodeR w))
  | 0x088 => some (.shfl h (decodeR w))
  | 0x089 => some (.vote h (decodeR w))
  | 0x08A => some (.lmatch h (decodeR w))
  | 0x08B => some (.getsr h (decodeR w))
  | 0x08C => some (.setsr h (decodeR w))
  | 0x08D => some (.p2v h (decodeR w))
  | 0x08E => some (.v2p h (decodeR w))
  | 0x08F => some (.redux h (decodeR w))
  | 0x0C0 => some (.bra h (decodeB w))
  | 0x0C1 => some (.brx h (decodeB w))
  | 0x0C2 => some (.call h (decodeB w))
  | 0x0C3 => some (.callx h (decodeB w))
  | 0x0C4 => some (.ret h (decodeB w))
  | 0x0C5 => some (.rcv h (decodeB w))
  | 0x0C6 => some (.exit h (decodeB w))
  | 0x0C7 => some (.maskr h (decodeB w))
  | 0x0C8 => some (.maskw h (decodeB w))
  | 0x0C9 => some (.nop h (decodeB w))
  | 0x0CA => let f := decodeB w; some (if f.sub.getLsbD 0 then .yieldReq h f else .yield h f)
  | 0x0CB => some (.sleep h (decodeB w))
  | 0x0CC => let f := decodeB w; some (if f.sub.getLsbD 0 then .contOff h f else .cont h f)
  | 0x0CD => some (.cret h (decodeB w))
  | 0x100 => some (.fadd h (decodeR w))
  | 0x101 => some (.fmul h (decodeR w))
  | 0x102 => some (.ffma h (decodeR w))
  | 0x103 => some (.fmin h (decodeR w))
  | 0x104 => some (.fmax h (decodeR w))
  | 0x105 => some (.frnd h (decodeR w))
  | 0x106 => some (.fclass h (decodeR w))
  | 0x107 => some (.fdot2 h (decodeR w))
  | 0x108 => some (.fscale h (decodeR w))
  | 0x109 => some (.ffrexp h (decodeR w))
  | 0x140 => let f := decodeR w; some (if f.sub.toNat % 16 = 14 then .cvtQ h f else if f.sub.toNat % 16 = 15 then .cvtDq h f else .cvt h f)
  | 0x141 => some (.pack h (decodeR w))
  | 0x142 => some (.unpk h (decodeR w))
  | 0x143 => some (.bpnspl h (decodeR w))
  | 0x144 => some (.bpnjn h (decodeR w))
  | 0x145 => some (.frcp h (decodeR w))
  | 0x146 => some (.frsq h (decodeR w))
  | 0x147 => some (.fsqrt h (decodeR w))
  | 0x148 => some (.fex2 h (decodeR w))
  | 0x149 => some (.flg2 h (decodeR w))
  | 0x14A => some (.fsin h (decodeR w))
  | 0x14B => some (.fcos h (decodeR w))
  | 0x14C => some (.ftanh h (decodeR w))
  | 0x14D => some (.fdiv h (decodeR w))
  | 0x14E => some (.qshr h (decodeR w))
  | 0x14F => some (.qmul h (decodeR w))
  | 0x180 => some (.ld h (decodeM w))
  | 0x181 => some (.st h (decodeM w))
  | 0x182 => some (.lds h (decodeM w))
  | 0x183 => some (.sts h (decodeM w))
  | 0x184 => some (.tld h (decodeM w))
  | 0x185 => some (.tst h (decodeM w))
  | 0x186 => some (.ldk h (decodeM w))
  | 0x187 => some (.pref h (decodeM w))
  | 0x188 => some (.feset h (decodeM w))
  | 0x189 => some (.feclr h (decodeM w))
  | 0x1C0 => some (.atom h (decodeA w))
  | 0x1C1 => some (.atomcas h (decodeA w))
  | 0x1C2 => some (.atoms h (decodeA w))
  | 0x1C3 => some (.atomscas h (decodeA w))
  | 0x1C4 => some (.red h (decodeA w))
  | 0x200 => some (.fence h (decodeX w))
  | 0x207 => some (.mwait h (decodeA w))
  | 0x201 => some (.bar h (decodeX w))
  | 0x202 => some (.phreg h (decodeX w))
  | 0x203 => some (.phdrop h (decodeX w))
  | 0x204 => some (.phsig h (decodeX w))
  | 0x205 => some (.phwait h (decodeX w))
  | 0x206 => some (.phsw h (decodeX w))
  | 0x208 => some (.gsync h (decodeX w))
  | 0x240 => some (.abase h (decodeR w))
  | 0x241 => some (.abump h (decodeR w))
  | 0x242 => some (.aprom h (decodeR w))
  | 0x243 => some (.ahand h (decodeR w))
  | 0x244 => some (.aqry h (decodeR w))
  | 0x245 => some (.achk h (decodeR w))
  | 0x246 => some (.adrop h (decodeR w))
  | 0x280 => some (.cpy h (decodeX w))
  | 0x281 => some (.cpyt h (decodeX w))
  | 0x282 => some (.sortk h (decodeX w))
  | 0x283 => some (.npost h (decodeX w))
  | 0x284 => some (.erun h (decodeX w))
  | 0x285 => some (.estat h (decodeX w))
  | 0x286 => some (.elink h (decodeX w))
  | 0x287 => some (.launch h (decodeX w))
  | 0x2C0 => some (.mma h (decodeX w))
  | 0x2C1 => some (.mmasp h (decodeX w))
  | 0x2C2 => some (.mmag h (decodeX w))
  | 0x2C3 => some (.mxz h (decodeX w))
  | 0x2C4 => some (.mxdr h (decodeX w))
  | 0x2C5 => some (.mxbl h (decodeX w))
  | 0x2C6 => some (.mxspec h (decodeX w))
  | 0x2C7 => some (.mxcmt h (decodeX w))
  | 0x2C8 => some (.mxdsc h (decodeX w))
  | 0x2C9 => some (.mxwait h (decodeX w))
  | 0x300 => some (.cfn h (decodeR w))
  | 0x301 => some (.ccor h (decodeR w))
  | 0x302 => some (.cseq h (decodeR w))
  | 0x303 => some (.cpar h (decodeR w))
  | 0x304 => some (.cpipe h (decodeR w))
  | 0x305 => some (.cfarm h (decodeR w))
  | 0x306 => some (.cloop h (decodeR w))
  | 0x307 => some (.apply h (decodeR w))
  | 0x308 => some (.awaitc h (decodeR w))
  | 0x309 => some (.cyld h (decodeR w))
  | 0x30A => some (.chput h (decodeR w))
  | 0x30B => some (.chget h (decodeR w))
  | 0x30C => some (.ftake h (decodeR w))
  | 0x30D => some (.cfree h (decodeR w))
  | 0x340 => some (.trap h (decodeI w))
  | 0x346 => some (.bkpt h (decodeR w))
  | 0x341 => let f := decodeR w; some (if f.sub.getLsbD 0 then .tretKill h f else .tretResume h f)
  | 0x342 => some (.sigchk h (decodeI w))
  | 0x343 => some (.sigrst h (decodeR w))
  | 0x344 => some (.mchkr h (decodeR w))
  | 0x345 => some (.clock h (decodeR w))
  | 0x347 => some (.pmark h (decodeI w))
  | 0x348 => some (.getfmt h (decodeR w))
  | 0x349 => some (.sysr h (decodeR w))
  | 0x34A => some (.sysw h (decodeR w))
  | 0x34B => some (.asret h (decodeR w))
  | _ => none

/-- Decode one word: the instruction, or why it is none (13 R246). -/
def decode (w : IWord) : Except DecodeError Instr :=
  if w.getLsbD 64 then .error (.reservedBit (opField w))
  else match decodeOp w with
    | none => .error (.unassigned (opField w))
    | some i => if WellFormed i then .ok i else .error (.badField (opField w))

/-- Little-endian bytes as a number (00 R3). -/
def leNat : List Byte → Nat
  | [] => 0
  | b :: bs => b.toNat + 256 * leNat bs

/-- The n little-endian bytes of a number (00 R3). -/
def leBytes (x : Nat) : Nat → List Byte
  | 0 => []
  | n + 1 => BitVec.ofNat 8 x :: leBytes (x / 256) n

/-- Three little-endian words, the lowest-addressed first, are the 96 little-endian bits of 12 bytes (00 R3, 13 R235). -/
def decodeBytes (bs : List Byte) : Except DecodeError Instr := decode (BitVec.ofNat 96 (leNat (bs.take 12)))

/-- The instruction that the decoder reads from the low `nbits` bits of `w`, the bits above being 0. -/
def decodeTableWord (nbits w : Nat) : Option Instr :=
  match decodeBytes (leBytes (w % 2 ^ nbits) 12) with
  | .ok i => some i
  | .error _ => none

/-! ### Encoding -/

def encodeHdr (op : Nat) (h : Hdr) : BitVec 32 :=
  BitVec.ofNat 10 op ++ flagBit h.gn ++ h.gp ++ h.stall ++ h.sbset ++ h.sbwait ++ flagBit h.yld ++ (0 : BitVec 1)

def encodeR (f : FmtR) : BitVec 64 :=
  f.d ++ f.a ++ f.b ++ f.c ++ flagBit f.kd ++ f.ka.toBits ++ f.kb.toBits ++ f.kc.toBits ++ f.ty ++ f.rnd
    ++ flagBit f.sat ++ f.sub

def encodeI (f : FmtI) : BitVec 64 :=
  f.d ++ f.a ++ f.imm ++ flagBit f.kd ++ f.ka.toBits ++ f.ty ++ f.sub

def encodeM (f : FmtM) : BitVec 64 :=
  f.d ++ f.a ++ f.off ++ f.width ++ f.ord ++ f.scope ++ f.cache ++ flagBit f.ka ++ flagBit f.raw ++ f.sub

def encodeA (f : FmtA) : BitVec 64 :=
  f.d ++ f.a ++ f.b ++ f.c ++ f.off ++ f.width ++ f.ord ++ f.scope ++ flagBit f.noret

def encodeB (f : FmtB) : BitVec 64 :=
  f.tgt ++ f.a ++ f.ka.toBits ++ f.sub ++ f.rsv

def encodeX (f : FmtX) : BitVec 64 :=
  f.d ++ f.a ++ f.b ++ f.imm

def word96 (op : Nat) (h : Hdr) (body : BitVec 64) : IWord := encodeHdr op h ++ body

/-- The word of an encoded instruction; none for an event, which has no encoding. -/
def encode : Instr → Option IWord
  | .iadd h f => some (word96 0x001 h (encodeR f))
  | .isub h f => some (word96 0x002 h (encodeR f))
  | .iadd3 h f => some (word96 0x003 h (encodeR f))
  | .iaddc h f => some (word96 0x004 h (encodeR f))
  | .isubb h f => some (word96 0x005 h (encodeR f))
  | .imul h f => some (word96 0x006 h (encodeR f))
  | .imulhi h f => some (word96 0x007 h (encodeR f))
  | .imad h f => some (word96 0x008 h (encodeR f))
  | .imadw h f => some (word96 0x009 h (encodeR f))
  | .imin h f => some (word96 0x00A h (encodeR f))
  | .imax h f => some (word96 0x00B h (encodeR f))
  | .iabs h f => some (word96 0x00C h (encodeR f))
  | .idiv h f => some (word96 0x00D h (encodeR f))
  | .irem h f => some (word96 0x00E h (encodeR f))
  | .iadd64 h f => some (word96 0x00F h (encodeR f))
  | .isub64 h f => some (word96 0x010 h (encodeR f))
  | .aadd h f => some (word96 0x011 h (encodeR f))
  | .idot4 h f => some (word96 0x012 h (encodeR f))
  | .lgc3 h f => some (word96 0x040 h (encodeR f))
  | .shl h f => some (word96 0x041 h (encodeR f))
  | .shr h f => some (word96 0x042 h (encodeR f))
  | .dsh h f => some (word96 0x043 h (encodeR f))
  | .rot h f => some (word96 0x044 h (encodeR f))
  | .popc h f => some (word96 0x045 h (encodeR f))
  | .clz h f => some (word96 0x046 h (encodeR f))
  | .brev h f => some (word96 0x047 h (encodeR f))
  | .bfe h f => some (word96 0x048 h (encodeR f))
  | .bfi h f => some (word96 0x049 h (encodeR f))
  | .bshuf h f => some (word96 0x04A h (encodeR f))
  | .isetp h f => some (word96 0x080 h (encodeR f))
  | .fsetp h f => some (word96 0x081 h (encodeR f))
  | .psetp h f => some (word96 0x082 h (encodeR f))
  | .sel h f => some (word96 0x083 h (encodeR f))
  | .mov h f => some (word96 0x084 h (encodeR f))
  | .movi h f => some (word96 0x085 h (encodeI f))
  | .readlane h f => some (word96 0x086 h (encodeR f))
  | .bcast h f => some (word96 0x087 h (encodeR f))
  | .shfl h f => some (word96 0x088 h (encodeR f))
  | .vote h f => some (word96 0x089 h (encodeR f))
  | .lmatch h f => some (word96 0x08A h (encodeR f))
  | .getsr h f => some (word96 0x08B h (encodeR f))
  | .setsr h f => some (word96 0x08C h (encodeR f))
  | .p2v h f => some (word96 0x08D h (encodeR f))
  | .v2p h f => some (word96 0x08E h (encodeR f))
  | .redux h f => some (word96 0x08F h (encodeR f))
  | .bra h f => some (word96 0x0C0 h (encodeB f))
  | .brx h f => some (word96 0x0C1 h (encodeB f))
  | .call h f => some (word96 0x0C2 h (encodeB f))
  | .callx h f => some (word96 0x0C3 h (encodeB f))
  | .ret h f => some (word96 0x0C4 h (encodeB f))
  | .rcv h f => some (word96 0x0C5 h (encodeB f))
  | .exit h f => some (word96 0x0C6 h (encodeB f))
  | .maskr h f => some (word96 0x0C7 h (encodeB f))
  | .maskw h f => some (word96 0x0C8 h (encodeB f))
  | .nop h f => some (word96 0x0C9 h (encodeB f))
  | .yield h f => some (word96 0x0CA h (encodeB f))
  | .yieldReq h f => some (word96 0x0CA h (encodeB f))
  | .sleep h f => some (word96 0x0CB h (encodeB f))
  | .cont h f => some (word96 0x0CC h (encodeB f))
  | .contOff h f => some (word96 0x0CC h (encodeB f))
  | .cret h f => some (word96 0x0CD h (encodeB f))
  | .fadd h f => some (word96 0x100 h (encodeR f))
  | .fmul h f => some (word96 0x101 h (encodeR f))
  | .ffma h f => some (word96 0x102 h (encodeR f))
  | .fmin h f => some (word96 0x103 h (encodeR f))
  | .fmax h f => some (word96 0x104 h (encodeR f))
  | .frnd h f => some (word96 0x105 h (encodeR f))
  | .fclass h f => some (word96 0x106 h (encodeR f))
  | .fdot2 h f => some (word96 0x107 h (encodeR f))
  | .fscale h f => some (word96 0x108 h (encodeR f))
  | .ffrexp h f => some (word96 0x109 h (encodeR f))
  | .cvt h f => some (word96 0x140 h (encodeR f))
  | .cvtQ h f => some (word96 0x140 h (encodeR f))
  | .cvtDq h f => some (word96 0x140 h (encodeR f))
  | .pack h f => some (word96 0x141 h (encodeR f))
  | .unpk h f => some (word96 0x142 h (encodeR f))
  | .bpnspl h f => some (word96 0x143 h (encodeR f))
  | .bpnjn h f => some (word96 0x144 h (encodeR f))
  | .frcp h f => some (word96 0x145 h (encodeR f))
  | .frsq h f => some (word96 0x146 h (encodeR f))
  | .fsqrt h f => some (word96 0x147 h (encodeR f))
  | .fex2 h f => some (word96 0x148 h (encodeR f))
  | .flg2 h f => some (word96 0x149 h (encodeR f))
  | .fsin h f => some (word96 0x14A h (encodeR f))
  | .fcos h f => some (word96 0x14B h (encodeR f))
  | .ftanh h f => some (word96 0x14C h (encodeR f))
  | .fdiv h f => some (word96 0x14D h (encodeR f))
  | .qshr h f => some (word96 0x14E h (encodeR f))
  | .qmul h f => some (word96 0x14F h (encodeR f))
  | .ld h f => some (word96 0x180 h (encodeM f))
  | .st h f => some (word96 0x181 h (encodeM f))
  | .lds h f => some (word96 0x182 h (encodeM f))
  | .sts h f => some (word96 0x183 h (encodeM f))
  | .tld h f => some (word96 0x184 h (encodeM f))
  | .tst h f => some (word96 0x185 h (encodeM f))
  | .ldk h f => some (word96 0x186 h (encodeM f))
  | .pref h f => some (word96 0x187 h (encodeM f))
  | .feset h f => some (word96 0x188 h (encodeM f))
  | .feclr h f => some (word96 0x189 h (encodeM f))
  | .atom h f => some (word96 0x1C0 h (encodeA f))
  | .atomcas h f => some (word96 0x1C1 h (encodeA f))
  | .atoms h f => some (word96 0x1C2 h (encodeA f))
  | .atomscas h f => some (word96 0x1C3 h (encodeA f))
  | .red h f => some (word96 0x1C4 h (encodeA f))
  | .fence h f => some (word96 0x200 h (encodeX f))
  | .mwait h f => some (word96 0x207 h (encodeA f))
  | .bar h f => some (word96 0x201 h (encodeX f))
  | .phreg h f => some (word96 0x202 h (encodeX f))
  | .phdrop h f => some (word96 0x203 h (encodeX f))
  | .phsig h f => some (word96 0x204 h (encodeX f))
  | .phwait h f => some (word96 0x205 h (encodeX f))
  | .phsw h f => some (word96 0x206 h (encodeX f))
  | .gsync h f => some (word96 0x208 h (encodeX f))
  | .abase h f => some (word96 0x240 h (encodeR f))
  | .abump h f => some (word96 0x241 h (encodeR f))
  | .aprom h f => some (word96 0x242 h (encodeR f))
  | .ahand h f => some (word96 0x243 h (encodeR f))
  | .aqry h f => some (word96 0x244 h (encodeR f))
  | .achk h f => some (word96 0x245 h (encodeR f))
  | .adrop h f => some (word96 0x246 h (encodeR f))
  | .cpy h f => some (word96 0x280 h (encodeX f))
  | .cpyt h f => some (word96 0x281 h (encodeX f))
  | .sortk h f => some (word96 0x282 h (encodeX f))
  | .npost h f => some (word96 0x283 h (encodeX f))
  | .erun h f => some (word96 0x284 h (encodeX f))
  | .estat h f => some (word96 0x285 h (encodeX f))
  | .elink h f => some (word96 0x286 h (encodeX f))
  | .launch h f => some (word96 0x287 h (encodeX f))
  | .mma h f => some (word96 0x2C0 h (encodeX f))
  | .mmasp h f => some (word96 0x2C1 h (encodeX f))
  | .mmag h f => some (word96 0x2C2 h (encodeX f))
  | .mxz h f => some (word96 0x2C3 h (encodeX f))
  | .mxdr h f => some (word96 0x2C4 h (encodeX f))
  | .mxbl h f => some (word96 0x2C5 h (encodeX f))
  | .mxspec h f => some (word96 0x2C6 h (encodeX f))
  | .mxcmt h f => some (word96 0x2C7 h (encodeX f))
  | .mxdsc h f => some (word96 0x2C8 h (encodeX f))
  | .mxwait h f => some (word96 0x2C9 h (encodeX f))
  | .cfn h f => some (word96 0x300 h (encodeR f))
  | .ccor h f => some (word96 0x301 h (encodeR f))
  | .cseq h f => some (word96 0x302 h (encodeR f))
  | .cpar h f => some (word96 0x303 h (encodeR f))
  | .cpipe h f => some (word96 0x304 h (encodeR f))
  | .cfarm h f => some (word96 0x305 h (encodeR f))
  | .cloop h f => some (word96 0x306 h (encodeR f))
  | .apply h f => some (word96 0x307 h (encodeR f))
  | .awaitc h f => some (word96 0x308 h (encodeR f))
  | .cyld h f => some (word96 0x309 h (encodeR f))
  | .chput h f => some (word96 0x30A h (encodeR f))
  | .chget h f => some (word96 0x30B h (encodeR f))
  | .ftake h f => some (word96 0x30C h (encodeR f))
  | .cfree h f => some (word96 0x30D h (encodeR f))
  | .trap h f => some (word96 0x340 h (encodeI f))
  | .bkpt h f => some (word96 0x346 h (encodeR f))
  | .tretResume h f => some (word96 0x341 h (encodeR f))
  | .tretKill h f => some (word96 0x341 h (encodeR f))
  | .sigchk h f => some (word96 0x342 h (encodeI f))
  | .sigrst h f => some (word96 0x343 h (encodeR f))
  | .mchkr h f => some (word96 0x344 h (encodeR f))
  | .clock h f => some (word96 0x345 h (encodeR f))
  | .pmark h f => some (word96 0x347 h (encodeI f))
  | .getfmt h f => some (word96 0x348 h (encodeR f))
  | .sysr h f => some (word96 0x349 h (encodeR f))
  | .sysw h f => some (word96 0x34A h (encodeR f))
  | .asret h f => some (word96 0x34B h (encodeR f))
  | _ => none

/-- The OP of an instruction (13 R245), 0 for an event: the INFO of `ILLEGAL` (10 R165) and the OPCODE of a signature
record (10 R188). -/
def opOf (i : Instr) : Nat :=
  match encode i with
  | some w => opField w
  | none => 0

/-! ### Every constructor's word

Each word is written out from the layouts of 13 R236 and R238 and the entry's own fields: a header with every field nonzero
where the entry admits it, operands that differ from each other, and the last codes of its modifier fields. -/

theorem decode_iadd : decode 0x006291569630190280000A20 =
    .ok (.iadd { gn := true, gp := 2, stall := 9, sbset := 0, sbwait := 0x55, yld := true }
      { d := 1201, a := 1030, b := 517, c := 0, kd := false, ka := .v, kb := .v, kc := .v, ty := 5, rnd := 0, sat := true, sub := 0 }) := by rfl

theorem decode_isub : decode 0x00A291569630190280000A20 =
    .ok (.isub { gn := true, gp := 2, stall := 9, sbset := 0, sbwait := 0x55, yld := true }
      { d := 1201, a := 1030, b := 517, c := 0, kd := false, ka := .v, kb := .v, kc := .v, ty := 5, rnd := 0, sat := true, sub := 0 }) := by rfl

theorem decode_iadd3 : decode 0x00E2915696301902FCF00005 =
    .ok (.iadd3 { gn := true, gp := 2, stall := 9, sbset := 0, sbwait := 0x55, yld := true }
      { d := 1201, a := 1030, b := 517, c := 1999, kd := false, ka := .v, kb := .v, kc := .v, ty := 0, rnd := 0, sat := false, sub := 5 }) := by rfl

theorem decode_iaddc : decode 0x012291569630190281A04001 =
    .ok (.iaddc { gn := true, gp := 2, stall := 9, sbset := 0, sbwait := 0x55, yld := true }
      { d := 1201, a := 1030, b := 517, c := 26, kd := false, ka := .v, kb := .v, kc := .p, ty := 0, rnd := 0, sat := false, sub := 1 }) := by rfl

theorem decode_isubb : decode 0x016291569630190281A04001 =
    .ok (.isubb { gn := true, gp := 2, stall := 9, sbset := 0, sbwait := 0x55, yld := true }
      { d := 1201, a := 1030, b := 517, c := 26, kd := false, ka := .v, kb := .v, kc := .p, ty := 0, rnd := 0, sat := false, sub := 1 }) := by rfl

theorem decode_imul : decode 0x01A291569630190280000A20 =
    .ok (.imul { gn := true, gp := 2, stall := 9, sbset := 0, sbwait := 0x55, yld := true }
      { d := 1201, a := 1030, b := 517, c := 0, kd := false, ka := .v, kb := .v, kc := .v, ty := 5, rnd := 0, sat := true, sub := 0 }) := by rfl

theorem decode_imulhi : decode 0x01E291569630190280000A00 =
    .ok (.imulhi { gn := true, gp := 2, stall := 9, sbset := 0, sbwait := 0x55, yld := true }
      { d := 1201, a := 1030, b := 517, c := 0, kd := false, ka := .v, kb := .v, kc := .v, ty := 5, rnd := 0, sat := false, sub := 0 }) := by rfl

theorem decode_imad : decode 0x0222915696301902FCF00A24 =
    .ok (.imad { gn := true, gp := 2, stall := 9, sbset := 0, sbwait := 0x55, yld := true }
      { d := 1201, a := 1030, b := 517, c := 1999, kd := false, ka := .v, kb := .v, kc := .v, ty := 5, rnd := 0, sat := true, sub := 4 }) := by rfl

theorem decode_imadw : decode 0x0262915696101902FCE00A20 =
    .ok (.imadw { gn := true, gp := 2, stall := 9, sbset := 0, sbwait := 0x55, yld := true }
      { d := 1200, a := 1030, b := 517, c := 1998, kd := false, ka := .v, kb := .v, kc := .v, ty := 5, rnd := 0, sat := true, sub := 0 }) := by rfl

theorem decode_imin : decode 0x02A291569630190280000A00 =
    .ok (.imin { gn := true, gp := 2, stall := 9, sbset := 0, sbwait := 0x55, yld := true }
      { d := 1201, a := 1030, b := 517, c := 0, kd := false, ka := .v, kb := .v, kc := .v, ty := 5, rnd := 0, sat := false, sub := 0 }) := by rfl

theorem decode_imax : decode 0x02E291569630190280000A00 =
    .ok (.imax { gn := true, gp := 2, stall := 9, sbset := 0, sbwait := 0x55, yld := true }
      { d := 1201, a := 1030, b := 517, c := 0, kd := false, ka := .v, kb := .v, kc := .v, ty := 5, rnd := 0, sat := false, sub := 0 }) := by rfl

theorem decode_iabs : decode 0x032291569630180000000020 =
    .ok (.iabs { gn := true, gp := 2, stall := 9, sbset := 0, sbwait := 0x55, yld := true }
      { d := 1201, a := 1030, b := 0, c := 0, kd := false, ka := .v, kb := .v, kc := .v, ty := 0, rnd := 0, sat := true, sub := 0 }) := by rfl

theorem decode_idiv : decode 0x03629B569630190280000A00 =
    .ok (.idiv { gn := true, gp := 2, stall := 9, sbset := 5, sbwait := 0x55, yld := true }
      { d := 1201, a := 1030, b := 517, c := 0, kd := false, ka := .v, kb := .v, kc := .v, ty := 5, rnd := 0, sat := false, sub := 0 }) := by rfl

theorem decode_irem : decode 0x03A29B569630190280000A00 =
    .ok (.irem { gn := true, gp := 2, stall := 9, sbset := 5, sbwait := 0x55, yld := true }
      { d := 1201, a := 1030, b := 517, c := 0, kd := false, ka := .v, kb := .v, kc := .v, ty := 5, rnd := 0, sat := false, sub := 0 }) := by rfl

theorem decode_iadd64 : decode 0x03E291569610190300000E20 =
    .ok (.iadd64 { gn := true, gp := 2, stall := 9, sbset := 0, sbwait := 0x55, yld := true }
      { d := 1200, a := 1030, b := 518, c := 0, kd := false, ka := .v, kb := .v, kc := .v, ty := 7, rnd := 0, sat := true, sub := 0 }) := by rfl

theorem decode_isub64 : decode 0x042291569610190300000E20 =
    .ok (.isub64 { gn := true, gp := 2, stall := 9, sbset := 0, sbwait := 0x55, yld := true }
      { d := 1200, a := 1030, b := 518, c := 0, kd := false, ka := .v, kb := .v, kc := .v, ty := 7, rnd := 0, sat := true, sub := 0 }) := by rfl

theorem decode_aadd : decode 0x046291569610190280000000 =
    .ok (.aadd { gn := true, gp := 2, stall := 9, sbset := 0, sbwait := 0x55, yld := true }
      { d := 1200, a := 1030, b := 517, c := 0, kd := false, ka := .v, kb := .v, kc := .v, ty := 0, rnd := 0, sat := false, sub := 0 }) := by rfl

theorem decode_idot4 : decode 0x04A2915696301902FCF00221 =
    .ok (.idot4 { gn := true, gp := 2, stall := 9, sbset := 0, sbwait := 0x55, yld := true }
      { d := 1201, a := 1030, b := 517, c := 1999, kd := false, ka := .v, kb := .v, kc := .v, ty := 1, rnd := 0, sat := true, sub := 1 }) := by rfl

theorem decode_lgc3 : decode 0x1022915696301902FCF01360 =
    .ok (.lgc3 { gn := true, gp := 2, stall := 9, sbset := 0, sbwait := 0x55, yld := true }
      { d := 1201, a := 1030, b := 517, c := 1999, kd := false, ka := .v, kb := .v, kc := .v, ty := 9, rnd := 5, sat := true, sub := 0 }) := by rfl

theorem decode_shl : decode 0x106291569630190280000000 =
    .ok (.shl { gn := true, gp := 2, stall := 9, sbset := 0, sbwait := 0x55, yld := true }
      { d := 1201, a := 1030, b := 517, c := 0, kd := false, ka := .v, kb := .v, kc := .v, ty := 0, rnd := 0, sat := false, sub := 0 }) := by rfl

theorem decode_shr : decode 0x10A291569630190280000A00 =
    .ok (.shr { gn := true, gp := 2, stall := 9, sbset := 0, sbwait := 0x55, yld := true }
      { d := 1201, a := 1030, b := 517, c := 0, kd := false, ka := .v, kb := .v, kc := .v, ty := 5, rnd := 0, sat := false, sub := 0 }) := by rfl

theorem decode_dsh : decode 0x10E2915696301902FCF00001 =
    .ok (.dsh { gn := true, gp := 2, stall := 9, sbset := 0, sbwait := 0x55, yld := true }
      { d := 1201, a := 1030, b := 517, c := 1999, kd := false, ka := .v, kb := .v, kc := .v, ty := 0, rnd := 0, sat := false, sub := 1 }) := by rfl

theorem decode_rot : decode 0x112291569630190280000001 =
    .ok (.rot { gn := true, gp := 2, stall := 9, sbset := 0, sbwait := 0x55, yld := true }
      { d := 1201, a := 1030, b := 517, c := 0, kd := false, ka := .v, kb := .v, kc := .v, ty := 0, rnd := 0, sat := false, sub := 1 }) := by rfl

theorem decode_popc : decode 0x116291569630180000000000 =
    .ok (.popc { gn := true, gp := 2, stall := 9, sbset := 0, sbwait := 0x55, yld := true }
      { d := 1201, a := 1030, b := 0, c := 0, kd := false, ka := .v, kb := .v, kc := .v, ty := 0, rnd := 0, sat := false, sub := 0 }) := by rfl

theorem decode_clz : decode 0x11A291569630180000000000 =
    .ok (.clz { gn := true, gp := 2, stall := 9, sbset := 0, sbwait := 0x55, yld := true }
      { d := 1201, a := 1030, b := 0, c := 0, kd := false, ka := .v, kb := .v, kc := .v, ty := 0, rnd := 0, sat := false, sub := 0 }) := by rfl

theorem decode_brev : decode 0x11E291569630180000000000 =
    .ok (.brev { gn := true, gp := 2, stall := 9, sbset := 0, sbwait := 0x55, yld := true }
      { d := 1201, a := 1030, b := 0, c := 0, kd := false, ka := .v, kb := .v, kc := .v, ty := 0, rnd := 0, sat := false, sub := 0 }) := by rfl

theorem decode_bfe : decode 0x1222915696301902FCF00A00 =
    .ok (.bfe { gn := true, gp := 2, stall := 9, sbset := 0, sbwait := 0x55, yld := true }
      { d := 1201, a := 1030, b := 517, c := 1999, kd := false, ka := .v, kb := .v, kc := .v, ty := 5, rnd := 0, sat := false, sub := 0 }) := by rfl

theorem decode_bfi : decode 0x1262915696301902FCF00000 =
    .ok (.bfi { gn := true, gp := 2, stall := 9, sbset := 0, sbwait := 0x55, yld := true }
      { d := 1201, a := 1030, b := 517, c := 1999, kd := false, ka := .v, kb := .v, kc := .v, ty := 0, rnd := 0, sat := false, sub := 0 }) := by rfl

theorem decode_bshuf : decode 0x12A2915696301902FCF00000 =
    .ok (.bshuf { gn := true, gp := 2, stall := 9, sbset := 0, sbwait := 0x55, yld := true }
      { d := 1201, a := 1030, b := 517, c := 1999, kd := false, ka := .v, kb := .v, kc := .v, ty := 0, rnd := 0, sat := false, sub := 0 }) := by rfl

theorem decode_isetp : decode 0x2022915603B0190280C04885 =
    .ok (.isetp { gn := true, gp := 2, stall := 9, sbset := 0, sbwait := 0x55, yld := true }
      { d := 29, a := 1030, b := 517, c := 12, kd := false, ka := .v, kb := .v, kc := .p, ty := 4, rnd := 2, sat := false, sub := 5 }) := by rfl

theorem decode_fsetp : decode 0x2062915603B0190280C0525E =
    .ok (.fsetp { gn := true, gp := 2, stall := 9, sbset := 0, sbwait := 0x55, yld := true }
      { d := 29, a := 1030, b := 517, c := 12, kd := false, ka := .v, kb := .v, kc := .p, ty := 9, rnd := 1, sat := false, sub := 30 }) := by rfl

theorem decode_psetp : decode 0x20A2915603A00C0A80C54CC0 =
    .ok (.psetp { gn := true, gp := 2, stall := 9, sbset := 0, sbwait := 0x55, yld := true }
      { d := 29, a := 3, b := 21, c := 12, kd := false, ka := .p, kb := .p, kc := .p, ty := 6, rnd := 3, sat := false, sub := 0 }) := by rfl

theorem decode_sel : decode 0x20E291569630190280C04000 =
    .ok (.sel { gn := true, gp := 2, stall := 9, sbset := 0, sbwait := 0x55, yld := true }
      { d := 1201, a := 1030, b := 517, c := 12, kd := false, ka := .v, kb := .v, kc := .p, ty := 0, rnd := 0, sat := false, sub := 0 }) := by rfl

theorem decode_mov : decode 0x212291569630180000000000 =
    .ok (.mov { gn := true, gp := 2, stall := 9, sbset := 0, sbwait := 0x55, yld := true }
      { d := 1201, a := 1030, b := 0, c := 0, kd := false, ka := .v, kb := .v, kc := .v, ty := 0, rnd := 0, sat := false, sub := 0 }) := by rfl

theorem decode_movi : decode 0x2162915696200226AF37BC00 =
    .ok (.movi { gn := true, gp := 2, stall := 9, sbset := 0, sbwait := 0x55, yld := true }
      { d := 1201, a := 0, imm := 0x89ABCDEF, kd := false, ka := .v, ty := 0, sub := 0 }) := by rfl

theorem decode_readlane : decode 0x21A291560230141680088000 =
    .ok (.readlane { gn := true, gp := 2, stall := 9, sbset := 0, sbwait := 0x55, yld := true }
      { d := 17, a := 1029, b := 45, c := 0, kd := true, ka := .v, kb := .k, kc := .v, ty := 0, rnd := 0, sat := false, sub := 0 }) := by rfl

theorem decode_bcast : decode 0x21E291569620CC0000020000 =
    .ok (.bcast { gn := true, gp := 2, stall := 9, sbset := 0, sbwait := 0x55, yld := true }
      { d := 1201, a := 51, b := 0, c := 0, kd := false, ka := .k, kb := .v, kc := .v, ty := 0, rnd := 0, sat := false, sub := 0 }) := by rfl

theorem decode_shfl : decode 0x222291569630150281006003 =
    .ok (.shfl { gn := true, gp := 2, stall := 9, sbset := 0, sbwait := 0x55, yld := true }
      { d := 1201, a := 1029, b := 517, c := 16, kd := false, ka := .v, kb := .v, kc := .imm, ty := 0, rnd := 0, sat := false, sub := 3 }) := by rfl

theorem decode_vote : decode 0x2262915696200C0000040002 =
    .ok (.vote { gn := true, gp := 2, stall := 9, sbset := 0, sbwait := 0x55, yld := true }
      { d := 1201, a := 3, b := 0, c := 0, kd := false, ka := .p, kb := .v, kc := .v, ty := 0, rnd := 0, sat := false, sub := 2 }) := by rfl

theorem decode_lmatch : decode 0x22A291569630180000000001 =
    .ok (.lmatch { gn := true, gp := 2, stall := 9, sbset := 0, sbwait := 0x55, yld := true }
      { d := 1201, a := 1030, b := 0, c := 0, kd := false, ka := .v, kb := .v, kc := .v, ty := 0, rnd := 0, sat := false, sub := 1 }) := by rfl

theorem decode_getsr : decode 0x22E291569620440000060000 =
    .ok (.getsr { gn := true, gp := 2, stall := 9, sbset := 0, sbwait := 0x55, yld := true }
      { d := 1201, a := 17, b := 0, c := 0, kd := false, ka := .imm, kb := .v, kc := .v, ty := 0, rnd := 0, sat := false, sub := 0 }) := by rfl

theorem decode_setsr : decode 0x232291560000450280060000 =
    .ok (.setsr { gn := true, gp := 2, stall := 9, sbset := 0, sbwait := 0x55, yld := true }
      { d := 0, a := 17, b := 517, c := 0, kd := false, ka := .imm, kb := .v, kc := .v, ty := 0, rnd := 0, sat := false, sub := 0 }) := by rfl

theorem decode_p2v : decode 0x236291569630180000000000 =
    .ok (.p2v { gn := true, gp := 2, stall := 9, sbset := 0, sbwait := 0x55, yld := true }
      { d := 1201, a := 1030, b := 0, c := 0, kd := false, ka := .v, kb := .v, kc := .v, ty := 0, rnd := 0, sat := false, sub := 0 }) := by rfl

theorem decode_v2p : decode 0x23A291560010190280000000 =
    .ok (.v2p { gn := true, gp := 2, stall := 9, sbset := 0, sbwait := 0x55, yld := true }
      { d := 0, a := 1030, b := 517, c := 0, kd := false, ka := .v, kb := .v, kc := .v, ty := 0, rnd := 0, sat := false, sub := 0 }) := by rfl

theorem decode_redux : decode 0x23E291569630180000000A05 =
    .ok (.redux { gn := true, gp := 2, stall := 9, sbset := 0, sbwait := 0x55, yld := true }
      { d := 1201, a := 1030, b := 0, c := 0, kd := false, ka := .v, kb := .v, kc := .v, ty := 5, rnd := 0, sat := false, sub := 5 }) := by rfl

theorem decode_bra : decode 0x30229B56FFFFFFF400000000 =
    .ok (.bra { gn := true, gp := 2, stall := 9, sbset := 5, sbwait := 0x55, yld := true }
      { tgt := 0xFFFFFFF4, a := 0, ka := .v, sub := 0, rsv := 0 }) := by rfl

theorem decode_brx : decode 0x30629B560000000007C80000 =
    .ok (.brx { gn := true, gp := 2, stall := 9, sbset := 5, sbwait := 0x55, yld := true }
      { tgt := 0x0, a := 62, ka := .k, sub := 0, rsv := 0 }) := by rfl

theorem decode_call : decode 0x30A29B5600ABCD1000000000 =
    .ok (.call { gn := true, gp := 2, stall := 9, sbset := 5, sbwait := 0x55, yld := true }
      { tgt := 0xABCD10, a := 0, ka := .v, sub := 0, rsv := 0 }) := by rfl

theorem decode_callx : decode 0x30E29B560000000080C00000 =
    .ok (.callx { gn := true, gp := 2, stall := 9, sbset := 5, sbwait := 0x55, yld := true }
      { tgt := 0x0, a := 1030, ka := .v, sub := 0, rsv := 0 }) := by rfl

theorem decode_ret : decode 0x31229B560000000000000000 =
    .ok (.ret { gn := true, gp := 2, stall := 9, sbset := 5, sbwait := 0x55, yld := true }
      { tgt := 0x0, a := 0, ka := .v, sub := 0, rsv := 0 }) := by rfl

theorem decode_rcv : decode 0x315F9B560000012000000000 =
    .ok (.rcv { gn := false, gp := 31, stall := 9, sbset := 5, sbwait := 0x55, yld := true }
      { tgt := 0x120, a := 0, ka := .v, sub := 0, rsv := 0 }) := by rfl

theorem decode_exit : decode 0x31A29B560000000000000000 =
    .ok (.exit { gn := true, gp := 2, stall := 9, sbset := 5, sbwait := 0x55, yld := true }
      { tgt := 0x0, a := 0, ka := .v, sub := 0, rsv := 0 }) := by rfl

theorem decode_maskr : decode 0x31E291560000000080A00000 =
    .ok (.maskr { gn := true, gp := 2, stall := 9, sbset := 0, sbwait := 0x55, yld := true }
      { tgt := 0x0, a := 1029, ka := .v, sub := 0, rsv := 0 }) := by rfl

theorem decode_maskw : decode 0x321F9B568000FFFF00180000 =
    .ok (.maskw { gn := false, gp := 31, stall := 9, sbset := 5, sbwait := 0x55, yld := true }
      { tgt := 0x8000FFFF, a := 0, ka := .imm, sub := 0, rsv := 0 }) := by rfl

theorem decode_nop : decode 0x32629B560000000000000000 =
    .ok (.nop { gn := true, gp := 2, stall := 9, sbset := 5, sbwait := 0x55, yld := true }
      { tgt := 0x0, a := 0, ka := .v, sub := 0, rsv := 0 }) := by rfl

theorem decode_yield : decode 0x329F9B560000000000000000 =
    .ok (.yield { gn := false, gp := 31, stall := 9, sbset := 5, sbwait := 0x55, yld := true }
      { tgt := 0x0, a := 0, ka := .v, sub := 0, rsv := 0 }) := by rfl

theorem decode_yieldReq : decode 0x329F9B560000000000010000 =
    .ok (.yieldReq { gn := false, gp := 31, stall := 9, sbset := 5, sbwait := 0x55, yld := true }
      { tgt := 0x0, a := 0, ka := .v, sub := 1, rsv := 0 }) := by rfl

theorem decode_sleep : decode 0x32DF9B560000000004280000 =
    .ok (.sleep { gn := false, gp := 31, stall := 9, sbset := 5, sbwait := 0x55, yld := true }
      { tgt := 0x0, a := 33, ka := .k, sub := 0, rsv := 0 }) := by rfl

theorem decode_cont : decode 0x331F9B56FFFFFF0000000000 =
    .ok (.cont { gn := false, gp := 31, stall := 9, sbset := 5, sbwait := 0x55, yld := true }
      { tgt := 0xFFFFFF00, a := 0, ka := .v, sub := 0, rsv := 0 }) := by rfl

theorem decode_contOff : decode 0x331F9B560000000000010000 =
    .ok (.contOff { gn := false, gp := 31, stall := 9, sbset := 5, sbwait := 0x55, yld := true }
      { tgt := 0x0, a := 0, ka := .v, sub := 1, rsv := 0 }) := by rfl

theorem decode_cret : decode 0x335F9B560000000000000000 =
    .ok (.cret { gn := false, gp := 31, stall := 9, sbset := 5, sbwait := 0x55, yld := true }
      { tgt := 0x0, a := 0, ka := .v, sub := 0, rsv := 0 }) := by rfl

theorem decode_fadd : decode 0x4022915696301902800016DB =
    .ok (.fadd { gn := true, gp := 2, stall := 9, sbset := 0, sbwait := 0x55, yld := true }
      { d := 1201, a := 1030, b := 517, c := 0, kd := false, ka := .v, kb := .v, kc := .v, ty := 11, rnd := 3, sat := false, sub := 27 }) := by rfl

theorem decode_fmul : decode 0x4062915696301902800016DB =
    .ok (.fmul { gn := true, gp := 2, stall := 9, sbset := 0, sbwait := 0x55, yld := true }
      { d := 1201, a := 1030, b := 517, c := 0, kd := false, ka := .v, kb := .v, kc := .v, ty := 11, rnd := 3, sat := false, sub := 27 }) := by rfl

theorem decode_ffma : decode 0x40A2915696301902FCF01516 =
    .ok (.ffma { gn := true, gp := 2, stall := 9, sbset := 0, sbwait := 0x55, yld := true }
      { d := 1201, a := 1030, b := 517, c := 1999, kd := false, ka := .v, kb := .v, kc := .v, ty := 10, rnd := 4, sat := false, sub := 22 }) := by rfl

theorem decode_fmin : decode 0x40E29156963019028000161B =
    .ok (.fmin { gn := true, gp := 2, stall := 9, sbset := 0, sbwait := 0x55, yld := true }
      { d := 1201, a := 1030, b := 517, c := 0, kd := false, ka := .v, kb := .v, kc := .v, ty := 11, rnd := 0, sat := false, sub := 27 }) := by rfl

theorem decode_fmax : decode 0x41229156963019028000161B =
    .ok (.fmax { gn := true, gp := 2, stall := 9, sbset := 0, sbwait := 0x55, yld := true }
      { d := 1201, a := 1030, b := 517, c := 0, kd := false, ka := .v, kb := .v, kc := .v, ty := 11, rnd := 0, sat := false, sub := 27 }) := by rfl

theorem decode_frnd : decode 0x41629B5696301800000016D9 =
    .ok (.frnd { gn := true, gp := 2, stall := 9, sbset := 5, sbwait := 0x55, yld := true }
      { d := 1201, a := 1030, b := 0, c := 0, kd := false, ka := .v, kb := .v, kc := .v, ty := 11, rnd := 3, sat := false, sub := 25 }) := by rfl

theorem decode_fclass : decode 0x41A29B569630180000001A00 =
    .ok (.fclass { gn := true, gp := 2, stall := 9, sbset := 5, sbwait := 0x55, yld := true }
      { d := 1201, a := 1030, b := 0, c := 0, kd := false, ka := .v, kb := .v, kc := .v, ty := 13, rnd := 0, sat := false, sub := 0 }) := by rfl

theorem decode_fdot2 : decode 0x41E2915696301902FCF016DF =
    .ok (.fdot2 { gn := true, gp := 2, stall := 9, sbset := 0, sbwait := 0x55, yld := true }
      { d := 1201, a := 1030, b := 517, c := 1999, kd := false, ka := .v, kb := .v, kc := .v, ty := 11, rnd := 3, sat := false, sub := 31 }) := by rfl

theorem decode_fscale : decode 0x42229B5696301902800016D9 =
    .ok (.fscale { gn := true, gp := 2, stall := 9, sbset := 5, sbwait := 0x55, yld := true }
      { d := 1201, a := 1030, b := 517, c := 0, kd := false, ka := .v, kb := .v, kc := .v, ty := 11, rnd := 3, sat := false, sub := 25 }) := by rfl

theorem decode_ffrexp : decode 0x42629B569610180000001219 =
    .ok (.ffrexp { gn := true, gp := 2, stall := 9, sbset := 5, sbwait := 0x55, yld := true }
      { d := 1200, a := 1030, b := 0, c := 0, kd := false, ka := .v, kb := .v, kc := .v, ty := 9, rnd := 0, sat := false, sub := 25 }) := by rfl

theorem decode_cvt : decode 0x502291569630180000000AD9 =
    .ok (.cvt { gn := true, gp := 2, stall := 9, sbset := 0, sbwait := 0x55, yld := true }
      { d := 1201, a := 1030, b := 0, c := 0, kd := false, ka := .v, kb := .v, kc := .v, ty := 5, rnd := 3, sat := false, sub := 25 }) := by rfl

theorem decode_cvtQ : decode 0x50229156963018028001800E =
    .ok (.cvtQ { gn := true, gp := 2, stall := 9, sbset := 0, sbwait := 0x55, yld := true }
      { d := 1201, a := 1030, b := 5, c := 0, kd := false, ka := .v, kb := .imm, kc := .v, ty := 0, rnd := 0, sat := false, sub := 14 }) := by rfl

theorem decode_cvtDq : decode 0x50229156963018030001800F =
    .ok (.cvtDq { gn := true, gp := 2, stall := 9, sbset := 0, sbwait := 0x55, yld := true }
      { d := 1201, a := 1030, b := 6, c := 0, kd := false, ka := .v, kb := .imm, kc := .v, ty := 0, rnd := 0, sat := false, sub := 15 }) := by rfl

theorem decode_pack : decode 0x5062915696301902FCF00000 =
    .ok (.pack { gn := true, gp := 2, stall := 9, sbset := 0, sbwait := 0x55, yld := true }
      { d := 1201, a := 1030, b := 517, c := 1999, kd := false, ka := .v, kb := .v, kc := .v, ty := 0, rnd := 0, sat := false, sub := 0 }) := by rfl

theorem decode_unpk : decode 0x50A291569610180080018200 =
    .ok (.unpk { gn := true, gp := 2, stall := 9, sbset := 0, sbwait := 0x55, yld := true }
      { d := 1200, a := 1030, b := 1, c := 0, kd := false, ka := .v, kb := .imm, kc := .v, ty := 1, rnd := 0, sat := false, sub := 0 }) := by rfl

theorem decode_bpnspl : decode 0x50E29B569630141680008000 =
    .ok (.bpnspl { gn := true, gp := 2, stall := 9, sbset := 5, sbwait := 0x55, yld := true }
      { d := 1201, a := 1029, b := 45, c := 0, kd := false, ka := .v, kb := .k, kc := .v, ty := 0, rnd := 0, sat := false, sub := 0 }) := by rfl

theorem decode_bpnjn : decode 0x51229B56963014168080E000 =
    .ok (.bpnjn { gn := true, gp := 2, stall := 9, sbset := 5, sbwait := 0x55, yld := true }
      { d := 1201, a := 1029, b := 45, c := 8, kd := false, ka := .v, kb := .k, kc := .imm, ty := 0, rnd := 0, sat := false, sub := 0 }) := by rfl

theorem decode_frcp : decode 0x51629B569630180000001209 =
    .ok (.frcp { gn := true, gp := 2, stall := 9, sbset := 5, sbwait := 0x55, yld := true }
      { d := 1201, a := 1030, b := 0, c := 0, kd := false, ka := .v, kb := .v, kc := .v, ty := 9, rnd := 0, sat := false, sub := 9 }) := by rfl

theorem decode_frsq : decode 0x51A29B569630180000001209 =
    .ok (.frsq { gn := true, gp := 2, stall := 9, sbset := 5, sbwait := 0x55, yld := true }
      { d := 1201, a := 1030, b := 0, c := 0, kd := false, ka := .v, kb := .v, kc := .v, ty := 9, rnd := 0, sat := false, sub := 9 }) := by rfl

theorem decode_fsqrt : decode 0x51E29B5696301800000012D9 =
    .ok (.fsqrt { gn := true, gp := 2, stall := 9, sbset := 5, sbwait := 0x55, yld := true }
      { d := 1201, a := 1030, b := 0, c := 0, kd := false, ka := .v, kb := .v, kc := .v, ty := 9, rnd := 3, sat := false, sub := 25 }) := by rfl

theorem decode_fex2 : decode 0x52229B569630180000001209 =
    .ok (.fex2 { gn := true, gp := 2, stall := 9, sbset := 5, sbwait := 0x55, yld := true }
      { d := 1201, a := 1030, b := 0, c := 0, kd := false, ka := .v, kb := .v, kc := .v, ty := 9, rnd := 0, sat := false, sub := 9 }) := by rfl

theorem decode_flg2 : decode 0x52629B569630180000001209 =
    .ok (.flg2 { gn := true, gp := 2, stall := 9, sbset := 5, sbwait := 0x55, yld := true }
      { d := 1201, a := 1030, b := 0, c := 0, kd := false, ka := .v, kb := .v, kc := .v, ty := 9, rnd := 0, sat := false, sub := 9 }) := by rfl

theorem decode_fsin : decode 0x52A29B569630180000001209 =
    .ok (.fsin { gn := true, gp := 2, stall := 9, sbset := 5, sbwait := 0x55, yld := true }
      { d := 1201, a := 1030, b := 0, c := 0, kd := false, ka := .v, kb := .v, kc := .v, ty := 9, rnd := 0, sat := false, sub := 9 }) := by rfl

theorem decode_fcos : decode 0x52E29B569630180000001209 =
    .ok (.fcos { gn := true, gp := 2, stall := 9, sbset := 5, sbwait := 0x55, yld := true }
      { d := 1201, a := 1030, b := 0, c := 0, kd := false, ka := .v, kb := .v, kc := .v, ty := 9, rnd := 0, sat := false, sub := 9 }) := by rfl

theorem decode_ftanh : decode 0x53229B569630180000001209 =
    .ok (.ftanh { gn := true, gp := 2, stall := 9, sbset := 5, sbwait := 0x55, yld := true }
      { d := 1201, a := 1030, b := 0, c := 0, kd := false, ka := .v, kb := .v, kc := .v, ty := 9, rnd := 0, sat := false, sub := 9 }) := by rfl

theorem decode_fdiv : decode 0x53629B5696301902800012DB =
    .ok (.fdiv { gn := true, gp := 2, stall := 9, sbset := 5, sbwait := 0x55, yld := true }
      { d := 1201, a := 1030, b := 517, c := 0, kd := false, ka := .v, kb := .v, kc := .v, ty := 9, rnd := 3, sat := false, sub := 27 }) := by rfl

theorem decode_qshr : decode 0x53A2915696301902FCF00A00 =
    .ok (.qshr { gn := true, gp := 2, stall := 9, sbset := 0, sbwait := 0x55, yld := true }
      { d := 1201, a := 1030, b := 517, c := 1999, kd := false, ka := .v, kb := .v, kc := .v, ty := 5, rnd := 0, sat := false, sub := 0 }) := by rfl

theorem decode_qmul : decode 0x53E291569630190280000000 =
    .ok (.qmul { gn := true, gp := 2, stall := 9, sbset := 0, sbwait := 0x55, yld := true }
      { d := 1201, a := 1030, b := 517, c := 0, kd := false, ka := .v, kb := .v, kc := .v, ty := 0, rnd := 0, sat := false, sub := 0 }) := by rfl

theorem decode_ld : decode 0x60229B5696101848D15A1340 =
    .ok (.ld { gn := true, gp := 2, stall := 9, sbset := 5, sbwait := 0x55, yld := true }
      { d := 1200, a := 1030, off := 0x123456, width := 8, ord := 2, scope := 3, cache := 1, ka := false, raw := false, sub := 0 }) := by rfl

theorem decode_st : decode 0x60629B5696101BFB72E9DC90 =
    .ok (.st { gn := true, gp := 2, stall := 9, sbset := 5, sbwait := 0x55, yld := true }
      { d := 1200, a := 1030, off := 0xFEDCBA, width := 7, ord := 3, scope := 4, cache := 2, ka := false, raw := true, sub := 0 }) := by rfl

theorem decode_lds : decode 0x60A29B56963014008D145100 =
    .ok (.lds { gn := true, gp := 2, stall := 9, sbset := 5, sbwait := 0x55, yld := true }
      { d := 1201, a := 1029, off := 0x2345, width := 1, ord := 2, scope := 1, cache := 0, ka := false, raw := false, sub := 0 }) := by rfl

theorem decode_sts : decode 0x60E29B56961017FFFE021911 =
    .ok (.sts { gn := true, gp := 2, stall := 9, sbset := 5, sbwait := 0x55, yld := true }
      { d := 1200, a := 1029, off := 0xFFFF80, width := 8, ord := 3, scope := 1, cache := 0, ka := false, raw := true, sub := 1 }) := by rfl

theorem decode_tld : decode 0x61229B569600840001020020 =
    .ok (.tld { gn := true, gp := 2, stall := 9, sbset := 5, sbwait := 0x55, yld := true }
      { d := 1200, a := 33, off := 0x40, width := 8, ord := 0, scope := 0, cache := 0, ka := true, raw := false, sub := 0 }) := by rfl

theorem decode_tst : decode 0x61629B56961014000111C010 =
    .ok (.tst { gn := true, gp := 2, stall := 9, sbset := 5, sbwait := 0x55, yld := true }
      { d := 1200, a := 1029, off := 0x44, width := 7, ord := 0, scope := 0, cache := 0, ka := false, raw := true, sub := 0 }) := by rfl

theorem decode_ldk : decode 0x61A29B56960000000121C000 =
    .ok (.ldk { gn := true, gp := 2, stall := 9, sbset := 5, sbwait := 0x55, yld := true }
      { d := 1200, a := 0, off := 0x48, width := 7, ord := 0, scope := 0, cache := 0, ka := false, raw := false, sub := 0 }) := by rfl

theorem decode_pref : decode 0x61E29B560000F800020002E0 =
    .ok (.pref { gn := true, gp := 2, stall := 9, sbset := 5, sbwait := 0x55, yld := true }
      { d := 0, a := 62, off := 0x80, width := 0, ord := 0, scope := 2, cache := 3, ka := true, raw := false, sub := 0 }) := by rfl

theorem decode_feset : decode 0x62229B560010140004000000 =
    .ok (.feset { gn := true, gp := 2, stall := 9, sbset := 5, sbwait := 0x55, yld := true }
      { d := 0, a := 1029, off := 0x100, width := 0, ord := 0, scope := 0, cache := 0, ka := false, raw := false, sub := 0 }) := by rfl

theorem decode_feclr : decode 0x62629B560000840006000020 =
    .ok (.feclr { gn := true, gp := 2, stall := 9, sbset := 5, sbwait := 0x55, yld := true }
      { d := 0, a := 33, off := 0x180, width := 0, ord := 0, scope := 0, cache := 0, ka := true, raw := false, sub := 0 }) := by rfl

theorem decode_atom : decode 0x70229B56961019030097FC78 =
    .ok (.atom { gn := true, gp := 2, stall := 9, sbset := 5, sbwait := 0x55, yld := true }
      { d := 1200, a := 1030, b := 518, c := 9, off := 0x7FC, width := 1, ord := 3, scope := 4, noret := false }) := by rfl

theorem decode_atomcas : decode 0x70629B56961019037CE80464 =
    .ok (.atomcas { gn := true, gp := 2, stall := 9, sbset := 5, sbwait := 0x55, yld := true }
      { d := 1200, a := 1030, b := 518, c := 1998, off := 0x804, width := 1, ord := 2, scope := 2, noret := false }) := by rfl

theorem decode_atoms : decode 0x70A29B569630150280D00812 =
    .ok (.atoms { gn := true, gp := 2, stall := 9, sbset := 5, sbwait := 0x55, yld := true }
      { d := 1201, a := 1029, b := 517, c := 13, off := 0x8, width := 0, ord := 1, scope := 1, noret := false }) := by rfl

theorem decode_atomscas : decode 0x70E29B56961015037CE01070 =
    .ok (.atomscas { gn := true, gp := 2, stall := 9, sbset := 5, sbwait := 0x55, yld := true }
      { d := 1200, a := 1029, b := 518, c := 1998, off := 0x10, width := 1, ord := 3, scope := 0, noret := false }) := by rfl

theorem decode_red : decode 0x71229B560010190280BFFC17 =
    .ok (.red { gn := true, gp := 2, stall := 9, sbset := 5, sbwait := 0x55, yld := true }
      { d := 0, a := 1030, b := 517, c := 11, off := 0xFFC, width := 0, ord := 1, scope := 3, noret := true }) := by rfl

theorem decode_fence : decode 0x80229B560000000000000043 =
    .ok (.fence { gn := true, gp := 2, stall := 9, sbset := 5, sbwait := 0x55, yld := true }
      { d := 0, a := 0, b := 0, imm := 0x43 }) := by rfl

theorem decode_mwait : decode 0x81E29B56961019037CF00868 =
    .ok (.mwait { gn := true, gp := 2, stall := 9, sbset := 5, sbwait := 0x55, yld := true }
      { d := 1200, a := 1030, b := 518, c := 1999, off := 0x8, width := 1, ord := 2, scope := 4, noret := false }) := by rfl

theorem decode_bar : decode 0x80629B5603A000000005FF47 =
    .ok (.bar { gn := true, gp := 2, stall := 9, sbset := 5, sbwait := 0x55, yld := true }
      { d := 29, a := 0, b := 0, imm := 0x5FF47 }) := by rfl

theorem decode_phreg : decode 0x80A29B56000000000000033F =
    .ok (.phreg { gn := true, gp := 2, stall := 9, sbset := 5, sbwait := 0x55, yld := true }
      { d := 0, a := 0, b := 0, imm := 0x33F }) := by rfl

theorem decode_phdrop : decode 0x80E29B560000000000000027 =
    .ok (.phdrop { gn := true, gp := 2, stall := 9, sbset := 5, sbwait := 0x55, yld := true }
      { d := 0, a := 0, b := 0, imm := 0x27 }) := by rfl

theorem decode_phsig : decode 0x81229B56000000000000005F =
    .ok (.phsig { gn := true, gp := 2, stall := 9, sbset := 5, sbwait := 0x55, yld := true }
      { d := 0, a := 0, b := 0, imm := 0x5F }) := by rfl

theorem decode_phwait : decode 0x81629B5603A000000000005F =
    .ok (.phwait { gn := true, gp := 2, stall := 9, sbset := 5, sbwait := 0x55, yld := true }
      { d := 29, a := 0, b := 0, imm := 0x5F }) := by rfl

theorem decode_phsw : decode 0x81A29B5603A0000000000020 =
    .ok (.phsw { gn := true, gp := 2, stall := 9, sbset := 5, sbwait := 0x55, yld := true }
      { d := 29, a := 0, b := 0, imm := 0x20 }) := by rfl

theorem decode_gsync : decode 0x82229B5603A0000000000000 =
    .ok (.gsync { gn := true, gp := 2, stall := 9, sbset := 5, sbwait := 0x55, yld := true }
      { d := 29, a := 0, b := 0, imm := 0x0 }) := by rfl

theorem decode_abase : decode 0x90229B569600000000060000 =
    .ok (.abase { gn := true, gp := 2, stall := 9, sbset := 5, sbwait := 0x55, yld := true }
      { d := 1200, a := 0, b := 0, c := 0, kd := false, ka := .imm, kb := .v, kc := .v, ty := 0, rnd := 0, sat := false, sub := 0 }) := by rfl

theorem decode_abump : decode 0x90629B569600010280060000 =
    .ok (.abump { gn := true, gp := 2, stall := 9, sbset := 5, sbwait := 0x55, yld := true }
      { d := 1200, a := 0, b := 517, c := 0, kd := false, ka := .imm, kb := .v, kc := .v, ty := 0, rnd := 0, sat := false, sub := 0 }) := by rfl

theorem decode_aprom : decode 0x90A29B569610190280506000 =
    .ok (.aprom { gn := true, gp := 2, stall := 9, sbset := 5, sbwait := 0x55, yld := true }
      { d := 1200, a := 1030, b := 517, c := 5, kd := false, ka := .v, kb := .v, kc := .imm, ty := 0, rnd := 0, sat := false, sub := 0 }) := by rfl

theorem decode_ahand : decode 0x90E29B5696101902FCF00000 =
    .ok (.ahand { gn := true, gp := 2, stall := 9, sbset := 5, sbwait := 0x55, yld := true }
      { d := 1200, a := 1030, b := 517, c := 1999, kd := false, ka := .v, kb := .v, kc := .v, ty := 0, rnd := 0, sat := false, sub := 0 }) := by rfl

theorem decode_aqry : decode 0x91229B569630180000000000 =
    .ok (.aqry { gn := true, gp := 2, stall := 9, sbset := 5, sbwait := 0x55, yld := true }
      { d := 1201, a := 1030, b := 0, c := 0, kd := false, ka := .v, kb := .v, kc := .v, ty := 0, rnd := 0, sat := false, sub := 0 }) := by rfl

theorem decode_achk : decode 0x91629B5603B0180000000000 =
    .ok (.achk { gn := true, gp := 2, stall := 9, sbset := 5, sbwait := 0x55, yld := true }
      { d := 29, a := 1030, b := 0, c := 0, kd := false, ka := .v, kb := .v, kc := .v, ty := 0, rnd := 0, sat := false, sub := 0 }) := by rfl

theorem decode_adrop : decode 0x91A29B560010190280000000 =
    .ok (.adrop { gn := true, gp := 2, stall := 9, sbset := 5, sbwait := 0x55, yld := true }
      { d := 0, a := 1030, b := 517, c := 0, kd := false, ka := .v, kb := .v, kc := .v, ty := 0, rnd := 0, sat := false, sub := 0 }) := by rfl

theorem decode_cpy : decode 0xA0229B56963019031FF00404 =
    .ok (.cpy { gn := true, gp := 2, stall := 9, sbset := 5, sbwait := 0x55, yld := true }
      { d := 1201, a := 1030, b := 518, imm := 0x1FF00404 }) := by rfl

theorem decode_cpyt : decode 0xA0629B569630140040000000 =
    .ok (.cpyt { gn := true, gp := 2, stall := 9, sbset := 5, sbwait := 0x55, yld := true }
      { d := 1201, a := 1029, b := 0, imm := 0x40000000 }) := by rfl

theorem decode_sortk : decode 0xA0A29B569630140040000000 =
    .ok (.sortk { gn := true, gp := 2, stall := 9, sbset := 5, sbwait := 0x55, yld := true }
      { d := 1201, a := 1029, b := 0, imm := 0x40000000 }) := by rfl

theorem decode_npost : decode 0xA0E29B569630140040000000 =
    .ok (.npost { gn := true, gp := 2, stall := 9, sbset := 5, sbwait := 0x55, yld := true }
      { d := 1201, a := 1029, b := 0, imm := 0x40000000 }) := by rfl

theorem decode_erun : decode 0xA1229B560010140000000000 =
    .ok (.erun { gn := true, gp := 2, stall := 9, sbset := 5, sbwait := 0x55, yld := true }
      { d := 0, a := 1029, b := 0, imm := 0x0 }) := by rfl

theorem decode_estat : decode 0xA1629B569630140000000000 =
    .ok (.estat { gn := true, gp := 2, stall := 9, sbset := 5, sbwait := 0x55, yld := true }
      { d := 1201, a := 1029, b := 0, imm := 0x0 }) := by rfl

theorem decode_elink : decode 0xA1A29B560010150280000000 =
    .ok (.elink { gn := true, gp := 2, stall := 9, sbset := 5, sbwait := 0x55, yld := true }
      { d := 0, a := 1029, b := 517, imm := 0x0 }) := by rfl

theorem decode_launch : decode 0xA1E29B569630180040000000 =
    .ok (.launch { gn := true, gp := 2, stall := 9, sbset := 5, sbwait := 0x55, yld := true }
      { d := 1201, a := 1030, b := 0, imm := 0x40000000 }) := by rfl

theorem decode_mma : decode 0xB0229B561922043AF80007FF =
    .ok (.mma { gn := true, gp := 2, stall := 9, sbset := 5, sbwait := 0x55, yld := true }
      { d := 201, a := 129, b := 117, imm := 0x780007FF }) := by rfl

theorem decode_mmasp : decode 0xB0629B561922043AF80F07FF =
    .ok (.mmasp { gn := true, gp := 2, stall := 9, sbset := 5, sbwait := 0x55, yld := true }
      { d := 201, a := 129, b := 117, imm := 0x780F07FF }) := by rfl

theorem decode_mmag : decode 0xB0A29B560002080070000000 =
    .ok (.mmag { gn := true, gp := 2, stall := 9, sbset := 5, sbwait := 0x55, yld := true }
      { d := 0, a := 130, b := 0, imm := 0x70000000 }) := by rfl

theorem decode_mxz : decode 0xB0E29B561920000000000000 =
    .ok (.mxz { gn := true, gp := 2, stall := 9, sbset := 5, sbwait := 0x55, yld := true }
      { d := 201, a := 0, b := 0, imm := 0x0 }) := by rfl

theorem decode_mxdr : decode 0xB1229B561920003B4A00FFFF =
    .ok (.mxdr { gn := true, gp := 2, stall := 9, sbset := 5, sbwait := 0x55, yld := true }
      { d := 201, a := 0, b := 118, imm := 0x4A00FFFF }) := by rfl

theorem decode_mxbl : decode 0xB1629B561922080002002000 =
    .ok (.mxbl { gn := true, gp := 2, stall := 9, sbset := 5, sbwait := 0x55, yld := true }
      { d := 201, a := 130, b := 0, imm := 0x2002000 }) := by rfl

theorem decode_mxspec : decode 0xB1A29B5600000000000000A5 =
    .ok (.mxspec { gn := true, gp := 2, stall := 9, sbset := 5, sbwait := 0x55, yld := true }
      { d := 0, a := 0, b := 0, imm := 0xA5 }) := by rfl

theorem decode_mxcmt : decode 0xB1E29B56000000000000005A =
    .ok (.mxcmt { gn := true, gp := 2, stall := 9, sbset := 5, sbwait := 0x55, yld := true }
      { d := 0, a := 0, b := 0, imm := 0x5A }) := by rfl

theorem decode_mxdsc : decode 0xB2229B5600000000000000FF =
    .ok (.mxdsc { gn := true, gp := 2, stall := 9, sbset := 5, sbwait := 0x55, yld := true }
      { d := 0, a := 0, b := 0, imm := 0xFF }) := by rfl

theorem decode_mxwait : decode 0xB2629B560000000000000010 =
    .ok (.mxwait { gn := true, gp := 2, stall := 9, sbset := 5, sbwait := 0x55, yld := true }
      { d := 0, a := 0, b := 0, imm := 0x10 }) := by rfl

theorem decode_cfn : decode 0xC0229B569630180000000000 =
    .ok (.cfn { gn := true, gp := 2, stall := 9, sbset := 5, sbwait := 0x55, yld := true }
      { d := 1201, a := 1030, b := 0, c := 0, kd := false, ka := .v, kb := .v, kc := .v, ty := 0, rnd := 0, sat := false, sub := 0 }) := by rfl

theorem decode_ccor : decode 0xC0629B569630180000000000 =
    .ok (.ccor { gn := true, gp := 2, stall := 9, sbset := 5, sbwait := 0x55, yld := true }
      { d := 1201, a := 1030, b := 0, c := 0, kd := false, ka := .v, kb := .v, kc := .v, ty := 0, rnd := 0, sat := false, sub := 0 }) := by rfl

theorem decode_cseq : decode 0xC0A29B569630190280000000 =
    .ok (.cseq { gn := true, gp := 2, stall := 9, sbset := 5, sbwait := 0x55, yld := true }
      { d := 1201, a := 1030, b := 517, c := 0, kd := false, ka := .v, kb := .v, kc := .v, ty := 0, rnd := 0, sat := false, sub := 0 }) := by rfl

theorem decode_cpar : decode 0xC0E29B569630190280000000 =
    .ok (.cpar { gn := true, gp := 2, stall := 9, sbset := 5, sbwait := 0x55, yld := true }
      { d := 1201, a := 1030, b := 517, c := 0, kd := false, ka := .v, kb := .v, kc := .v, ty := 0, rnd := 0, sat := false, sub := 0 }) := by rfl

theorem decode_cpipe : decode 0xC1229B5696301902FCF00000 =
    .ok (.cpipe { gn := true, gp := 2, stall := 9, sbset := 5, sbwait := 0x55, yld := true }
      { d := 1201, a := 1030, b := 517, c := 1999, kd := false, ka := .v, kb := .v, kc := .v, ty := 0, rnd := 0, sat := false, sub := 0 }) := by rfl

theorem decode_cfarm : decode 0xC1629B5696301902FCF00000 =
    .ok (.cfarm { gn := true, gp := 2, stall := 9, sbset := 5, sbwait := 0x55, yld := true }
      { d := 1201, a := 1030, b := 517, c := 1999, kd := false, ka := .v, kb := .v, kc := .v, ty := 0, rnd := 0, sat := false, sub := 0 }) := by rfl

theorem decode_cloop : decode 0xC1A29B56963019037CF00000 =
    .ok (.cloop { gn := true, gp := 2, stall := 9, sbset := 5, sbwait := 0x55, yld := true }
      { d := 1201, a := 1030, b := 518, c := 1999, kd := false, ka := .v, kb := .v, kc := .v, ty := 0, rnd := 0, sat := false, sub := 0 }) := by rfl

theorem decode_apply : decode 0xC1E29B569630190300000000 =
    .ok (.apply { gn := true, gp := 2, stall := 9, sbset := 5, sbwait := 0x55, yld := true }
      { d := 1201, a := 1030, b := 518, c := 0, kd := false, ka := .v, kb := .v, kc := .v, ty := 0, rnd := 0, sat := false, sub := 0 }) := by rfl

theorem decode_awaitc : decode 0xC2229B569610180000000001 =
    .ok (.awaitc { gn := true, gp := 2, stall := 9, sbset := 5, sbwait := 0x55, yld := true }
      { d := 1200, a := 1030, b := 0, c := 0, kd := false, ka := .v, kb := .v, kc := .v, ty := 0, rnd := 0, sat := false, sub := 1 }) := by rfl

theorem decode_cyld : decode 0xC2629B560000000000000000 =
    .ok (.cyld { gn := true, gp := 2, stall := 9, sbset := 5, sbwait := 0x55, yld := true }
      { d := 0, a := 0, b := 0, c := 0, kd := false, ka := .v, kb := .v, kc := .v, ty := 0, rnd := 0, sat := false, sub := 0 }) := by rfl

theorem decode_chput : decode 0xC2A29B5603B0180780018000 =
    .ok (.chput { gn := true, gp := 2, stall := 9, sbset := 5, sbwait := 0x55, yld := true }
      { d := 29, a := 1030, b := 15, c := 0, kd := false, ka := .v, kb := .imm, kc := .v, ty := 0, rnd := 0, sat := false, sub := 0 }) := by rfl

theorem decode_chget : decode 0xC2E29B5603B0180780018000 =
    .ok (.chget { gn := true, gp := 2, stall := 9, sbset := 5, sbwait := 0x55, yld := true }
      { d := 29, a := 1030, b := 15, c := 0, kd := false, ka := .v, kb := .imm, kc := .v, ty := 0, rnd := 0, sat := false, sub := 0 }) := by rfl

theorem decode_ftake : decode 0xC3229B5696203C0000060001 =
    .ok (.ftake { gn := true, gp := 2, stall := 9, sbset := 5, sbwait := 0x55, yld := true }
      { d := 1201, a := 15, b := 0, c := 0, kd := false, ka := .imm, kb := .v, kc := .v, ty := 0, rnd := 0, sat := false, sub := 1 }) := by rfl

theorem decode_cfree : decode 0xC3629B560010180000000000 =
    .ok (.cfree { gn := true, gp := 2, stall := 9, sbset := 5, sbwait := 0x55, yld := true }
      { d := 0, a := 1030, b := 0, c := 0, kd := false, ka := .v, kb := .v, kc := .v, ty := 0, rnd := 0, sat := false, sub := 0 }) := by rfl

theorem decode_trap : decode 0xD02291560000000002FBBC00 =
    .ok (.trap { gn := true, gp := 2, stall := 9, sbset := 0, sbwait := 0x55, yld := true }
      { d := 0, a := 0, imm := 0xBEEF, kd := false, ka := .v, ty := 0, sub := 0 }) := by rfl

theorem decode_bkpt : decode 0xD1A291560000000000000000 =
    .ok (.bkpt { gn := true, gp := 2, stall := 9, sbset := 0, sbwait := 0x55, yld := true }
      { d := 0, a := 0, b := 0, c := 0, kd := false, ka := .v, kb := .v, kc := .v, ty := 0, rnd := 0, sat := false, sub := 0 }) := by rfl

theorem decode_tretResume : decode 0xD05F91560000000000000000 =
    .ok (.tretResume { gn := false, gp := 31, stall := 9, sbset := 0, sbwait := 0x55, yld := true }
      { d := 0, a := 0, b := 0, c := 0, kd := false, ka := .v, kb := .v, kc := .v, ty := 0, rnd := 0, sat := false, sub := 0 }) := by rfl

theorem decode_tretKill : decode 0xD05F91560000000000000001 =
    .ok (.tretKill { gn := false, gp := 31, stall := 9, sbset := 0, sbwait := 0x55, yld := true }
      { d := 0, a := 0, b := 0, c := 0, kd := false, ka := .v, kb := .v, kc := .v, ty := 0, rnd := 0, sat := false, sub := 1 }) := by rfl

theorem decode_sigchk : decode 0xD0A2915600000048D32BF800 =
    .ok (.sigchk { gn := true, gp := 2, stall := 9, sbset := 0, sbwait := 0x55, yld := true }
      { d := 0, a := 0, imm := 0x1234CAFE, kd := false, ka := .v, ty := 0, sub := 0 }) := by rfl

theorem decode_sigrst : decode 0xD0E291560000000000000000 =
    .ok (.sigrst { gn := true, gp := 2, stall := 9, sbset := 0, sbwait := 0x55, yld := true }
      { d := 0, a := 0, b := 0, c := 0, kd := false, ka := .v, kb := .v, kc := .v, ty := 0, rnd := 0, sat := false, sub := 0 }) := by rfl

theorem decode_mchkr : decode 0xD1229B5696000C0000060000 =
    .ok (.mchkr { gn := true, gp := 2, stall := 9, sbset := 5, sbwait := 0x55, yld := true }
      { d := 1200, a := 3, b := 0, c := 0, kd := false, ka := .imm, kb := .v, kc := .v, ty := 0, rnd := 0, sat := false, sub := 0 }) := by rfl

theorem decode_clock : decode 0xD1629B569600000000000000 =
    .ok (.clock { gn := true, gp := 2, stall := 9, sbset := 5, sbwait := 0x55, yld := true }
      { d := 1200, a := 0, b := 0, c := 0, kd := false, ka := .v, kb := .v, kc := .v, ty := 0, rnd := 0, sat := false, sub := 0 }) := by rfl

theorem decode_pmark : decode 0xD1E29156000003C3874B0C00 =
    .ok (.pmark { gn := true, gp := 2, stall := 9, sbset := 0, sbwait := 0x55, yld := true }
      { d := 0, a := 0, imm := 0xF0E1D2C3, kd := false, ka := .v, ty := 0, sub := 0 }) := by rfl

theorem decode_getfmt : decode 0xD222915696001C0000060000 =
    .ok (.getfmt { gn := true, gp := 2, stall := 9, sbset := 0, sbwait := 0x55, yld := true }
      { d := 1200, a := 7, b := 0, c := 0, kd := false, ka := .imm, kb := .v, kc := .v, ty := 0, rnd := 0, sat := false, sub := 0 }) := by rfl

theorem decode_sysr : decode 0xD26291569621FC0000060000 =
    .ok (.sysr { gn := true, gp := 2, stall := 9, sbset := 0, sbwait := 0x55, yld := true }
      { d := 1201, a := 127, b := 0, c := 0, kd := false, ka := .imm, kb := .v, kc := .v, ty := 0, rnd := 0, sat := false, sub := 0 }) := by rfl

theorem decode_sysw : decode 0xD2A2915600005D0280060000 =
    .ok (.sysw { gn := true, gp := 2, stall := 9, sbset := 0, sbwait := 0x55, yld := true }
      { d := 0, a := 23, b := 517, c := 0, kd := false, ka := .imm, kb := .v, kc := .v, ty := 0, rnd := 0, sat := false, sub := 0 }) := by rfl

theorem decode_asret : decode 0xD2E291560000000000000000 =
    .ok (.asret { gn := true, gp := 2, stall := 9, sbset := 0, sbwait := 0x55, yld := true }
      { d := 0, a := 0, b := 0, c := 0, kd := false, ka := .v, kb := .v, kc := .v, ty := 0, rnd := 0, sat := false, sub := 0 }) := by rfl

end Sys2Proof
end

