-- ==== Sys2Proof/Machine/Mem.lean ====
section
/-! DEFINITION. The named operations over memory: bytes by key, page tables and translation (07 R117-R122), arenas
(08 R133-R139), the L1 data cache (07 R115), and the fault ring (10 R172-R174). -/
namespace Sys2Proof.Machine

/-! ### Small changes of the state -/

def modThread (s : State) (t : Nat) (f : Thread → Thread) : State := { s with threads := tmod s.threads t f }
def modBlock (s : State) (b : Nat) (f : Block → Block) : State := { s with blocks := tmod s.blocks b f }
def modGrid (s : State) (g : Nat) (f : Grid → Grid) : State := { s with grids := tmod s.grids g f }
def modCmd (s : State) (c : Nat) (f : Cmd → Cmd) : State := { s with cmds := tmod s.cmds c f }
def modNest (s : State) (n : Nat) (f : Nest → Nest) : State := { s with nests := tmod s.nests n f }
def modCtx (s : State) (c : Nat) (f : Ctx → Ctx) : State := { s with ctxs := tmod s.ctxs c f }
def modQueue (s : State) (q : Nat) (f : Queue → Queue) : State := { s with queues := tmod s.queues q f }
def modPart (s : State) (p : Nat) (f : Part → Part) : State := { s with parts := tmod s.parts p f }
def fnOf (s : State) (fn : Nat) : Fn := (tget s.fns fn).getD {}
def modFn (s : State) (fn : Nat) (f : Fn → Fn) : State := { s with fns := tset s.fns fn (f (fnOf s fn)) }

/-- The free-value counter moves on. -/
def tick (s : State) : State := { s with freeCtr := s.freeCtr + 1 }

/-- An event that the device brings about later, after a time that the spec does not give (notes/assumptions/2.md). -/
def after (s : State) (i : Instr) : State :=
  { s with timers := s.timers ++ [(s.time + Config.delay s.freeCtr, .event i)], freeCtr := s.freeCtr + 1 }

/-- An event that is tried again after some time. -/
def again (s : State) (i : Instr) : State :=
  { s with timers := s.timers ++ [(s.time + 1 + Config.delay s.freeCtr, .event i)], freeCtr := s.freeCtr + 1 }

/-- An event at a given device time. -/
def atTime (s : State) (t : Nat) (i : Instr) : State := { s with timers := s.timers ++ [(t, .event i)] }

/-- A vector that is raised while its mask bit is set pends (03 R51, notes/assumptions/52.md). -/
def notePend (t : Tab VecTab) (fn vec : Nat) : Tab VecTab :=
  let x := (tget t fn).getD {}
  if x.opened.contains vec || x.pending.contains vec then t else tset t fn { x with pending := x.pending ++ [vec] }

/-- Raise an MSI-X vector of a function (03 R51). -/
def raiseVec (s : State) (fn vec : Nat) : State := { s with msix := s.msix ++ [(fn, vec)], vecs := notePend s.vecs fn vec }

/-- A readiness register changes: vector 1 of every function (03 R51, R52). -/
def readyVec (s : State) : State := (List.range 64).foldl (fun s f => raiseVec s f 1) s

/-- Reserve the next number. -/
def newId (s : State) : State := { s with nextId := s.nextId + 1 }

/-- A counter of a cluster's bank, if the bank is enabled, gains `k` (05 R83). -/
def count (s : State) (cluster n k : Nat) : State :=
  match tget s.banks cluster with
  | some b => if b.en then { s with banks := tset s.banks cluster { b with ctr := sset b.ctr n (sget b.ctr n + BitVec.ofNat 64 k) } } else s
  | none => s

/-- An access of a cluster's slice: a hit or a miss. -/
def countSlice (s : State) (cluster key : Nat) : State :=
  count s cluster (if Config.sliceHits s.freeCtr (key / 128) then 7 else 8) 1

/-! ### Bytes by key -/

def Memory.read (m : Memory) (a : Nat) : Byte := sget (n := 8) m a
def Memory.write (m : Memory) (a : Nat) (b : Byte) : Memory := sset (n := 8) m a b

/-- Read `n` bytes from a key on. -/
def Memory.readN (m : Memory) (a n : Nat) : List Byte := (List.range n).map fun j => m.read (a + j)

/-- Write bytes from a key on. -/
def Memory.writeN (m : Memory) (a : Nat) : List Byte → Memory
  | [] => m
  | b :: bs => Memory.writeN (m.write a b) (a + 1) bs

def rdN (s : State) (a n : Nat) : List Byte := s.mem.readN a n
/-- A little-endian number of `n` bytes (00 R3). -/
def rdNat (s : State) (a n : Nat) : Nat := leNat (rdN s a n)

/-- Fragments that watch one of `n` bytes from a key on, as (thread, fragment) (17 R336). -/
def watchers (s : State) (a n : Nat) : List (Nat × Nat) :=
  s.threads.flatMap fun (t, th) => th.frags.filterMap fun (f, fr) =>
    match fr.park with
    | .mwait _ w ws _ _ _ _ => if ws.any (fun x => x.pkg.isNone && x.key < a + n && a < x.key + w) then some (t, f) else none
    | _ => none

/-- Queues whose head WAITSIG waits on one of the bytes (04 R65). -/
def sigWatchers (s : State) (a n : Nat) : List Nat :=
  s.queues.filterMap fun e => match e.2.watch with
    | some k => if k < a + n && a < k + 8 then some e.1 else none
    | none => none

/-- A watching fragment keeps a value that differs from what it expects, so that no change is missed (09 R157). -/
def noteStore (m : Memory) (a n : Nat) (f : Frag) : Frag :=
  match f.park with
  | .mwait d w ws sys st tmo tok =>
    let note (x : Watch) : Watch :=
      let v := leNat (m.readN x.key w)
      if x.pkg.isNone && x.got.isNone && x.key < a + n && a < x.key + w && v != x.want then { x with got := some v } else x
    { f with park := .mwait d w (ws.map note) sys st tmo tok }
  | _ => f

/-- A store reaches its home: the bytes change, every watching fragment notes the change and is woken (17 R336, 09 R157), and a WAITSIG
is read again (04 R65). -/
def storeKey (s : State) (a : Nat) (bs : List Byte) : State :=
  let m := s.mem.writeN a bs
  let see (s : State) (x : Nat × Nat) : State :=
    after (modThread s x.1 fun th => { th with frags := tmod th.frags x.2 (noteStore m a bs.length) }) (.mwaitWake x.1 x.2)
  let s' := (watchers s a bs.length).foldl see { s with mem := m }
  (sigWatchers s a bs.length).foldl (fun s q => after s (.waitsigReread q)) s'

/-! ### Page tables (07 R117-R121) -/

/-- The device physical addresses that exist (07 R117). -/
def devAddrOk (a : Nat) : Bool :=
  a < 0x4000000000 || (0x4000000000 ≤ a && a ≤ 0x43FFFFFFFF) || (0x5000000000 ≤ a && a ≤ 0x53FFFFFFFF)

/-- Bits hi:lo of a number. -/
def bitsOf (x hi lo : Nat) : Nat := x / 2 ^ lo % 2 ^ (hi - lo + 1)

/-- The key of a byte: what the interleaved near view places in a stack is that stack's, chunk after chunk (07 R117,
notes/assumptions/12.md). -/
def viewKey (a : Nat) : Nat :=
  if 0x5000000000 ≤ a && a ≤ 0x53FFFFFFFF then
    let x := a - 0x5000000000
    0x4000000000 + x / 4096 % 8 * 2 ^ 31 + x / 32768 * 4096 + x % 4096
  else a

/-- The far-memory channel of a far address (07 R117). -/
def farChan (a : Nat) : Nat := bitsOf a 12 8 ^^^ bitsOf a 17 13

/-- Where a backing page of a context's arenas lies in the memory that its pool is taken from (notes/assumptions/24.md). -/
def arenaPa (key : Nat) : Nat :=
  let o := key - arenaBase
  Config.arenaPage (o / 2 ^ 49) (o % 2 ^ 49 / 65536) * 65536 + o % 65536

/-- An access to a key waits for its far channel to be trained, also one to an arena whose pool is far (03 R53, 01 R17, 08 R135). -/
def keyStalls (s : State) (a : Nat) : Bool :=
  if a < 0x4000000000 then !s.pkg.chans.contains (farChan a)
  else if a < arenaBase then false
  else match tget s.ctxs ((a - arenaBase) / 2 ^ 49) with
    | some cx => cx.view == 9 && !s.pkg.chans.contains (farChan (arenaPa a))
    | none => false

/-- One of `n` bytes from a key on does. -/
def spanStalls (s : State) (a n : Nat) : Bool := (List.range ((a % 256 + n + 255) / 256)).any fun j => keyStalls s (a / 256 * 256 + 256 * j)

/-- Where a translated address lies. -/
inductive Tgt where
  /-- A byte key; `pcie` for host memory reached only through PCIe (LOC 2). -/
  | key (a : Nat) (pcie : Bool)
  /-- A virtual address of the flow's context on a remote package (LOC 3, 02 R26, R27). -/
  | remote (pkg va : Nat)
deriving DecidableEq, Repr

/-- Why an access is not performed now. -/
inductive TErr where
  /-- A replayable failure: cause 1-5 of 07 R120, and log2 of the page size. -/
  | cause (c : Nat) (shift : Nat := 16)
  /-- A replayable failure: ARENA_POOL with its level code (08 R137). -/
  | pool (level : Nat)
  /-- It stalls: a far-memory channel is not trained (03 R53), or bytes of another package have not arrived. -/
  | stall
  /-- No usable flow leads to the package: the link machine check (02 R26, R31). -/
  | link
deriving DecidableEq, Repr

def TErr.replays : TErr → Bool
  | .cause .. | .pool _ => true
  | _ => false

/-- A root pointer breaks no rule (07 R118). -/
def rootOk (r : Nat) : Bool :=
  bitsOf r 7 0 == 0 && bitsOf r 63 52 == 0 && bitsOf r 51 48 ≤ 1 && (bitsOf r 51 48 == 1 || devAddrOk (bitsOf r 47 8 * 256))

/-- Key of a table that a root pointer or a non-leaf entry names. -/
def tableKey (e : Nat) : Nat := (if bitsOf e 51 48 == 0 then 0 else hostBase) + bitsOf e 47 8 * 256

/-- The index of a level and the page size of its leaves, as log2. -/
def levelIndex (va : Nat) : Nat → Nat
  | 3 => bitsOf va 56 39
  | 2 => bitsOf va 38 30
  | 1 => bitsOf va 29 21
  | _ => bitsOf va 20 16
def levelShift : Nat → Nat
  | 3 => 39 | 2 => 30 | 1 => 21 | _ => 16

/-- A leaf entry is bad (07 R118). -/
def badLeaf (e lvl : Nat) : Bool :=
  let loc := bitsOf e 15 12
  lvl == 3 || bitsOf e 11 8 != 0 || bitsOf e 3 2 != 0 || loc ≥ 4 || (loc != 3 && bitsOf e 63 48 != 0)
    || bitsOf e 47 16 * 65536 % 2 ^ levelShift lvl != 0 || (loc == 0 && !devAddrOk (bitsOf e 47 16 * 65536))

/-- A non-leaf entry is bad. -/
def badNode (e lvl : Nat) : Bool :=
  lvl == 0 || bitsOf e 63 52 != 0 || bitsOf e 7 2 != 0 || bitsOf e 51 48 ≥ 2
    || (bitsOf e 51 48 == 0 && !devAddrOk (bitsOf e 47 8 * 256))

/-- The walk from a table on, through the levels given, highest first: the leaf, its level and its key. -/
def walk (s : State) (va : Nat) : List Nat → Nat → Except TErr (Nat × Nat × Nat)
  | [], _ => .error (.cause 4)
  | lvl :: ls, table =>
    let key := viewKey (table + 8 * levelIndex va lvl)
    let e := rdNat s key 8
    if keyStalls s key then .error .stall
    else if e % 2 == 0 then .error (.cause 1)
    else if bitsOf e 1 1 == 1 then (if badLeaf e lvl then .error (.cause 4 (if lvl = 3 then 16 else levelShift lvl)) else .ok (e, lvl, key))
    else if badNode e lvl then .error (.cause 4)
    else walk s va ls (tableKey e)

/-- What a leaf and an address give. -/
def leafTgt (e shift va : Nat) : Tgt :=
  let pa := bitsOf e 47 16 * 65536 + va % 2 ^ shift
  match bitsOf e 15 12 with
  | 0 => .key (viewKey pa) false
  | 1 => .key (hostBase + pa) false
  | 2 => .key (hostBase + pa) true
  | _ => .remote (bitsOf e 63 48) pa

/-- The device sets A (bit 6) of an entry at the first translation and D (bit 7) at the first write (07 R118). -/
def setBit (s : State) (key e bit : Nat) : State :=
  if e ||| bit == e then s else { s with mem := s.mem.writeN key (leBytes (e ||| bit) 8) }

inductive Use where
  | read | write | fetch
deriving DecidableEq, Repr

/-- W and X of a leaf (07 R118, R120). -/
def leafAllows (e : Nat) : Use → Option Nat
  | .read => none
  | .write => if bitsOf e 4 4 == 1 then none else some 2
  | .fetch => if bitsOf e 5 5 == 1 then none else some 3

/-- The TLBs that a requester looks in, in order: a core below 2,048; the control core or the data engine of cluster j as 2,048 + j or
3,072 + j; 4,096 the rest of the device, which has none (07 R119). -/
def tlbUnits (unit : Nat) : List Nat :=
  if unit < 2048 then [unit, 2048 + unit / 8] else if unit < 3072 then [unit] else if unit < 4096 then [unit - 1024] else []

/-- The entry that serves an address; a write is not served by an entry that does not hold D. -/
def tlbFind (s : State) (c va : Nat) (u : Use) : List Nat → Option TlbE
  | [] => none
  | k :: ks =>
    match s.tlb.find? fun e => e.unit == k && e.ctx == c && va / 2 ^ e.shift == e.page with
    | some e =>
      if Config.tlbServes s.freeCtr k (va / 65536) && !(u == .write && bitsOf e.pte 7 7 == 0) then some e else tlbFind s c va u ks
    | none => tlbFind s c va u ks

/-- TLBs hold a translation. -/
def tlbPut (s : State) (c va shift pte : Nat) (units : List Nat) : State :=
  { s with tlb := (units.map fun k => { unit := k, ctx := c, page := va / 2 ^ shift, shift := shift, pte := pte })
      ++ s.tlb.filter fun e => !(units.contains e.unit && e.ctx == c && va / 2 ^ e.shift == e.page) }

/-- A table walk of a cluster's requester starts (05 R83). -/
def countWalk (s : State) (unit : Nat) : State :=
  if unit < 2048 then count s (unit / 8) 12 1 else if unit < 4096 then count s (unit % 1024) 12 1 else s

/-- What translation has found of a page: its leaf, log2 of its size, and of a walk the key of the leaf. -/
structure Leaf where
  pte : Nat
  shift : Nat
  at' : Option Nat := none
deriving DecidableEq, Repr

/-- The leaf of an address, from a TLB or by a walk, which sets A (07 R118-R120). -/
def pageOf (s : State) (c va : Nat) (u : Use) (unit : Nat := 4096) : State × Except TErr Leaf :=
  match tget s.ctxs c with
  | none => (s, .error (.cause 1))
  | some cx =>
    match tlbFind s c va u (tlbUnits unit) with
    | some e =>
      let s := tlbPut (tick s) c va e.shift e.pte (tlbUnits unit)
      match leafAllows e.pte u with
      | some k => (s, .error (.cause k e.shift))
      | none => (s, .ok { pte := e.pte, shift := e.shift })
    | none =>
      let s := countWalk (tick s) unit
      match walk s va [3, 2, 1, 0] (tableKey cx.root) with
      | .error x => (s, .error x)
      | .ok (e, l, key) =>
        match leafAllows e u with
        | some k => (s, .error (.cause k (levelShift l)))
        | none =>
          (setBit (tlbPut s c va (levelShift l) (e ||| 64) (tlbUnits unit)) key e 64,
            .ok { pte := e ||| 64, shift := levelShift l, at' := some key })

/-- A page is written: D is set in its leaf, and in the TLBs that hold it. -/
def setDirty (s : State) (c va : Nat) (unit : Nat) (l : Leaf) : State :=
  match l.at' with
  | some key => if l.pte.testBit 7 then s else setBit (tlbPut s c va l.shift (l.pte ||| 128) (tlbUnits unit)) key l.pte 128
  | none => s

/-- What a page gives for an address; a target on an untrained channel stalls. -/
def pageTgt (s : State) (pte shift va : Nat) : Except TErr Tgt :=
  match leafTgt pte shift va with
  | .key a p => if keyStalls s a then .error .stall else .ok (.key a p)
  | t => .ok t

/-- Translation of a context-memory address through the TLBs and the page tables, for an access that follows at once (07 R119). -/
def transPage (s : State) (c va : Nat) (u : Use) (unit : Nat := 4096) : State × Except TErr Tgt :=
  match pageOf s c va u unit with
  | (s, .error x) => (s, .error x)
  | (s, .ok l) => match pageTgt s l.pte l.shift va with
    | .ok t => (if u == .write then setDirty s c va unit l else s, .ok t)
    | .error x => (s, .error x)

/-! ### Arenas (08 R133-R139) -/

/-- The fields of an arena address (08 R134). -/
structure AAddr where
  level : Nat
  slot : Nat
  gen : Nat
  lane : Nat
  off : Nat
deriving DecidableEq, Repr

def isArena (va : Nat) : Bool := bitsOf va 63 56 == 0xAE

def arenaAddr (va : Nat) : AAddr :=
  let l := bitsOf va 55 53
  match l with
  | 0 => { level := 0, slot := bitsOf va 52 36, gen := bitsOf va 35 24, lane := bitsOf va 23 13, off := bitsOf va 12 0 }
  | 1 => { level := 1, slot := bitsOf va 52 36, gen := bitsOf va 35 24, lane := 0, off := bitsOf va 23 0 }
  | 2 => { level := 2, slot := bitsOf va 52 41, gen := bitsOf va 40 29, lane := 0, off := bitsOf va 28 0 }
  | 3 => { level := 3, slot := bitsOf va 52 45, gen := bitsOf va 44 33, lane := 0, off := bitsOf va 32 0 }
  | _ => { level := l, slot := 0, gen := 0, lane := 0, off := 0 }

/-- Low bit of the generation, of the slot, and the slots of a level. -/
def genBit : Nat → Nat
  | 0 | 1 => 24 | 2 => 29 | _ => 33
def slotBit : Nat → Nat
  | 0 | 1 => 36 | 2 => 41 | _ => 45
def levelSlots : Nat → Nat
  | 0 | 1 => 131072 | 2 => 4096 | _ => 256

/-- The address of offset 0 of an arena (08 R134). -/
def arenaBaseAddr (level slot gen lane : Nat) : Nat :=
  0xAE * 2 ^ 56 + level * 2 ^ 53 + slot * 2 ^ slotBit level + gen * 2 ^ genBit level + (if level = 0 then lane * 8192 else 0)

/-- Owner of a cluster arena: its group of its grid; and the grid again. -/
def groupOwner (gid q : Nat) : Nat := gid + q * 2 ^ 64
def groupGrid (owner : Nat) : Nat := owner % 2 ^ 64

/-- Key of a descriptor: lane arenas by block slot and lane. -/
def arenaKey (level slot lane : Nat) : Nat := level * 2 ^ 40 + slot * 4096 + (if level = 0 then lane else 0)

/-- Lane `n` of a block exists and has not exited. -/
def laneLive (s : State) (bid n : Nat) : Bool :=
  match tget s.threads (bid * 128 + n / 32) with
  | some th => n / 32 < 64 && th.lanes.getLsbD (n % 32) && !th.exited.getLsbD (n % 32)
  | none => false

/-- The live arena that an address names, by checks 1 and 2 of R138; `groups`: the launch has cluster groups.
The error is a trap code of 10 R165. -/
def findArena (s : State) (c : Nat) (groups : Bool) (va : Nat) : Except Nat (Nat × Arena) :=
  let a := arenaAddr va
  if a.level > 3 || (a.level == 2 && !groups) then .error 9
  else match tget s.ctxs c with
  | none => .error 6
  | some cx =>
    if a.level = 0 then
      match tget cx.arenas (arenaKey 1 a.slot 0) with
      | none => .error 6
      | some b =>
        if !b.live || b.gen != a.gen || !laneLive s b.owner a.lane then .error 6
        else
          let res := ((tget s.blocks b.owner).bind fun bl => tget s.grids bl.gid).elim 0 fun g => g.lrec.arlane * 4096
          match tget cx.arenas (arenaKey 0 a.slot a.lane) with
          | some x => .ok (arenaKey 0 a.slot a.lane, x)
          | none => .ok (arenaKey 0 a.slot a.lane, { gen := a.gen, live := true, reserve := res, owner := b.owner })
    else match tget cx.arenas (arenaKey a.level a.slot 0) with
      | none => .error 6
      | some x => if !x.live || x.gen != a.gen then .error 6 else .ok (arenaKey a.level a.slot 0, x)

/-- Checks 1-4 of R138. -/
def checkArena (s : State) (c : Nat) (groups : Bool) (va : Nat) : Except Nat Unit :=
  match findArena s c groups va with
  | .error e => .error e
  | .ok (_, x) =>
    let a := arenaAddr va
    if a.off ≥ x.reserve then .error 8
    else if tget x.gran (a.off / 4096) == some .handed then .error 7 else .ok ()

/-- Every granule state of a context: arenas and export range. -/
def allGran (cx : Ctx) : List GState := (cx.arenas.flatMap fun e => e.2.gran.map Prod.snd) ++ cx.exportGran.map Prod.snd

/-- Remove repeats. -/
def dedup : List Nat → List Nat
  | [] => []
  | x :: xs => x :: (dedup xs).filter (· != x)

/-- 4 KiB pages that a context's pool has given out (08 R137, 15 R293). -/
def poolUse (s : State) (c : Nat) (cx : Ctx) : Nat :=
  let g := allGran cx
  let small := (g.filter fun x => match x with | .backed _ b => !b | _ => false).length
  let big := (dedup (g.filterMap fun x => match x with | .backed p true => some (p / 16) | _ => none)).length
  let spill := s.threads.foldl (fun n e =>
    match (tget s.blocks e.2.bid).bind fun b => tget s.grids b.gid with
    | some g => if g.ctx = c then n + e.2.spill else n
    | none => n) 0
  small + 16 * big + spill

def poolFree (s : State) (c : Nat) (cx : Ctx) : Nat := cx.poolUnits * 16 - poolUse s c cx

def pageKey (c page : Nat) : Nat := arenaBase + c * 2 ^ 49 + page * 4096

/-- Granules that a first touch backs: 4 KiB, or the unbacked ones of the enclosing 64 KiB (08 R137). -/
def touchSet (level gr : Nat) (x : Arena) : List Nat :=
  if level < 2 then [gr]
  else ((List.range 16).map (gr / 16 * 16 + ·)).filter fun g => (tget x.gran g).isNone && (g * 4096 < x.reserve || g == gr)

/-- The 64 KiB backing page that already serves the granules around one, if its place is free. -/
def groupPage (gr : Nat) (x : Arena) (cx : Ctx) : Option Nat :=
  ((List.range 16).filterMap fun j => match tget x.gran (gr / 16 * 16 + j) with
    | some (.backed p true) => some (p / 16 * 16 + gr % 16)
    | _ => none).find? fun p => !(allGran cx).contains (.backed p true)

/-- A backing page reads as zeroes again, in memory and through every L1. -/
def zeroPage (s : State) (c page : Nat) : State :=
  let k := pageKey c page
  { s with
    mem := s.mem.filter fun e => !(k ≤ e.1 && e.1 < k + 4096)
    l1 := tmap s.l1 fun _ t => t.filter fun x => x.1 < k / 128 || k / 128 + 32 ≤ x.1 }

/-- The next backing page of a context; pages that hold a retired row group have left the pool (01 R19, notes/assumptions/24.md). -/
def freshPage (s : State) (c : Nat) : (fuel n : Nat) → Nat
  | 0, n => n
  | f + 1, n =>
    if ((tget s.ctxs c).map (·.view)) != some 9 && s.pkg.pagesRetired.contains (Config.arenaPage c n) then freshPage s c f (n + 1) else n

/-- Back an unbacked granule with zeroes (08 R137). -/
def backGran (s : State) (c : Nat) (cx : Ctx) (key gr : Nat) (x : Arena) : State × Except TErr Tgt :=
  let level := key / 2 ^ 40
  match (if level < 2 then none else groupPage gr x cx) with
  | some p => (modCtx (zeroPage s c p) c fun cx => { cx with arenas := tset cx.arenas key { x with gran := tset x.gran gr (.backed p true) } },
      .ok (.key (pageKey c p) false))
  | none =>
    if poolFree s c cx < (if level < 2 then 1 else 16) then (s, .error (.pool level))
    else
      let page := freshPage s c 65536 cx.nextPage
      let base := page * 16
      let gs := (touchSet level gr x).foldl (fun t g => tset t g (.backed (base + g % 16) (level ≥ 2))) x.gran
      (modCtx s c fun cx => { cx with nextPage := page + 1, arenas := tset cx.arenas key { x with gran := gs } },
        .ok (.key (pageKey c (base + gr % 16)) false))

/-- The granules that an arena's memory gives: an access to a channel that is not trained stalls, and backs nothing yet. -/
def poolTgt (s : State) : State × Except TErr Tgt → State × Except TErr Tgt
  | (s', .ok (.key k p)) => if keyStalls s' k then (s, .error .stall) else (s', .ok (.key k p))
  | r => r

/-- Translation of an arena address that passes checks 1-4; one that does not is NOTMAPPED (10 R405). -/
def transArena (s : State) (c va : Nat) (u : Use) : State × Except TErr Tgt :=
  if u == .fetch then (s, .error (.cause 3))
  else match checkArena s c true va, findArena s c true va, tget s.ctxs c with
  | .ok _, .ok (key, x), some cx =>
    let off := (arenaAddr va).off
    poolTgt s <| match tget x.gran (off / 4096) with
    | some (.backed p _) => (s, .ok (.key (pageKey c p + off % 4096) false))
    | _ => match backGran s c cx key (off / 4096) x with
      | (s, .ok (.key k pc)) => (s, .ok (.key (k + off % 4096) pc))
      | r => r
  | _, _, _ => (s, .error (.cause 1))

/-- The address lies in the export range (08 R135). -/
def inExport (cx : Ctx) (va : Nat) : Bool := cx.exportBase ≤ va && va < cx.exportBase + cx.exportLen

/-- Translation of an export-range address through the arena page map. -/
def transExport (s : State) (c va : Nat) (cx : Ctx) (u : Use) : State × Except TErr Tgt :=
  if u == .fetch then (s, .error (.cause 3))
  else
    let off := va - cx.exportBase
    poolTgt s <| match tget cx.exportGran (off / 4096) with
    | some (.backed p _) => (s, .ok (.key (pageKey c p + off % 4096) false))
    | some .held =>
      if poolFree s c cx < 1 then (s, .error (.pool 7))
      else
        let page := freshPage s c 65536 cx.nextPage
        (modCtx s c fun cx => { cx with
              nextPage := page + 1,
              exportGran := tset cx.exportGran (off / 4096) (.backed (page * 16) false) },
            .ok (.key (pageKey c (page * 16) + off % 4096) false))
    | _ => (s, .error (.cause 1))

/-- Canonical for the requester, outside the arena window (07 R121): a control core's cluster-window addresses are. That such an address,
where it is not an access of the window, goes through the page tables by its bits 56:0 is the model's choice (notes/assumptions/11.md). -/
def canonical (unit va : Nat) : Bool := va < 2 ^ 57 || (2048 ≤ unit && unit < 3072 && va / 2 ^ 32 == 0xC5000000)

/-- The address goes through the page tables. -/
def isPaged (cx : Ctx) (unit va : Nat) : Bool := !isArena va && canonical unit va && !inExport cx va

/-- Translation of a virtual address of a context (07 R119-R121, 08 R135, R137). -/
def translate (s : State) (c va : Nat) (u : Use) (unit : Nat := 4096) : State × Except TErr Tgt :=
  match tget s.ctxs c with
  | none => (s, .error (.cause 1))
  | some cx =>
    if isArena va then transArena s c va u
    else if !canonical unit va then (s, .error (.cause 5))
    else if inExport cx va then transExport s c va cx u
    else transPage s c va u unit

/-! ### Packets to other packages (02 R24-R31) -/

/-- The link that a packet for a package leaves on: the route's primary one, the secondary one when that is down (02 R31). -/
def linkTo (s : State) (pkg : Nat) : Option Nat :=
  match tget s.lnk.routes pkg with
  | some r => (r.prim ++ r.sec).find? fun l => ((tget s.lnk.links l).map (·.up)).getD false
  | none => none

/-- A route to a package has a link that is up. -/
def routeUp (s : State) (pkg : Nat) : Bool := (linkTo s pkg).isSome

/-- A packet is handed to a link, which holds it while it retrains (01 R17). -/
def emitOn (s : State) (l : Nat) (pk : LmlPkt) : State :=
  let pk := { pk with via := l }
  match tget s.lnk.links l with
  | some x =>
    if x.training then { s with lnk := { s.lnk with links := tset s.lnk.links l { x with held := x.held ++ [pk] } } }
    else { s with lnk := { s.lnk with out := s.lnk.out ++ [pk] } }
  | none => { s with lnk := { s.lnk with out := s.lnk.out ++ [pk] } }

/-- A packet leaves by its route; 16 when none is up. -/
def emit (s : State) (pk : LmlPkt) : State := emitOn s ((linkTo s pk.dpkg).getD 16) pk

/-- The flow of a context to a package. -/
def flowOf (s : State) (ctx pkg : Nat) : Option (Nat × SrcFlow) := tfind s.lnk.src fun _ f => f.ctx == ctx && f.pkg == pkg

def modFlow (s : State) (f : Nat) (g : SrcFlow → SrcFlow) : State := { s with lnk := { s.lnk with src := tmod s.lnk.src f g } }

def remoteKey (flow : Nat) (seq : Word) : Nat := flow * 2 ^ 32 + seq.toNat

/-- A release packet has no answer: it is outstanding as long as a packet before it is (02 R28, notes/assumptions/19.md). -/
def settleOut (out : List LmlPkt) : List LmlPkt := out.dropWhile (·.ty == 6)

/-- Send a packet on a flow; one past 2^16 outstanding is held until an acknowledgement (02 R28). With
no route left its flow fails (02 R31). -/
def sendPkt (s : State) (fid qtag ty : Nat) (rel : Bool) (va : Dword) (data : List Byte) : State :=
  match tget s.lnk.src fid with
  | none => s
  | some f =>
    let pk : LmlPkt := { spkg := s.lnk.pkgNum, dpkg := f.pkg, flow := fid, seq := f.seq, qtag := qtag, unordered := f.unordered,
                         rel := rel, ty := ty, va := va, data := data }
    let goes := f.out.length < 65536
    let s := modFlow s fid fun f => { f with
      failed := f.failed || (goes && !routeUp s f.pkg)
      seq := f.seq + 1
      tags := if f.tags.contains qtag then f.tags else f.tags ++ [qtag]
      out := settleOut (f.out ++ [pk]) }
    if goes then emit s pk else s

/-- The access ends as on a failed flow: there is no flow to the package, or a value is asked of a failed one (02 R26, R31). -/
def flowBad (s : State) (ctx pkg : Nat) (value : Bool) : Bool :=
  match flowOf s ctx pkg with
  | none => true
  | some (_, f) => value && (f.failed || !routeUp s pkg)

/-! ### Accesses of the device's own (10 R405) -/

/-- Ask another package for bytes that the device reads for a context. -/
def askBox (s : State) (c tag va n pkg pa : Nat) (who : Nat := 0) : State :=
  match flowOf s c pkg with
  | none => s
  | some (fid, f) =>
    let r : Remote := { tid := c, tok := who, d := va, lane := 0, width := n, kind := 8, va := pa, len := n, lva := va, ctx := c }
    let s := { s with lnk := { s.lnk with
      remotes := tset s.lnk.remotes (remoteKey fid f.seq) r
      box := s.lnk.box ++ [{ ctx := c, va := va, len := n, who := who }] } }
    sendPkt s fid tag 0 false (BitVec.ofNat 64 pa) (List.replicate n 0)

/-- Bytes within one granule of 256. -/
def readPiece (s : State) (c tag va n : Nat) (who : Nat := 0) : State × Except TErr (List Byte) :=
  match translate s c va .read with
  | (s, .error e) => (s, .error e)
  | (s, .ok (.key a _)) => (s, if spanStalls s a n then .error .stall else .ok (rdN s a n))
  | (s, .ok (.remote p pa)) =>
    match s.lnk.box.find? fun x => x.ctx == c && x.va == va && x.len == n && x.who == who with
    | some x => (s, match x.got with | some bs => .ok bs | none => .error .stall)
    | none => if flowBad s c p true then (s, .error .link) else (askBox s c tag va n p pa who, .error .stall)

/-- Piece after piece; a failure with its address. -/
def readPiecesOf (c tag who : Nat) : (fuel : Nat) → State → (va n : Nat) → State × Except (TErr × Nat) (List Byte)
  | 0, s, _, _ => (s, .ok [])
  | f + 1, s, va, n =>
    if n = 0 then (s, .ok [])
    else
      let va := va % 2 ^ 64
      let k := min n (256 - va % 256)
      match readPiece s c tag va k who with
      | (s, .error e) => (s, .error (e, va))
      | (s, .ok bs) => match readPiecesOf c tag who f s (va + k) (n - k) with
        | (s, .error e) => (s, .error e)
        | (s, .ok r) => (s, .ok (bs ++ r))

/-- Read bytes at a virtual address, of whatever memory; what has arrived from another package is kept until all has, and for a snapshot
until it is taken. -/
def readLong (s : State) (c va n : Nat) (tag : Nat := 0) (who : Nat := 0) : State × Except (TErr × Nat) (List Byte) :=
  match readPiecesOf c tag who (n / 256 + 2) s va n with
  | (s, .error (.stall, a)) => (s, .error (.stall, a))
  | (s, r) =>
    if who != 0 then (s, r)
    else ({ s with lnk := { s.lnk with box := s.lnk.box.filter fun x => !(x.ctx == c && x.who = 0 && va ≤ x.va && x.va < va + n) } }, r)

/-- What has been read for a queue's snapshot is no longer needed. -/
def dropSnap (s : State) (q : Nat) : State := { s with lnk := { s.lnk with box := s.lnk.box.filter (·.who != q + 1) } }

def readVa (s : State) (c va n : Nat) (tag : Nat := 0) : State × Except TErr (List Byte) :=
  match readLong s c va n tag with
  | (s, .ok bs) => (s, .ok bs)
  | (s, .error (e, _)) => (s, .error e)

/-- A packet of the device's to another package, on a flow of the context: a release, in payloads of 256 bytes at most. -/
def devSend (s : State) (c tag pkg va ty : Nat) (data : List Byte) : Except TErr State :=
  match flowOf s c pkg with
  | none => .error .link
  | some (fid, _) => .ok ((List.range ((data.length + 255) / 256)).foldl
      (fun s j => sendPkt s fid tag ty true (BitVec.ofNat 64 (va + 256 * j)) ((data.drop (256 * j)).take 256)) s)

/-- Write bytes at a virtual address within one page or granule. -/
def writeVa (s : State) (c va : Nat) (bs : List Byte) (tag : Nat := 0) : State × Except TErr Unit :=
  match translate s c va .write with
  | (s, .error e) => (s, .error e)
  | (s', .ok (.key a _)) => if spanStalls s' a bs.length then (tick s, .error .stall) else (storeKey s' a bs, .ok ())
  | (s, .ok (.remote p pa)) => match devSend s c tag p pa 2 bs with
    | .ok s => (s, .ok ())
    | .error e => (s, .error e)

/-! ### The L1 data cache (07 R115) -/

def l1Line (s : State) (core key : Nat) : Option (List Byte) := (tget s.l1 core).bind fun t => tget t (key / 128)

def setL1 (s : State) (core line : Nat) (bs : Option (List Byte)) : State :=
  let t := (tget s.l1 core).getD []
  { s with l1 := tset s.l1 core (match bs with | some b => tset t line b | none => tdel t line) }

/-- An acquire at cluster scope or wider, or a restore, invalidates the core's L1. -/
def dropL1 (s : State) (core : Nat) : State := { s with l1 := tdel s.l1 core }

/-- A load at strand or block scope: the bytes that the core's L1 holds, or memory's. `alloc`: the line is allocated. -/
def loadL1 (s : State) (core key n : Nat) (alloc : Bool) : State × List Byte :=
  let use := Config.l1Serves s.freeCtr (key / 128)
  match l1Line s core key with
  | some bs =>
    if use then (tick s, (bs.drop (key % 128)).take n)
    else (miss (setL1 s core (key / 128) (some (rdN s (key / 128 * 128) 128))), rdN s key n)
  | none =>
    if alloc then (miss (setL1 s core (key / 128) (some (rdN s (key / 128 * 128) 128))), rdN s key n)
    else (miss s, rdN s key n)
where
  miss (s : State) : State := countSlice (count (tick s) (core / 8) 6 1) (core / 8) key

/-- A load that reads the slice: a copy that its core's L1 holds becomes as new as what it returns (09 R150). -/
def refreshL1 (s : State) (core key : Nat) : State :=
  match l1Line s core key with
  | some _ => setL1 s core (key / 128) (some (rdN s (key / 128 * 128) 128))
  | none => s

/-- A store updates a copy that its core's L1 holds; it does not allocate. -/
def storeL1 (s : State) (core key : Nat) (bs : List Byte) : State :=
  match l1Line s core key with
  | some old => setL1 s core (key / 128) (some (old.take (key % 128) ++ bs ++ old.drop (key % 128 + bs.length)))
  | none => s

/-- A write by an agent of a cluster other than a strand invalidates its lines in the L1 of every core of the cluster. -/
def invalL1 (s : State) (cluster key n : Nat) : State :=
  (List.range 8).foldl (fun s j => { s with l1 := tmod s.l1 (cluster * 8 + j) fun t => t.filter fun x => x.1 < key / 128 || (key + n - 1) / 128 < x.1 }) s

/-! ### The fault ring (10 R172-R174) -/

/-- Issue stops on every strand of a context, without a save (10 R174). -/
def stopCtx (s : State) (c : Nat) : State :=
  let mine (th : Thread) : Bool := ((tget s.blocks th.bid).bind fun b => tget s.grids b.gid).elim false fun g => g.ctx == c
  let fn := ((tget s.ctxs c).map (·.fn)).getD 0
  raiseVec (modCtx { s with threads := tmap s.threads fun _ th => if mine th then { th with stopped := true } else th } c
    fun cx => { cx with stopped := true }) fn 2

def isFatal (k : Nat) : Bool := k == 4 || k == 6 || k == 7

/-- The 64 bytes of a record (10 R173). -/
def recBytes (r : FRec) (seq : Nat) : List Byte :=
  [BitVec.ofNat 8 r.kind, BitVec.ofNat 8 r.flags, 0, 0] ++ leBytes r.code 4 ++ leBytes seq 4 ++ leBytes r.strand 4
    ++ leBytes r.addr 8 ++ leBytes r.time 8 ++ (r.body ++ List.replicate 32 0).take 32

/-- What came of an attempt to post a record. -/
inductive Post where
  | yes | no | later
deriving DecidableEq, Repr

def TErr.post : TErr → Post
  | .stall => .later
  | _ => .no

/-- The event handling that a record goes by (10 R172). -/
def eventsOf (cx : Ctx) (ev : Option Nat) : Events :=
  let now : Events := { ring := cx.faultRing, log := cx.faultLog, wr := cx.wr, vec := cx.vec, pool := cx.savePool, size := cx.saveSize }
  match ev.bind fun k => if k = cx.evNo then none else tget cx.evOld k with
  | some v => v
  | none => now

/-- A ring has one record more, whichever configurations name it. -/
def ringGrows (cx : Ctx) (v : Events) : Ctx :=
  let same (ring log : Nat) : Bool := ring == v.ring && log == v.log
  { cx with
    wr := if same cx.faultRing cx.faultLog then v.wr + 1 else cx.wr
    evOld := tmap cx.evOld fun _ o => if same o.ring o.log then { o with wr := v.wr + 1 } else o }

/-- Number of the event handling that a grid dispatched with. -/
def evOf (s : State) (gid : Nat) : Option Nat := (tget s.grids gid).map (·.evNo)

/-- Try to post a record: not while the ring is full or absent or fails translation (10 R174), and not yet while an access of it
stalls. -/
def tryPost (s : State) (c : Nat) (cx : Ctx) (id : Nat) (r : FRec) : State × Post :=
  let v := eventsOf cx r.ev
  if v.ring = 0 then (s, .no)
  else
    let n := 2 ^ v.log
    match readVa s c (v.ring + 8) 8 with
    | (s, .error x) => (s, x.post)
    | (s, .ok rd) =>
      let used := v.wr - leNat rd
      if used ≥ (if isFatal r.kind then n else n - 1) then (s, .no)
      else match writeVa s c (v.ring + 64 + 64 * (v.wr % n)) (recBytes r v.wr) with
        | (s, .error x) => (s, x.post)
        | (s, .ok _) => match writeVa s c v.ring (leBytes (v.wr + 1) 8 ++ rd ++ leBytes cx.dropped 8) with
          | (s, .error x) => (s, x.post)
          | (s, .ok _) =>
            (raiseVec (modCtx s c fun cx => { ringGrows cx v with
                recs := if r.kind ≤ 2 then tset cx.recs id { r with seq := some v.wr } else tdel cx.recs id }) cx.fn v.vec, .yes)

/-- A record waits for a later attempt. -/
def waitPost (s : State) (c id : Nat) (r : FRec) (t : Nat) : State :=
  atTime (modCtx s c fun cx => { cx with waiting := cx.waiting ++ [id], recs := tset cx.recs id r }) t (.faultRecordRetry c)

/-- Post a record under a number, or let it wait, drop it, or stop the context (10 R174). -/
def postAs (s : State) (c id : Nat) (r : FRec) : State :=
  match tget s.ctxs c with
  | none => s
  | some cx =>
    match (if r.kind ≤ 3 && !cx.waiting.isEmpty then (s, .no) else tryPost s c cx id r) with
    | (s, .yes) => s
    | (s, .later) => waitPost (tick s) c id r (s.time + 1 + Config.delay s.freeCtr)
    | (s, .no) =>
      if r.kind ≤ 3 then waitPost s c id r (s.time + 2 ^ 20)
      else if r.kind = 5 then modCtx s c fun cx => { cx with dropped := cx.dropped + 1 }
      else stopCtx s c

/-- Post a new record; its number is the `nextId` before. -/
def postRec (s : State) (c : Nat) (r : FRec) : State := postAs (newId s) c s.nextId r

end Sys2Proof.Machine
end

