-- ==== Sys2Proof/Machine/Threads.lean ====
section
/-! DEFINITION. The named operations over strands: registers and results that have not landed (13 R232, R242-R244),
fragments, splits and serial mode (08 R127-R131), phasers and GSYNC (17 R337-R341), and what the end of a strand does. -/
namespace Sys2Proof.Machine

/-! ### Registers (13 R232, R244) -/

def stillPend (now : Nat) (p : Pend) : Bool :=
  match p.due with
  | some t => now < t
  | none => true

/-- The result that an early read of a register of a lane meets. -/
def pendFor (th : Thread) (now file r l : Nat) : Option Pend :=
  th.pend.find? fun p => p.file == file && p.num == r && p.mask.getLsbD l && stillPend now p

/-- A v register of a lane: with a result pending, the old or the new value (13 R244). -/
def rdV (th : Thread) (now n r l : Nat) : Word :=
  match pendFor th now 0 r l with
  | some p => if Config.earlyNew n 0 r l then sget th.v (32 * r + l) else sget p.old l
  | none => sget th.v (32 * r + l)

def rdK (th : Thread) (now n r : Nat) : Word :=
  match pendFor th now 1 r 0 with
  | some p => if Config.earlyNew n 1 r 0 then sget th.k r else sget p.old 0
  | none => sget th.k r

/-- A predicate of a lane; p31 reads 1. -/
def rdP (th : Thread) (now n r l : Nat) : Bool :=
  if r = 31 then true
  else match pendFor th now 2 r l with
    | some p => if Config.earlyNew n 2 r l then (sget th.p r).getLsbD l else (sget p.old 0).getLsbD l
    | none => (sget th.p r).getLsbD l

/-- A result of an instruction: lanes with their values, one value, or a predicate's lanes and their bits. -/
inductive Res where
  | v (r : Nat) (vals : List (Nat × Word))
  | k (r : Nat) (x : Word)
  | p (r : Nat) (mask bits : Word)
deriving DecidableEq, Repr

/-- Write lanes of a v register. -/
def wrV (v : Sparse 32) (r : Nat) : List (Nat × Word) → Sparse 32
  | [] => v
  | (l, x) :: xs => wrV (sset v (32 * r + l) x) r xs

/-- The lanes of a v register, as a store by lane. -/
def laneVals (v : Sparse 32) (r : Nat) (ls : List Nat) : Sparse 32 :=
  ls.foldl (fun o l => sset o l (sget v (32 * r + l))) []

/-- Of two racing writes, the earlier instruction's stays (13 R244). -/
def raceKeeps (th : Thread) (now n file r l : Nat) : Bool :=
  (pendFor th now file r l).isSome && !Config.raceLater n file r l

/-- Write a result and remember what the registers held until it lands. -/
def applyRes (now n tok : Nat) (due : Option Nat) (th : Thread) : Res → Thread
  | .v r vals =>
    let vals := vals.filter fun e => !raceKeeps th now n 0 r e.1
    { th with
      v := wrV th.v r vals
      pend := th.pend ++ [{ tok := tok, file := 0, num := r, mask := maskOf fun l => vals.any (·.1 == l),
                            old := laneVals th.v r (vals.map Prod.fst), due := due }] }
  | .k r x =>
    if raceKeeps th now n 1 r 0 then th
    else { th with
      k := sset th.k r x
      pend := th.pend ++ [{ tok := tok, file := 1, num := r, mask := 0xFFFFFFFF, old := sset [] 0 (sget th.k r), due := due }] }
  | .p r mask bits =>
    if r = 31 then th
    else
      let m := mask &&& maskOf fun l => !raceKeeps th now n 2 r l
      { th with
        p := sset th.p r ((sget th.p r &&& ~~~m) ||| (bits &&& m))
        pend := th.pend ++ [{ tok := tok, file := 2, num := r, mask := m, old := sset [] 0 (sget th.p r), due := due }] }

/-- Write results that are final at once. -/
def writeRes (th : Thread) (rs : List Res) : Thread :=
  rs.foldl (fun th r => match r with
    | .v r vals => { th with v := wrV th.v r vals }
    | .k r x => { th with k := sset th.k r x }
    | .p r m b => if r = 31 then th else { th with p := sset th.p r ((sget th.p r &&& ~~~m) ||| (b &&& m)) }) th

/-- The results of a token have landed: nothing is pending for them, and its slot counts down (13 R243). -/
def landTok (th : Thread) (tok : Nat) : Thread :=
  let th := { th with pend := th.pend.filter fun p => p.tok != tok }
  match tget th.flights tok with
  | some slot => { th with flights := tdel th.flights tok, sb := tmod th.sb slot (· - 1) }
  | none => th

def slotCount (th : Thread) (slot : Nat) : Nat := (tget th.sb slot).getD 0

/-! ### Places of a strand -/

def blockOf (s : State) (th : Thread) : Option Block := tget s.blocks th.bid
def gridOf (s : State) (th : Thread) : Option Grid := (blockOf s th).bind fun b => tget s.grids b.gid
def ctxOf (s : State) (th : Thread) : Nat := ((gridOf s th).map (·.ctx)).getD 0
def coreOf (s : State) (th : Thread) : Nat := ((blockOf s th).map (·.core)).getD 0
def clusterOf (s : State) (th : Thread) : Nat := coreOf s th / 8
def ctlThread (bid : Nat) : Nat := bid * 128 + 64

/-- The strands of a block, the control-core context not counted. -/
def strandsOf (s : State) (bid : Nat) : List (Nat × Thread) := s.threads.filter fun e => e.2.bid == bid && !e.2.cc
/-- A strand with a fragment left. -/
def alive (th : Thread) : Bool := !th.frags.isEmpty

/-- Block index of a linear index (06 R90). -/
def blockXYZ (r : LRec) (lin : Nat) : Nat × Nat × Nat := (lin % r.gx, lin / r.gx % r.gy, lin / (r.gx * r.gy))

def hasGroups (r : LRec) : Bool := r.grpx != 0

/-- Cluster group of a block, in the x-fastest order of the group grid. -/
def groupIdx (r : LRec) (lin : Nat) : Nat :=
  let (x, y, z) := blockXYZ r lin
  x / r.grpx + r.gx / r.grpx * (y / r.grpy + r.gy / r.grpy * (z / r.grpz))

/-- Strands of a block (06 R86). -/
def strandCount (r : LRec) : Nat := (r.lx * r.ly * r.lz + 31) / 32

/-- Strand ids of the records (10 R172). -/
def strandId (s : State) (th : Thread) (fi : Nat) : Nat :=
  match blockOf s th with
  | none => 0
  | some b => if th.cc then 2 ^ 31 + b.core / 8 * 2 ^ 16 + b.ctl.getD 0
    else b.core * 2 ^ 16 + b.bslot * 2 ^ 10 + th.idx * 16 + fi

/-! ### Lacewing (10 R192) -/

/-- Emit a trace record on the unit of a core's stack, if it is enabled for the kind and the strand. -/
def lacewing (s : State) (stack kind tag strand : Nat) (mask : Word) (pc : Dword) : State :=
  match tget s.lace stack with
  | none => s
  | some u =>
    if u.ring = 0 || !u.kinds.testBit kind || (BitVec.ofNat 32 strand ^^^ u.matchId) &&& u.mask != 0 then s
    else
      let n := 2 ^ u.log
      let body := [BitVec.ofNat 8 kind, 0, 0, 0] ++ leBytes tag 4 ++ leBytes strand 4 ++ leBytes mask.toNat 4
        ++ leBytes pc.toNat 8 ++ leBytes s.time 8
      let rd := rdNat s (u.ring + 8) 8
      if u.wr - rd ≥ n then
        storeKey { s with lace := tset s.lace stack { u with lost := u.lost + 1 } } (u.ring + 16) (leBytes (u.lost + 1) 8)
      else
        storeKey (storeKey { s with lace := tset s.lace stack { u with wr := u.wr + 1 } } (u.ring + 64 + 32 * (u.wr % n)) body)
          u.ring (leBytes (u.wr + 1) 8)

/-! ### Fragments (08 R127-R131) -/

/-- A free entry of the split table. -/
def freeEntries (th : Thread) : List Nat := (List.range 16).filter fun i => (tget th.frags i).isNone

/-- A fragment stands at its pending reconvergence address: the signature is reset, a fuse record is folded (10 R188). -/
def fuseSig (op : Nat) : Word := fold sigReset (sigRec op false 2)

/-- After a change of PC: a fragment that reaches its split's address parks; one that reaches its own pending address
restarts its signature. -/
def arrive (th : Thread) (fr : Frag) : Frag :=
  if ((tget th.splits fr.split).bind (·.addr)) == some fr.pc then { fr with park := .join }
  else if fr.rcv == some fr.pc then { fr with sig := fuseSig 0, bmask := fr.em }
  else fr

/-- Return entries of an owner pass to another (15 R293). -/
def passCalls (cs : List Call) (old new : Nat) : List Call :=
  cs.map fun c => if c.owner = old then { c with owner := new } else c

def dropCalls (cs : List Call) (o : Nat) : List Call := cs.filter fun c => c.owner != o

/-- The splits that may fuse: those of the handler in trap mode, all otherwise (10 R168). -/
def splitOpen (th : Thread) (sid : Nat) : Bool :=
  match th.hand with
  | some h => h.mark ≤ sid
  | none => true

def isJoin (f : Frag) : Bool := f.park == .join

/-- M of a fragment: in serial mode the deferred, the finished and the disabled lanes are members too (08 R130). -/
def fullM (th : Thread) : (fuel sid : Nat) → Word → Word
  | 0, _, m => m
  | f + 1, sid, m =>
    match tget th.splits sid with
    | some sp =>
      if sp.serial then
        let w := (th.calls.filter fun c => c.serial && c.owner == 2 * sid + 1).foldl (fun a c => a ||| c.lanes) 0
        fullM th f sp.parent (m ||| sp.dis ||| sp.accM ||| w)
      else m
    | none => m

/-- The newest serial-mode record of a split, with the rest of the stack (08 R130). -/
def popSerial (cs : List Call) (sid : Nat) : Option (Call × List Call) :=
  match cs with
  | [] => none
  | c :: r => if c.serial && c.owner = 2 * sid + 1 then some (c, r)
    else (popSerial r sid).map fun (x, r') => (x, c :: r')

/-- The fragment that a split becomes when it ends at its address: M and EM less the lanes that have exited. -/
def endSplit (th : Thread) (sid : Nat) (sp : Split) (entry : Nat) (m em : Word) (cont : Bool) (fences : List Fence) : Thread :=
  let m := (m ||| sp.dis) &&& ~~~th.exited
  let splits := tdel th.splits sid
  match sp.addr with
  | none => { th with splits := splits, calls := dropCalls th.calls (2 * sid + 1), exited := th.exited ||| m }
  | some a =>
    if m == 0 then { th with splits := splits, calls := dropCalls th.calls (2 * sid + 1) }
    else
      let em := em &&& m
      let f : Frag := { pc := a, m := m, em := em, split := sp.parent, sig := fuseSig 0, bmask := em, inCont := cont, fences := fences }
      let th := { th with splits := splits, calls := passCalls th.calls (2 * sid + 1) (2 * entry) }
      { th with frags := tset th.frags entry (if ((tget th.splits sp.parent).bind (·.addr)) == some a then { f with park := .join } else f) }

/-- One step of fusion or of serial mode, if a split is due for it. -/
def settleOne (th : Thread) (sid : Nat) (sp : Split) : Option Thread :=
  let frs := th.frags.filter fun e => e.2.split == sid
  let entry := match frs with
    | e :: _ => some e.1
    | [] => if (tget th.frags sp.entry).isNone then some sp.entry else (freeEntries th).head?
  match entry with
  | none => none
  | some entry =>
  if th.splits.any (fun e => e.2.parent == sid) || !frs.all (fun e => isJoin e.2) || !splitOpen th sid then none
  else
    let m := frs.foldl (fun a e => a ||| e.2.m) 0
    let em := frs.foldl (fun a e => a ||| e.2.em) 0
    let fences := frs.flatMap fun e => e.2.fences
    let cont := (sp.inCont || frs.any fun e => e.2.inCont) && th.frame.isSome
    let base := { th with frags := th.frags.filter fun e => e.2.split != sid }
    if sp.serial then
      match popSerial th.calls sid with
      | some (r, cs) =>
        let l := r.lanes &&& ~~~th.exited
        let cs := passCalls cs (2 * entry) (2 * sid + 1)
        let cs := match r.ret with
          | some pc => { serial := false, pc := pc, owner := 2 * entry } :: cs
          | none => cs
        let sp' := { sp with accM := sp.accM ||| m, accEm := sp.accEm ||| em, entry := entry, inCont := cont }
        let th := { base with calls := cs, splits := tset th.splits sid sp' }
        if l == 0 then some { th with calls := dropCalls th.calls (2 * entry) }
        else
          let f := arrive th { pc := r.pc, m := l, em := l, split := sid, sig := r.sig, bmask := l, fences := fences }
          some { th with frags := tset th.frags entry f }
      | none => some (endSplit { base with calls := passCalls th.calls (2 * entry) (2 * sid + 1) } sid sp entry (m ||| sp.accM) (em ||| sp.accEm) cont fences)
    else
      let cs := frs.foldl (fun cs e => passCalls cs (2 * e.1) (2 * sid + 1)) th.calls
      some (endSplit { base with calls := cs } sid sp entry m em cont fences)

/-- Fuse everything that is due; a continuation with no lane left frees its frame (15 R296). -/
def settle : (fuel : Nat) → Thread → Thread
  | 0, th => th
  | f + 1, th =>
    match th.splits.findSome? fun e => settleOne th e.1 e.2 with
    | some th => settle f th
    | none =>
      if th.frame.isSome && !th.frags.any (fun e => e.2.inCont) && !th.splits.any (fun e => e.2.inCont) && th.hand.isNone
      then { th with frame := none } else th

/-- A fragment whose wait is over and that stands at its split's address parks there; what is then due fuses (08 R129, R130). -/
def rejoin (th : Thread) : Thread :=
  let here (f : Frag) : Frag :=
    if f.park == .run && ((tget th.splits f.split).bind (·.addr)) == some f.pc then { f with park := .join } else f
  if th.splits.isEmpty then th else settle 40 { th with frags := tmap th.frags fun _ f => here f }

/-- Lanes leave a fragment for good (08 R131, 15 R296): results pending for them are discarded. -/
def endLanes (th : Thread) (fi : Nat) (m : Word) : Thread :=
  let th := { th with
    exited := th.exited ||| m
    pend := th.pend.map fun p => if p.file = 1 then p else { p with mask := p.mask &&& ~~~m } }
  match tget th.frags fi with
  | none => th
  | some fr =>
    let fr := { fr with m := fr.m &&& ~~~m, em := fr.em &&& ~~~m }
    if fr.m == 0 then { th with frags := tdel th.frags fi, calls := dropCalls th.calls (2 * fi) }
    else { th with frags := tset th.frags fi fr }

/-! ### Waking -/

/-- Fragments that hold before an instruction look again. -/
def wakeRetry (s : State) (p : Thread → Wait → Bool) : State :=
  let wake (th : Thread) (fr : Frag) : Frag :=
    match fr.park with
    | .retry w => if p th w then { fr with park := .run } else fr
    | _ => fr
  { s with threads := tmap s.threads fun _ th => { th with frags := tmap th.frags fun _ fr => wake th fr } }

/-- A command that is complete, released and without predecessors starts (18 R351, R356). -/
def cmdReady (s : State) (c : Nat) : State :=
  match tget s.cmds c with
  | some x => if x.st = 1 && x.full && x.preds = 0 then after s (.engineCommandStart c) else s
  | none => s

/-- CPY commands whose every live strand has issued its slice are complete (18 R351). -/
def tagCheck (s : State) (bid : Nat) : State :=
  match tget s.blocks bid with
  | none => s
  | some b => b.tags.foldl (fun s e =>
      match tget s.cmds e.2 with
      | none => s
      | some c =>
        if !c.full && (strandsOf s bid).all (fun t => !alive t.2 || c.issued.contains t.1)
        then cmdReady (modCmd s e.2 fun c => { c with full := true }) e.2 else s) s

/-- A strand that was parked when a halt reached it stays parked (10 R166). -/
def staysParked (th : Thread) : Bool := th.stopParked && th.skidLeft == some 0

/-! ### Phasers (17 R337-R341) -/

/-- Where a phaser id leads: the block's slots, or those of its cluster group. -/
inductive PhLoc where
  | core (bid id : Nat)
  | cluster (gid grp id : Nat)
deriving DecidableEq, Repr

def phAt (s : State) : PhLoc → Phaser
  | .core b i => (((tget s.blocks b).bind fun b => tget b.phs i)).getD {}
  | .cluster g r i => ((((tget s.grids g).bind fun g => tget g.groups r).bind fun r => tget r.phs i)).getD {}

def setPh (s : State) (l : PhLoc) (p : Phaser) : State :=
  match l with
  | .core b i => modBlock s b fun b => { b with phs := tset b.phs i p }
  | .cluster g r i => modGrid s g fun g => { g with groups := tmod g.groups r fun r => { r with phs := tset r.phs i p } }

/-- The phaser that an id names for a block of a grid; none if it names no claimed slot (17 R337). -/
def phLoc (g : Grid) (b : Block) (bid id : Nat) : Option PhLoc :=
  if id < 8 then (if id < g.lrec.phasers then some (.core bid id) else none)
  else if id < 32 + g.lrec.phasers && hasGroups g.lrec then some (.cluster b.gid (groupIdx g.lrec b.lin) id) else none

/-- The strands that share a phaser. -/
def phStrands (s : State) : PhLoc → List (Nat × Thread)
  | .core b _ => strandsOf s b
  | .cluster g r _ => s.threads.filter fun e => !e.2.cc &&
      (match tget s.blocks e.2.bid with
       | some b => b.gid == g && (match tget s.grids g with | some gr => groupIdx gr.lrec b.lin == r | none => false)
       | none => false)

/-- Every block that shares a phaser, or the grid, has started or ended: `n` blocks have not ended. -/
def allStarted (s : State) (n : Nat) (p : Block → Bool) : Bool :=
  (s.blocks.filter fun e => e.2.stage != .ended && p e.2 && s.threads.any fun t => t.2.bid == e.1).length ≥ n

/-- Every block of a cluster group has. -/
def groupStarted (s : State) : PhLoc → Bool
  | .core .. => true
  | .cluster gid r _ => match tget s.grids gid with
    | some g => allStarted s (((tget g.groups r).map (·.left)).getD 0) fun b => b.gid == gid && groupIdx g.lrec b.lin == r
    | none => true

/-- A fragment parked on this phaser. -/
def phHere (s : State) (l : PhLoc) (th : Thread) (cl : Bool) (id : Nat) : Bool :=
  match l with
  | .core b i => !cl && id == i && th.bid == b
  | .cluster g r i => cl && id == i && (match blockOf s th with
      | some b => b.gid == g && (match tget s.grids g with | some gr => groupIdx gr.lrec b.lin == r | none => false)
      | none => false)

/-- The waiting fragments that `sel` picks resume: pD tells whether the phase is abandoned (17 R338). -/
def phResume (th : Thread) (ab : Bool) (sel : Park → Option (Nat × Word × Nat)) : Thread :=
  rejoin (th.frags.foldl (fun th e =>
    match sel e.2.park with
    | some (pd, act, tok) =>
      let th := landTok (writeRes th [.p pd act (if ab then act else 0)]) tok
      { th with frags := tset th.frags e.1 { e.2 with park := .run } }
    | none => th) th)

/-- Waiters that acquire at cluster scope or wider: the L1 of their cores is invalidated (07 R115, 09 R157). -/
def dropWaiters (s s' : State) (sel : Thread → Park → Option (Nat × Word × Nat)) : State :=
  (s.threads.filter fun e => !staysParked e.2 && e.2.frags.any fun f => (sel e.2 f.2.park).isSome).foldl (fun s e => dropL1 s (coreOf s e.2)) s'

/-- Every waiter of a phase resumes. -/
def phWake (s : State) (l : PhLoc) (ph : Nat) (ab : Bool) : State :=
  let sel (th : Thread) (p : Park) : Option (Nat × Word × Nat) :=
    match p with
    | .phase cl id q pd act tok => if phHere s l th cl id && q == ph then some (pd, act, tok) else none
    | _ => none
  let s' := { s with threads := tmap s.threads fun _ th => if staysParked th then th else phResume th ab (sel th) }
  match l with
  | .core .. => s'
  | .cluster .. => dropWaiters s s' sel

/-- The phase is complete (17 R339, R340). `force`: a signalled member has just dropped. -/
def phComplete (s : State) (l : PhLoc) (p : Phaser) : Bool :=
  if p.mode = 1 then
    (if p.count = 0 then groupStarted s l && (phStrands s l).all fun e => !alive e.2 || p.arrived.contains e.1
     else p.arrived.length + (p.killed.filter fun t => !p.arrived.contains t).length ≥ p.count)
  else if p.mode = 2 then
    let sg := p.members.filter fun m => m.mode % 2 == 1
    !sg.isEmpty && sg.all fun m => p.signalled.contains m.tid
  else false

/-- The open phase ends and every waiter resumes. -/
def phAdvance (s : State) (l : PhLoc) (p : Phaser) : State :=
  let q := { p with
    phase := p.phase + 1
    arrived := []
    signalled := []
    count := 0
    mode := if p.mode = 1 then 0 else if p.members.isEmpty then 0 else p.mode }
  phWake (setPh s l q) l p.phase (p.abandoned.contains p.phase)

/-- Store a phaser and end its phase if it is complete. -/
def phPut (s : State) (l : PhLoc) (p : Phaser) : State :=
  if phComplete s l p then phAdvance s l p else setPh s l p

/-- A member stops being one (17 R340). -/
def phDrop (s : State) (l : PhLoc) (p : Phaser) (tid : Nat) : State :=
  match p.members.find? (·.tid == tid) with
  | none => s
  | some m =>
    let rest := p.members.filter (·.tid != tid)
    let q := { p with members := rest, signalled := p.signalled.filter (· != tid), mode := if rest.isEmpty then 0 else p.mode }
    let sg := rest.filter fun m => m.mode % 2 == 1
    if m.mode % 2 == 1 && sg.all (fun m => q.signalled.contains m.tid)
    then phAdvance s l { q with mode := p.mode } else setPh s l q

/-- A strand has ended: it leaves a phaser. `killed`: it counts as arrived in later counted phases; `mc`: a machine check
abandons this phase and the next (10 R186). -/
def phGone (s : State) (tid : Nat) (killed mc : Bool) (l : PhLoc) : State :=
  let p := phAt s l
  let p := if killed then { p with killed := p.killed ++ [tid] } else p
  let p := if mc then { p with abandoned := p.abandoned ++ [p.phase, p.phase + 1] } else p
  if p.mode = 2 then phDrop (setPh s l p) l p tid else phPut s l p

/-- The phasers of a strand. -/
def phLocs (s : State) (th : Thread) : List PhLoc :=
  match blockOf s th, gridOf s th with
  | some b, some g =>
    ((List.range g.lrec.phasers).map fun i => .core th.bid i) ++
      (if hasGroups g.lrec then (List.range g.lrec.phasers).map fun i => .cluster b.gid (groupIdx g.lrec b.lin) (32 + i) else [])
  | _, _ => []

/-- The strands of a grid that are placed. -/
def gridStrands (s : State) (gid : Nat) : List (Nat × Thread) :=
  s.threads.filter fun e => !e.2.cc && ((tget s.blocks e.2.bid).map (·.gid)) == some gid

/-- The GSYNC phase is complete once every strand has arrived or ended; every waiter resumes (17 R341). -/
def gsyncCheck (s : State) (gid : Nat) : State :=
  match tget s.grids gid with
  | none => s
  | some g =>
    if g.gsArrived.isEmpty || !allStarted s (g.lrec.gx * g.lrec.gy * g.lrec.gz - g.ended) (·.gid == gid) || !(gridStrands s gid).all (fun e => !alive e.2 || g.gsArrived.contains e.1) then s
    else
      let ab := g.gsAbandoned.contains g.gsPhase
      let sel (p : Park) : Option (Nat × Word × Nat) :=
        match p with
        | .gsync q pd act tok => if q == g.gsPhase then some (pd, act, tok) else none
        | _ => none
      let mine (th : Thread) : Bool := ((tget s.blocks th.bid).map (·.gid)) == some gid
      let s' := { s with threads := tmap s.threads fun _ th => if mine th && !staysParked th then phResume th ab sel else th }
      let s := dropWaiters s s' fun th p => if mine th then sel p else none
      modGrid s gid fun g => { g with gsPhase := g.gsPhase + 1, gsArrived := [] }

/-- Matrix commands of a thread that are not complete, those saved with its block among them. -/
def mxPending (s : State) (tid : Nat) : Bool :=
  s.mxq.any (fun e => e.2.any (·.tid == tid)) || s.blocks.any fun e => e.2.mxSaved.any (·.tid == tid)

/-- Every strand of the block, and its control-core context, has ended (06 R88, 07 R112). -/
def blockDone (s : State) (bid : Nat) : Bool :=
  (s.threads.filter fun e => e.2.bid == bid).all (fun e => !alive e.2) && !mxPending s (ctlThread bid)

/-- Every fragment of a strand is parked or frozen. -/
def allParked (th : Thread) : Bool := th.frags.all fun e => e.2.park != .run || e.2.frozen

/-- A block that a pre-emption waits on is saved once every strand has stopped (10 R178). -/
def saveCheck (s : State) (bid : Nat) : State :=
  match tget s.blocks bid with
  | none => s
  | some b =>
    if b.preq.isEmpty || b.stage != .running then s
    else if (strandsOf s bid).all (fun e => allParked e.2) then after s (.blockSave bid) else s

/-- What follows when lanes of a strand have ended, and when it has no fragment left; `mc`: by a machine check. -/
def strandGone (s : State) (tid : Nat) (mc : Bool) : State :=
  match tget s.threads tid with
  | none => s
  | some th =>
    if alive th then s
    else
      let s := if th.cc then s else (phLocs s th).foldl (fun s l => phGone s tid th.killed mc l) s
      let s := tagCheck s th.bid
      let gid := ((blockOf s th).map (·.gid)).getD 0
      let s := if mc then modGrid s gid fun g => { g with gsAbandoned := g.gsAbandoned ++ [g.gsPhase, g.gsPhase + 1] } else s
      let s := gsyncCheck s gid
      if blockDone s th.bid then after s (.blockEnd th.bid) else saveCheck s th.bid

end Sys2Proof.Machine
end

