-- ==== Sys2Proof/Machine/Ops.lean ====
section
/-! DEFINITION. Taking an exception and returning from it (10 R165-R177), machine checks (10 R183-R186), and the issue of
an instruction by a fragment (13 R237, R242-R247): the operations that every encoded instruction's meaning goes
through. -/
namespace Sys2Proof.Machine

/-! ### Kills -/

def stackOf (core : Nat) : Nat := core / 192
/-- Device-time cycles of one cycle of a core's clock (01 R14, R15). -/
def clkDiv (s : State) (core : Nat) : Nat := if s.pkg.halved.contains (stackOf core) then 2 else 1

/-- A strand stops for good. -/
def endThread (th : Thread) : Thread :=
  { th with
    frags := []
    splits := []
    calls := []
    exited := th.lanes
    killed := true
    pendTrap := none
    hand := none
    frame := none
    skidLeft := none }

/-- The unstarted matrix commands of a context are dropped; one that has started, at the head, completes (10 R169). -/
def dropMx (q : List MxCmd) (tid : Nat) : List MxCmd := q.filter fun c => c.begun || c.tid != tid

/-- Kill a block as `TRET.kill` does (10 R169, R171): its strands stop, the grid's status becomes FAULT with the code of the
first fault, a kind-4 record is posted, and the block ends. -/
def killBlock (s : State) (bid code strand addr : Nat) : State :=
  match tget s.blocks bid with
  | none => s
  | some b =>
    let ctx := ((tget s.grids b.gid).map (·.ctx)).getD 0
    let s := { s with
      threads := tmap s.threads fun _ th => if th.bid = bid then endThread th else th
      mxq := tmap s.mxq fun _ q => dropMx q (ctlThread bid) }
    let s := modBlock s bid fun b => { b with trap := {}, halted := false, preq := [], late := [], halt := 0, mxSaved := [] }
    let s := modGrid s b.gid fun g => if g.fault.isNone then { g with fault := some (code, b.lin) } else g
    let s := postRec s ctx { kind := 4, code := code, flags := 0, strand := strand, addr := addr, time := s.time, body := [], ev := evOf s b.gid }
    let s := (strandsOf s bid).foldl (fun s e => strandGone s e.1 false) s
    after s (.blockEnd bid)

/-- Cancel or drop a block without a fault: its strands stop and it ends (11 R212, 04 R74). -/
def cancelBlock (s : State) (bid : Nat) : State :=
  let s := { s with
    threads := tmap s.threads fun _ th => if th.bid = bid then endThread th else th
    mxq := tmap s.mxq fun _ q => dropMx q (ctlThread bid) }
  let s := modBlock s bid fun b => { b with trap := {}, halted := false, preq := [], late := [], halt := 0, mxSaved := [] }
  let s := (strandsOf s bid).foldl (fun s e => strandGone s e.1 false) s
  after s (.blockEnd bid)

/-! ### Precise traps (10 R165-R171) -/

/-- Trap mode, the time between two handlers and a halt that waits for its first handler included (10 R167, R170). -/
def inTrap (b : Block) : Bool := b.trap.active || b.halted

/-- When what was asked of a block first was asked (10 R170). -/
def askedAt (b : Block) : Nat :=
  if b.preq.isEmpty then b.lateAt else if b.late.isEmpty && b.halt = 0 then b.preqAt else min b.preqAt b.lateAt

/-- When the wait of requests for the end of trap mode ends at the latest (10 R170). -/
def trapLimit (b : Block) : Nat := max b.trap.since (askedAt b) + 8192

/-- A request that waits, noted with its time. -/
def noteLate (now : Nat) (b : Block) : Block := { b with lateAt := if b.late.isEmpty && b.halt = 0 then now else b.lateAt }

/-- The limit of a block's wait is watched. -/
def watchTrap (s : State) (bid : Nat) : State :=
  match tget s.blocks bid with
  | some b => atTime s (max s.time (trapLimit b)) (.handlerDeadlineExpiry bid)
  | none => s

/-- A stop that was asked of a block before trap mode has its limit too (10 R170). -/
def watchStop (s : State) (bid : Nat) : State := if ((tget s.blocks bid).map fun b => b.halt != 0).getD false then watchTrap s bid else s

/-- The halt reaches the siblings: each may issue at most 6 more instructions, a parked one none (10 R166). -/
def haltSiblings (s : State) (bid tid : Nat) : State :=
  { s with threads := tmap s.threads fun t th =>
      if th.bid = bid && !th.cc && t != tid && th.skidLeft.isNone
      then { th with skidLeft := some (if allParked th then 0 else 6), skid := 0, stopParked := allParked th } else th }

/-- Take a precise trap of a fragment (10 R166, R167, R170, R171): the instruction has written nothing. `lanes` failed the check; `act`
is the active set. -/
def takeTrap (s : State) (tid fi code info : Nat) (lanes : Word) (addr : Nat) (act : Word := lanes) : State :=
  match tget s.threads tid with
  | none => s
  | some th =>
    let fr := (tget th.frags fi).getD { pc := 0, m := 0, em := 0, bmask := 0 }
    let sid := strandId s th fi
    let handler := ((gridOf s th).map (·.handler)).getD 0
    let s := lacewing s (stackOf (coreOf s th)) 4 code sid act fr.pc
    let s := if code = 14 then lacewing s (stackOf (coreOf s th)) 8 14 sid act fr.pc else s
    if th.cc then killBlock s th.bid (0x100 + code) sid addr
    else if handler == 0 then killBlock s th.bid code sid addr
    else if th.hand.isSome then killBlock s th.bid 0x30 sid addr
    else
      let r : TrapRec := { code := code, info := info, pc := fr.pc, em := fr.em, lanes := lanes, addr := BitVec.ofNat 64 addr, frag := fi, time := s.time }
      let first := !((tget s.blocks th.bid).map (·.halted)).getD false
      let s := modThread s tid fun th => { th with
        inbox := th.inbox.filter fun x => x.1 / 2 ^ 80 != 4 + fi
        pendTrap := some r
        skid := if th.skidLeft.isNone then 0 else th.skid
        stopParked := if th.skidLeft.isNone then false else th.stopParked
        skidLeft := some 0 }
      if first then
        watchStop (after (haltSiblings (modBlock s th.bid fun b => { b with halted := true }) th.bid tid) (.trapHandlerEntry th.bid)) th.bid
      else s

/-- The stop record of a strand (10 R168). -/
def stopRecord (s : State) (th : Thread) : Word :=
  if !alive th || th.killed then BitVec.ofNat 32 (7 * 2 ^ 29)
  else
    let code := ((gridOf s th).map (·.lrec.code)).getD 0
    BitVec.ofNat 32 (th.skid * 2 ^ 29 + (if th.stopParked then 2 ^ 28 else 0) + (th.stopPc.toNat - code) / 12 % 2 ^ 28)

/-- The pending trap that is handled next: the one detected first when the block has just halted, then the lowest strand
(10 R167). -/
def nextPending (s : State) (bid : Nat) : Option (Nat × TrapRec) :=
  let ps := (strandsOf s bid).filterMap fun e => e.2.pendTrap.map fun r => (e.1, r)
  let first := ((tget s.blocks bid).map fun b => b.trap.since == 0).getD true
  if first then ps.foldl (fun o e => match o with | none => some e | some x => if e.2.time < x.2.time then some e else some x) none
  else ps.head?

/-- The handler's fragment takes the trapping fragment's entry; the others freeze (10 R168, R188). -/
def enterFrag (th : Thread) (fi mark : Nat) (handler : Dword) : Thread :=
  match tget th.frags fi with
  | none => th
  | some fr =>
    let em := fullM th 40 fr.split fr.m &&& ~~~th.exited
    let frozen := tmap th.frags fun _ f => { f with frozen := true }
    let hf : Frag := { pc := handler, m := em, em := em, bmask := em }
    { th with
      hand := some { old := fr, entry := fi, mark := mark, depth := th.calls.length }
      frags := tset frozen fi hf
      calls := passCalls th.calls (2 * fi) (2 ^ 20)
      pendTrap := none }

/-- Trap handler entry (10 R168): every sibling has stopped, the trap registers are set, and the handler runs in trap mode on
the trapping strand. -/
def enterHandler (s : State) (bid : Nat) : State :=
  match nextPending s bid, tget s.blocks bid with
  | some (tid, r), some b =>
    if b.trap.active then s
    else
      let handler := ((tget s.grids b.gid).map (·.handler)).getD 0
      let stop (t : Nat) (th : Thread) : Thread :=
        if th.bid != bid || th.cc || th.hand.isSome then th
        else if b.trap.since != 0 then th
        else { th with
          skidLeft := some 0
          stopPc := (if t = tid then r.pc else (th.frags.head?.map fun e => e.2.pc).getD 0) }
      let s := { s with threads := tmap s.threads stop }
      let mark := s.nextId
      let s := modThread (newId s) tid fun th => enterFrag th r.frag mark handler
      modBlock s bid fun b => { b with
        trap := { b.trap with
          active := true
          tid := tid
          since := max s.time 1
          tcause := BitVec.ofNat 32 (r.info % 65536 * 65536 + r.code)
          tpcl := r.pc.setWidth 32
          tpch := (r.pc >>> 32).setWidth 32
          tem := r.em
          tlanes := r.lanes
          taddrl := r.addr.setWidth 32
          taddrh := (r.addr >>> 32).setWidth 32 } }
  | _, _ => s

/-! ### Pre-emption requests (06 R98, 10 R170, R178) -/

/-- The pre-emption deadline of a block's launch (04 R66). -/
def deadlineOf (r : LRec) : Nat := 2 ^ (if r.deadline = 0 then 16 else r.deadline)

/-- Sleep ends when `%preq` becomes nonzero (15 R299). -/
def wakeSleepers (s : State) (bid : Nat) : State :=
  let wake (fr : Frag) : Frag := match fr.park with | .sleep _ => { fr with park := .run } | _ => fr
  { s with threads := tmap s.threads fun _ th =>
    if th.bid = bid && !staysParked th then rejoin { th with frags := tmap th.frags fun _ f => wake f } else th }

/-- `%preq`: the lowest pending reason, of requests that wait for the end of trap mode too (06 R98). -/
def preqOf (b : Block) : Nat :=
  match b.preq ++ b.late with
  | [] => 0
  | r => r.foldl min 15

/-- A request takes effect: `%preq` is set, a sleeper wakes, and the deadline starts (10 R178, 15 R299). -/
def takePreq (s : State) (bid : Nat) (reasons : List Nat) : State :=
  match tget s.blocks bid with
  | none => s
  | some b =>
    let new := reasons.filter fun r => !b.preq.contains r
    if new.isEmpty then s
    else
      let dl := ((tget s.grids b.gid).map fun g => deadlineOf g.lrec).getD 65536
      let s := modBlock s bid fun b => { b with preq := b.preq ++ new, preqAt := if b.preq.isEmpty then s.time else b.preqAt }
      let s := wakeSleepers s bid
      saveCheck (if b.preq.isEmpty then atTime s (s.time + dl) (.forcedSave bid) else s) bid

/-- Ask blocks to stop, with a reason; in trap mode, and before the block has started, the request waits, but `%preq` shows it
(06 R98, 10 R170). -/
def setPreq (s : State) (bids : List Nat) (reason : Nat) : State :=
  bids.foldl (fun s bid =>
    match tget s.blocks bid with
    | none => s
    | some b =>
      if b.stage == .scrubbing || b.stage == .reserved then modBlock s bid fun b => { b with late := b.late ++ [reason] }
      else if b.stage != .running then s
      else if inTrap b then
        watchTrap (wakeSleepers (modBlock s bid fun b => { noteLate s.time b with late := b.late ++ [reason] }) bid) bid
      else takePreq s bid [reason]) s

/-- Issue stops on every strand of a block, which is then saved (10 R179, 05 R80). -/
def stopStrands (s : State) (bid : Nat) : State :=
  after { s with threads := tmap s.threads fun _ th => if th.bid = bid then { th with stopped := true } else th } (.blockSave bid)

/-- Stop blocks at once: 4 when a COOP grid is parked, 6 at a slice end, 7 by DBG_STOP; in trap mode the stop waits, and one that has
not started stops as it starts (05 R78, R80, 10 R170, R191). -/
def stopNow (s : State) (bids : List Nat) (why : Nat) : State :=
  bids.foldl (fun s bid =>
    match tget s.blocks bid with
    | none => s
    | some b =>
      let s' := modBlock s bid fun b => { noteLate s.time b with halt := why }
      if b.stage == .scrubbing || b.stage == .reserved then s'
      else if b.stage != .running then s
      else if inTrap b then watchTrap s' bid else stopStrands s' bid) s

/-- What a fragment waited for while its block was halted has come about (10 R166). -/
def wakeStayed1 (s : State) (t : Nat) (th : Thread) (fi : Nat) (f : Frag) : State :=
  let resume (ab wide : Bool) (r : Nat × Word × Nat) : State :=
    let s := modThread s t fun th => phResume th ab fun q => if q == f.park then some r else none
    if wide then dropL1 s (coreOf s th) else s
  match f.park, blockOf s th, gridOf s th with
  | .phase cl id ph pd act tok, some b, some g => match phLoc g b th.bid id with
    | some l => if (phAt s l).phase > ph then resume ((phAt s l).abandoned.contains ph) cl (pd, act, tok) else s
    | none => s
  | .gsync ph pd act tok, _, some g => if g.gsPhase > ph then resume (g.gsAbandoned.contains ph) true (pd, act, tok) else s
  | .sleep till, some b, _ =>
    if till ≤ s.time || preqOf b != 0 then modThread s t fun th => rejoin { th with frags := tmod th.frags fi fun f => { f with park := .run } } else s
  | .mwait .., _, _ => after s (.mwaitWake t fi)
  | _, _, _ => s

/-- The fragments of a block that was halted look at their waits again. -/
def wakeStayed (s : State) (bid : Nat) : State :=
  (s.threads.filter fun e => e.2.bid == bid).foldl (fun s e => e.2.frags.foldl (fun s f => wakeStayed1 s e.1 e.2 f.1 f.2) s) s

/-- The block resumes: no trap is pending any more; what trap mode deferred is due (10 R167, R170). -/
def resumeBlock (s : State) (bid : Nat) : State :=
  let s := { s with threads := tmap s.threads fun _ th =>
    if th.bid = bid then { th with skidLeft := none, skid := 0, stopParked := false } else th }
  let s := wakeStayed s bid
  match tget s.blocks bid with
  | none => s
  | some b =>
    let s := modBlock s bid fun b => { b with
      halted := false, late := [], trap := { b.trap with active := false, since := 0 } }
    if b.halt != 0 then stopStrands s bid
    else
      let dl := ((tget s.grids b.gid).map fun g => deadlineOf g.lrec).getD 65536
      let s := if b.preq.isEmpty then s else atTime s (max s.time (b.preqAt + dl)) (.forcedSave bid)
      saveCheck (takePreq s bid b.late) bid

/-- Trap mode ends: the next pending trap is handled, or the block resumes. -/
def nextHandler (s : State) (bid : Nat) : State :=
  let s := modBlock s bid fun b => { b with trap := { b.trap with active := false } }
  if (nextPending s bid).isSome then after s (.trapHandlerEntry bid) else resumeBlock s bid

/-- The strand's fragments as they were, the trapping one at TPC with EM := TEM ∧ M (10 R169, R188). -/
def leaveFrag (th : Thread) (h : Hand) (pc : Dword) (em : Word) : Thread :=
  let m := h.old.m &&& ~~~th.exited
  let em := em &&& m
  let th := { th with
    hand := none
    splits := th.splits.filter fun e => e.1 < h.mark
    calls := passCalls (th.calls.drop (th.calls.length - h.depth)) (2 ^ 20) (2 * h.entry)
    frags := tmap (th.frags.filter fun e => e.2.frozen) fun _ f => { f with frozen := false } }
  let f := arrive th { h.old with pc := pc, m := m, em := em, bmask := em, park := .run, prog := if pc == h.old.pc then h.old.prog else [], snaps := [] }
  settle 40 { th with frags := if m == 0 then th.frags else tset th.frags h.entry f }

/-- Return from a trap: `TRET.resume` (10 R169). -/
def trapReturn (s : State) (tid : Nat) : State :=
  match tget s.threads tid with
  | none => s
  | some th =>
    match th.hand, tget s.blocks th.bid with
    | some h, some b =>
      let pc := b.trap.tpch ++ b.trap.tpcl
      nextHandler (modThread s tid fun th => leaveFrag th h pc b.trap.tem) th.bid
    | _, _ => s

/-! ### Replayable faults (07 R120, 10 R175, R176) -/

/-- The record of a failed translation. -/
def faultRec (s : State) (e : TErr) (addr strand flags : Nat) : FRec :=
  match e with
  | .pool l => { kind := 2, code := l, flags := flags, strand := strand, addr := addr, time := s.time, body := [] }
  | .cause c _ => { kind := 1, code := c, flags := flags, strand := strand, addr := addr, time := s.time, body := [] }
  | _ => { kind := 1, code := 1, flags := flags, strand := strand, addr := addr, time := s.time, body := [] }

/-- The page of a failing address, and log2 of its size: the page that the tables give, or the granule for a lane, a block and the
export range. -/
def failPage : TErr × Nat → Nat × Nat
  | (.pool l, a) => if l < 2 || l == 7 then (a / 4096, 12) else (a / 65536, 16)
  | (.cause _ sh, a) => (a / 2 ^ sh, sh)
  | (_, a) => (a / 65536, 16)

/-- One failing address of each page. -/
def distinctPages : List (TErr × Nat) → List (TErr × Nat)
  | [] => []
  | e :: r => e :: (distinctPages r).filter fun x => failPage x != failPage e

/-- Post one record for each distinct failing page; gives the records' numbers. -/
def postFaults (s : State) (c strand flags : Nat) (ev : Option Nat) (es : List (TErr × Nat)) : State × List Nat :=
  (distinctPages es).foldl (fun (s, ids) e => (postRec s c { faultRec s e.1 e.2 strand flags with ev := ev }, ids ++ [s.nextId])) (s, [])

/-- A fragment's instruction faults replayably: it takes the strand's continuation, or parks (10 R176, R177); during a skid it parks
(10 R167). -/
def takeFault (s : State) (tid fi : Nat) (es : List (TErr × Nat)) : State :=
  match tget s.threads tid with
  | none => s
  | some th =>
    let (s, ids) := postFaults s (ctxOf s th) (strandId s th fi) 0 ((gridOf s th).map (·.evNo)) es
    modThread s tid fun th =>
      match tget th.frags fi with
      | none => th
      | some fr =>
        match (if th.skidLeft.isSome then none else th.contAddr), th.frame, th.hand, ids with
        | some a, none, none, id :: _ =>
          let f := { fr with pc := a, sig := fold sigReset (sigRec 0 false 3), bmask := fr.em, inCont := true, prog := [], snaps := [] }
          { th with frame := some { pc := fr.pc, em := fr.em, sig := fr.sig, rcd := id }, frags := tset th.frags fi (arrive th f) }
        | _, _, _, _ => { th with frags := tset th.frags fi { fr with park := .fault ids } }

/-! ### Machine checks (10 R183-R186) -/

/-- The four words of a machine-check record (10 R185). -/
def mcRecord (s : State) (th : Thread) (kind unit retry op lane : Nat) (corr : Bool) (pc : Dword) (detail : Nat) : List Dword :=
  let core := if th.cc then clusterOf s th * 8 else coreOf s th
  let b := blockOf s th
  let slot := if th.cc then (b.bind (·.ctl)).getD 0 else ((b.map (·.sslots)).getD []).getD th.idx 0
  [BitVec.ofNat 64 (kind * 2 ^ 60 + unit * 2 ^ 56 + (if corr then 2 ^ 55 else 0) + retry * 2 ^ 53 + op * 2 ^ 43 + lane * 2 ^ 37
      + core * 2 ^ 26 + slot * 2 ^ 16 + (if th.cc then 2 ^ 9 else 0)),
   pc, BitVec.ofNat 64 s.time, BitVec.ofNat 64 detail]

/-- Kill the consuming strand (10 R186), or the whole block of a control context, every strand of which counts as killed. `act` is the
active set of the instruction (10 R192). -/
def machineCheck (s : State) (tid fi : Nat) (act : Word) (rcd : List Dword) : State :=
  match tget s.threads tid with
  | none => s
  | some th =>
    let sid := strandId s th fi
    let hit (t : Nat) (x : Thread) : Bool := x.bid == th.bid && (th.cc || t == tid) && alive x
    let n := if th.cc then ((blockOf s th).map fun b => b.nstr - b.killedStrands).getD 0
      else (s.threads.filter fun e => hit e.1 e.2).length
    let dead := (s.threads.filter fun e => hit e.1 e.2).map Prod.fst
    let wasHand := th.hand.isSome
    let s := lacewing s (stackOf (coreOf s th)) 7 0 sid act ((rcd.getD 1 0))
    let s := { s with threads := tmap s.threads fun t x => if hit t x then endThread x else x }
    let s := modBlock s th.bid fun b => { b with mc := rcd, killedStrands := b.killedStrands + n }
    let s := if th.cc then { s with mxq := tmap s.mxq fun _ q => dropMx q tid } else s
    let gid := ((blockOf s th).map (·.gid)).getD 0
    let s := modGrid s gid fun g => { g with killedStrands := g.killedStrands + n }
    let cnt := ((tget s.blocks th.bid).map (·.killedStrands)).getD 0
    let s := postRec s (ctxOf s th)
      { kind := 6, code := cnt, flags := 0, strand := sid, addr := 0, time := s.time, body := rcd.flatMap (fun w => leBytes w.toNat 8), ev := evOf s gid }
    let s := dead.foldl (fun s t => strandGone s t true) s
    if wasHand then nextHandler s th.bid else s

/-! ### Issue -/

/-- What an instruction does once it issues. -/
inductive Act where
  /-- Performed: results, and on to the next instruction. -/
  | done (s : State) (rs : List Res)
  /-- Performed, its result to come with a later event: the fragment goes on, or parks after the instruction. -/
  | defer (s : State) (p : Park)
  /-- Control transfer: the body has moved the fragments itself. -/
  | ctl (s : State)
  /-- A precise trap: code, INFO, failing lanes, address. -/
  | trap (code info : Nat) (lanes : Word) (addr : Nat)
  /-- It holds before the instruction. -/
  | wait (s : State) (why : Wait)
  /-- It parks before the instruction. -/
  | hold (s : State) (p : Park)
  /-- Replayable faults. -/
  | flt (s : State) (es : List (TErr × Nat))
deriving DecidableEq, Repr

/-- What an instruction issues with. -/
structure Env where
  s : State
  tid : Nat
  fi : Nat
  th : Thread
  fr : Frag
  blk : Block
  grid : Grid
  h : Hdr
  /-- The active set (13 R237). -/
  act : Word
  /-- The token of its results. -/
  tok : Nat

/-- Where the instruction translates (07 R119). -/
def Env.unit (e : Env) : Nat := if e.th.cc then 2048 + e.blk.core / 8 else e.blk.core

/-- The lanes that pass the guard (13 R237). -/
def guardMask (th : Thread) (now n : Nat) (h : Hdr) : Word :=
  if h.gp == 31 then (if h.gn then 0 else 0xFFFFFFFF)
  else maskOf fun l => rdP th now n h.gp.toNat l != h.gn

/-- The issuing fragment and its surroundings. -/
def mkEnv (h : Hdr) (s : State) : Option Env :=
  match tget s.threads s.cur with
  | none => none
  | some th => match tget th.frags s.curFrag, tget s.blocks th.bid with
    | some fr, some b => match tget s.grids b.gid with
      | some g => some {
          s := s, tid := s.cur, fi := s.curFrag, th := th, fr := fr, blk := b, grid := g, h := h
          act := fr.em &&& guardMask th s.time s.freeCtr h, tok := s.nextId }
      | none => none
    | _, _ => none

/-- The active set that a fragment's next instruction has, as memory holds it (10 R192). -/
def actAt (s : State) (tid fi : Nat) : Word :=
  match tget s.threads tid with
  | none => 0
  | some th => match tget th.frags fi with
    | none => 0
    | some fr => match (translate s (ctxOf s th) fr.pc.toNat .fetch).2 with
      | .ok (.key a _) => fr.em &&& guardMask th s.time s.freeCtr (decodeHdr (BitVec.ofNat 96 (leNat (rdN s a 12))))
      | _ => fr.em

/-- An 11-bit immediate under a TYPE (13 R239). -/
def immVal (ty : Nat) (f : BitVec 11) : Word :=
  if ty = 9 then f.setWidth 32 <<< 21
  else if ty = 12 || ty = 13 then f.setWidth 32 <<< 5
  else if ty = 10 || ty = 11 then (f.setWidth 32 <<< 5) ||| (f.setWidth 32 <<< 21)
  else f.signExtend 32

/-- The value that lane `l` reads from a source field. -/
def src (e : Env) (ty : Nat) (k : Kind) (f : BitVec 11) (l : Nat) : Word :=
  match k with
  | .v => rdV e.th e.s.time e.s.freeCtr f.toNat l
  | .k => rdK e.th e.s.time e.s.freeCtr f.toNat
  | .p => if rdP e.th e.s.time e.s.freeCtr f.toNat l then 1 else 0
  | .imm => immVal ty f

/-- The OPs that a control context may execute (13 R245). -/
def ccOp (op : Nat) : Bool :=
  let c := op / 64
  c ≤ 5 || op == 0x180 || op == 0x181 || op == 0x186 || op == 0x187 || op == 0x200 || op == 0x207 || c == 11 || c == 13

/-- What the issuing agent must satisfy beyond the encoding (13 R232, R233, R245, 07 R113, 10 R168, 15 R296, 19 R368). -/
def ctxLegal (i : Instr) (e : Env) : Bool :=
  let op := opOf i
  let rs := reads i ++ writes i
  encodable i && rs.all (fun r => r.file != 0 || r.num < e.th.nregs)
    && (if e.th.cc then ccOp op && rs.all (fun r => r.file != 1) && (hdrKinds i) else op / 64 != 11 && op != 0x34B)
    && (!(op == 0x341 || op == 0x349 || op == 0x34A) || e.th.hand.isSome)
    && (!(op == 0x0C6 || op == 0x309) || e.th.hand.isNone)
    && (op / 64 != 12 || ((tget e.s.ctxs e.grid.ctx).bind (·.tbase)).isSome)
where
  /-- No destination is a k register, and no source of kind 01 stands in any field, read or not (13 R240). -/
  hdrKinds (i : Instr) : Bool :=
    match rowR i with
    | some (f, _) => !f.kd && f.ka != .k && f.kb != .k && f.kc != .k
    | none => true

/-- The fragment may issue now: it runs, its strand is not stopped or halted, its replay entries are performed, and the stall count
and the scoreboard allow it (06 R96, 13 R242, R243, 09 R156). -/
def canIssue (e : Env) : Bool :=
  e.fr.park == .run && !e.fr.frozen && !e.th.stopped && e.blk.stage == .running
    && (e.th.hand.isSome || e.th.skidLeft != some 0) && e.th.stallTill ≤ e.s.time
    && ((List.range 7).all fun j => !e.h.sbwait.getLsbD j || slotCount e.th (j + 1) == 0)
    && (e.h.sbset == 0 || slotCount e.th e.h.sbset.toNat < 63)
    && (e.th.replay.all fun c => ((tget e.s.cmds c).map fun x => decide (x.st ≥ 3)).getD true)

/-- The lowest lane of a set. -/
def lowLane (m : Word) : Word := match lowest m with | some l => 1 <<< l | none => 0

/-- The lanes in which an instruction reads a v register or a predicate: its guard in every lane of EM (13 R237), an operand of the
whole strand in the lowest active lane, or in the lowest lane of M (15 R290, R288, 17 R331, R336, 18 R348, 19 R368), others in every
active lane. -/
def readLanes (i : Instr) (e : Env) (r : RegRef) : Word :=
  let one := lowLane e.act
  let m := match i with
    | .maskw .. | .sleep .. => lowLane e.fr.m
    | .setsr .. | .sysw .. | .feset .. | .feclr .. | .cpyt .. | .sortk .. | .npost .. | .erun .. | .estat .. | .elink .. | .launch ..
    | .mma .. | .mmasp .. | .mmag .. | .mxz .. | .mxdr .. | .mxbl .. | .cfn .. | .ccor .. | .cseq .. | .cpar .. | .cpipe .. | .cfarm ..
    | .cloop .. | .apply .. | .awaitc .. | .cfree .. => one
    | .mwait _ f => if r.num = f.c.toNat && !(reads (.mwait e.h { f with c := f.a })).any (fun x => x.file == 0 && x.num == r.num) then one
      else e.act
    | _ => e.act
  if r.file == 2 && r.num == e.h.gp.toNat then m ||| e.fr.em else m

/-- The lanes in which it writes one: V2P those whose bit of B is 1 (15 R289). -/
def writeLanes (i : Instr) (e : Env) (r : RegRef) : Word :=
  match i with
  | .v2p _ f => maskOf fun l => e.act.getLsbD l && (src e 0 f.kb f.b l).getLsbD r.num
  | _ => e.act

/-- The lanes in which the instruction reads, or writes, a register whose result is pending; a k register has one value, so the whole
active set. -/
def pendLanes (i : Instr) (e : Env) (w : Bool) (r : RegRef) : Word :=
  (e.th.pend.filter fun p => p.file == r.file && p.num == r.num && stillPend e.s.time p).foldl
    (fun m p => m ||| (if r.file == 1 then e.act else p.mask &&& (if w then writeLanes i e r else readLanes i e r))) 0

/-- STALL_SHORT (13 R244): the first register, read before written, whose result is pending, and its lanes. -/
def shortStall (i : Instr) (e : Env) : Option (RegRef × Word) :=
  if !e.th.chk || e.act == 0 then none
  else ((reads i).map (false, ·) ++ (writes i).map (true, ·)).findSome? fun x =>
    let m := pendLanes i e x.1 x.2
    if m == 0 then none else some (x.2, m)

/-- The signature after the instruction's record: event 0 issue, 1 split (10 R188). -/
def issueSig (i : Instr) (e : Env) (event : Nat) : Word := fold e.fr.sig (sigRec (opOf i) (e.fr.em != e.fr.bmask) event)

/-- On to the next instruction: PC + 12, and the issue record is folded (10 R188, 13 R235). -/
def advance (i : Instr) (e : Env) (th : Thread) : Thread :=
  match tget th.frags e.fi with
  | none => th
  | some fr => { th with frags := tset th.frags e.fi (arrive th { fr with pc := fr.pc + 12, sig := issueSig i e 0, prog := [], snaps := [] }) }

/-- The instruction demotes its fragment (06 R97, 15 R298). -/
def demotes (i : Instr) (e : Env) : Bool :=
  match i with
  | .yield .. => true
  | .yieldReq .. => e.h.yld || preqOf e.blk != 0
  | _ => e.h.yld

/-- A fuse record of Lacewing for a split that was there before and has fused (10 R192). -/
def traceFuse (e : Env) (th : Thread) (s : State) (x : Nat × Split) : State :=
  match x.2.addr with
  | some a =>
    if (tget th.splits x.1).isSome then s
    else match th.frags.find? fun f => f.2.pc == a with
      | some f => lacewing s (stackOf e.blk.core) 3 0 (strandId s th f.1) f.2.em a
      | none => s
  | none => s

/-- The fuse records of an issue. -/
def traceFuses (e : Env) (s : State) : State :=
  match tget s.threads e.tid with
  | none => s
  | some th => e.th.splits.foldl (traceFuse e th) s

/-- What every issue leaves: the slot that it sets, the stall, demotion, the end of a promotion, one step of a skid, and the
fusions that are due (13 R242, R243, 06 R97, 10 R166, 08 R129). -/
def closeIssue (i : Instr) (e : Env) (th : Thread) : Thread :=
  let th := if e.h.sbset == 0 then th
    else { th with sb := tset th.sb e.h.sbset.toNat (slotCount th e.h.sbset.toNat + 1), flights := tset th.flights e.tok e.h.sbset.toNat }
  let th := { th with
    stallTill := e.s.time + (1 + e.h.stall.toNat) * clkDiv e.s e.blk.core
    issuedAt := some e.s.time
    frags := tmod th.frags e.fi fun f => { f with demoted := demotes i e, promoted := none, readySince := none, busyAt := some e.s.time }
    skidLeft := th.skidLeft.map (· - 1)
    skid := if e.th.skidLeft.isSome && e.th.hand.isNone then th.skid + 1 else th.skid }
  let th := settle 40 th
  { th with frags := tmap th.frags fun _ f => { f with busyAt := some (f.busyAt.getD e.s.time) } }

/-- When the results of an instruction land (07 R101). -/
def dueTime (i : Instr) (e : Env) : Option Nat := (latency i).map fun l => e.s.time + l * clkDiv e.s e.blk.core

/-- Results go into the registers; those of fixed latency that have landed are forgotten. -/
def commitRes (i : Instr) (e : Env) (rs : List Res) (th : Thread) : Thread :=
  rs.foldl (applyRes e.s.time e.s.freeCtr e.tok (dueTime i e)) { th with pend := th.pend.filter (stillPend e.s.time) }

/-- Carry out what an instruction does. -/
def finish (i : Instr) (e : Env) (a : Act) : State :=
  match a with
  | .done s rs =>
    let s := modThread { s with nextId := s.nextId + 1, freeCtr := s.freeCtr + 1 } e.tid fun th =>
      closeIssue i e (advance i e (commitRes i e rs th))
    let s := traceFuses e s
    let s := if (latency i).isNone && (!rs.isEmpty || e.h.sbset != 0) then after s (.variableLatencyResult e.tid e.tok) else s
    saveCheck s e.th.bid
  | .defer s p =>
    let s := modThread { s with nextId := s.nextId + 1, freeCtr := s.freeCtr + 1 } e.tid fun th =>
      let th := advance i e th
      closeIssue i e { th with frags := if p == .run then th.frags else tmod th.frags e.fi fun f => { f with park := p } }
    let s := match p with
      | .sleep _ | .stopped => if e.h.sbset != 0 then after s (.variableLatencyResult e.tid e.tok) else s
      | _ => s
    saveCheck s e.th.bid
  | .ctl s =>
    let s := modThread { s with nextId := s.nextId + 1, freeCtr := s.freeCtr + 1 } e.tid fun th => closeIssue i e th
    let s := if e.h.sbset != 0 then after s (.variableLatencyResult e.tid e.tok) else s
    let s := traceFuses e (saveCheck s e.th.bid)
    if ((tget s.threads e.tid).map (·.killed)).getD true then s else strandGone s e.tid false
  | .trap code info lanes addr => takeTrap (tick e.s) e.tid e.fi code info lanes addr e.act
  | .wait s w => hold s (.retry w)
  | .hold s p => hold s p
  | .flt s es =>
    if es.any (fun x => x.1 == .link) then
      machineCheck (tick s) e.tid e.fi e.act (mcRecord s e.th 6 15 0 (opOf i) 0 false e.fr.pc 0)
    else match es.filter fun x => x.1.replays with
      | [] => hold s (.retry .train)
      | es => saveCheck (takeFault (tick s) e.tid e.fi es) e.th.bid
where
  hold (s : State) (p : Park) : State :=
    saveCheck (modThread (tick s) e.tid fun th => { th with frags := tmod th.frags e.fi fun f => { f with park := p } }) e.th.bid

/-- An issue cycle of a quarter, or of the control core (05 R83). -/
def countIssue (e : Env) : Env := { e with s := count e.s (e.blk.core / 8) (if e.th.cc then 11 else 0) 1 }

/-- ILLEGAL that depends on more than the encoding and the agent. -/
def isIllegal : Act → Bool
  | .trap c .. => c == 1
  | _ => false

/-- The instruction accesses memory, or carries an order of its own (17 R335): classes 0x6 to 0xC. -/
def ordered (op : Nat) : Bool := 6 ≤ op / 64 && op / 64 ≤ 12

/-- Issue of an instruction, in the order of 13 R247: every cause of ILLEGAL comes before STALL_SHORT. It waits for the obligations of its fragment's fences,
if it is ordered by them. -/
def issueIn (i : Instr) (body : Env → Act) (e : Env) : State :=
  if !canIssue e then e.s
  else if !e.fr.fences.isEmpty && ordered (opOf i) then finish i e (.wait e.s .flow)
  else if !ctxLegal i e then finish i e (.trap 1 (opOf i) e.act 0)
  else
    let e' := countIssue e
    let a := body e'
    match shortStall i e with
    | some (r, m) => if isIllegal a then finish i e' a else finish i e (.trap 12 (r.num + 2048 * r.file) m 0)
    | none => finish i e' a

/-- Every encoded instruction's meaning: the current fragment issues it. -/
def issue (i : Instr) (body : Env → Act) (s : State) : Host.Outcome State Fault Refusal :=
  match hdr? i with
  | none => .refused .noIssuer
  | some h => match mkEnv h s with
    | none => .refused .noIssuer
    | some e => .next (issueIn i body e)

end Sys2Proof.Machine
end

