-- ==== Sys2Proof/Machine/Operands.lean ====
section
/-! DEFINITION. Every operand form: sources by kind (13 R239), pairs (14 R256), destinations (13 R240), addresses
(13 R248, 17 R324) and uniform operands. -/
namespace Sys2Proof.Machine

/-- The three outcomes of a meaning. -/
abbrev Out := Host.Outcome State Fault Refusal

/-- The 64-bit value of a pair operand in lane `l` (14 R256). -/
def pr (e : Env) (k : Kind) (f : BitVec 11) (l : Nat) : Dword :=
  match k with
  | .v => rdV e.th e.s.time e.s.freeCtr (f.toNat + 1) l ++ rdV e.th e.s.time e.s.freeCtr f.toNat l
  | .k => rdK e.th e.s.time e.s.freeCtr (f.toNat + 1) ++ rdK e.th e.s.time e.s.freeCtr f.toNat
  | _ => f.signExtend 64

/-- A v register, a pair of v registers, of lane `l`. -/
def vreg (e : Env) (r l : Nat) : Word := rdV e.th e.s.time e.s.freeCtr r l
def vpair (e : Env) (r l : Nat) : Dword := vreg e (r + 1) l ++ vreg e r l
def prd (e : Env) (r : BitVec 11) (l : Nat) : Bool := rdP e.th e.s.time e.s.freeCtr r.toNat l

/-- The lowest active lane, 0 if there is none. -/
def low (e : Env) : Nat := (lowest e.act).getD 0

def lo32 (x : Dword) : Word := x.setWidth 32
def hi32 (x : Dword) : Word := (x >>> 32).setWidth 32

/-- Results of every active lane, or one k result; with an empty active set nothing is written (13 R237, R240). -/
def wrD (e : Env) (kd : Bool) (d : BitVec 11) (x : Nat → Word) : List Res :=
  if e.act == 0 then []
  else if kd then [.k d.toNat (x (low e))]
  else [.v d.toNat ((lanesOf e.act).map fun l => (l, x l))]

/-- The same for a pair: bits 31:0 to D, 63:32 to D + 1. -/
def wrPair (e : Env) (kd : Bool) (d : BitVec 11) (x : Nat → Dword) : List Res :=
  wrD e kd d (fun l => lo32 (x l)) ++ wrD e kd (d + 1) (fun l => hi32 (x l))

/-- A predicate result. -/
def wrP (e : Env) (d : BitVec 11) (x : Nat → Bool) : List Res :=
  if e.act == 0 then [] else [.p d.toNat e.act (maskOf fun l => e.act.getLsbD l && x l)]

/-- Consecutive v registers of one lane. -/
def wrRegs (d : Nat) (rows : List (Nat × List Word)) (n : Nat) : List Res :=
  (List.range n).map fun j => .v (d + j) (rows.map fun r => (r.1, r.2.getD j 0))

/-- Little-endian words of a list of bytes. -/
def wordsOf (bs : List Byte) : List Word :=
  (List.range ((bs.length + 3) / 4)).map fun j => BitVec.ofNat 32 (leNat ((bs.drop (4 * j)).take 4))

/-- The bytes of the registers that hold data of a WIDTH (13 R241). -/
def dataBytes (e : Env) (d w l : Nat) : List Byte :=
  ((List.range (widthRegs w)).flatMap fun j => leBytes (vreg e (d + j) l).toNat 4).take (widthBytes w)

/-- A loaded value as register words: s8 and s16 sign-extend, other narrow widths zero-extend (13 R241). -/
def extendLoad (w : Nat) (bs : List Byte) : List Word :=
  if w = 1 then [(BitVec.ofNat 8 (leNat bs)).signExtend 32]
  else if w = 4 then [(BitVec.ofNat 16 (leNat bs)).signExtend 32]
  else wordsOf bs

/-- The base of formats M and A and a signed offset, modulo 2^64 (13 R248). -/
def ea64 (base : Dword) (off : Int) : Nat := (base + BitVec.ofInt 64 off).toNat

def baseM (e : Env) (f : FmtM) (l : Nat) : Dword := pr e (if f.ka then .k else .v) f.a l
/-- A 32-bit base, read as unsigned, plus the offset, computed exactly (17 R324). -/
def eaSp (e : Env) (f : FmtM) (l : Nat) : Int :=
  (src e 0 (if f.ka then .k else .v) f.a l).toNat + f.off.toInt

/-- The value that must be uniform of format B: k, or the lowest lane of M of a v register, or TGT32 (15 R290). -/
def uniB (e : Env) (f : FmtB) : Word :=
  match f.ka with
  | .imm => f.tgt
  | k => src e 0 k f.a ((lowest e.fr.m).getD 0)

/-- A fault of the first test that fails in any active lane: the failing lanes. -/
def failing (e : Env) (bad : Nat → Bool) : Word := maskOf fun l => e.act.getLsbD l && bad l

end Sys2Proof.Machine
end

