-- ==== Sys2Proof/Machine/Remote.lean ====
section
/-! DEFINITION. The source side of LML flows: packets that lane accesses send, releases, and failed flows (02 R26-R31). -/
namespace Sys2Proof.Machine

/-- Hardware slot of the queue that work comes from (02 R27). -/
def qtagOf (s : State) (g : Grid) : Nat := ((tget s.queues g.queue).map (·.tag)).getD 0

/-- The link machine check of an access (10 R184, R185). -/
def linkCheck (s : State) (r : Remote) : State :=
  match tget s.threads r.tid with
  | none => s
  | some th => machineCheck s r.tid r.fi r.act (mcRecord s th 6 15 0 r.op r.lane false r.pc 0)

/-- A lane's access to another package, `n` bytes from `va` there and `lva` here. `d`, `w`, `kind` as in `Remote`. -/
def sendLane (e : Env) (s : State) (op pkg va lva n l d w kind ty : Nat) (rel acq : Bool) (data : List Byte) : State :=
  match flowOf s e.grid.ctx pkg with
  | none => s
  | some (fid, f) =>
    let r : Remote := {
      tid := e.tid, tok := e.tok, d := d, lane := l, width := w, kind := kind, acq := acq, fi := e.fi, pc := e.fr.pc, op := op
      act := e.act, va := va, len := n, lva := lva, ctx := e.grid.ctx, gid := e.blk.gid, rel := rel }
    let s := { s with lnk := { s.lnk with remotes := tset s.lnk.remotes (remoteKey fid f.seq) r } }
    let s := modThread s e.tid fun th => { th with flowUse := th.flowUse.filter (· != fid) ++ (if rel then [] else [fid]) }
    sendPkt s fid (qtagOf s e.grid) ty rel (BitVec.ofNat 64 va) data

/-- A drain that adds to a tile on another package is under way there: it has read, or its writes are not all acknowledged (09 R161,
notes/assumptions/58.md). -/
def tileBusy (s : State) (pkg va n : Nat) : Bool :=
  s.mxq.any (fun q => q.2.any fun c => c.op == 0x2C4 && c.mode == 1 && !c.asked.isEmpty
      && c.segs.any fun g => g.2.2.2 == some pkg && g.2.2.1 < va + n && va < g.2.2.1 + g.2.1)
    || s.lnk.remotes.any fun r => r.2.kind == 1 && r.2.op == 0x2C4 && r.2.va < va + n && va < r.2.va + r.2.len
      && ((tget s.lnk.src (r.1 / 2 ^ 32)).map fun f => f.pkg == pkg && !f.failed).getD false

/-- On an unordered flow an access waits for the strand's earlier accesses to the same bytes (09 R150, notes/assumptions/48.md). -/
def flowClash (e : Env) (s : State) (n : Nat) (ts : List (Nat × Tgt)) : Bool :=
  ts.any fun t => match t.2 with
    | .key .. => false
    | .remote p va => tileBusy s p va n || match flowOf s e.grid.ctx p with
      | none => false
      | some (fid, f) => f.unordered && s.lnk.remotes.any fun r =>
          r.2.tid == e.tid && r.2.kind ≤ 2 && r.1 / 2 ^ 32 == fid && r.2.va < va + n && va < r.2.va + r.2.len

/-- The strand has asked for the bytes that its inbox keeps under a key. -/
def asked (s : State) (tid key : Nat) : Bool := s.lnk.remotes.any fun r => r.2.tid == tid && r.2.kind == 7 && r.2.d == key

/-- What a machine check of the issuing instruction does. -/
def linkAct (e : Env) (op lane : Nat) : Act :=
  .ctl (machineCheck e.s e.tid e.fi e.act (mcRecord e.s e.th 6 15 0 op lane false e.fr.pc 0))

/-- A released command waits for nothing that has still to be released (18 R356). -/
def willStart (s : State) : (fuel cid : Nat) → Bool
  | 0, _ => true
  | f + 1, cid => (s.cmds.filter fun c => c.2.succs.contains cid && c.2.st < 3).all fun c => c.2.st == 2 || (c.2.st == 1 && c.2.full && willStart s f c.1)

/-- A network message of the strand is under way, or will be (02 R30, 09 R163). -/
def netOut (s : State) (tid : Nat) : Bool :=
  s.cmds.any fun c => c.2.kind == 4 && c.2.tid == tid && (c.2.st == 2 || (c.2.st == 1 && willStart s s.cmds.length c.1))

/-- Loads and atomics of the strand that another package has not answered. -/
def loadsOut (s : State) (tid : Nat) : Bool := s.lnk.remotes.any fun r => r.2.tid == tid && (r.2.kind == 0 || r.2.kind == 2)

/-- What an access of a strand on another package that is not answered keeps from being performed at a scope: a load or an atomic at
any, a write at system scope, and on an unordered flow, which orders nothing, at a narrower one (02 R30, 09 R151-R154,
notes/assumptions/48.md). The flow `own` orders its accesses before a release on it. -/
def relOut (s : State) (tid scope : Nat) (own : Option Nat) : Bool :=
  scope ≥ 1 && s.lnk.remotes.any fun r => r.2.tid == tid && some (r.1 / 2 ^ 32) != own
    && (r.2.kind == 0 || r.2.kind == 2 || (r.2.kind == 1 && (scope ≥ 4
      || ((tget s.lnk.src (r.1 / 2 ^ 32)).map fun f => f.unordered && !f.failed && !r.2.acked).getD false)))

/-- A write of the strand on a failed flow was not acknowledged (02 R31). -/
def lostWrite (s : State) (tid : Nat) : Bool :=
  s.lnk.remotes.any fun r => r.2.tid == tid && r.2.kind == 1 && ((tget s.lnk.src (r.1 / 2 ^ 32)).map (·.failed)).getD true

/-- A release packet on every flow that a strand has used since its last release there, but for its own (02 R30). -/
def sendReleases (e : Env) (s : State) (own : Option Nat) : State :=
  let s := (e.th.flowUse.filter fun f => some f != own).foldl (fun s f => sendPkt s f (qtagOf s e.grid) 6 false 0 []) s
  modThread s e.tid fun th => { th with flowUse := th.flowUse.filter fun f => some f == own }

/-- A release at a scope (02 R30, R31, 17 R335). `own`: the package that its own target lies on. At system scope it sends a release on every
other flow used since. It waits until the strand's earlier accesses are performed at the scope, and at system scope for its network messages; those
on its own flow hold back its completion (`settleRel`). -/
def releaseGate (e : Env) (op scope : Nat) (own : Option Nat) : Except Act State :=
  let ownFlow := own.bind fun p => (flowOf e.s e.grid.ctx p).map Prod.fst
  if scope < 4 then (if relOut e.s e.tid scope ownFlow then .error (.wait e.s .flow) else .ok e.s)
  else if lostWrite e.s e.tid then .error (linkAct e op 0)
  else
    let s := sendReleases e e.s ownFlow
    if relOut e.s e.tid scope ownFlow || netOut s e.tid then .error (.wait s .flow) else .ok s

/-- A release part before the access (02 R30, 09 R151). -/
def release (e : Env) (s : State) (op scope : Nat) (rel : Bool) (own : Option Nat) : Except Act State :=
  if rel then releaseGate { e with s := s } op scope own else .ok s

/-- The obligations of a fence are met (17 R335): a release part as `releaseGate`, an acquire part once the strand's loads are
answered. -/
def fenceMet (s : State) (tid : Nat) (x : Fence) : Bool :=
  !(x.ord != 2 && (relOut s tid x.scope none || (x.scope ≥ 4 && netOut s tid))) && !(x.ord != 3 && loadsOut s tid)

/-- The fences of a thread whose obligations are met end: the slot falls, and what waits on them goes on. -/
def endFences (s : State) (tid : Nat) (th : Thread) : State :=
  let met := (th.frags.flatMap fun e => e.2.fences).filter (fenceMet s tid)
  if met.isEmpty then s
  else
    let wake (f : Frag) : Frag := { f with
      fences := f.fences.filter fun x => !met.contains x
      park := if f.park == .retry .flow then .run else f.park }
    let s := modThread s tid fun th =>
      let th := met.foldl (fun th x => landTok th x.tok) th
      { th with frags := tmap th.frags fun _ f => wake f }
    if met.any fun x => x.ord != 3 && x.scope ≥ 2 then dropL1 s (coreOf s th) else s

/-- A fence at system scope whose strand has lost a write ends in the machine check (02 R31). -/
def breakFences (s : State) (tid : Nat) (th : Thread) : State :=
  if !lostWrite s tid then s
  else match (th.frags.flatMap fun e => e.2.fences.map fun x => (e.1, x)).find? fun e => e.2.ord != 2 && e.2.scope ≥ 4 with
    | some (fi, x) => machineCheck s tid fi 0 (mcRecord s th 6 15 0 0x200 0 false x.pc 0)
    | none => s

/-- Look at every fence again. -/
def settleFences (s : State) : State :=
  let ts := s.threads.filter fun e => e.2.frags.any fun f => !f.2.fences.isEmpty
  ts.foldl (fun s e => breakFences (endFences s e.1 e.2) e.1 e.2) s

/-- Results of a token of which some come from another package: the registers of the remote lanes keep their values, marked
pending. -/
def holdRes (e : Env) (rs : List Res) (s : State) : State :=
  modThread s e.tid fun th => rs.foldl (applyRes e.s.time e.s.freeCtr e.tok none) { th with pend := th.pend.filter (stillPend e.s.time) }

end Sys2Proof.Machine
end

