-- ==== Sys2Proof/Machine/Access.lean ====
section
/-! DEFINITION. The checks of an access in their order (17 R324), the escape rule (08 R140), range locks (17 R325),
translation of all lanes (07 R119, R120), and the scratchpad and tile store of a block (07 R105-R110). -/
namespace Sys2Proof.Machine

/-- A trap of the lanes that fail a test; INFO and the address are of the lowest one. -/
def pickTrap (e : Env) (code : Nat) (info : Nat → Nat) (bad : Nat → Bool) (ea : Nat → Nat) : Option Act :=
  let m := failing e bad
  if m == 0 then none
  else
    let l := (lowest m).getD 0
    some (.trap code (info l) m (ea l))

/-! ### Arena checks and the escape rule -/

/-- The trap of checks 1-4 of R138, if an arena address fails one. -/
def arenaCode (e : Env) (va : Nat) : Option Nat :=
  if isArena va then
    match checkArena e.s e.grid.ctx (hasGroups e.grid.lrec) va with
    | .error c => some c
    | .ok _ => none
  else none

/-- Step 3 of R324. -/
def arenaTrap (e : Env) (ea : Nat → Nat) : Option Act :=
  [9, 6, 8, 7].findSome? fun c => pickTrap e c (fun l => bitsOf (ea l) 55 53) (fun l => arenaCode e (ea l) == some c) ea

/-- The arena that an address names, as the address of its offset 0. -/
def arenaIdent (va : Nat) : Nat :=
  let a := arenaAddr va
  if a.level ≤ 3 then arenaBaseAddr a.level a.slot a.gen a.lane else va

/-- The arenas of a grid and of the grids that launched it. -/
def gridLineage (s : State) : (fuel : Nat) → Option Nat → List Nat
  | f + 1, some gid => match tget s.grids gid with
    | some g => arenaBaseAddr 3 g.slot g.gen 0 :: gridLineage s f g.parent
    | none => []
  | _, _ => []

/-- The arenas strictly above a block's. -/
def aboveBlock (s : State) (bid : Nat) : List Nat :=
  match tget s.blocks bid with
  | none => []
  | some b =>
    let g := match tget s.grids b.gid with
      | some g => if hasGroups g.lrec then ((tget g.groups (groupIdx g.lrec b.lin)).map fun r => arenaBaseAddr 2 r.slot r.gen 0).toList else []
      | none => []
    g ++ gridLineage s (s.grids.length + 1) (some b.gid)

/-- The arenas strictly above the arena of an address (08 R133). -/
def aboveArena (s : State) (c va : Nat) : List Nat :=
  match findArena s c true va with
  | .error _ => []
  | .ok (_, x) =>
    let a := arenaAddr va
    if a.level = 0 then arenaBaseAddr 1 a.slot a.gen 0 :: aboveBlock s x.owner
    else if a.level = 1 then aboveBlock s x.owner
    else if a.level = 2 then gridLineage s (s.grids.length + 1) (some (groupGrid x.owner))
    else (gridLineage s (s.grids.length + 1) (some x.owner)).drop 1

/-- The arena address of a block. -/
def blockArena (b : Block) : Nat := arenaBaseAddr 1 b.aslot b.gen 0

/-- Where a value is stored: a memory address, or the block's scratchpad or tile store. -/
inductive Home where
  | mem (va : Nat)
  | block
deriving DecidableEq, Repr

/-- INFO of `ESCAPE` when a value may not be stored there (08 R140, 10 R165). -/
def escapeInfo (e : Env) (h : Home) (v : Dword) : Option Nat :=
  let x := v.toNat
  if !isArena x then none
  else
    let t := arenaIdent x
    let (own, above, lvl) : Option Nat × List Nat × Nat := match h with
      | .block => (some (blockArena e.blk), aboveBlock e.s e.th.bid, 1)
      | .mem va => if isArena va then (some (arenaIdent va), aboveArena e.s e.grid.ctx va, bitsOf va 55 53) else (none, [], 7)
    if own == some t || above.contains t then none else some (bitsOf x 55 53 + 8 * lvl)

/-- Step 4 of R324: the 64-bit halves that each lane stores. -/
def escapeTrap (e : Env) (home : Nat → Home) (halves : Nat → List Dword) (ea : Nat → Nat) : Option Act :=
  let info (l : Nat) : Option Nat := (halves l).findSome? fun v => escapeInfo e (home l) v
  pickTrap e 5 (fun l => (info l).getD 0) (fun l => (info l).isSome) ea

/-- The 64-bit halves of a lane's data of a WIDTH, none for a narrow or a raw store. -/
def storeHalves (e : Env) (d w : Nat) (raw : Bool) (l : Nat) : List Dword :=
  if raw || w < 7 then []
  else if w = 7 then [vpair e d l]
  else [vpair e d l, vpair e (d + 2) l]

/-! ### Range locks (17 R325) -/

/-- An access overlaps an entry of its cluster and context; a load only meets destinations. -/
def lockHit (s : State) (cluster c va n : Nat) (store : Bool) : Bool :=
  s.locks.any fun k => k.cluster == cluster && k.ctx == c && (store || k.dst) && va < k.lo + k.len && k.lo < va + n

/-- An entry, of any cluster, overlaps a range of a context (08 R144). -/
def lockAny (s : State) (c va n : Nat) : Bool :=
  s.locks.any fun k => k.ctx == c && va < k.lo + k.len && k.lo < va + n

/-! ### The checks of a memory access -/

/-- Steps 1 and 3 of R324 for memory addresses. `w`: WIDTH code. -/
def checkAddr (e : Env) (w : Nat) (ea : Nat → Nat) : Option Act :=
  pickTrap e 2 (fun _ => w) (fun l => ea l % widthBytes w != 0) ea <|> arenaTrap e ea

/-- Steps 4 and 5. -/
def checkValue (e : Env) (n : Nat) (store : Bool) (halves : Nat → List Dword) (ea : Nat → Nat) : Option Act :=
  escapeTrap e (fun l => .mem (ea l)) halves ea
    <|> pickTrap e 10 (fun _ => 0) (fun l => lockHit e.s (e.blk.core / 8) e.grid.ctx (ea l) n store) ea

/-- Steps 1, 3, 4 and 5. -/
def checkMem (e : Env) (w : Nat) (store : Bool) (halves : Nat → List Dword) (ea : Nat → Nat) : Option Act :=
  checkAddr e w ea <|> checkValue e (widthBytes w) store halves ea

/-- The pages that an instruction has translated, each with an address in it: its leaf or why it failed. -/
abbrev Pages := List (Nat × Except TErr Leaf)

/-- The page of an address among them. -/
def knownPage (known : Pages) (va : Nat) : Option (Except TErr Leaf) :=
  (known.find? fun k => match k.2 with
    | .ok l => va / 2 ^ l.shift == k.1 / 2 ^ l.shift
    | .error _ => va / 65536 == k.1 / 65536).map Prod.snd

/-- An access to `n` bytes at a target stalls if one of them does. -/
def fits (s : State) (n : Nat) : Except TErr Tgt → Except TErr Tgt
  | .ok (.key k p) => if spanStalls s k n then .error .stall else .ok (.key k p)
  | t => t

/-- Translate addresses that go through the page tables, in order: one walk for each page (07 R119). -/
def xlatePages (s : State) (c : Nat) (u : Use) (unit : Nat) (known : Pages) : List (Nat × Nat × Nat) → State × Pages × List (Nat × Except TErr Tgt)
  | [] => (s, known, [])
  | (va, _, n) :: r =>
    let (s, p, known) : State × Except TErr Leaf × Pages := match knownPage known va with
      | some p => (s, p, known)
      | none => match pageOf s c va u unit with
        | (s, p) => (s, p, (va, p) :: known)
    let t := match p with
      | .ok x => fits s n (pageTgt s x.pte x.shift va)
      | .error x => .error x
    let (s, known, ts) := xlatePages s c u unit known r
    (s, known, (va, t) :: ts)

/-- Translate the other addresses: of arenas, of the export range, and those that are not canonical. -/
def xlateOthers (s : State) (c : Nat) (u : Use) (unit : Nat) : List (Nat × Nat × Nat) → State × List (Nat × Except TErr Tgt)
  | [] => (s, [])
  | (va, _, n) :: r =>
    let (s, t) := translate s c va u unit
    let (s, ts) := xlateOthers s c u unit r
    (s, (va, fits s n t) :: ts)

/-- Two lists, taken from in the order of a third. -/
def weave {α β : Type} (p : α → Bool) : List α → List β → List β → List β
  | [], _, _ => []
  | a :: as, xs, ys =>
    if p a then xs.take 1 ++ weave p as (xs.drop 1) ys else ys.take 1 ++ weave p as xs (ys.drop 1)

/-- Why addresses fail, and where the others lie. -/
def failed (ts : List (Nat × Except TErr Tgt)) : List (TErr × Nat) :=
  ts.filterMap fun (va, t) => match t with | .error x => some (x, va) | .ok _ => none
def located (as : List (Nat × Nat × Nat)) (ts : List (Nat × Except TErr Tgt)) : List (Nat × Tgt) :=
  (as.zip ts).filterMap fun (a, _, t) => match t with | .ok x => some (a.2.1, x) | .error _ => none

/-- What comes of translating all that one instruction accesses, each as address, number, bytes (07 R119, R120): the state in which it
performs its accesses and what each number's address gives, or the state in which it performs none and every failure. Pages that translate have A set either way, D only
in the first case, and an arena is backed only then. -/
def xlateAll (s : State) (c : Nat) (u : Use) (unit : Nat) (as : List (Nat × Nat × Nat)) :
    Except (State × List (TErr × Nat)) (State × List (Nat × Tgt)) :=
  let paged (x : Nat × Nat × Nat) : Bool := ((tget s.ctxs c).map fun cx => isPaged cx unit x.1).getD false
  let (s1, known, ts) := xlatePages s c u unit [] (as.filter paged)
  let (s2, os) := xlateOthers s1 c u unit (as.filter fun x => !paged x)
  let all := weave paged as ts os
  if !(failed all).isEmpty then .error (s1, failed all)
  else .ok (if u == .write then known.foldl (fun s k => match k.2 with | .ok l => setDirty s c k.1 unit l | .error _ => s) s2 else s2, located as all)

/-- An instruction whose translation fails faults, if any failure can be replayed, and otherwise stalls. -/
def notNow (s : State) (bad : List (TErr × Nat)) : Act := if bad.any (·.1.replays) then .flt s bad else .wait s .train

/-- Step 6 of R324: every active lane translates, or the instruction faults and performs nothing; it stalls with a lane whose page
stalls. A lane that reaches a package without a usable flow ends in a machine check; `value`: the access returns a value. -/
def xlate (e : Env) (s : State) (op : Nat) (u : Use) (value : Bool) (ea : Nat → Nat) : Except Act (State × List (Nat × Tgt)) :=
  match xlateAll s e.grid.ctx u e.unit ((lanesOf e.act).map fun l => (ea l, l, 1)) with
  | .error (s, bad) => .error (notNow s bad)
  | .ok (s', good) => match good.find? fun (_, t) => match t with | .remote p _ => flowBad s' e.grid.ctx p value | _ => false with
    | some (l, _) => .error (linkAct e op l)
    | none => .ok (s', good)

/-! ### Performing accesses -/

/-- A lane loads from local memory (07 R113, R115, R116). -/
def loadLane (e : Env) (s : State) (key : Nat) (pcie : Bool) (n scope ord cache : Nat) : State × List Byte :=
  if pcie then (s, rdN s key n)
  else if e.th.cc then (countSlice s (e.blk.core / 8) key, rdN s key n)
  else if scope ≤ 1 && ord ≤ 1 then loadL1 s e.blk.core key n (cache != 3)
  else (countSlice (refreshL1 s e.blk.core key) (e.blk.core / 8) key, rdN s key n)

/-- A lane stores to local memory: a strand updates its core's L1, a control context invalidates the line in its cluster. Host memory
reached only through PCIe is not cached in the slice (07 R116). -/
def storeLane (e : Env) (s : State) (key : Nat) (pcie : Bool) (bs : List Byte) : State :=
  let s := if pcie then s else countSlice s (e.blk.core / 8) key
  if e.th.cc then invalL1 (storeKey s key bs) (e.blk.core / 8) key bs.length
  else storeL1 (storeKey s key bs) e.blk.core key bs

/-- An acquire at cluster scope or wider invalidates the L1 of the core, of a control context that of its block's core (07 R115,
09 R152). -/
def acquire (e : Env) (s : State) (scope : Nat) : State := if scope ≥ 2 then dropL1 s e.blk.core else s

/-! ### Scratchpad (07 R105-R108) -/

def spLimit (r : LRec) : Nat := (r.scratch + 127) / 128 * 128
def tsLimit (r : LRec) : Nat := (r.tiles + 255) / 256 * 256

/-- Lines that `n` bytes from an offset on touch. -/
def linesOf (o n : Nat) : List Nat := if n = 0 then [] else (List.range ((o + n - 1) / 128 - o / 128 + 1)).map (o / 128 + ·)

/-- A line is the destination of an unfinished engine command of its block. -/
def lineInFlight (s : State) (bid line : Nat) : Bool :=
  s.cmds.any (fun c => c.2.bid == bid && c.2.st < 3 && c.2.marked.contains line)
    || s.mxq.any (fun q => q.2.any fun c => c.tid == ctlThread bid && c.marked.contains line)

/-- A line is empty and an engine is filling it. -/
def lineFilling (s : State) (bid : Nat) (b : Block) (line : Nat) : Bool := b.empty.contains line && lineInFlight s bid line

/-- A fragment that waits on lines of a block goes on when all of them are full, with the bytes that they hold then (07 R108, 09 R159). -/
def snapLines (bid : Nat) (b : Block) (f : Frag) : Frag :=
  match f.park with
  | .retry (.line q ws) =>
    if q = bid && !ws.any (b.empty.contains ·) then { f with park := .run, snaps := ws.map fun l => (bid, l, sgetList b.sp (128 * l) 128) } else f
  | _ => f

/-- Lines become full (07 R108). -/
def fillLines (s : State) (bid : Nat) (ls : List Nat) : State :=
  let s := modBlock s bid fun b => { b with empty := b.empty.filter fun l => !ls.contains l }
  match tget s.blocks bid with
  | some b => { s with threads := tmap s.threads fun _ th => { th with frags := tmap th.frags fun _ f => snapLines bid b f } }
  | none => s

def emptyLines (s : State) (bid : Nat) (ls : List Nat) : State :=
  modBlock s bid fun b => { b with empty := b.empty ++ ls.filter fun l => !b.empty.contains l }

/-- Passes of an access (07 R106): width in bytes, offsets of the lanes. -/
def passes (act : Word) (w : Nat) (atomic : Bool) (off : Nat → Nat) : Nat :=
  let g := if w ≤ 4 then 32 else if w = 8 then 16 else 8
  let words (l : Nat) : List Nat := (List.range ((w + 3) / 4)).map (off l / 4 + ·)
  (List.range (32 / g)).foldl (fun t j =>
    let ws := ((lanesOf act).filter fun l => l / g == j).flatMap words
    let ws := if atomic then ws else dedup ws
    t + (List.range 32).foldl (fun m b => max m (ws.filter (· % 32 == b)).length) 0) 0

/-- Count the passes of the strand (07 R107). -/
def addPasses (e : Env) (s : State) (n : Nat) : State :=
  count (modThread s e.tid fun th => { th with sppass := th.sppass + BitVec.ofNat 32 n }) (e.blk.core / 8) 4 n

/-- Steps 1 and 2 of R324 for a scratchpad or tile-store access. -/
def checkSp (e : Env) (w n limit code : Nat) (ea : Nat → Int) : Option Act :=
  let at' (l : Nat) : Nat := (BitVec.ofInt 64 (ea l)).toNat
  pickTrap e 2 (fun _ => w) (fun l => ea l % (n : Int) != 0) at'
    <|> pickTrap e code (fun _ => 0) (fun l => ea l < 0 || ea l + n > limit) at'

/-- A line on which a load of the fragment waits (07 R108): empty, and not one of those that it has waited on. -/
def lineWaits (e : Env) (bid : Nat) (b : Block) (line : Nat) : Bool :=
  b.empty.contains line && !e.fr.snaps.any fun x => x.1 == bid && x.2.1 == line

/-- Read and write the block's scratchpad. -/
def spRead (b : Block) (o n : Nat) : List Byte := sgetList b.sp o n
/-- What a load reads there: of the lines that it has waited on, the bytes when the last of them became full (09 R159). -/
def spSee (e : Env) (bid : Nat) (b : Block) (o n : Nat) : List Byte :=
  if e.fr.snaps.isEmpty then spRead b o n
  else (List.range n).map fun i => match e.fr.snaps.find? fun x => x.1 == bid && x.2.1 == (o + i) / 128 with
    | some x => x.2.2.getD ((o + i) % 128) 0
    | none => sget b.sp (o + i)
def spWrite (s : State) (bid o : Nat) (bs : List Byte) : State := modBlock s bid fun b => { b with sp := ssetList b.sp o bs }
def tsRead (b : Block) (o n : Nat) : List Byte := sgetList b.ts o n
def tsWrite (s : State) (bid o : Nat) (bs : List Byte) : State := modBlock s bid fun b => { b with ts := ssetList b.ts o bs }

/-- The block that a cluster-window address of a control context names, and the offset (07 R114). -/
def windowOf (e : Env) (ea n : Nat) : Option (Nat × Block × Nat) :=
  let core := e.blk.core / 8 * 8 + bitsOf ea 31 29
  if bitsOf ea 22 21 != 0 then none
  else match tfind e.s.blocks fun _ b => b.core == core && b.bslot == bitsOf ea 28 23 && b.stage == .running
      && ((tget e.s.grids b.gid).map (·.ctx)) == some e.grid.ctx with
    | some (bid, b) =>
      let lim := ((tget e.s.grids b.gid).map fun g => spLimit g.lrec).getD 0
      if bitsOf ea 20 0 + n ≤ lim then some (bid, b, bitsOf ea 20 0) else none
    | none => none

def isWindow (e : Env) (ea : Nat) : Bool := e.th.cc && ea / 2 ^ 32 == 0xC5000000

/-! ### Structures in memory that an instruction reads at issue -/

/-- Checks 1-4 of R138 for a range that one instruction names for its whole active set. -/
def arenaTrap1 (e : Env) (va n : Nat) : Option Act :=
  ((List.range (n / 64)).findSome? fun j => (arenaCode e (va + 64 * j)).map fun c => (c, va + 64 * j)).map fun x =>
    .trap x.1 (bitsOf x.2 55 53) e.act x.2

/-- The bytes of pieces of 64 that have been translated. Bytes of another package are asked for, once the strand's own stores there
allow it (09 R150), and the instruction issues again. -/
def pieces (e : Env) (op : Nat) (s : State) : List (Nat × Tgt) → Except Act (List Byte)
  | [] => .ok []
  | (_, .key a _) :: r => (pieces e op s r).map (rdN s a 64 ++ ·)
  | (va, .remote p pa) :: r => match tget e.th.inbox va with
    | some bs => (pieces e op s r).map (bs ++ ·)
    | none =>
      if flowBad s e.grid.ctx p true then .error (linkAct e op 0)
      else if asked s e.tid va || flowClash e s 64 [(0, .remote p pa)] then .error (.wait s .flow)
      else .error (.wait (sendLane e s op p pa va 64 0 va 0 7 0 false false (List.replicate 64 0)) .flow)

/-- Read `k` pieces of 64 bytes. -/
def fetchAt (e : Env) (op k : Nat) (s : State) (va : Nat) : Except Act (State × List Byte) :=
  match xlateAll s e.grid.ctx .read e.unit ((List.range k).map fun j => (va + 64 * j, va + 64 * j, 64)) with
  | .error (s, bad) => .error (notNow s bad)
  | .ok (s, ts) => (pieces e op s ts).map fun bs => (s, bs)

/-- The bytes that an instruction asked for are no longer needed. -/
def dropInbox (s : State) (tid : Nat) : State := modThread s tid fun th => { th with inbox := [] }

/-- The pass of the scratchpad's strand port by which a performed instruction has read a line (07 R107). -/
def onePass (e : Env) (a : Act) : Act :=
  match a with
  | .done s rs => .done (count s (e.blk.core / 8) 4 1) rs
  | a => a

/-! ### Footprints of matrix commands (07 R110) -/

/-- Bytes of a block's tile store meet a footprint; `written`: only written ones count. -/
def footHit (s : State) (bid o n : Nat) (written : Bool) : Bool :=
  s.mxq.any fun q => q.2.any fun c => c.tid == ctlThread bid
    && c.fp.any fun f => (f.2.2 || !written) && o < f.1 + f.2.1 && f.1 < o + n

end Sys2Proof.Machine
end

