-- ==== Sys2Proof/Machine/ArenaOps.lean ====
section
/-! DEFINITION. Class 0x9: arena instructions (17 R342-R347, 08 R141-R144). -/
namespace Sys2Proof.Machine

/-- A level operand: a signed immediate. -/
def levelOf (f : BitVec 11) : Int := f.toInt

/-- The level raises `ARENA_LEVEL`: 4-7, or a cluster level in a launch without cluster groups (08 R133). -/
def levelTrap (e : Env) (lv : Int) : Option Act :=
  if e.act != 0 && (lv > 3 || (lv == 2 && !hasGroups e.grid.lrec)) then some (.trap 9 lv.toNat e.act 0) else none

/-- The linear index of a lane in its block. -/
def laneIdx (e : Env) (l : Nat) : Nat := 32 * e.th.idx + l

/-- Offset 0 of the issuing lane's arena at a level (17 R343). -/
def ownArena (e : Env) (lv l : Nat) : Nat :=
  match lv with
  | 0 => arenaBaseAddr 0 e.blk.aslot e.blk.gen (laneIdx e l)
  | 1 => blockArena e.blk
  | 2 => match tget e.grid.groups (groupIdx e.grid.lrec e.blk.lin) with
    | some g => arenaBaseAddr 2 g.slot g.gen 0
    | none => 0
  | _ => arenaBaseAddr 3 e.grid.slot e.grid.gen 0

/-- ABASE (17 R343). -/
def execAbase (h : Hdr) (f : FmtR) (s : State) : Out :=
  issue (.abase h f) (fun e =>
    let lv := levelOf f.a
    match levelTrap e lv with
    | some a => a
    | none => .done e.s (wrPair e f.kd f.d fun l => BitVec.ofNat 64 (ownArena e lv.toNat l))) s

/-- Change the arena that an address names. -/
def setArena (s : State) (c va : Nat) (g : Arena → Arena) : State :=
  match findArena s c true va with
  | .ok (key, x) => modCtx s c fun cx => { cx with arenas := tset cx.arenas key (g x) }
  | .error _ => s

/-- The arena that an address names, if it is live. -/
def arenaOf (s : State) (c va : Nat) : Option Arena :=
  match findArena s c true va with
  | .ok (_, x) => some x
  | .error _ => none

/-- One request to a bump pointer: the state and the address, 0 when it does not fit (17 R344). -/
def bump (s : State) (c base n : Nat) : State × Nat :=
  match arenaOf s c base with
  | none => (s, 0)
  | some x =>
    let n := (n + 15) / 16 * 16
    let p := (x.bump + 15) / 16 * 16
    if p + n ≤ x.reserve then (setArena s c base fun x => { x with bump := p + n }, base + p) else (s, 0)

/-- ABUMP (17 R344): the lanes in ascending order. -/
def execAbump (h : Hdr) (f : FmtR) (s : State) : Out :=
  issue (.abump h f) (fun e =>
    let lv := levelOf f.a
    match levelTrap e lv with
    | some a => a
    | none =>
      let r := (lanesOf e.act).foldl (fun (r : State × List (Nat × Nat)) l =>
        let (s, x) := bump r.1 e.grid.ctx (ownArena e lv.toNat l) (src e f.ty.toNat f.kb f.b l).toNat
        (s, (l, x) :: r.2)) (e.s, [])
      .done r.1 (wrPair e false f.d fun l => BitVec.ofNat 64 (((r.2.find? (·.1 == l)).map Prod.snd).getD 0))) s

/-! ### Moves (08 R141-R144) -/

/-- Where a lane's granules go. -/
inductive MoveTo where
  /-- The arena at this address. -/
  | arena (base : Nat)
  | exportRange
deriving DecidableEq, Repr

/-- A move of one lane: source address and length, target, and whether a record goes to the host. -/
structure Move where
  lane : Nat
  a : Nat
  len : Nat
  dest : MoveTo
  host : Bool
deriving DecidableEq, Repr

/-- First granule and number of granules of an extent, rounded out. -/
def Move.first (m : Move) : Nat := (arenaAddr m.a).off / 4096
def Move.count (m : Move) : Nat := ((arenaAddr m.a).off + m.len - 1) / 4096 - m.first + 1

/-- The source fails as R138 gives: `ARENA_LEVEL`, or `STALE` outside a live arena. -/
def sourceCode (e : Env) (a : Nat) : Option Nat :=
  if !isArena a then some 6
  else match findArena e.s e.grid.ctx (hasGroups e.grid.lrec) a with
    | .error c => some c
    | .ok _ => none

/-- The extent runs past the reserve of its source. -/
def pastReserve (e : Env) (a len : Nat) : Bool :=
  match arenaOf e.s e.grid.ctx a with
  | some x => (arenaAddr a).off + len > x.reserve
  | none => false

/-- A granule of a range of an arena is handed. -/
def anyHanded (e : Env) (a first n : Nat) : Bool :=
  match arenaOf e.s e.grid.ctx a with
  | some x => (List.range n).any fun i => tget x.gran (first + i) == some .handed
  | none => false

/-- Lanes whose target's reserve would overflow, their moves placed one after another. -/
def overflows (e : Env) (bumps : List (Nat × Nat)) : List Move → List Nat
  | [] => []
  | m :: r => match m.dest with
    | .exportRange => overflows e bumps r
    | .arena base =>
      let x := arenaOf e.s e.grid.ctx base
      let cur := match bumps.find? (·.1 == base) with
        | some b => b.2
        | none => (x.map (·.bump)).getD 0
      let p := (cur + 4095) / 4096 * 4096 + 4096 * m.count
      let rest := overflows e ((base, p) :: bumps) r
      if (x.map fun x => decide (p > x.reserve)).getD false then m.lane :: rest else rest

/-- The target lies strictly above the source, or is the grid arena of a held child of the issuing grid, the source lying at
or below that grid (08 R141, R142). -/
def aboveSource (e : Env) (child : Bool) (m : Move) : Bool :=
  match m.dest with
  | .exportRange => true
  | .arena base =>
    let up := aboveArena e.s e.grid.ctx m.a
    let g := arenaBaseAddr 3 e.grid.slot e.grid.gen 0
    if child then arenaIdent m.a == g || up.contains g else up.contains base

/-- Another lane's extent overlaps. -/
def overlapped (ms : List Move) (m : Move) : Bool :=
  ms.any fun x => x.lane != m.lane && arenaIdent x.a == arenaIdent m.a && x.first < m.first + m.count && m.first < x.first + x.count

/-- The traps of a move, row by row (08 R141); `lv`: the target's level is none. -/
def moveTrap (e : Env) (child : Bool) (lv : Option Act) (ms : List Move) : Option Act :=
  let at' (l : Nat) : Nat := ((ms.find? (·.lane == l)).map (·.a)).getD 0
  let row (code : Nat) (bad : Move → Bool) : Option Act :=
    pickTrap e code (fun l => bitsOf (at' l) 55 53) (fun l => ms.any fun m => m.lane == l && bad m) at'
  let overrun := overflows e [] ms
  row 9 (fun m => sourceCode e m.a == some 9)
    <|> row 6 (fun m => sourceCode e m.a == some 6)
    <|> row 8 (fun m => pastReserve e m.a m.len || overrun.contains m.lane)
    <|> lv
    <|> row 9 (fun m => !aboveSource e child m)
    <|> row 7 (fun m => anyHanded e m.a m.first m.count || overlapped ms m)

/-- The lowest free run of `k` granules of the export range. -/
def exportRun (cx : Ctx) (k : Nat) : Option Nat :=
  (List.range (cx.exportLen / 4096 + 1 - min k (cx.exportLen / 4096 + 1))).find? fun i =>
    (List.range k).all fun j => (tget cx.exportGran (i + j)).isNone

/-- Carry out one move: the state and the new address; none when the export range has no room. -/
def moveOne (c : Nat) (s : State) (m : Move) : Option (State × Nat) :=
  match arenaOf s c m.a, tget s.ctxs c with
  | some x, some cx =>
    let gs := (List.range m.count).map fun i => tget x.gran (m.first + i)
    let hand (s : State) : State := setArena s c m.a fun x =>
      { x with gran := (List.range m.count).foldl (fun t i => tset t (m.first + i) .handed) x.gran }
    let low := m.a % 4096
    match m.dest with
    | .exportRange => match exportRun cx m.count with
      | none => none
      | some i =>
        let s := modCtx s c fun cx => { cx with exportGran := (gs.zip (List.range m.count)).foldl (fun t g => tset t (i + g.2)
          (match g.1 with | some (.backed p b) => .backed p b | _ => .held)) cx.exportGran }
        some (hand s, cx.exportBase + 4096 * i + low)
    | .arena base =>
      let p := (((arenaOf s c base).map (·.bump)).getD 0 + 4095) / 4096 * 4096
      let s := setArena s c base fun y => { y with
        bump := p + 4096 * m.count
        gran := (gs.zip (List.range m.count)).foldl (fun t g => match g.1 with
          | some (.backed q b) => tset t (p / 4096 + g.2) (.backed q b)
          | _ => tdel t (p / 4096 + g.2)) y.gran }
      some (hand s, base + p + low)
  | _, _ => none

/-- A record of the host completion ring (08 R143): the record, then WR. -/
def hostRecord (s : State) (c tag old new len : Nat) : Except (TErr × Nat) State :=
  match tget s.ctxs c with
  | none => .ok s
  | some cx =>
    match readVa s c cx.ringAddr 8 tag with
    | (_, .error x) => .error (x, cx.ringAddr)
    | (s, .ok wr) =>
      let i := cx.ringAddr + 64 + 32 * (leNat wr % 2 ^ cx.ringLog)
      match writeVa s c i (leBytes 0 4 ++ leBytes len 4 ++ leBytes new 8 ++ leBytes old 8 ++ leBytes s.time 8) tag with
      | (_, .error x) => .error (x, i)
      | (s, .ok _) => match writeVa s c cx.ringAddr (leBytes (leNat wr + 1) 8) tag with
        | (_, .error x) => .error (x, cx.ringAddr)
        | (s, .ok _) => .ok s

/-- Carry out the moves of the lanes in order. -/
def moveAll (c tag : Nat) : State → List Move → Except (TErr × Nat) (State × List (Nat × Nat))
  | s, [] => .ok (s, [])
  | s, m :: r => match moveOne c s m with
    | none => .error (.pool 7, m.a)
    | some (s, new) => match (if m.host then hostRecord s c tag m.a new (4096 * m.count) else .ok s) with
      | .error x => .error x
      | .ok s => match moveAll c tag s r with
        | .error x => .error x
        | .ok (s, vs) => .ok (s, (m.lane, new) :: vs)

/-- Free records of the host completion ring. -/
def ringFree (s : State) (c tag : Nat) (cx : Ctx) : State × Except (TErr × Nat) Nat :=
  match readLong s c cx.ringAddr 16 tag with
  | (s, .error x) => (s, .error x)
  | (s, .ok bs) => (s, .ok (2 ^ cx.ringLog - (leNat (bs.take 8) - leNat (bs.drop 8))))

/-- A move with its traps, its waits and its results (17 R345): a hand-over to the host is a release at system scope (08 R143, R144), and
serves as many lanes as the ring has room for before it parks. `lv`: the trap of the target's level. -/
def moveAct (e : Env) (op : Nat) (f : FmtR) (child : Bool) (dest : Nat → MoveTo) (host : Nat → Bool) (lv : Option Act := none) : Act :=
  let c := e.grid.ctx
  let src' (l : Nat) : Nat := (pr e f.ka f.a l).toNat
  let len (l : Nat) : Nat := (src e f.ty.toNat f.kb f.b l).toNat
  let left := (lanesOf e.act).filter fun l => !e.fr.prog.any (·.1 == l)
  let ms := (left.filter fun l => len l != 0).map fun l => ({ lane := l, a := src' l, len := len l, dest := dest l, host := host l } : Move)
  match moveTrap e child lv ms with
  | some a => a
  | none =>
    if ms.any fun m => lockAny e.s c (m.a / 4096 * 4096) (4096 * m.count) then .wait e.s .moving
    else
      let hosts := (ms.filter (·.host)).length
      let ready : Except Act (State × Nat) := match tget e.s.ctxs c with
        | none => .ok (e.s, 0)
        | some cx =>
          if hosts = 0 then .ok (e.s, 0)
          else match releaseGate e op 4 none with
            | .error a => .error a
            | .ok s => match ringFree s c (qtagOf s e.grid) cx with
              | (s, .error x) => .error (.flt s [x])
              | (s, .ok n) => .ok (s, n)
      match ready with
      | .error a => a
      | .ok (s, free) =>
        let now := if hosts ≤ free then ms else ms.takeWhile fun m => (ms.filter fun x => x.host && x.lane ≤ m.lane).length ≤ free
        match moveAll c (qtagOf s e.grid) s now with
        | .error x => .flt s [x]
        | .ok (s, vs) =>
          let out (ls : List Nat) : List Res :=
            let d (l : Nat) : Dword := BitVec.ofNat 64 (((vs.find? (·.1 == l)).map Prod.snd).getD (src' l))
            [.v f.d.toNat (ls.map fun l => (l, lo32 (d l))), .v (f.d.toNat + 1) (ls.map fun l => (l, hi32 (d l)))]
          if hosts ≤ free then .done s (if e.act == 0 then [] else out left)
          else
            let ls := now.map (·.lane)
            .wait (modThread s e.tid fun th => { writeRes th (out ls) with
              frags := tmod th.frags e.fi fun f => { f with prog := f.prog ++ ls.map fun l => (l, 0) } }) .ring

/-- APROM (17 R345, 08 R141). -/
def execAprom (h : Hdr) (f : FmtR) (s : State) : Out :=
  issue (.aprom h f) (fun e =>
    let lv := levelOf f.c
    moveAct e (opOf (.aprom h f)) f false (fun l => if lv < 0 || lv > 3 then .exportRange else .arena (ownArena e lv.toNat l)) (fun _ => false)
      (levelTrap e lv)) s

/-- A command handle (18 R348). -/
def handleOf (c : Cmd) : Nat := c.kind * 2 ^ 28 + c.qslot * 2 ^ 21 + c.index

/-- The command of a context that a handle names. -/
def cmdOf (s : State) (ctx h : Nat) : Option (Nat × Cmd) := tfind s.cmds fun _ c => c.ctx == ctx && handleOf c == h && c.kind != 0

/-- The grid arena of a held launch of the issuing grid (08 R142). -/
def heldChild (e : Env) (h : Nat) : Option Nat :=
  match cmdOf e.s e.grid.ctx h with
  | some (_, c) =>
    if c.kind = 5 && c.st = 0 && c.gid = e.blk.gid then
      (c.child.bind fun g => tget e.s.grids g).map fun g => arenaBaseAddr 3 g.slot g.gen 0
    else none
  | none => none

/-- AHAND (17 R345, 08 R142, R143). -/
def execAhand (h : Hdr) (f : FmtR) (s : State) : Out :=
  issue (.ahand h f) (fun e =>
    let c (l : Nat) : Nat := (src e f.ty.toNat f.kc f.c l).toNat
    let ring := match tget e.s.ctxs e.grid.ctx with
      | some cx => cx.arenaSet && cx.ringAddr != 0
      | none => false
    let bad := failing e fun l => if c l = 0 then !ring else (heldChild e (c l)).isNone
    if bad != 0 then .trap 1 (opOf (.ahand h f)) bad 0
    else if (lanesOf e.act).all fun l => c l = 0 then moveAct e (opOf (.ahand h f)) f false (fun _ => .exportRange) (fun _ => true)
    else moveAct e (opOf (.ahand h f)) f true (fun l => match heldChild e (c l) with | some b => .arena b | none => .exportRange) (fun l => c l = 0)) s

/-! ### Queries and drops -/

/-- The word of AQRY (17 R346). -/
def queryWord (e : Env) (va : Nat) : Nat :=
  let a := arenaAddr va
  if !isArena va || a.level > 3 || (a.level == 2 && !hasGroups e.grid.lrec) then 0
  else
    let w := 2 ^ 31 + a.level * 2 ^ 25
    match arenaOf e.s e.grid.ctx va with
    | none => w
    | some x =>
      let st := if a.off ≥ x.reserve then 3 else match tget x.gran (a.off / 4096) with
        | some .handed => 2
        | some (.backed ..) => 1
        | _ => 0
      w + 2 ^ 30 + st * 2 ^ 28 + x.reserve / 4096 % 2 ^ 22

/-- AQRY (17 R346). -/
def execAqry (h : Hdr) (f : FmtR) (s : State) : Out :=
  issue (.aqry h f) (fun e => .done e.s (wrD e f.kd f.d fun l => BitVec.ofNat 32 (queryWord e (pr e f.ka f.a l).toNat))) s

/-- ACHK (17 R346). -/
def execAchk (h : Hdr) (f : FmtR) (s : State) : Out :=
  issue (.achk h f) (fun e => .done e.s (wrP e f.d fun l =>
    let q := queryWord e (pr e f.ka f.a l).toNat
    bitsOf q 31 30 == 3 && bitsOf q 29 28 < 2)) s

/-- The whole granules inside an extent: the first and their number. -/
def wholeGran (a len : Nat) : Nat × Nat :=
  let o := (arenaAddr a).off
  let g := (o + 4095) / 4096
  (g, (o + len) / 4096 - g)

/-- ADROP (17 R347). -/
def execAdrop (h : Hdr) (f : FmtR) (s : State) : Out :=
  issue (.adrop h f) (fun e =>
    let c := e.grid.ctx
    let a (l : Nat) : Nat := (pr e f.ka f.a l).toNat
    let len (l : Nat) : Nat := (src e f.ty.toNat f.kb f.b l).toNat
    let row (code : Nat) (bad : Nat → Bool) : Option Act := pickTrap e code (fun l => bitsOf (a l) 55 53) bad a
    match row 9 (fun l => sourceCode e (a l) == some 9)
        <|> row 6 (fun l => sourceCode e (a l) == some 6)
        <|> row 8 (fun l => pastReserve e (a l) (len l))
        <|> row 7 (fun l => anyHanded e (a l) (wholeGran (a l) (len l)).1 (wholeGran (a l) (len l)).2) with
    | some t => t
    | none =>
      let ls := (lanesOf e.act).filter fun l => (wholeGran (a l) (len l)).2 != 0
      if ls.any fun l => lockAny e.s c (a l / 4096 * 4096 + (if a l % 4096 = 0 then 0 else 4096)) (4096 * (wholeGran (a l) (len l)).2)
      then .wait e.s .moving
      else .done (ls.foldl (fun s l => setArena s c (a l) fun x =>
        { x with gran := (List.range (wholeGran (a l) (len l)).2).foldl (fun t i => tdel t ((wholeGran (a l) (len l)).1 + i)) x.gran }) e.s) []) s

end Sys2Proof.Machine
end

