-- ==== Sys2Proof/Machine/Device.lean ====
section
/-! DEFINITION. What the device does on its own account: accesses of 10 R405, completion records (04 R68), the reads and
writes of engine commands, arenas that begin and end (08 R136, R139), and the end of an engine command (18 R350, R356). -/
namespace Sys2Proof.Machine

/-! ### Accesses of the device's own (10 R405) -/

/-- A write of the device's, at a byte key: the copies in the L1s of the issuing cluster are invalidated (07 R115). -/
def devStore (s : State) (cluster : Option Nat) (key : Nat) (bs : List Byte) : State :=
  let s := storeKey s key bs
  match cluster with
  | some c => invalL1 s c key bs.length
  | none => s

/-- Change a started node of a nest. -/
def modInst (s : State) (n i : Nat) (f : NInst → NInst) : State := modNest s n fun x => { x with insts := tmod x.insts i f }

/-- A read-modify-write of 8 bytes, or what carries it out on another package: the atomics of `far`. -/
def rmw (s : State) (c tag : Nat) (cluster : Option Nat) (va : Nat) (f : Nat → Nat) (far : List (List Byte)) : Except (TErr × Nat) State :=
  match translate s c va .write with
  | (s, .ok (.key a _)) => if spanStalls s a 8 then .error (.stall, va) else .ok (devStore s cluster a (leBytes (f (rdNat s a 8) % 2 ^ 64) 8))
  | (s, .ok (.remote p a)) => (far.foldlM (fun s d => devSend s c tag p a 3 d) s).mapError fun x => (x, va)
  | (_, .error e) => .error (e, va)

/-- Plain writes, in this package or another. -/
def devWrite (s : State) (c tag : Nat) (cluster : Option Nat) (va : Nat) (bs : List Byte) : Except (TErr × Nat) State :=
  match translate s c va .write with
  | (s, .ok (.key a _)) => if spanStalls s a bs.length then .error (.stall, va) else .ok (devStore s cluster a bs)
  | (s, .ok (.remote p a)) => (devSend s c tag p a 2 bs).mapError fun x => (x, va)
  | (_, .error e) => .error (e, va)

/-- Writes and atomics with a QTAG that other packages have not acknowledged. -/
def tagOut (s : State) (c : Nat) (tags : List Nat) : List (Nat × Word) :=
  (s.lnk.src.filter fun f => f.2.ctx == c && !f.2.failed).flatMap fun f =>
    (f.2.out.filter fun p => (p.ty == 2 || p.ty == 3) && tags.contains p.qtag).map fun p => (f.1, p.seq)

/-- They are, or their flow has failed. -/
def allSettled (s : State) (ps : List (Nat × Word)) : Bool :=
  ps.all fun p => ((tget s.lnk.src p.1).map fun f => f.failed || !f.out.any (·.seq == p.2)).getD true

/-- One access, `tag` the QTAG of the work; a failure with its address, and the state after what it has asked for. -/
def runOp (s : State) (c tag : Nat) (cluster : Option Nat) (op : DevOp) : State × Except (TErr × Nat) Unit :=
  let ret (r : Except (TErr × Nat) State) : State × Except (TErr × Nat) Unit := match r with
    | .ok s => (s, .ok ())
    | .error x => (s, .error x)
  match op with
  | .store va bs => ret (devWrite s c tag cluster va bs)
  | .add va n => ret (rmw s c tag cluster va (· + n) [[0, 7] ++ leBytes n 8])
  | .fail va => ret (rmw s c tag cluster va (fun x => (x + 1) % 2 ^ 64 ||| 2 ^ 63) [[0, 7] ++ leBytes 1 8, [6, 7] ++ leBytes (2 ^ 63) 8])
  | .words n i va k => match readLong s c va (4 * k) tag with
    | (s, .ok bs) =>
      let ws := (List.range k).map fun j => leNat ((bs.drop (4 * j)).take 4)
      (after (modInst s n i fun x => { x with data := some ws }) (.nodeComplete n i), .ok ())
    | (s, .error e) => (s, .error e)
  | .logItem va cap item => match readLong s c va 8 tag with
    | (s, .ok bs) =>
      if leNat bs ≥ cap then (s, .ok ())
      else match devWrite s c tag cluster ((va + 8 + 4 * leNat bs) % 2 ^ 64) (leBytes item.toNat 4) with
        | .ok s => (s, .ok ())
        | .error x => (s, .error x)
    | (s, .error e) => (s, .error e)
  | .lenRead va => match readLong s c va 4 tag with
    | (s, .ok _) => (s, .ok ())
    | (s, .error e) => (s, .error e)
  | .release ts => (s, if (tagOut s c ts).isEmpty then .ok () else .error (.stall, 0))
  | .settled ps => (s, if allSettled s ps then .ok () else .error (.stall, 0))
  | .raise fn v => (raiseVec s fn v, .ok ())
  | .logged n i => (after (modInst s n i fun x => { x with logs := x.logs - 1 }) (.nodeComplete n i), .ok ())

/-- The link machine check of an access that no strand makes (02 R26, R31): its record; nothing is killed
(notes/assumptions/50.md). -/
def devLinkCheck (s : State) (c : Nat) : State :=
  let ws := [6 * 2 ^ 60 + 15 * 2 ^ 56, 0, s.time, 0]
  postRec s c { kind := 6, code := 0, flags := 2, strand := 0, addr := 0, time := s.time, body := ws.flatMap fun w => leBytes w 8 }

/-- What a read of the device's that is never answered does: the node that asked completes FAULT (10 R405). -/
def dropOp (s : State) (op : DevOp) (cause : Nat) : State :=
  match op with
  | .words n i _ _ => after (modInst s n i fun x => { x with lost := some (0x20 + cause) }) (.nodeComplete n i)
  | _ => s

/-- The accesses of a completion in their order, up to one that fails; one without a usable flow is dropped. -/
def runOps (s : State) (c tag : Nat) (cluster : Option Nat) : List DevOp → State × List DevOp × Option (TErr × Nat)
  | [] => (s, [], none)
  | .release ts :: r =>
    let ps := tagOut s c ts
    if ps.isEmpty then runOps s c tag cluster r else (s, .settled ps :: r, some (.stall, 0))
  | op :: r => match runOp s c tag cluster op with
    | (s, .ok _) => runOps s c tag cluster r
    | (s, .error (.link, _)) => runOps (dropOp (devLinkCheck s c) op 1) c tag cluster r
    | (s, .error e) => (s, op :: r, some e)

/-- The last completion of the same queue that is held. -/
def heldBefore (s : State) (c : Nat) (j : DevJob) : Option DevJob :=
  if !j.inOrder then none
  else (tget s.ctxs c).bind fun cx => cx.jobs.reverse.find? fun k => k.inOrder && k.queue == j.queue

/-- Make the accesses of a completion, behind those of its queue that are held; what fails waits for the host, posted once, and what stalls is tried again. -/
def startJob (s : State) (c : Nat) (j : DevJob) : State :=
  match heldBefore s c j with
  | some k => modCtx s c fun cx => { cx with jobs := cx.jobs ++ [{ j with rcd := k.rcd, behind := true }] }
  | none =>
  let j := { j with behind := false }
  match runOps s c j.tag j.cluster j.ops with
  | (s, _, none) => s
  | (s, rest, some (e, va)) =>
    if e.replays then
      let id := s.nextId
      let s := postRec s c (faultRec s e va 0 (if j.queue.isSome then 1 else 2))
      modCtx s c fun cx => { cx with jobs := cx.jobs ++ [{ j with ops := rest, rcd := some id }] }
    else modCtx s c fun cx => { cx with jobs := cx.jobs ++ [{ j with ops := rest, rcd := none }] }

/-- A queue's access to its own descriptor waits: the queue waits with it (04 R61). -/
def descHeld (s : State) (q : Nat) (x : Queue) : Bool :=
  let onDesc (op : DevOp) : Bool := match op with
    | .store va _ => x.desc ≤ va && va < x.desc + 64
    | _ => false
  ((tget s.ctxs x.ctx).map fun cx => cx.jobs.any fun j => j.queue == some q && !j.behind && (j.ops.head?.map onDesc).getD false).getD false

/-- A completion of the queue's is held. -/
def jobsHeld (s : State) (q : Nat) (x : Queue) : Bool :=
  ((tget s.ctxs x.ctx).map fun cx => cx.jobs.any fun j => j.queue == some q && j.inOrder).getD false

/-- A queue whose completions are all written looks again: at packets that wait for those before them, in the name of none, and if it is mapped,
at its head. -/
def lookAgain (s : State) (q : Nat) : State :=
  let go (s : State) (i : Instr) : State := if s.timers.any fun t => t.2 == .event i then s else atTime s s.time i
  match tget s.queues q with
  | some x =>
    if jobsHeld s q x then s
    else
      let s := go s (.packetComplete q (2 ^ 64) 0)
      if x.slot.isSome then go s (.queueMap q) else s
  | none => s

/-- Accesses that stalled are made again. -/
def retryJobs (s : State) (c : Nat) : State :=
  let js := ((tget s.ctxs c).map fun cx => cx.jobs.filter (·.rcd.isNone)).getD []
  let s := js.foldl (fun s j => startJob s c j) (modCtx s c fun cx => { cx with jobs := cx.jobs.filter (·.rcd.isSome) })
  (dedup (js.filterMap (·.queue))).foldl lookAgain s

/-- Jobs that wait for acknowledgements look again. -/
def retrySettled (s : State) : State :=
  let waits (j : DevJob) : Bool := match j.ops with
    | .settled _ :: _ => true
    | _ => false
  ((s.ctxs.filter fun e => e.2.jobs.any waits).map Prod.fst).foldl retryJobs s

/-- A channel has trained, or bytes have arrived: what stalled goes on (03 R53). -/
def retryStalled (s : State) : State :=
  (s.ctxs.map Prod.fst).foldl retryJobs (wakeRetry s fun _ w => w == .flow || w == .train)

/-- The completion record at CCTR: STATUS, then COUNT (04 R68). -/
def ccOps (cctr : Nat) (status : Nat) : List DevOp :=
  if cctr = 0 then [] else [.store (cctr + 8) (leBytes status 8), .add cctr 1]

/-! ### Arenas begin and end (08 R136, R139) -/

/-- A slot of a level that is free and not retired; a reservation may hold it. -/
def slotIdle (cx : Ctx) (level i : Nat) : Bool :=
  (tget cx.arenas (arenaKey level i 0)).isNone && !cx.retired.contains (arenaKey level i 0)

/-- A slot of a level that is free, and that no reservation holds. -/
def slotFree (cx : Ctx) (level i : Nat) : Bool := slotIdle cx level i && !cx.held.contains (arenaKey level i 0)

/-- The lowest free slot of a level. -/
def freeSlot (cx : Ctx) (level : Nat) : Option Nat := (List.range (levelSlots level)).find? fun i => slotFree cx level i

/-- The generation that a slot has now. -/
def genOf (cx : Ctx) (level i : Nat) : Nat := (tget cx.gens (arenaKey level i 0)).getD 0

/-- Create the arena of a level instance in a slot. -/
def openArena (s : State) (c level i reserve owner : Nat) : State :=
  modCtx s c fun cx => { cx with
    arenas := tset cx.arenas (arenaKey level i 0) { gen := genOf cx level i, live := true, reserve := reserve, owner := owner } }

/-- A reservation holds a slot (06 R94); its arena begins later, or never. -/
def holdSlot (s : State) (c level i : Nat) : State := modCtx s c fun cx => { cx with held := arenaKey level i 0 :: cx.held }

def dropSlot (s : State) (c level i : Nat) : State := modCtx s c fun cx => { cx with held := cx.held.erase (arenaKey level i 0) }

/-- An unfinished engine command names bytes of the arena (or of a lane arena of its block), or is a network command of the arena's
block (02 R39). -/
def arenaNamed (s : State) (c level i : Nat) : Bool :=
  let names (a : Nat) : Bool := isArena a && (arenaAddr a).slot == i
    && ((arenaAddr a).level == level || (level == 1 && (arenaAddr a).level == 0))
  let mine (k : Cmd) : Bool := level == 1
    && (((tget s.ctxs c).bind fun cx => tget cx.arenas (arenaKey level i 0)).map fun x => x.owner == k.bid).getD false
  s.locks.any (fun k => k.ctx == c && names k.lo)
    || s.cmds.any (fun k => k.2.ctx == c && k.2.kind == 4 && k.2.st < 3 && (names (leNat ((k.2.desc.drop 56).take 8)) || mine k.2))
    || s.cmds.any fun k => k.2.ctx == c && k.2.kind == 0 && k.2.st < 3 && k.2.slices.any fun x => names x.src.at' || names x.dst.at'

/-- Steps 2 and 3 of R136: the backing returns, the slot is free at its next generation, or retired. -/
def reapArena (s : State) (c level i : Nat) : State :=
  if arenaNamed s c level i then s
  else modCtx s c fun cx =>
    match tget cx.arenas (arenaKey level i 0) with
    | none => cx
    | some x =>
      if x.live then cx
      else
        let key := arenaKey level i 0
        let arenas := (tdel cx.arenas key).filter fun e => !(level == 1 && e.1 < 2 ^ 40 && e.1 / 4096 == i)
        if x.gen + 1 > 4095 then { cx with arenas := arenas, retired := key :: cx.retired, gens := tdel cx.gens key }
        else { cx with arenas := arenas, gens := tset cx.gens key (x.gen + 1) }

/-- An arena ends: from now on its generation is stale. -/
def closeArena (s : State) (c level i : Nat) : State :=
  reapArena (modCtx s c fun cx => { cx with arenas := tmod cx.arenas (arenaKey level i 0) fun x => { x with live := false } }) c level i

/-- The distributor of a partition looks at its launches: a placement takes 4 cycles (06 R90). -/
def kick (s : State) (pid : Nat) : State :=
  if s.timers.any fun t => t.2 == .event (.blockPlace pid) then s else atTime s (s.time + 4) (.blockPlace pid)

/-- Resources have come free in a partition: launches that fit nowhere are tried again. -/
def freed (s : State) (pid : Nat) : State :=
  let s := { s with
    grids := tmap s.grids fun _ g => if g.part = pid then { g with waits := false } else g
    nests := tmap s.nests fun _ x => if x.part = pid then { x with waits := false } else x }
  kick s pid

/-- A grid slot may have come free: the launches that wait for one look again (08 R139). -/
def gslotFree (s : State) : State :=
  let heads := s.queues.filter fun e => (e.2.head.bind (·.head?)) == some 1
  heads.foldl (fun s e => if s.timers.any fun t => t.2 == .event (.launchPacket e.1) then s else atTime s s.time (.launchPacket e.1))
    (wakeRetry s fun _ w => w == .gslot)

/-- Slots of a context have come free: whoever waits for one tries again (06 R89, R94, 08 R139). -/
def slotsBack (s : State) (c : Nat) : State :=
  let waits (pid : Nat) : Bool :=
    s.grids.any (fun g => g.2.part == pid && g.2.waits && g.2.ctx == c) || s.nests.any fun x => x.2.part == pid && x.2.waits && x.2.ctx == c
  (s.parts.filter fun e => waits e.1).foldl (fun s e => freed s e.1) (gslotFree s)

/-- Look again at the arenas that ended while commands named them. -/
def reapAll (s : State) (c : Nat) : State :=
  match tget s.ctxs c with
  | none => s
  | some cx =>
    let t := (cx.arenas.filter fun e => !e.2.live).foldl (fun s e => reapArena s c (e.1 / 2 ^ 40) (e.1 % 2 ^ 40 / 4096)) s
    if ((tget t.ctxs c).map (·.arenas.length)) == some cx.arenas.length then t else slotsBack t c

/-! ### Engine accesses -/

/-- What an engine's read of memory meets. -/
inductive Got where
  | bytes (bs : List Byte)
  /-- Another package has been asked, or has not answered. -/
  | wait
  | err (e : TErr) (va : Nat)
  /-- Checks 1-4 of R138 fail (18 R350 `BADADDR`). -/
  | bad
  /-- The flow to the package is down (02 R31). -/
  | down
deriving DecidableEq, Repr

/-- Checks 1-4 of R138 for an engine: an arena that a command names is kept for it. -/
def engArenaOk (s : State) (c : Nat) (groups : Bool) (va : Nat) : Bool :=
  if !isArena va then true
  else
    let a := arenaAddr va
    match checkArena s c groups va with
    | .ok _ => true
    | .error 6 =>
      (match tget s.ctxs c with
      | none => false
      | some cx => match tget cx.arenas (arenaKey (max a.level 1) a.slot 0) with
        | some x => !x.live && x.gen == a.gen && arenaNamed s c (max a.level 1) a.slot
        | none => false)
    | .error _ => false

/-- Translation for an engine, of an arena that has ended too. -/
def engTranslate (s : State) (c va : Nat) (u : Use) (unit : Nat) : State × Except TErr Tgt :=
  match translate s c va u unit with
  | (s, .error (.cause 1 sh)) =>
    if isArena va then
      match (tget s.ctxs c).bind fun cx => tget cx.arenas (arenaKey (arenaAddr va).level (arenaAddr va).slot (arenaAddr va).lane) with
      | some x => match tget x.gran ((arenaAddr va).off / 4096) with
        | some (.backed p _) => (s, .ok (.key (pageKey c p + (arenaAddr va).off % 4096) false))
        | _ => (s, .error (.cause 1 sh))
      | none => (s, .error (.cause 1 sh))
    else (s, .error (.cause 1 sh))
  | r => r

/-- The launch of a command has cluster groups. -/
def cmdGroups (s : State) (c : Cmd) : Bool := ((tget s.grids c.gid).map fun g => hasGroups g.lrec).getD true

/-- Where a command's accesses translate: in its cluster's L2 TLB, unless it is a queue's COPY packet. -/
def cmdUnit (c : Cmd) : Nat := if c.kind = 0 then 4096 else 3072 + c.cluster

/-- A data engine's access of its cluster's slice counts (05 R83). -/
def engSlice (s : State) (c : Cmd) (pcie : Bool) (key : Nat) : State :=
  if c.kind = 0 || pcie then s else countSlice (tick s) c.cluster key

/-- Ask another package for bytes that a command reads. -/
def askRemote (s : State) (cid : Nat) (c : Cmd) (va pkg pa n : Nat) : State × Got :=
  if flowBad s c.ctx pkg true then (s, .down)
  else match flowOf s c.ctx pkg with
    | none => (s, .down)
    | some (fid, f) =>
      let r : Remote := { tid := cid, tok := 0, d := va, lane := 0, width := n, kind := 4, va := pa, len := n, lva := va, ctx := c.ctx, gid := c.gid }
      let s := { s with lnk := { s.lnk with remotes := tset s.lnk.remotes (remoteKey fid f.seq) r } }
      let s := modCmd s cid fun c => { c with asked := va :: c.asked }
      (sendPkt s fid c.qslot 0 false (BitVec.ofNat 64 pa) (List.replicate n 0), .wait)

/-- An engine reads bytes within one granule. -/
def engRead1 (s : State) (cid : Nat) (c : Cmd) (va n : Nat) : State × Got :=
  if !engArenaOk s c.ctx (cmdGroups s c) va then (s, .bad)
  else match engTranslate s c.ctx va .read (cmdUnit c) with
    | (s, .error .stall) => (s, .wait)
    | (s, .error .link) => (s, .down)
    | (s, .error e) => (s, .err e va)
    | (s, .ok (.key a pcie)) =>
      if spanStalls s a n then (s, .wait) else (engSlice s c pcie a, .bytes (rdN s a n))
    | (s, .ok (.remote p pa)) => match tget c.fetched va with
      | some bs => (s, .bytes bs)
      | none => if c.asked.contains va then (s, .wait) else askRemote s cid c va p pa n

/-- An engine reads bytes that may cross granules. -/
def engRead (cid : Nat) (c : Cmd) : (fuel : Nat) → State → (va n : Nat) → State × Got
  | 0, s, _, _ => (s, .bytes [])
  | f + 1, s, va, n =>
    if n = 0 then (s, .bytes [])
    else
      let va := va % 2 ^ 64
      let k := min n (min 128 (4096 - va % 4096))
      match engRead1 s cid c va k with
      | (s, .bytes bs) => match engRead cid c f s (va + k) (n - k) with
        | (s, .bytes r) => (s, .bytes (bs ++ r))
        | r => r
      | (s, .wait) => ((engRead cid c f s (va + k) (n - k)).1, .wait)
      | r => r

/-- An engine writes bytes within one granule. -/
def engWrite (s : State) (cid : Nat) (c : Cmd) (va : Nat) (bs : List Byte) : State × Got :=
  if !engArenaOk s c.ctx (cmdGroups s c) va then (s, .bad)
  else match engTranslate s c.ctx va .write (cmdUnit c) with
    | (s, .error .stall) => (s, .wait)
    | (s, .error .link) => (s, .down)
    | (s, .error e) => (s, .err e va)
    | (s, .ok (.key a pcie)) =>
      if spanStalls s a bs.length then (s, .wait)
      else (engSlice (devStore s (if c.kind = 0 then none else some c.cluster) a bs) c pcie a, .bytes [])
    | (s, .ok (.remote p pa)) =>
      if flowBad s c.ctx p true then (s, .down)
      else match flowOf s c.ctx p with
        | none => (s, .down)
        | some (fid, f) =>
          let r : Remote := { tid := cid, tok := 0, d := 0, lane := 0, width := 0, kind := 5, va := pa, len := bs.length, lva := va, ctx := c.ctx, gid := c.gid }
          let s := { s with lnk := { s.lnk with remotes := tset s.lnk.remotes (remoteKey fid f.seq) r } }
          let s := modCmd s cid fun c => { c with acks := c.acks + 1 }
          (sendPkt s fid c.qslot 2 false (BitVec.ofNat 64 pa) bs, .bytes [])

/-! ### The end of a command (18 R350, R356) -/

/-- The queue whose work a command is. -/
def cmdQueue (s : State) (c : Cmd) : Option Nat :=
  match c.pkt with
  | some p => some p.1
  | none => (tget s.grids c.gid).map (·.queue)

/-- Lines that a command marked empty and that are still empty for it. -/
def stillMarked (c : Cmd) : List Nat := c.marked.filter fun l => !c.landed.contains l

/-- The scope's counter and the successors of a command that finishes. A finished command keeps its record while its grid
lives. That a COPY packet whose flow to another package fails (code 9) shows FAULT with fault code 0x20 is the model's choice
(notes/assumptions/22.md). -/
def finishCmd (s : State) (cid code : Nat) : State :=
  match tget s.cmds cid with
  | none => s
  | some c =>
    if c.st = 3 then s
    else
      let s := { s with locks := s.locks.filter fun k => k.cmd != cid }
      let s := wakeRetry s fun _ w => w == .lock || w == .moving || (c.kind = 4 && w == .flow)
      let s := modCmd s cid fun c => { c with st := 3, code := code, recs := [] }
      let s := fillLines s c.bid
        ((stillMarked c).filter fun l => !s.cmds.any fun e => e.1 != cid && e.2.bid == c.bid && e.2.st < 3 && (stillMarked e.2).contains l)
      let s := reapAll s c.ctx
      let s := modBlock s c.bid fun b => { b with tags := b.tags.filter fun e => e.2 != cid }
      let s := wakeRetry s fun _ w => w == .tag
      let s := if c.kind = 4 || c.ctr = 0 then s
        else startJob s c.ctx { ops := [.add c.ctr 1], queue := none, tag := c.qslot, owner := cmdQueue s c,
                                 cluster := if c.kind = 0 then none else some c.cluster }
      let s := c.succs.foldl (fun s n =>
        cmdReady (modCmd s n fun d => { d with preds := d.preds - 1, skip := d.skip || code != 0 }) n) s
      let s := match c.pkt with
        | some (q, i) =>
          let st := if code = 0 then 0 else if code = 7 then 3 else if code = 9 then 1 + 256 * (0x20 + c.tag) else 1 + 256 * (0x200 + code)
          after s (.packetComplete q i st)
        | none => s
      let s := if c.kind = 0 then s else after s (.gridEnd c.gid)
      let s := if c.kind = 4 then settleFences s else s
      if blockDone s c.bid then after s (.blockEnd c.bid) else s

end Sys2Proof.Machine
end

