-- ==== Sys2Proof/Machine/IntAlu.lean ====
section
/-! DEFINITION. Class 0x0, integer and address arithmetic (14 R254-R267). -/
namespace Sys2Proof.Machine

/-! ### Values -/

/-- A TYPE reads its operand as signed (14 R257). -/
def signedTy (t : Nat) : Bool := t == 0 || t == 2 || t == 4 || t == 6

/-- ival (14 R257). -/
def ival {n : Nat} (x : BitVec n) (t : Nat) : Int := if signedTy t then x.toInt else x.toNat

/-- x clamped to the n-bit range of a signedness (12 R221). -/
def clampInt (n : Nat) (sg : Bool) (x : Int) : Int :=
  let lo : Int := if sg then -(2 ^ (n - 1)) else 0
  let hi : Int := if sg then 2 ^ (n - 1) - 1 else 2 ^ n - 1
  if x < lo then lo else if x > hi then hi else x

/-- fit (14 R257). -/
def fit (n : Nat) (t : Nat) (sat : Bool) (x : Int) : BitVec n :=
  BitVec.ofInt n (if sat then clampInt n (signedTy t) x else x)

/-- neg (14 R257). -/
def negIf (s : Bool) (x : Int) : Int := if s then -x else x

def iaddVal (t : Nat) (sat : Bool) (a b : Word) : Word := fit 32 t sat (ival a t + ival b t)
def isubVal (t : Nat) (sat : Bool) (a b : Word) : Word := fit 32 t sat (ival a t - ival b t)
def iadd3Val (sub : BitVec 5) (a b c : Word) : Word :=
  BitVec.ofInt 32 (negIf (sub.getLsbD 0) a.toNat + negIf (sub.getLsbD 1) b.toNat + negIf (sub.getLsbD 2) c.toNat)
def imulVal (t : Nat) (sat : Bool) (a b : Word) : Word := fit 32 t sat (ival a t * ival b t)
def imulhiVal (t : Nat) (a b : Word) : Word := hi32 (BitVec.ofInt 64 (ival a t * ival b t))
def imadVal (t : Nat) (sat nc : Bool) (a b c : Word) : Word := fit 32 t sat (ival a t * ival b t + negIf nc (ival c t))
def imadwVal (t : Nat) (sat : Bool) (a b : Word) (c : Dword) : Dword :=
  fit 64 (t + 2) sat (ival a t * ival b t + ival c (t + 2))
def iminVal (t : Nat) (a b : Word) : Word := if ival b t < ival a t then b else a
def imaxVal (t : Nat) (a b : Word) : Word := if ival b t > ival a t then b else a
def iabsVal (sat : Bool) (a : Word) : Word := fit 32 4 sat (a.toInt.natAbs : Int)

/-- Quotient and remainder (14 R263). -/
def divVal (t : Nat) (a b : Word) : Word × Word :=
  let n := ival a t
  let d := ival b t
  if d = 0 then (0xFFFFFFFF, a)
  else if t = 4 && a == 0x80000000 && b == 0xFFFFFFFF then (0x80000000, 0)
  else (BitVec.ofInt 32 (n.tdiv d), BitVec.ofInt 32 (n - n.tdiv d * d))

def byteOf (x : Word) (i : Nat) : Byte := x.extractLsb' (8 * i) 8

/-- IDOT4 (14 R267). -/
def idot4Val (ta tb : Nat) (sat : Bool) (a b c : Word) : Word :=
  fit 32 4 sat ((List.range 4).foldl (fun x i => x + ival (byteOf a i) ta * ival (byteOf b i) tb) c.toInt)

/-! ### Instructions -/

/-- IADD (14 R258). -/
def execIadd (h : Hdr) (f : FmtR) (s : State) : Out :=
  issue (.iadd h f) (fun e => .done e.s (wrD e f.kd f.d fun l => iaddVal f.ty.toNat f.sat (src e 0 f.ka f.a l) (src e 0 f.kb f.b l))) s

/-- ISUB (14 R258). -/
def execIsub (h : Hdr) (f : FmtR) (s : State) : Out :=
  issue (.isub h f) (fun e => .done e.s (wrD e f.kd f.d fun l => isubVal f.ty.toNat f.sat (src e 0 f.ka f.a l) (src e 0 f.kb f.b l))) s

/-- IADD3 (14 R258). -/
def execIadd3 (h : Hdr) (f : FmtR) (s : State) : Out :=
  issue (.iadd3 h f) (fun e => .done e.s (wrD e f.kd f.d fun l =>
    iadd3Val f.sub (src e 0 f.ka f.a l) (src e 0 f.kb f.b l) (src e 0 f.kc f.c l))) s

/-- The carry or borrow that comes in; with `.cz` 0, and pC is not read (14 R259). -/
def carryIn (e : Env) (f : FmtR) (l : Nat) : Bool := !f.sub.getLsbD 0 && prd e f.c l

/-- IADDC (14 R259). -/
def execIaddc (h : Hdr) (f : FmtR) (s : State) : Out :=
  issue (.iaddc h f) (fun e => .done e.s
    (wrD e false f.d (fun l => src e 0 f.ka f.a l + src e 0 f.kb f.b l + (if carryIn e f l then 1 else 0))
      ++ wrP e f.c (fun l => carryOut (src e 0 f.ka f.a l) (src e 0 f.kb f.b l) (carryIn e f l)))) s

/-- ISUBB (14 R259). -/
def execIsubb (h : Hdr) (f : FmtR) (s : State) : Out :=
  issue (.isubb h f) (fun e => .done e.s
    (wrD e false f.d (fun l => src e 0 f.ka f.a l - src e 0 f.kb f.b l - (if carryIn e f l then 1 else 0))
      ++ wrP e f.c (fun l => borrowOut (src e 0 f.ka f.a l) (src e 0 f.kb f.b l) (carryIn e f l)))) s

/-- IMUL (14 R260). -/
def execImul (h : Hdr) (f : FmtR) (s : State) : Out :=
  issue (.imul h f) (fun e => .done e.s (wrD e f.kd f.d fun l => imulVal f.ty.toNat f.sat (src e 0 f.ka f.a l) (src e 0 f.kb f.b l))) s

/-- IMULHI (14 R260). -/
def execImulhi (h : Hdr) (f : FmtR) (s : State) : Out :=
  issue (.imulhi h f) (fun e => .done e.s (wrD e f.kd f.d fun l => imulhiVal f.ty.toNat (src e 0 f.ka f.a l) (src e 0 f.kb f.b l))) s

/-- IMAD (14 R260). -/
def execImad (h : Hdr) (f : FmtR) (s : State) : Out :=
  issue (.imad h f) (fun e => .done e.s (wrD e f.kd f.d fun l =>
    imadVal f.ty.toNat f.sat (f.sub.getLsbD 2) (src e 0 f.ka f.a l) (src e 0 f.kb f.b l) (src e 0 f.kc f.c l))) s

/-- IMADW (14 R261). -/
def execImadw (h : Hdr) (f : FmtR) (s : State) : Out :=
  issue (.imadw h f) (fun e => .done e.s (wrPair e f.kd f.d fun l =>
    imadwVal f.ty.toNat f.sat (src e 0 f.ka f.a l) (src e 0 f.kb f.b l) (pr e f.kc f.c l))) s

/-- IMIN (14 R262). -/
def execImin (h : Hdr) (f : FmtR) (s : State) : Out :=
  issue (.imin h f) (fun e => .done e.s (wrD e f.kd f.d fun l => iminVal f.ty.toNat (src e 0 f.ka f.a l) (src e 0 f.kb f.b l))) s

/-- IMAX (14 R262). -/
def execImax (h : Hdr) (f : FmtR) (s : State) : Out :=
  issue (.imax h f) (fun e => .done e.s (wrD e f.kd f.d fun l => imaxVal f.ty.toNat (src e 0 f.ka f.a l) (src e 0 f.kb f.b l))) s

/-- IABS (14 R262). -/
def execIabs (h : Hdr) (f : FmtR) (s : State) : Out :=
  issue (.iabs h f) (fun e => .done e.s (wrD e f.kd f.d fun l => iabsVal f.sat (src e 0 f.ka f.a l))) s

/-- IDIV (14 R263). -/
def execIdiv (h : Hdr) (f : FmtR) (s : State) : Out :=
  issue (.idiv h f) (fun e => .done e.s (wrD e f.kd f.d fun l => (divVal f.ty.toNat (src e 0 f.ka f.a l) (src e 0 f.kb f.b l)).1)) s

/-- IREM (14 R263). -/
def execIrem (h : Hdr) (f : FmtR) (s : State) : Out :=
  issue (.irem h f) (fun e => .done e.s (wrD e f.kd f.d fun l => (divVal f.ty.toNat (src e 0 f.ka f.a l) (src e 0 f.kb f.b l)).2)) s

/-- IADD64 (14 R264): no arena check. -/
def execIadd64 (h : Hdr) (f : FmtR) (s : State) : Out :=
  issue (.iadd64 h f) (fun e => .done e.s (wrPair e f.kd f.d fun l =>
    fit 64 f.ty.toNat f.sat (ival (pr e f.ka f.a l) f.ty.toNat + ival (pr e f.kb f.b l) f.ty.toNat))) s

/-- ISUB64 (14 R264). -/
def execIsub64 (h : Hdr) (f : FmtR) (s : State) : Out :=
  issue (.isub64 h f) (fun e => .done e.s (wrPair e f.kd f.d fun l =>
    fit 64 f.ty.toNat f.sat (ival (pr e f.ka f.a l) f.ty.toNat - ival (pr e f.kb f.b l) f.ty.toNat))) s

/-- The offset width of a level (08 R134). -/
def offWidth (lv : Nat) : Nat := if lv = 0 then 13 else if lv = 1 then 24 else if lv = 2 then 29 else 33

/-- AADD (14 R265, R266): every active lane is checked before any is written. -/
def execAadd (h : Hdr) (f : FmtR) (s : State) : Out :=
  issue (.aadd h f) (fun e =>
    let p (l : Nat) : Nat := (pr e f.ka f.a l).toNat
    let x (l : Nat) : Dword := pr e f.ka f.a l + (src e 0 f.kb f.b l).signExtend 64
    let lv (l : Nat) : Nat := bitsOf (p l) 55 53
    let lvfail := failing e fun l => isArena (p l) && lv l > 3
    let bdfail := failing e fun l => isArena (p l) && lv l ≤ 3 && (x l).toNat / 2 ^ offWidth (lv l) != p l / 2 ^ offWidth (lv l)
    if lvfail != 0 then .trap 9 (lv ((lowest lvfail).getD 0)) lvfail 0
    else if bdfail != 0 then .trap 8 (lv ((lowest bdfail).getD 0)) bdfail 0
    else .done e.s (wrPair e f.kd f.d x)) s

/-- IDOT4 (14 R267). -/
def execIdot4 (h : Hdr) (f : FmtR) (s : State) : Out :=
  issue (.idot4 h f) (fun e => .done e.s (wrD e f.kd f.d fun l =>
    let ta := f.ty.toNat
    let tb := if f.sub.getLsbD 0 then 1 - ta else ta
    idot4Val ta tb f.sat (src e 0 f.ka f.a l) (src e 0 f.kb f.b l) (src e 0 f.kc f.c l))) s

end Sys2Proof.Machine
end

