-- ==== Sys2Proof/Machine/Float.lean ====
section
/-! DEFINITION. Floating-point values computed exactly and rounded once (12 R214-R220, 16 R303), comparison and
classification, and the conversions under a format slot (12 R222-R224, R229, R230). -/
namespace Sys2Proof.Machine

/-! ### Formats and values -/

/-- Exponent and fraction bits (12 R214). -/
structure FFmt where
  eb : Nat
  fb : Nat
deriving DecidableEq, Repr

def f32 : FFmt := { eb := 8, fb := 23 }
def f16 : FFmt := { eb := 5, fb := 10 }
def bf16 : FFmt := { eb := 8, fb := 7 }

/-- The element format of a TYPE. -/
def fmtOf (ty : Nat) : FFmt := if ty = 9 then f32 else if ty = 10 || ty = 12 then f16 else bf16
def packed (ty : Nat) : Bool := ty == 10 || ty == 11

def FFmt.bias (f : FFmt) : Int := 2 ^ (f.eb - 1) - 1
/-- Bits of +∞. -/
def FFmt.inf (f : FFmt) : Nat := (2 ^ f.eb - 1) * 2 ^ f.fb
def FFmt.signBit (f : FFmt) : Nat := 2 ^ (f.eb + f.fb)
/-- The canonical NaN (12 R218). -/
def FFmt.nan (f : FFmt) : Nat := f.inf + 2 ^ (f.fb - 1)

/-- An exact value: NaN, ±∞, or ±m · 2^e. -/
inductive FVal where
  | nan
  | inf (neg : Bool)
  | fin (neg : Bool) (m : Nat) (e : Int)
deriving DecidableEq, Repr

/-- The value of an encoding. -/
def fdec (f : FFmt) (x : Nat) : FVal :=
  let neg := x / f.signBit % 2 == 1
  let e := x / 2 ^ f.fb % 2 ^ f.eb
  let m := x % 2 ^ f.fb
  if e = 2 ^ f.eb - 1 then (if m = 0 then .inf neg else .nan)
  else if e = 0 then .fin neg m (1 - f.bias - f.fb)
  else .fin neg (2 ^ f.fb + m) (e - f.bias - f.fb)

/-- The encoding is a subnormal. -/
def isSub (f : FFmt) (x : Nat) : Bool := x / 2 ^ f.fb % 2 ^ f.eb == 0 && x % 2 ^ f.fb != 0
/-- FTZ: a subnormal becomes zero of its sign (12 R219). -/
def flush (f : FFmt) (ftz : Bool) (x : Nat) : Nat := if ftz && isSub f x then x / f.signBit % 2 * f.signBit else x

/-! ### Rounding (12 R217) -/

/-- Round q + r/d away from zero? -/
def roundUp (rnd : Nat) (neg : Bool) (q r d : Nat) : Bool :=
  match rnd with
  | 0 => 2 * r > d || (2 * r == d && q % 2 == 1)
  | 1 => false
  | 2 => neg && r != 0
  | 3 => !neg && r != 0
  | _ => 2 * r ≥ d

/-- A finite overflow, as encoding without the sign. -/
def overflowBits (f : FFmt) (rnd : Nat) (neg : Bool) : Nat :=
  if rnd = 0 || rnd = 4 || (rnd = 2 && neg) || (rnd = 3 && !neg) then f.inf else f.inf - 1

def pow2 (n : Int) : Nat := 2 ^ n.toNat

/-- Round ±(num / den) · 2^e, num > 0, into a format. -/
def roundRat (f : FFmt) (rnd : Nat) (neg : Bool) (num den : Nat) (e : Int) : Nat :=
  let l : Int := (num.log2 : Int) - den.log2
  let l := if num * pow2 (-l) ≥ den * pow2 l then l else l - 1
  let qe : Int := max (l + e) (1 - f.bias) - f.fb
  let n := num * pow2 (e - qe)
  let d := den * pow2 (qe - e)
  let q := n / d + (if roundUp rnd neg (n / d) (n % d) d then 1 else 0)
  let bits := (qe + f.bias + f.fb - 1).toNat * 2 ^ f.fb + q
  (if bits ≥ f.inf then overflowBits f rnd neg else bits) + (if neg then f.signBit else 0)

/-- fround (16 R303). -/
def fround (f : FFmt) (rnd : Nat) (ftz : Bool) : FVal → Nat
  | .nan => f.nan
  | .inf neg => f.inf + (if neg then f.signBit else 0)
  | .fin neg 0 _ => if neg then f.signBit else 0
  | .fin neg m e => flush f ftz (roundRat f rnd neg m 1 e)

/-- Round to an integer. -/
def roundInt (rnd : Nat) (neg : Bool) (m : Nat) (e : Int) : Int :=
  let n := m * pow2 e
  let d := pow2 (-e)
  let q := n / d + (if roundUp rnd neg (n / d) (n % d) d then 1 else 0)
  if neg then -(q : Int) else q

/-! ### Exact operations (16 R303) -/

def FVal.neg : FVal → FVal
  | .nan => .nan
  | .inf s => .inf (!s)
  | .fin s m e => .fin (!s) m e

def fmul : FVal → FVal → FVal
  | .nan, _ => .nan
  | _, .nan => .nan
  | .inf s, .inf t => .inf (xor s t)
  | .inf s, .fin t m _ => if m = 0 then .nan else .inf (xor s t)
  | .fin s m _, .inf t => if m = 0 then .nan else .inf (xor s t)
  | .fin s m e, .fin t n g => .fin (xor s t) (m * n) (e + g)

/-- The least exponent of the finite terms. -/
def minExp : List FVal → Int
  | [] => 0
  | [.fin _ _ e] => e
  | .fin _ _ e :: r => min e (minExp r)
  | _ :: r => minExp r

def signedAt (e : Int) : FVal → Int
  | .fin s m g => (if s then -1 else 1) * ((m * pow2 (g - e) : Nat) : Int)
  | _ => 0

def isNeg : FVal → Bool
  | .nan => false
  | .inf s => s
  | .fin s _ _ => s

/-- An exact sum, with the zero rule of R303. -/
def fsum (rnd : Nat) (ts : List FVal) : FVal :=
  if ts.contains .nan || (ts.contains (.inf true) && ts.contains (.inf false)) then .nan
  else if ts.contains (.inf true) then .inf true
  else if ts.contains (.inf false) then .inf false
  else
    let e := minExp ts
    let x := ts.foldl (fun a t => a + signedAt e t) 0
    if x = 0 then .fin (if ts.all isNeg then true else if ts.all fun t => !isNeg t then false else rnd == 2) 0 0
    else .fin (x < 0) x.natAbs e

/-- The order of two values; none if either is NaN; -0 = +0. -/
def ford : FVal → FVal → Option Ordering
  | .nan, _ => none
  | _, .nan => none
  | .inf s, .inf t => some (if s == t then .eq else if s then .lt else .gt)
  | .inf s, _ => some (if s then .lt else .gt)
  | _, .inf t => some (if t then .gt else .lt)
  | x, y =>
    let e := minExp [x, y]
    some (compare (signedAt e x) (signedAt e y))

/-- minimumNumber and maximumNumber (12 R218), on encodings. -/
def fminmax (f : FFmt) (mx : Bool) (x y : Nat) : Nat :=
  match fdec f x, fdec f y with
  | .nan, .nan => f.nan
  | .nan, _ => y
  | _, .nan => x
  | a, b =>
    let lt := match ford a b with
      | some .lt => true
      | some .gt => false
      | _ => isNeg a && !isNeg b
    if lt != mx then x else y

/-- A quotient rounded once (16 R318). -/
def fdivBits (f : FFmt) (rnd : Nat) (ftz : Bool) (x y : FVal) : Nat :=
  match x, y with
  | .nan, _ => f.nan
  | _, .nan => f.nan
  | .inf _, .inf _ => f.nan
  | .inf s, .fin t _ _ => fround f rnd ftz (.inf (xor s t))
  | .fin s _ _, .inf t => fround f rnd ftz (.fin (xor s t) 0 0)
  | .fin s m e, .fin t n g =>
    if n = 0 then (if m = 0 then f.nan else fround f rnd ftz (.inf (xor s t)))
    else if m = 0 then fround f rnd ftz (.fin (xor s t) 0 0)
    else flush f ftz (roundRat f rnd (xor s t) m n (e - g))

/-- Integer square root by bits from `i` down. -/
def isqrtGo (n : Nat) : (i r : Nat) → Nat
  | 0, r => r
  | i + 1, r => isqrtGo n i (if (r + 2 ^ i) * (r + 2 ^ i) ≤ n then r + 2 ^ i else r)
def isqrt (n : Nat) : Nat := isqrtGo n (n.log2 / 2 + 1) 0

/-- The square root of m · 2^e as a number with a sticky bit: 2·⌊√N⌋ + inexact, times 2^(g - 1). -/
def sqrtSticky (m : Nat) (e : Int) : Nat × Int :=
  let e' := e - 80 - (e - 80) % 2
  let n := m * pow2 (e - e')
  let r := isqrt n
  (2 * r + (if r * r = n then 0 else 1), e' / 2 - 1)

/-- A root rounded once (16 R318). -/
def fsqrtBits (f : FFmt) (rnd : Nat) (ftz : Bool) (x : FVal) : Nat :=
  match x with
  | .nan => f.nan
  | .inf s => if s then f.nan else f.inf
  | .fin s m e =>
    if m = 0 then (if s then f.signBit else 0)
    else if s then f.nan
    else let (r, g) := sqrtSticky m e; flush f ftz (roundRat f rnd false r 1 g)

/-- FCLASS (16 R308): one bit of ten. -/
def fclassBits (f : FFmt) (x : Nat) : Nat :=
  let neg := x / f.signBit % 2 == 1
  match fdec f x with
  | .nan => if x / 2 ^ (f.fb - 1) % 2 = 1 then 512 else 256
  | .inf s => if s then 1 else 128
  | .fin _ m _ => if m = 0 then (if neg then 8 else 16) else if isSub f x then (if neg then 4 else 32) else (if neg then 2 else 64)

/-- FRND (16 R307). -/
def frndBits (f : FFmt) (rnd : Nat) (x : Nat) : Nat :=
  match fdec f x with
  | .nan => f.nan
  | .inf _ => x
  | .fin s m e =>
    if e ≥ 0 then x
    else fround f 0 false (.fin s (roundInt rnd s m e).natAbs 0)

/-- FFREXP (16 R311): significand and exponent of an f32. -/
def frexpBits (x : Nat) : Nat × Int :=
  match fdec f32 x with
  | .nan => (f32.nan, 0)
  | .inf _ => (x, 0)
  | .fin s m e =>
    if m = 0 then (x, 0)
    else (fround f32 0 false (.fin s m (-(m.log2 : Int) - 1)), e + m.log2 + 1)

/-! ### Operands -/

/-- Element `i` of a source, with its modifiers (16 R303). -/
def opnd (f : FFmt) (x : Word) (i : Nat) (aa neg ftz : Bool) : Nat :=
  let w := f.eb + f.fb + 1
  let v := x.toNat / 2 ^ (16 * i) % 2 ^ w
  let v := if aa then v % f.signBit else v
  let v := if neg then (if v / f.signBit % 2 = 1 then v - f.signBit else v + f.signBit) else v
  flush f ftz v

/-- Build a result element by element. -/
def elemwise (ty : Nat) (g : Nat → Nat) : Word :=
  if packed ty then BitVec.ofNat 32 (g 0 + 65536 * g 1) else BitVec.ofNat 32 (g 0)

/-- Operands A, B, C of an instruction with the modifiers of R301. -/
def opA (f : FmtR) (ty : Nat) (x : Word) (i : Nat) : Nat :=
  opnd (fmtOf ty) x i (f.sub.getLsbD 3) (f.sub.getLsbD 0) (f.sub.getLsbD 4)
def opB (f : FmtR) (ty : Nat) (x : Word) (i : Nat) : Nat := opnd (fmtOf ty) x i false (f.sub.getLsbD 1) (f.sub.getLsbD 4)
def opC (f : FmtR) (ty : Nat) (x : Word) (i : Nat) : Nat := opnd (fmtOf ty) x i false (f.sub.getLsbD 2) (f.sub.getLsbD 4)

/-! ### Conversions (12 R220, 16 R312) -/

/-- Bits of an integer TYPE. -/
def intBits (t : Nat) : Nat := if t ≤ 1 then 8 else if t ≤ 3 then 16 else if t ≤ 5 then 32 else 64

/-- A float becomes an integer of a TYPE: rounded, saturated, NaN gives 0. -/
def floatToInt (t rnd : Nat) (x : FVal) : Int :=
  let n := intBits t
  let sg := signedTy t
  match x with
  | .nan => 0
  | .inf s => clampInt n sg (if s then -(2 ^ 64) else 2 ^ 64)
  | .fin s m e => clampInt n sg (roundInt rnd s m e)

def intVal (x : Int) : FVal := .fin (x < 0) x.natAbs 0

/-! ### Format slots (12 R222-R224, R229, R230) -/

def slotA (s : Dword) : Nat := bitsOf s.toNat 63 60
def slotB (s : Dword) : Nat := bitsOf s.toNat 59 56
def slotC (s : Dword) : Nat := bitsOf s.toNat 55 52
def slotApl (s : Dword) : Nat := bitsOf s.toNat 51 49 + 1
def slotBpl (s : Dword) : Nat := bitsOf s.toNat 48 46 + 1
def slotMid (s : Dword) : Bool := bitsOf s.toNat 45 45 == 1
def slotSub (s : Dword) : Nat := bitsOf s.toNat 44 43
def slotRnd (s : Dword) : Nat := bitsOf s.toNat 42 40
def slotSat (s : Dword) : Bool := bitsOf s.toNat 39 39 == 1
def slotScale (s : Dword) : Nat := bitsOf s.toNat 38 36

/-- A valid slot (12 R222, R223). -/
def slotOk (s : Dword) : Bool :=
  slotA s ≤ 7 && slotB s ≤ 7 && slotC s ≤ 7 && slotSub s ≤ 2 && slotRnd s ≤ 4 && slotScale s ≤ 2 && bitsOf s.toNat 35 32 == 0

def isIntKind (k : Nat) : Bool := k == 3 || k == 4 || k == 6

/-- The combinations that a matrix instruction accepts (12 R224), and their K step. -/
def slotStep (s : Dword) : Option Nat :=
  let a := slotA s
  let b := slotB s
  let c := slotC s
  let sc := slotScale s
  if c == 0 && slotSub s == 2 then none
  else if c == 0 && sc ≤ 1 && a == b && (a == 1 || a == 2 || a == 7) then some 4
  else if isIntKind a && isIntKind b then
    (if c == 5 && sc ≤ 1 then some 8 else if c == 0 && sc == 2 then some 32 else none)
  else none

def one : FVal := .fin false 1 0
/-- The scale of requantisation and slot-indexed conversion (12 R229). -/
def slotFactor (s : Dword) : FVal := if slotScale s = 1 then fdec f32 (s.toNat % 2 ^ 32) else one

/-- requant (12 R230): the byte and whether it is N8. -/
def requant (s : Dword) (c : FVal) : Int :=
  let n8 := slotA s == 4
  match fmul c (slotFactor s) with
  | .nan => 0
  | .inf neg => if neg then (if n8 then 0 else -128) else (if n8 then 255 else 127)
  | .fin neg m e =>
    let y := roundInt (slotRnd s) neg m e
    if slotSat s then clampInt 8 (!n8) y
    else if n8 then (BitVec.ofInt 8 y).toNat else (BitVec.ofInt 8 y).toInt

/-- The value of a BPN element read with p planes (12 R215). -/
def bpnVal (x : Byte) (p : Nat) (mid : Bool) : Int :=
  x.toInt / 2 ^ (8 - p) * 2 ^ (8 - p) + (if mid && p < 8 then 2 ^ (7 - p) else 0)

/-- CVT.q (16 R313). -/
def cvtQVal (s : Dword) (a : Word) : Word :=
  let ftz := slotSub s == 0
  let x := fdec f32 (flush f32 ftz a.toNat)
  if isIntKind (slotA s) then BitVec.ofInt 32 (requant s x)
  else
    let f := if slotA s = 1 then bf16 else f16
    let y := fround f (slotRnd s) ftz (fmul x (slotFactor s))
    let isInf := y % f.signBit == f.inf
    let fin := match fmul x (slotFactor s) with | .fin .. => true | _ => false
    BitVec.ofNat 32 (if slotSat s && isInf && fin then y - 1 else y)

/-- CVT.dq (16 R313). -/
def cvtDqVal (s : Dword) (a : Word) : Word :=
  let ftz := slotSub s == 0
  let b : Byte := a.setWidth 8
  let v := match slotA s with
    | 1 => fdec bf16 (flush bf16 ftz (a.toNat % 65536))
    | 2 => fdec f16 (flush f16 ftz (a.toNat % 65536))
    | 3 => intVal b.toInt
    | 4 => intVal b.toNat
    | _ => intVal (bpnVal b (slotApl s) (slotMid s))
  BitVec.ofNat 32 (fdivBits f32 (slotRnd s) ftz v (slotFactor s))

end Sys2Proof.Machine
end

