-- ==== Sys2Proof/Machine/Launch.lean ====
section
/-! DEFINITION. Launch records (04 R66-R68), the claims of a block (06 R86), grids and their end (08 R123, 04 R68). -/
namespace Sys2Proof.Machine

/-! ### Records -/

/-- A little-endian field of `n` bytes at an offset. -/
def fld (bs : List Byte) (lo n : Nat) : Nat := leNat ((bs.drop lo).take n)

/-- Bytes lo..hi−1 are all 0. -/
def zeros (bs : List Byte) (lo hi : Nat) : Bool := ((bs.drop lo).take (hi - lo)).all (· == 0)

/-- The fields of R66. -/
def parseRec (bs : List Byte) : LRec :=
  { raw := bs
    code := fld bs 16 8
    ctrl := fld bs 24 8
    argp := fld bs 32 8
    cctr := fld bs 40 8
    assist := fld bs 48 8
    gx := fld bs 56 4
    gy := fld bs 60 2
    gz := fld bs 62 2
    lx := fld bs 64 2
    ly := fld bs 66 2
    lz := fld bs 68 2
    grpx := fld bs 70 1
    grpy := fld bs 71 1
    grpz := fld bs 72 1
    phasers := fld bs 73 1
    regs := fld bs 74 2
    scratch := fld bs 76 4
    tiles := fld bs 80 4
    shadow := fld bs 84 2
    prio := fld bs 86 1
    deadline := fld bs 87 1
    argsz := fld bs 88 4
    coop := (fld bs 92 4).testBit 0
    chk := (fld bs 92 4).testBit 1
    mirrorOk := (fld bs 92 4).testBit 2
    arlane := fld bs 96 4
    arblock := fld bs 100 4
    arclus := fld bs 104 4
    argrid := fld bs 108 4
    slots := (List.range 8).map fun i => BitVec.ofNat 64 (fld bs (112 + 8 * i) 8)
    haz := (List.range 4).map fun j => (fld bs (176 + 16 * j) 8, fld bs (184 + 16 * j) 4, fld bs (188 + 16 * j) 1) }

/-- An address of code is a multiple of 4 outside the arena window. -/
def codeAddr (a : Nat) : Bool := a % 4 == 0 && !isArena a

def laneCount (r : LRec) : Nat := r.lx * r.ly * r.lz

/-- The cluster groups of a record are all 0, or divide the grid (04 R67). -/
def groupsOk (r : LRec) : Bool :=
  if r.grpx == 0 && r.grpy == 0 && r.grpz == 0 then true
  else r.grpx ≥ 1 && r.grpy ≥ 1 && r.grpz ≥ 1 && r.grpx * r.grpy * r.grpz ≤ 16
    && r.gx % r.grpx == 0 && r.gy % r.grpy == 0 && r.gz % r.grpz == 0

/-- Block shape, code, claims and slots: what a record and an FN entry share (04 R67, 11 R197). -/
def shapeOk (r : LRec) : Bool :=
  r.code != 0 && codeAddr r.code && codeAddr r.ctrl && codeAddr r.assist
    && r.lx ≥ 1 && r.ly ≥ 1 && r.lz ≥ 1 && laneCount r ≤ 2048
    && 8 ≤ r.regs && r.regs ≤ 2048 && r.phasers ≤ 8 && r.shadow % 32 == 0
    && r.regs * strandCount r ≤ 32768 && r.scratch ≤ 2 ^ 21 && r.tiles + 256 * r.shadow ≤ 2 ^ 21
    && (r.ctrl != 0 || (r.shadow == 0 && r.assist == 0 && r.tiles == 0))
    && r.slots.all slotOk

/-- A record is valid (04 R67). -/
def recOk (r : LRec) : Bool :=
  shapeOk r && groupsOk r && r.gx ≥ 1 && r.gy ≥ 1 && r.gz ≥ 1
    && (r.deadline == 0 || (10 ≤ r.deadline && r.deadline ≤ 24)) && r.prio ≤ 7
    && r.argrid ≤ 2097152 && r.arclus ≤ 131072 && r.arblock ≤ 4096 && r.arlane ≤ 2 && r.argsz ≤ 65536
    && fld r.raw 92 4 < 8 && zeros r.raw 240 256 && r.cctr % 16 == 0 && !isArena r.cctr

/-- A header is well formed (04 R64). -/
def headerOk (bs : List Byte) : Bool := fld bs 1 1 < 4 && zeros bs 2 4 && zeros bs 8 16

def blockCount (r : LRec) : Nat := r.gx * r.gy * r.gz

/-! ### Claims (06 R86) -/

def up (a b : Nat) : Nat := (a + b - 1) / b

/-- Register granules, doubled by mirroring. -/
def regGran (r : LRec) (mirrored : Bool) : Nat := up (r.regs * strandCount r) 128 * (if mirrored then 2 else 1)
def spGran (r : LRec) : Nat := up (up r.scratch 128) 128
def tsGran (r : LRec) : Nat := up (up (r.tiles + 256 * r.shadow) 256) 64

/-! ### Grids -/

/-- The least of two priorities. -/
def lesser (a b : Nat) : Nat := min a b

/-- A new grid under the next number, its arena in a slot (04 R68, 08 R136). -/
def newGrid (s : State) (slot : Nat) (g : Grid) : State :=
  let gid := s.nextId
  let gen := ((tget s.ctxs g.ctx).map fun cx => genOf cx 3 slot).getD 0
  let h := ((tget s.ctxs g.ctx).map (·.handler)).getD 0
  let s := openArena (newId s) g.ctx 3 slot (g.lrec.argrid * 4096) gid
  let ev := ((tget s.ctxs g.ctx).map (·.evNo)).getD 0
  { s with grids := tset s.grids gid { g with slot := slot, gen := gen, handler := h, evNo := ev, order := gid } }

/-- Blocks of a grid that exist, whatever their stage short of the end. -/
def gridBlocks (s : State) (gid : Nat) : List (Nat × Block) := s.blocks.filter fun e => e.2.gid == gid && e.2.stage != .ended

/-- A write or an atomic on a flow that has not failed is not acknowledged (02 R28, R31). -/
def writesOut (s : State) (p : Remote → Bool) : Bool :=
  s.lnk.remotes.any fun r => (r.2.kind == 1 || r.2.kind == 2) && r.1 < 2 ^ 52 && p r.2
    && !((tget s.lnk.src (r.1 / 2 ^ 32)).map (·.failed)).getD true

/-- Everything that R123 and R213 ask of a grid's end has ended. -/
def gridOver (s : State) (gid : Nat) (g : Grid) : Bool :=
  !g.done && (g.next ≥ blockCount g.lrec || g.cancelled) && (g.entered || g.cancelled) && (gridBlocks s gid).isEmpty
    && !s.grids.any (fun e => e.2.parent == some gid && !e.2.done)
    && !s.cmds.any (fun e => e.2.gid == gid && e.2.kind != 0 && e.2.st < 3)
    && !s.nests.any (fun e => e.2.gid == some gid && e.2.status.isNone)

/-- Its strands have writes on other packages that its release at system scope waits for (04 R62). -/
def gridWrites (s : State) (gid : Nat) : Bool := writesOut s fun r => r.gid == gid

/-- STATUS of a grid (04 R68). -/
def gridStatus (g : Grid) : Nat :=
  if g.cancelled then 3
  else match g.fault with
    | some (code, lin) => 1 + 256 * code + 2 ^ 32 * lin
    | none => if g.killedStrands > 0 then 4 + 256 * g.killedStrands else 0

/-- The clusters of a partition, ascending. -/
def partCores (p : Part) : List Nat := p.clusters.flatMap fun c => (List.range 8).map (8 * c + ·)

end Sys2Proof.Machine
end

