-- ==== Sys2Proof/Machine/Fit.lean ====
section
/-! DEFINITION. Where blocks fit: claims, ranges and caps (06 R86, R87, 05 R76), block-arena slots (06 R89), the walk of the
index space (06 R90), the entry state of strands and contexts (08 R125, R126), and scrubbing (07 R104, 06 R88). -/
namespace Sys2Proof.Machine

/-! ### Partition descriptors (05 R76) -/

/-- The fields of a 64-byte descriptor. -/
def parsePart (bs : List Byte) : Part :=
  { clusters := (List.range 192).filter fun j => (fld bs 40 24).testBit j
    gbase := fld bs 38 2
    gcount := fld bs 36 2
    sbase := fld bs 34 2
    scount := fld bs 32 2
    bbase := fld bs 31 1
    bcount := fld bs 30 1
    pbase := fld bs 29 1
    pcount := fld bs 28 1
    cpbase := fld bs 27 1
    cpcount := fld bs 26 1
    ccbase := fld bs 25 1
    cccount := fld bs 24 1
    tcap := fld bs 8 2
    scap := fld bs 6 2
    rcap := fld bs 4 2 }

/-- The 64 bytes of a descriptor. -/
def partBytes (pid : Nat) (p : Part) : List Byte :=
  leBytes pid 4 ++ leBytes p.rcap 2 ++ leBytes p.scap 2 ++ leBytes p.tcap 2 ++ leBytes 0 14 ++ leBytes p.cccount 1 ++ leBytes p.ccbase 1
    ++ leBytes p.cpcount 1 ++ leBytes p.cpbase 1 ++ leBytes p.pcount 1 ++ leBytes p.pbase 1 ++ leBytes p.bcount 1 ++ leBytes p.bbase 1
    ++ leBytes p.scount 2 ++ leBytes p.sbase 2 ++ leBytes p.gcount 2 ++ leBytes p.gbase 2
    ++ leBytes (p.clusters.foldl (fun m j => m ||| 2 ^ j) 0) 24

/-! ### Claims and free resources -/

def needOf (r : LRec) : Need :=
  { reg := regGran r false, sp := spGran r, ts := tsGran r, str := strandCount r, phs := r.phasers, ctl := r.ctrl != 0 }

/-- The block holds resources of its own. -/
def holds (b : Block) : Bool := b.seat.isNone && (b.stage == .reserved || b.stage == .scrubbing || b.stage == .running)

/-- Blocks and seats that hold resources of a core. -/
def liveOn (s : State) (core : Nat) : List Block := (s.blocks.filter fun e => e.2.core == core && holds e.2).map Prod.snd

/-- Strands of a block of block slot `b` in quarter `q` (06 R86). -/
def inQuarter (str b q : Nat) : Nat := ((List.range str).filter fun i => (i + b) % 4 == q).length

def sumBy (bs : List Block) (f : Block → Nat) : Nat := bs.foldl (fun n b => n + f b) 0

def regHeld (b : Block) : Nat := b.need.reg * (if b.mirrored then 2 else 1)

/-- The resources that a block would take on a core. -/
structure Plan where
  core : Nat
  bslot : Nat
  gran : List Nat
  phSlots : List Nat
  sslots : List Nat
  ctl : Option Nat
  mirrored : Bool
deriving DecidableEq, Repr

/-- A leased cluster, during a slice of the leasing function, takes blocks of that function's partition only (05 R84). -/
def clusterOpen (s : State) (pid cl : Nat) : Bool :=
  !s.leases.any fun l => l.2.fn != 0 && l.2.banks.contains cl && l.2.part.isSome && l.2.part != some pid

/-- Strand slots for `str` strands of a block of block slot `b`: strand `i` in quarter (i + b) mod 4, and there the lowest free slot of
the range (06 R86, notes/assumptions/39.md). Fewer than `str` when a quarter has too few. -/
def strandSlots (base n : Nat) (used : List Nat) (str b : Nat) : List Nat :=
  let free (q : Nat) : List Nat := (((List.range n).map fun j => 256 * q + (base + j))).filter (!used.contains ·)
  let quarters := (List.range 4).map free
  (List.range str).filterMap fun i => (quarters.getD ((i + b) % 4) [])[i / 4]?

/-- What a block takes on a core, if it fits there (06 R86, R87). -/
def planOn (s : State) (pid : Nat) (p : Part) (core : Nat) (n : Need) (mirrorOk : Bool) : Option Plan :=
  let live := liveOn s core
  let mine := live.filter (·.part == pid)
  let mirrored := mirrorOk && 2 * (sumBy mine regHeld + 2 * n.reg) ≤ p.gcount
  let reg := if mirrored then 2 * n.reg else n.reg
  let used := live.flatMap (·.gran)
  let free := ((List.range p.gcount).map (p.gbase + ·)).filter fun g => !used.contains g && !s.pkg.granRetired.contains (512 * core + g)
  let gran := free.take (reg + n.sp + n.ts)
  let slot := ((List.range p.bcount).map (p.bbase + ·)).find? fun i => !live.any (·.bslot == i)
  let usedPh := live.flatMap (·.phSlots)
  let phs := (((List.range p.pcount).map (p.pbase + ·)).filter (!usedPh.contains ·)).take n.phs
  let usedStr := live.flatMap (·.sslots)
  let usedCtl := (List.range 8).flatMap fun j => (liveOn s (core / 8 * 8 + j)).filterMap (·.ctl)
  let ctl := ((List.range p.cccount).map (p.ccbase + ·)).find? (!usedCtl.contains ·)
  match slot with
  | none => none
  | some b =>
    let str := strandSlots p.sbase p.scount usedStr n.str b
    if gran.length == reg + n.sp + n.ts && phs.length == n.phs && (!n.ctl || ctl.isSome)
        && sumBy live regHeld + reg ≤ 256 && sumBy live (·.need.sp) + n.sp ≤ 128 && sumBy live (·.need.ts) + n.ts ≤ 128
        && sumBy mine regHeld + reg ≤ p.rcap && sumBy mine (·.need.sp) + n.sp ≤ p.scap && sumBy mine (·.need.ts) + n.ts ≤ p.tcap
        && str.length == n.str
        && s.pkg.clready.contains (core / 8) && s.pkg.stkReady.contains (stackOf core) && !s.pkg.swapping.contains (core / 8)
        && clusterOpen s pid (core / 8)
    then some { core := core, bslot := b, gran := gran, phSlots := phs, sslots := str, ctl := if n.ctl then ctl else none, mirrored := mirrored }
    else none

/-- Numbers in rotation: those above the last one first. -/
def rotate (xs : List Nat) (last : Nat) : List Nat := xs.filter (· > last) ++ xs.filter (· ≤ last)

/-- Cores in the order in which a launch tries them (06 R90). -/
def coreOrder (p : Part) (gid : Nat) (g : Grid) : List Nat := rotate (partCores p) (g.lastCore.getD (Config.startCore gid % 1536))

/-- The block-arena slot that a block takes on a core (06 R89). -/
def arenaSlot (cx : Ctx) (core : Nat) : Option Nat :=
  match tget cx.freed core with
  | some i => if slotFree cx 1 i then some i else freeSlot cx 1
  | none => freeSlot cx 1

/-! ### The index space (06 R90) -/

def groupSize (r : LRec) : Nat := r.grpx * r.grpy * r.grpz

/-- The linear index of the n-th block in the placement order. -/
def linAt (r : LRec) (n : Nat) : Nat :=
  if !hasGroups r then n
  else
    let q := n / groupSize r
    let w := n % groupSize r
    let gx := r.gx / r.grpx
    let gy := r.gy / r.grpy
    let x := q % gx * r.grpx + w % r.grpx
    let y := q / gx % gy * r.grpy + w / r.grpx % r.grpy
    let z := q / (gx * gy) * r.grpz + w / (r.grpx * r.grpy)
    x + r.gx * (y + r.gy * z)

/-- The group of a block of a grid with cluster groups. -/
def groupRec (s : State) (b : Block) : Option Group :=
  (tget s.grids b.gid).bind fun g => if hasGroups g.lrec then tget g.groups (groupIdx g.lrec b.lin) else none

/-- The cluster phaser slots of a partition's range that are free on a cluster, ascending (05 R76, 17 R337). -/
def freeCph (s : State) (p : Part) (cl : Nat) : List Nat :=
  let used := s.blocks.flatMap fun e => if e.2.core / 8 == cl && holds e.2 then ((groupRec s e.2).map (·.cph)).getD [] else []
  ((List.range p.cpcount).map (p.cpbase + ·)).filter (!used.contains ·)

/-! ### Taking and releasing -/

/-- The reservation of a group's first block takes the slot of the group's arena, which begins as that block starts (08 R123), and the
group's cluster phasers (17 R337). -/
def openGroup (s : State) (gid : Nat) (g : Grid) (q cl : Nat) : Option State :=
  match tget g.groups q, tget s.ctxs g.ctx, tget s.parts g.part with
  | some _, _, _ => some s
  | none, some cx, some p =>
    let cph := (freeCph s p cl).take g.lrec.phasers
    if cph.length != g.lrec.phasers then none
    else (freeSlot cx 2).map fun i =>
      modGrid (holdSlot s g.ctx 2 i) gid fun g => { g with groups := tset g.groups q {
        slot := i, gen := genOf cx 2 i, cluster := cl, cph := cph, left := groupSize g.lrec } }
  | none, _, _ => none

/-- The arena of a group begins (08 R123, R136). -/
def startGroup (s : State) (gid : Nat) (g : Grid) (q : Nat) : State :=
  match tget g.groups q with
  | none => s
  | some x =>
    if x.started then s
    else
      let s := openArena (dropSlot s g.ctx 2 x.slot) g.ctx 2 x.slot (g.lrec.arclus * 4096) (groupOwner gid q)
      modGrid s gid fun g => { g with groups := tmod g.groups q fun x => { x with started := true } }

/-- The slot of a leaf's block: that of its seat, or one of its own if that is not free (06 R89, 11 R207). -/
def leafSlot (cx : Ctx) (core : Nat) (sb : Block) : Option Nat := if slotIdle cx 1 sb.aslot then some sb.aslot else arenaSlot cx core

/-- The block's slot is held for the seat that it sits in. -/
def seatHolds (s : State) (b : Block) : Bool := ((b.seat.bind fun x => tget s.blocks x).map fun sb => sb.aslot == b.aslot).getD false

/-- A block that is placed has its arena from now on (08 R123); one that is restored has it. -/
def startArena (s : State) (bid : Nat) (b : Block) (g : Grid) : State :=
  match tget s.ctxs g.ctx with
  | none => s
  | some cx =>
    if !slotIdle cx 1 b.aslot then s
    else openArena (if seatHolds s b then s else dropSlot s g.ctx 1 b.aslot) g.ctx 1 b.aslot (g.lrec.arblock * 4096) bid

/-- Take a block's resources in one step (06 R86, R88): the state and the block's number. -/
def takeBlock (s : State) (gid : Nat) (g : Grid) (pl : Plan) (seat : Option Nat) (stage : BStage) : Option (State × Nat) :=
  let lin := linAt g.lrec g.next
  match tget s.ctxs g.ctx with
  | none => none
  | some cx =>
    let sb := seat.bind fun x => tget s.blocks x
    match (match sb with | some sb => leafSlot cx pl.core sb | none => arenaSlot cx pl.core),
      (if hasGroups g.lrec then openGroup s gid g (groupIdx g.lrec lin) (pl.core / 8) else some s) with
    | some a, some s =>
      let bid := s.nextId
      let b : Block := {
        gid := gid, part := g.part, need := needOf g.lrec, lin := lin, core := pl.core, bslot := pl.bslot, aslot := a,
        gen := genOf cx 1 a, mirrored := pl.mirrored, ctl := pl.ctl, gran := pl.gran, phSlots := pl.phSlots, sslots := pl.sslots, stage := stage,
        nstr := strandCount g.lrec, placedAt := s.time, seat := seat }
      let s := { newId s with blocks := tset s.blocks bid b }
      let s := if seatHolds s b then s else holdSlot s g.ctx 1 a
      some (modGrid s gid fun g => { g with next := g.next + 1, lastCore := some pl.core }, bid)
    | _, _ => none

/-- The first core, in rotation, on which the next block of a launch fits. -/
def firstPlan (s : State) (g : Grid) (cores : List Nat) : Option Plan :=
  match tget s.parts g.part with
  | none => none
  | some p => cores.findSome? fun c => planOn s g.part p c (needOf g.lrec) g.lrec.mirrorOk

/-- Reserve the next `n` blocks of a launch on cores of a list, by rotation. -/
def reserveN (gid : Nat) : (n : Nat) → State → (cores : List Nat) → Option State
  | 0, s, _ => some s
  | n + 1, s, cores =>
    match tget s.grids gid with
    | none => none
    | some g => match firstPlan s g (rotate cores (g.lastCore.getD (Config.startCore gid % 1536))) with
      | none => none
      | some pl => match takeBlock s gid g pl none .reserved with
        | none => none
        | some (s, _) => reserveN gid n s cores

/-- The cluster that takes the next group of a launch (06 R90). -/
def groupCluster (s : State) (gid : Nat) (g : Grid) (p : Part) : Option Nat :=
  let last := (g.lastCore.getD (Config.startCore gid % 1536)) / 8
  (rotate p.clusters last).find? fun c =>
    g.lrec.phasers ≤ (freeCph s p c).length
      && (reserveN gid (groupSize g.lrec) s ((List.range 8).map (8 * c + ·))).isSome

/-- Cores on which the next block of a gang may be reserved: those of its group's cluster, or of the partition. -/
def gangCores (s : State) (gid : Nat) (g : Grid) (p : Part) : List Nat :=
  if !hasGroups g.lrec then partCores p
  else if g.next % groupSize g.lrec = 0 then
    match groupCluster s gid g p with
    | some c => (List.range 8).map (8 * c + ·)
    | none => []
  else
    let c := (g.lastCore.getD 0) / 8
    (List.range 8).map (8 * c + ·)

/-- Reserve one more block of a gang (06 R94). -/
def gangStep (s : State) (gid : Nat) : Option State :=
  match tget s.grids gid with
  | none => none
  | some g => match tget s.parts g.part with
    | none => none
    | some p => reserveN gid 1 s (gangCores s gid g p)

def gangSteps (gid : Nat) : (n : Nat) → State → Option State
  | 0, s => some s
  | n + 1, s => (gangStep s gid).bind (gangSteps gid n)

/-- Blocks that one transaction places: a grid, a group or a block. -/
def gangSize (r : LRec) : Nat := if r.coop then blockCount r else if hasGroups r then groupSize r else 1

/-- The device with nothing placed, no arena in use, and everything ready that has not been retired. -/
def emptyDev (s : State) : State :=
  { s with
    blocks := []
    leases := []
    ctxs := tmap s.ctxs fun _ cx => { cx with arenas := [], retired := [], held := [] }
    pkg := { s.pkg with stkReady := List.range 8, clready := (List.range 192).filter (!s.pkg.clRetired.contains ·), swapping := [] } }

/-- A launch fits in an empty partition (04 R67, 06 R92). -/
def fitsEmpty (s : State) (pid ctx : Nat) (r : LRec) : Bool :=
  match (tget s.parts pid).map fun p => (p.pending.map fun b => parsePart b.1).getD p with
  | none => false
  | some p =>
    let g : Grid := { ctx := ctx, queue := 0, prio := 0, part := pid, lrec := r, slot := 0, gen := 0 }
    let s := emptyDev s
    let s := { s with grids := [(s.nextId, g)], nextId := s.nextId + 1, parts := tset s.parts pid p }
    p.clusters.isEmpty || (gangSize r ≤ 64 * (partCores p).length && (gangSteps (s.nextId - 1) (gangSize r) s).isSome)

/-- Every reservation of a gang is released, its slots at their generation, and it starts again from its first block (06 R94, R95). -/
def unreserve (s : State) (gid : Nat) : State :=
  match tget s.grids gid with
  | none => s
  | some g =>
    let rs := s.blocks.filter fun e => e.2.gid == gid && e.2.stage == .reserved
    let s := rs.foldl (fun s e => dropSlot s g.ctx 1 e.2.aslot) s
    let qs := if hasGroups g.lrec then dedup (rs.map fun e => groupIdx g.lrec e.2.lin) else []
    let s := qs.foldl (fun s q => match tget g.groups q with
      | some x => dropSlot (modGrid s gid fun g => { g with groups := tdel g.groups q }) g.ctx 2 x.slot
      | none => s) s
    modGrid { s with blocks := s.blocks.filter fun e => !(e.2.gid == gid && e.2.stage == .reserved) } gid
      fun g => { g with next := g.next - rs.length, lastCore := g.prevCore }

/-! ### Entry state (08 R124-R126) -/

/-- Lanes of strand `i` that exist. -/
def strandLanes (r : LRec) (i : Nat) : Word := maskOf fun l => 32 * i + l < laneCount r

def entryFrag (pc : Nat) (m : Word) : Frag := { pc := BitVec.ofNat 64 pc, m := m, em := m, bmask := m }

def strandEntry (bid : Nat) (g : Grid) (lin i : Nat) : Thread :=
  let r := g.lrec
  let m := strandLanes r i
  let (x, y, z) := blockXYZ r lin
  { bid := bid, idx := i, cc := false, nregs := r.regs, chk := r.chk, lanes := m, frags := [(0, entryFrag r.code m)]
    v := (lanesOf m).foldl (fun v l => sset v l (BitVec.ofNat 32 (32 * i + l))) []
    k := ssetList [] 0 ([r.argp, r.argp / 2 ^ 32, x, y, z, i, spLimit r, tsLimit r, g.count, g.count / 2 ^ 32].map (BitVec.ofNat 32 ·)) }

def contextEntry (bid : Nat) (g : Grid) (b : Block) : Thread :=
  let r := g.lrec
  let (x, y, z) := blockXYZ r b.lin
  { bid := bid, idx := 64, cc := true, nregs := 256, chk := r.chk, lanes := 1, frags := [(0, entryFrag r.ctrl 1)]
    v := ([r.argp, r.argp / 2 ^ 32, x, y, z, b.core % 8 * 2 ^ 29 + b.bslot * 2 ^ 23, tsLimit r].zip (List.range 7)).foldl
      (fun v e => sset v (32 * e.2) (BitVec.ofNat 32 e.1)) [] }

/-! ### Granules (07 R103, R104, 06 R88) -/

/-- The granules of a block's scratchpad and tile store. -/
def spGrans (b : Block) : List Nat := (b.gran.drop (regHeld b)).take b.need.sp
def tsGrans (b : Block) : List Nat := (b.gran.drop (regHeld b + b.need.sp)).take b.need.ts

/-- The bytes of a granule that the same launch held last: zero if Scarab has cleared it since, else as they were left. -/
def granBytes (s : State) (core gr : Nat) : Sparse 8 :=
  match tget s.granules (512 * core + gr) with
  | none => []
  | some x =>
    if x.use = 0 then ssetList [] 0 ((List.range 16384).map fun i => Config.residue s.freeCtr (512 * core + gr) i)
    else x.left

/-- The contents of granules, contiguous from offset 0. -/
def poolBytes (s : State) (core : Nat) (gs : List Nat) : Sparse 8 :=
  (gs.zip (List.range gs.length)).flatMap fun g => (granBytes s core g.1).map fun e => (16384 * g.2 + e.1, e.2)

/-- What a granule of a block holds when the block leaves it. -/
def leftBytes (bs : Sparse 8) (i : Nat) : Sparse 8 :=
  (bs.filter fun e => e.1 / 16384 == i).map fun e => (e.1 - 16384 * i, e.2)

/-- Granules pass to Scarab, in their order, unless they are queued already (07 R104). -/
def passGrans (s : State) (core : Nat) (gs : List Nat) : State :=
  let q := (tget s.scrubQ core).getD []
  let add := (dedup gs).filter (!q.contains ·)
  if add.isEmpty then s
  else
    let s := { s with scrubQ := tset s.scrubQ core (q ++ add) }
    if q.isEmpty then atTime s (s.time + 128 * clkDiv s core) (.scarabScrub core) else s

/-- A block leaves its granules (06 R88). A granule whose row was repaired while the block held it passes to Scarab (01 R17). -/
def leaveGrans (s : State) (b : Block) : State :=
  let ctx := ((tget s.grids b.gid).map (·.ctx)).getD 0
  let put (s : State) (use : Nat) (bs : Sparse 8) (gs : List Nat) : State :=
    (gs.zip (List.range gs.length)).foldl (fun s g =>
      { s with granules := tset s.granules (512 * b.core + g.1) { last := b.gid, ctx := ctx, use := use, left := leftBytes bs g.2 } }) s
  let s := put (put (put s 0 [] (b.gran.take (regHeld b))) 1 b.sp (spGrans b)) 2 b.ts (tsGrans b)
  let rows := b.gran.filter fun g => s.pkg.rowScrub.contains (512 * b.core + g)
  if rows.isEmpty then s
  else passGrans { s with pkg := { s.pkg with rowScrub := s.pkg.rowScrub.filter fun k => !(k / 512 == b.core && rows.contains (k % 512)) } } b.core rows

/-- Granules that are not clean pass to Scarab. -/
def queueScrub (s : State) (core : Nat) (gs : List Nat) : State :=
  passGrans s core (gs.filter fun g => (tget s.granules (512 * core + g)).isSome)

/-- A granule of the block waits for Scarab. -/
def scrubPending (s : State) (b : Block) : Bool := b.gran.any fun g => ((tget s.scrubQ b.core).getD []).contains g

/-- The granules no longer belong to what held them before. -/
def claimGrans (s : State) (b : Block) : State :=
  { s with granules := s.granules.filter fun e => !(e.1 / 512 == b.core && b.gran.contains (e.1 % 512)) }

/-- The context of a block's grid is stopped (10 R174, 01 R14). -/
def ctxStopped (s : State) (b : Block) : Bool :=
  ((tget s.grids b.gid).bind fun g => (tget s.ctxs g.ctx).map (·.stopped)).getD false

/-- Every strand, and the control context, is ready in its entry state (06 R88); each starts with an acquire (04 R62, 09 R158). In a
context that is stopped none issues (10 R174). That a block counts as placed (06 R97, R93) when it starts to run here, after its scrub,
and not when its resources are taken, is the model's choice (notes/assumptions/60.md). -/
def runBlock (s : State) (bid : Nat) : State :=
  match tget s.blocks bid with
  | none => s
  | some b => match tget s.grids b.gid with
    | none => s
    | some g =>
      let sp := poolBytes s b.core (spGrans b)
      let ts := poolBytes s b.core (tsGrans b)
      let stop := ctxStopped s b
      let s := dropL1 (claimGrans (tick s) b) b.core
      let s := modBlock s bid fun b => { b with stage := .running, sp := sp, ts := ts, placedAt := s.time }
      let ths := (List.range b.nstr).foldl (fun t i => tset t (bid * 128 + i) { strandEntry bid g b.lin i with stopped := stop }) s.threads
      let ths := if g.lrec.ctrl != 0 then tset ths (bid * 128 + 64) { contextEntry bid g b with stopped := stop } else ths
      let s := { s with threads := ths }
      if hasGroups g.lrec then startGroup s b.gid g (groupIdx g.lrec b.lin) else s

/-! ### Waking the distributor -/

/-- The distributor goes on at once: to look at a launch whose next block fits nowhere takes no time (06 R90). -/
def kickNow (s : State) (pid : Nat) : State :=
  if s.timers.any fun t => t.2 == .event (.blockPlace pid) then s else atTime s s.time (.blockPlace pid)

/-- Resources of a partition have come free on clusters: the partitions that share them try again. -/
def freedOn (s : State) (pid : Nat) (cls : List Nat) : State :=
  (s.parts.filter fun e => e.1 == pid || cls.any (e.2.clusters.contains ·)).foldl (fun s e => freed s e.1) s

/-- A block of a context has left a core: so do those that wait for an arena of the context. -/
def freedBy (s : State) (b : Block) (ctx : Nat) : State := slotsBack (freedOn s b.part [b.core / 8]) ctx

/-- Priority of what an open gang transaction places; a restore that goes before every other placement is never outranked (05 R81). -/
def gangPrio (s : State) (p : Part) (g : Bool × Nat) : Nat :=
  let first (why : Nat) : Bool := why == 1 || why == 6
  if g.1 then
    if (p.backs.head?.bind fun b => tget s.blocks b).any fun b => first b.why then 8 else ((tget s.grids g.2).map (·.prio)).getD 8
  else ((tget s.nests g.2).map fun x => if x.saved && first x.why then 8 else x.prio).getD 8

/-- A launch arrives in a partition: one of higher priority than an open gang transaction aborts it at once (06 R95). -/
def arrived (s : State) (pid prio : Nat) : State :=
  let s := kick s pid
  match (tget s.parts pid).bind fun p => if p.committed then none else p.gang.map fun g => gangPrio s p g with
  | some k => if prio > k then atTime s s.time (.gangAbort pid) else s
  | none => s

/-- A launch enters the distributor (06 R91). -/
def enterGrid (s : State) (gid : Nat) : State :=
  match tget s.grids gid with
  | none => s
  | some g => arrived (modGrid s gid fun g => { g with entered := true }) g.part g.prio

end Sys2Proof.Machine
end

