-- ==== Sys2Proof/Machine/Net.lean ====
section
/-! DEFINITION. The network engine: work requests, delivery contexts, sending, receiving, loss and completion
(02 R34-R48, R406, R407). -/
namespace Sys2Proof.Machine

/-! ### Work requests (02 R38) -/

def wrField (wr : List Byte) (lo n : Nat) : Nat := leNat ((wr.drop lo).take n)
def wrOpc (wr : List Byte) : Nat := wrField wr 0 1
def wrRod (wr : List Byte) : Bool := (wrField wr 1 1).testBit 0
def wrRcen (wr : List Byte) : Bool := (wrField wr 1 1).testBit 1
def wrTss (wr : List Byte) : Bool := (wrField wr 1 1).testBit 4
/-- Bytes of payload per packet; 0 if the code is reserved. -/
def wrMtu (wr : List Byte) : Nat :=
  match bitsOf (wrField wr 1 1) 3 2 with
  | 0 => 1024 | 1 => 2048 | 2 => 4096 | _ => 0
def wrPort (wr : List Byte) : Nat := wrField wr 3 1
def wrDest (wr : List Byte) : Nat := wrField wr 20 6
def wrRctr (wr : List Byte) : Nat := wrField wr 26 2
def wrMsgid (wr : List Byte) : Nat := wrField wr 28 4
def wrLen (wr : List Byte) : Nat := wrField wr 32 4
def wrRkey (wr : List Byte) : Nat := wrField wr 36 4
def wrRaddr (wr : List Byte) : Nat := wrField wr 40 8
def wrLbuf (wr : List Byte) : Nat := wrField wr 48 8
def wrLctr (wr : List Byte) : Nat := wrField wr 56 8

/-- The request breaks no rule (02 R46 `BADWR`). -/
def wrOk (wr : List Byte) : Bool :=
  (wrOpc wr == 1 || wrOpc wr == 2) && bitsOf (wrField wr 1 1) 7 5 == 0 && wrMtu wr != 0 && wrField wr 2 1 < 8
    && (wrPort wr < 8 || wrPort wr == 0xFF) && ((wr.drop 4).take 16).all (· == 0) && 1 ≤ wrLen wr && wrLen wr ≤ 2 ^ 30
    && (wrOpc wr == 2 || wrRaddr wr == 0) && wrLctr wr % 8 == 0

/-- The valid address-resolution entry of an endpoint (02 R36, R37). -/
def resolve (cx : Ctx) (dest : Nat) : Option (List Byte) :=
  (cx.net.addrs.find? fun e => (wrField e.2 8 1).testBit 0 && wrField e.2 0 6 == dest).map Prod.snd

/-- The security association that an entry names exists. -/
def hasSa (cx : Ctx) (ent : List Byte) : Bool :=
  wrField ent 36 4 != 0xFFFFFFFF && (tget cx.net.sas (wrField ent 36 4)).isSome

/-- SPI and SDI of the association that protects the packets of a request, by the tables as they are when a packet goes out
(02 R37). -/
def saOf (s : State) (ctx : Nat) (wr : List Byte) : Option (Word × Word) :=
  if !wrTss wr then none
  else (tget s.ctxs ctx).bind fun cx => (resolve cx (wrDest wr)).bind fun e => (tget cx.net.sas (wrField e 36 4)).map fun r =>
    (BitVec.ofNat 32 (wrField r 4 4), BitVec.ofNat 32 (wrField r 0 4))

/-- What becomes of a request at issue: 2 `BADWR`, 3 `NOROUTE`, else 1. -/
def wrCode (s : State) (ctx : Nat) (wr : List Byte) : Nat :=
  if !wrOk wr then 2
  else match (tget s.ctxs ctx).bind fun cx => (resolve cx (wrDest wr)).map fun e => (cx, e) with
    | none => 3
    | some (cx, e) => if wrTss wr && !hasSa cx e then 3 else 1

def packets (wr : List Byte) : Nat := (wrLen wr + wrMtu wr - 1) / wrMtu wr

/-! ### Statistics (02 R48) -/

/-- Add to a statistics field, at an offset of the record; `tag` is the QTAG of the work (02 R27). -/
def statAdd (s : State) (ctx off n tag : Nat) (own : Option Nat := none) : State :=
  match tget s.ctxs ctx with
  | some cx => if cx.net.stats = 0 || n = 0 then s else startJob s ctx { ops := [.add (cx.net.stats + off) n], queue := none, tag := tag, owner := own }
  | none => s

/-! ### Sending (02 R35, R40, R44) -/

def modPdc (s : State) (p : Nat) (f : Pdc → Pdc) : State := { s with net := { s.net with pdcs := tmod s.net.pdcs p f } }
def modMsg (s : State) (m : Nat) (f : Msg → Msg) : State := { s with net := { s.net with msgs := tmod s.net.msgs m f } }

/-- The open delivery context of a context, an endpoint and a mode. -/
def pdcOf (s : State) (ctx dest : Nat) (rod : Bool) : Option (Nat × Pdc) :=
  tfind s.net.pdcs fun _ p => p.ctx == ctx && p.peer == dest && p.rod == rod

/-- A message takes its delivery context and its packet sequence numbers, or waits for a context to close. -/
def assignPdc (s : State) (m : Nat) : State :=
  match tget s.net.msgs m with
  | none => s
  | some x =>
    let tag := ((tget s.cmds x.cmd).map (·.qslot)).getD 0
    match pdcOf s x.ctx (wrDest x.wr) (wrRod x.wr) with
    | some (p, d) =>
      let s := modMsg s m fun x => { x with pdc := some p, first := d.next }
      after (modPdc s p fun d => { d with next := d.next + BitVec.ofNat 32 x.total, used := s.time, tags := tag :: d.tags.filter (· != tag) }) (.uePacketTransmit m)
    | none =>
      if s.net.pdcs.length ≥ 16384 then s
      else
        let p := s.nextId
        let psn := Config.firstPsn p
        let d : Pdc := { ctx := x.ctx, peer := wrDest x.wr, rod := wrRod x.wr, first := psn, next := psn + BitVec.ofNat 32 x.total, used := s.time, tags := [tag] }
        let s := newId s
        let s := { s with net := { s.net with pdcs := tset s.net.pdcs p d } }
        after (modMsg s m fun x => { x with pdc := some p, first := psn }) (.uePacketTransmit m)

/-- A network command starts (02 R39). -/
def netStart (s : State) (cid : Nat) (c : Cmd) : State :=
  let m := s.nextId
  let x : Msg := { cmd := cid, ctx := c.ctx, wr := c.desc, total := packets c.desc }
  let s := newId s
  let s := { s with net := { s.net with msgs := tset s.net.msgs m x } }
  assignPdc (modCmd s cid fun c => { c with msg := some m }) m

/-- A port is ready (03 R52). -/
def portReady (s : State) (n : Nat) : Bool := ((tget s.net.ports n).map (·.up)).getD false

/-- The port that a packet takes: the fixed one, or one of the resolved set; only a port that is ready, and none while there is
none (02 R40, 03 R53). -/
def portOf (s : State) (ctx : Nat) (wr : List Byte) (psn : Word) : Option Nat :=
  if wrPort wr < 8 then (if portReady s (wrPort wr) then some (wrPort wr) else none)
  else
    let set := (((tget s.ctxs ctx).bind fun cx => resolve cx (wrDest wr)).map fun e => wrField e 9 1).getD 0
    let ps := (List.range 8).filter fun i => set.testBit i && portReady s i
    ps[Config.sprayPort s.freeCtr psn.toNat % max 1 ps.length]?

/-- The packet of a message with a PSN, its data, its QTAG and its entropy value given. -/
def uePacket (x : Msg) (p : Nat) (d : Pdc) (psn : Word) (data : List Byte) (qtag ent : Nat) : UePkt :=
  { src := 0, ctx := d.ctx, pdc := p, rod := d.rod, psn := psn, start := d.first, first := x.first, count := x.total, opc := wrOpc x.wr,
    rkey := BitVec.ofNat 32 (wrRkey x.wr), raddr := BitVec.ofNat 64 (wrRaddr x.wr), off := (psn - x.first).toNat * wrMtu x.wr,
    len := wrLen x.wr, msgid := BitVec.ofNat 32 (wrMsgid x.wr), rcen := wrRcen x.wr, rctr := wrRctr x.wr, data := data,
    qtag := qtag, ent := ent }

/-- A delivery context with nothing outstanding closes after 2^21 cycles (02 R35). -/
def idleCheck (s : State) (p : Nat) : State :=
  match tget s.net.pdcs p with
  | some d => if d.out.isEmpty then atTime (modPdc s p fun d => { d with used := s.time }) (s.time + 2 ^ 21) (.pdcIdleClose p) else s
  | none => s

/-- A skip notice goes out (02 R407): a message's first and last PSN. -/
def emitSkip (s : State) (p : Nat) (d : Pdc) (first last : Word) : State :=
  { s with net := { s.net with skipOut := s.net.skipOut ++ [(d.peer, { src := 0, ctx := d.ctx, pdc := p, rod := d.rod, first := first, last := last, start := d.first })] } }

/-- The steps of a finished message, in the order of R45. One that has its PSNs and fails leaves no gap, whether a packet of it was sent
or not (02 R407). -/
def netFinish (s : State) (m code : Nat) : State :=
  match tget s.net.msgs m with
  | none => s
  | some x =>
    let s := { s with net := { s.net with msgs := tdel s.net.msgs m } }
    let cmd := tget s.cmds x.cmd
    let own := cmd.bind (cmdQueue s)
    let tag := (cmd.map (·.qslot)).getD 0
    let s := finishCmd s x.cmd code
    let lctr := wrLctr x.wr
    let s := if lctr != 0 && lctr % 8 == 0 then
        startJob s x.ctx { ops := [if code = 0 then .add lctr 1 else .fail lctr], queue := none, tag := tag,
                           owner := own, cluster := cmd.map (·.cluster) }
      else s
    let s := statAdd s x.ctx 0 1 tag own
    match x.pdc with
    | none => s
    | some p =>
      let s := modPdc s p fun d => { d with out := d.out.filter fun o => o.msg != m }
      if code = 0 || code = 4 || x.total = 0 then idleCheck s p
      else match tget s.net.pdcs p with
        | none => s
        | some d =>
          let last := x.first + BitVec.ofNat 32 (x.total - 1)
          let s := modPdc s p fun d => { d with
            out := d.out ++ [{ psn := last, msg := m, notice := true, deadline := s.time + 102400, ord := d.ntx, from' := x.first }]
            ntx := d.ntx + 1 }
          let s := emitSkip s p d x.first last
          atTime s (s.time + 102400) (.retransmitTimeout p last.toNat)

/-- A command refused at issue (02 R45, R46). -/
def netRefuse (s : State) (cid code : Nat) : State :=
  match tget s.cmds cid with
  | none => s
  | some c =>
    let m := s.nextId
    let s := newId s
    netFinish { s with net := { s.net with msgs := tset s.net.msgs m { cmd := cid, ctx := c.ctx, wr := c.desc, total := 0 } } } m code

/-- Read the bytes of a packet; LCTR must translate too (02 R39). -/
def pktBytes (s : State) (x : Msg) (c : Cmd) (i : Nat) : State × Got :=
  let off := i * wrMtu x.wr
  let n := min (wrMtu x.wr) (wrLen x.wr - off)
  let read (s : State) : State × Got := engRead x.cmd c 200 s (wrLbuf x.wr + off) n
  if wrLctr x.wr = 0 then read s
  else match engTranslate s c.ctx (wrLctr x.wr) .write (cmdUnit c) with
    | (s, .error .stall) => (s, .wait)
    | (s, .error .link) => (s, .down)
    | (s, .error e) => (s, .err e (wrLctr x.wr))
    | (s, .ok _) => read s

/-- A replayable fault of an engine command: posted once, and the command waits (02 R39, 10 R175). -/
def cmdFault (s : State) (cid : Nat) (c : Cmd) (e : TErr) (va : Nat) : State :=
  let id := s.nextId
  modCmd (postRec s c.ctx { faultRec s e va 0 2 with ev := evOf s c.gid }) cid fun c => { c with recs := c.recs ++ [id] }

/-- A link machine check of a command's issuing strand (02 R31). -/
def cmdDown (s : State) (c : Cmd) : State :=
  linkCheck s { tid := c.tid, tok := 0, d := 0, lane := 0, width := 0, kind := 4, op := 0x27F + c.kind }

/-- A packet goes out on a port, with an entropy value (02 R40). -/
def emitUe (s : State) (x : Msg) (p : Nat) (d : Pdc) (c : Cmd) (psn : Word) (port : Nat) (bs : List Byte) : State :=
  let pk := { uePacket x p d psn bs c.qslot (Config.sprayEntropy s.freeCtr psn.toNat) with sa := saOf s x.ctx x.wr }
  let s := tick s
  { s with net := { s.net with out := s.net.out ++ [(port, d.peer, pk)] } }

/-- What a failing read of a packet does, other than to wait. An LBUF that fails checks 1-4 of R138 while the command runs ends it with 12,
the `BADADDR` of 18 R350, a status that 02 R46 does not list (model's choice, notes/assumptions/59.md). -/
def sendFails (s : State) (m : Nat) (x : Msg) (c : Cmd) (g : Got) : State :=
  match g with
  | .err e va => cmdFault s x.cmd c e va
  | .bad => netFinish s m 12
  | .down => netFinish (cmdDown s c) m 9
  | _ => s

/-- Send packet `i` of a message for the first time. -/
def sendPacket (s : State) (m : Nat) (x : Msg) (p : Nat) (d : Pdc) (c : Cmd) (i port : Nat) : State :=
  match pktBytes s x c i with
  | (s, .wait) => atTime (tick s) (s.time + 1 + Config.delay s.freeCtr) (.uePacketTransmit m)
  | (s, .bytes bs) =>
    let psn := x.first + BitVec.ofNat 32 i
    let s := emitUe s x p d c psn port bs
    let s := modPdc s p fun d => { d with
      used := s.time
      ntx := d.ntx + 1
      out := d.out ++ [{ psn := psn, msg := m, deadline := s.time + 102400, ord := d.ntx }] }
    let s := modMsg s m fun x => { x with sent := i + 1 }
    statAdd (atTime s (s.time + 102400) (.retransmitTimeout p psn.toNat)) x.ctx 8 1 c.qslot (cmdQueue s c)
  | (s, g) => sendFails s m x c g

/-- The engine sends the next packet of a running command (02 R40); while no port for it is ready, it waits (03 R53). -/
def execUePacketTransmit (m : Nat) (s : State) : Out :=
  match tget s.net.msgs m with
  | none => .next s
  | some x => match x.pdc, tget s.cmds x.cmd with
    | none, _ => .next (assignPdc s m)
    | some p, some c => match tget s.net.pdcs p with
      | none => .next s
      | some d =>
        if !c.recs.isEmpty || x.sent ≥ x.total then .next s
        else match portOf s x.ctx x.wr (x.first + BitVec.ofNat 32 x.sent) with
          | none => .next s
          | some port =>
            let s := sendPacket s m x p d c x.sent port
            .next (match tget s.net.msgs m with
              | some y => if y.sent > x.sent && y.sent < y.total then after s (.uePacketTransmit m) else s
              | none => s)
    | _, none => .next s

/-- A PSN lies before another, modulo 2^32. -/
def psnBefore (a b : Word) : Bool := a != b && (b - a).toNat < 2 ^ 31

/-- The timer of a packet runs out at a time. -/
def dueAgain (s : State) (p : Nat) (o : OutPkt) (at' : Nat) : State :=
  let s := modPdc s p fun d => { d with
    out := d.out.map fun q => if q.psn == o.psn && q.notice == o.notice then { q with deadline := at' } else q }
  atTime s at' (.retransmitTimeout p o.psn.toNat)

/-- Messages that wait for a delivery context look for one. -/
def freePdcs (s : State) : State := (s.net.msgs.filter fun e => e.2.pdc.isNone).foldl (fun s e => assignPdc s e.1) s

/-- A delivery context closes: a message of it that has sent nothing takes another; one whose packets can no longer be acknowledged
has lost them (02 R35, R407, notes/assumptions/51.md). -/
def closePdc (s : State) (p : Nat) : State :=
  let s := { s with net := { s.net with pdcs := tdel s.net.pdcs p } }
  let mine := s.net.msgs.filter fun e => e.2.pdc == some p
  let s := mine.foldl (fun s e => if e.2.sent = 0 then modMsg s e.1 fun x => { x with pdc := none } else netFinish s e.1 6) s
  freePdcs s

/-- A packet goes out again, unless its command waits on a fault: then when that is served. -/
def resend (s : State) (p : Nat) (d : Pdc) (o : OutPkt) (x : Msg) (c : Cmd) : State :=
  if !c.recs.isEmpty then modPdc s p fun d => { d with out := d.out.map fun q => if q.psn == o.psn && !q.notice then { q with deadline := s.time } else q }
  else match portOf s x.ctx x.wr o.psn with
    | none => dueAgain s p o (s.time + 102400)
    | some port => match pktBytes s x c (o.psn - x.first).toNat with
      | (s, .wait) => dueAgain (tick s) p o (s.time + 1 + Config.delay s.freeCtr)
      | (s, .bytes bs) =>
        let s := modPdc s p fun d => { d with
          ntx := d.ntx + 1
          out := d.out.map fun q =>
            if q.psn == o.psn && !q.notice then { q with
              tries := if q.again then q.tries else q.tries + 1
              again := false
              ord := d.ntx
              higher := 0 } else q }
        statAdd (dueAgain (emitUe s x p d c o.psn port bs) p o (s.time + 102400)) x.ctx 16 1 c.qslot (cmdQueue s c)
      | (s, g) =>
        sendFails (modPdc s p fun d => { d with
          out := d.out.map fun q => if q.psn == o.psn && !q.notice then { q with deadline := s.time } else q }) o.msg x c g

/-- A packet is lost, or its receiver was not ready: it is sent again, or its message fails at the eighth loss; a skip notice lost
eight times closes its delivery context (02 R44, R407). -/
def losePacket (s : State) (p : Nat) (o : OutPkt) : State :=
  match tget s.net.pdcs p with
  | none => s
  | some d =>
    if o.notice then
      if o.tries ≥ 7 then closePdc s p
      else
        let s := modPdc s p fun d => { d with
          ntx := d.ntx + 1
          out := d.out.map fun q => if q.psn == o.psn && q.notice then { q with tries := q.tries + 1, ord := d.ntx, higher := 0 } else q }
        dueAgain (emitSkip s p d o.from' o.psn) p o (s.time + 102400)
    else match tget s.net.msgs o.msg with
      | none => s
      | some x =>
        if o.tries ≥ 7 && !o.again then netFinish s o.msg 6
        else match tget s.cmds x.cmd with
          | none => s
          | some c => resend s p d o x c

/-- A packet's timer of 64 µs expires (02 R44). -/
def execRetransmitTimeout (pdc psn : Nat) (s : State) : Out :=
  match (tget s.net.pdcs pdc).bind fun d => d.out.find? fun o => o.psn.toNat == psn && !o.held && o.deadline ≤ s.time with
  | some o => .next (losePacket s pdc o)
  | none => .next s

/-- Messages of a delivery context whose every packet is acknowledged are done (02 R45). -/
def doneMsgs (s : State) (p : Nat) : State :=
  (s.net.msgs.filter fun e => e.2.pdc == some p && e.2.sent == e.2.total
      && !((tget s.net.pdcs p).map fun d => d.out.any fun o => o.msg == e.1).getD false).foldl
    (fun s e => netFinish s e.1 0) s

/-- A selective acknowledgement: every PSN below `cum`, and those that the bitmap names after it (02 R44). Under ROD the bitmap names
packets that may wait for their turn: they are not lost, and their message is done once `cum` is past them, so that a packet
refused when its turn comes still ends it (02 R37). -/
def execUeAckReceive (pdc cum : Nat) (bits : Dword) (s : State) : Out :=
  match tget s.net.pdcs pdc with
  | none => .next s
  | some d =>
    let c := BitVec.ofNat 32 cum
    let named (o : OutPkt) : Bool := psnBefore c o.psn && bits.getLsbD ((o.psn - c).toNat - 1) && (o.psn - c).toNat ≤ 64
    let acked (o : OutPkt) : Bool := psnBefore o.psn c || (!d.rod && named o)
    let got := d.out.filter fun o => !o.held && (acked o || named o)
    let rest := (d.out.filter fun o => !acked o).map fun o => { o with
      held := o.held || named o
      higher := o.higher + (got.filter fun g => psnBefore o.psn g.psn && g.ord > o.ord).length }
    let s := modPdc s pdc fun d => { d with out := rest }
    let s := (rest.filter fun o => !o.held && o.higher ≥ 3).foldl (fun s o => losePacket s pdc o) s
    .next (idleCheck (doneMsgs s pdc) pdc)

/-- A negative acknowledgement (02 R407). -/
def execUeNakReceive (m : Nat) (s : State) : Out := .next (netFinish s m 4)

/-- The receiver has no free slot: the message's packets go out again after 64 µs, and after 256 such answers it fails (02 R43). -/
def execUeNotReadyRetry (m : Nat) (s : State) : Out :=
  match tget s.net.msgs m with
  | none => .next s
  | some x =>
    let s := statAdd s x.ctx 48 1 (((tget s.cmds x.cmd).map (·.qslot)).getD 0)
    if x.nready + 1 ≥ 256 then .next (netFinish s m 5)
    else
      let s := modMsg s m fun x => { x with nready := x.nready + 1 }
      match x.pdc.bind fun p => (tget s.net.pdcs p).map fun d => (p, d) with
      | none => .next s
      | some (p, d) =>
        let mine (o : OutPkt) : Bool := o.msg == m && !o.notice
        let s := modPdc s p fun d => { d with
          out := d.out.map fun o => if mine o then { o with again := true, held := false, deadline := s.time + 102400 } else o }
        .next ((d.out.filter mine).foldl (fun s o => atTime s (s.time + 102400) (.retransmitTimeout p o.psn.toNat)) s)

/-- A delivery context idle for 2^21 cycles closes; a message that waits for one goes on (02 R35, R407). -/
def execPdcIdleClose (pdc : Nat) (s : State) : Out :=
  match tget s.net.pdcs pdc, tget s.net.rpdcs pdc with
  | some d, _ =>
    if !d.out.isEmpty || s.net.msgs.any (fun e => e.2.pdc == some pdc) || s.time < d.used + 2 ^ 21 then .next s
    else
      .next (closePdc s pdc)
  | none, some d =>
    if s.time < d.used + 2 ^ 21 then .next s
    else .next { s with net := { s.net with rpdcs := tdel s.net.rpdcs pdc, rmsgs := s.net.rmsgs.filter fun m => m.pdc != pdc } }
  | none, none => .next s

/-! ### Receiving (02 R41-R43, R407) -/

def modRPdc (s : State) (p : Nat) (f : RPdc → RPdc) : State := { s with net := { s.net with rpdcs := tmod s.net.rpdcs p f } }
def answer (s : State) (a : UeAns) : State := { s with net := { s.net with answers := s.net.answers ++ [a] } }

/-- The receiver's delivery context of a packet, opened at its first packet. -/
def rpdcOf (s : State) (ctx src pdc : Nat) (rod : Bool) (start : Word) : State × Nat :=
  match tfind s.net.rpdcs fun _ p => p.ctx == ctx && p.src == src && p.pdc == pdc with
  | some (p, _) => (atTime (modRPdc s p fun d => { d with used := s.time }) (s.time + 2 ^ 21) (.pdcIdleClose p), p)
  | none =>
    let p := s.nextId
    let s := newId s
    let s := { s with net := { s.net with rpdcs := tset s.net.rpdcs p { ctx := ctx, src := src, pdc := pdc, rod := rod, next := start, used := s.time } } }
    (atTime s (s.time + 2 ^ 21) (.pdcIdleClose p), p)

/-- The receive key that a packet names, if it is valid (02 R37): its 64 bytes. -/
def keyOf (cx : Ctx) (rkey : Word) : Option (List Byte) :=
  (tget cx.net.keys (rkey.toNat % 4096)).bind fun r =>
    if (wrField r 16 1).testBit 7 && wrField r 20 4 == rkey.toNat / 4096 then some r else none

/-- No byte of a range lies in the arena window. -/
def outsideArena (va n : Nat) : Bool := va + n ≤ 0xAE * 2 ^ 56 || va ≥ 0xAF * 2 ^ 56

/-- The checks of R41; the key if they pass. -/
def rxCheck (cx : Ctx) (pk : UePkt) : Option (List Byte) :=
  match keyOf cx pk.rkey with
  | none => none
  | some r =>
    let lo := pk.raddr.toNat + pk.off
    let ok := if pk.opc = 2 then (wrField r 16 1).testBit 0 && wrField r 0 8 ≤ lo && lo + pk.data.length ≤ wrField r 0 8 + wrField r 8 8
          && outsideArena lo pk.data.length
        else (wrField r 16 1).testBit 1 && pk.len ≤ wrField r 36 4
    if ok && (!pk.rcen || pk.rctr < 4096) then some r else none

def rmsgOf (s : State) (p : Nat) (first : Word) : RMsg := (s.net.rmsgs.find? fun m => m.pdc == p && m.first == first).getD { pdc := p, first := first }
def setRmsg (s : State) (m : RMsg) : State :=
  { s with net := { s.net with rmsgs := m :: s.net.rmsgs.filter fun x => !(x.pdc == m.pdc && x.first == m.first) } }
def dropRmsg (s : State) (p : Nat) (first : Word) : State :=
  { s with net := { s.net with rmsgs := s.net.rmsgs.filter fun x => !(x.pdc == p && x.first == first) } }

/-- What placing a packet comes to. -/
inductive Placing where
  | placed (s : State)
  | refused (s : State)
  | notReady (s : State)
deriving DecidableEq, Repr

/-- A slot that another message holds, or whose status entry has still to be written or read (02 R43, 10 R405). -/
def slotHeld (s : State) (ctx : Nat) (cx : Ctx) (key j st : Nat) : Bool :=
  s.net.rmsgs.any (fun m => m.ctx == ctx && m.key == key && m.slot == some j)
    || cx.jobs.any fun x => x.ops.any fun op => match op with
      | .store va _ => va == st
      | .lenRead va => va == st + 4
      | _ => false

/-- The slot of a SEND: its message's, or the next one of the ring if it is free (02 R43). A failing read of its LEN word waits for
the host, and until it succeeds the slot is not free. -/
def takeSlot (s : State) (ctx tag : Nat) (cx : Ctx) (key : Nat) (r : List Byte) (m : RMsg) : State × Option Nat :=
  match m.slot with
  | some j => (s, some j)
  | none =>
    let n := wrField r 32 4
    let j := ((tget cx.net.ringNext key).getD 0) % max 1 n
    let st := wrField r 40 8 + 16 * j
    if slotHeld s ctx cx key j st then (s, none)
    else match readVa s ctx (st + 4) 4 tag with
      | (s, .error .link) => (devLinkCheck s ctx, none)
      | (s, .error e) => (if e.replays then startJob s ctx { ops := [.lenRead (st + 4)], queue := none, tag := tag } else s, none)
      | (s, .ok bs) =>
        if leNat bs != 0 then (s, none)
        else (modCtx s ctx fun cx => { cx with net := { cx.net with ringNext := tset cx.net.ringNext key (j + 1) } }, some j)

/-- The cluster from which this package's own engine sent a packet that it now receives (07 R115). -/
def loopCluster (s : State) (pk : UePkt) : Option Nat :=
  ((tget s.net.pdcs pk.pdc).bind fun d => d.out.find? fun o => o.psn == pk.psn && !o.notice).bind fun o =>
    (tget s.net.msgs o.msg).bind fun x =>
      if x.first == pk.first && x.total == pk.count && wrRaddr x.wr == pk.raddr.toNat && wrLen x.wr == pk.len then
        (tget s.cmds x.cmd).map (·.cluster)
      else none

/-- Write the bytes of a packet; a page that does not translate leaves it unplaced and unacknowledged: an ENGINE record is posted and the
receiver is not ready (02 R42 gives nothing for it; model's choice, notes/assumptions/59.md). One of another package with no flow
ends in the link machine check (02 R26). -/
def placeBytes (s : State) (ctx tag : Nat) (cl : Option Nat) : (fuel : Nat) → (va : Nat) → List Byte → Except State State
  | 0, _, _ => .ok s
  | f + 1, va, bs =>
    if bs.isEmpty then .ok s
    else
      let k := min bs.length (4096 - va % 4096)
      match devWrite s ctx tag cl va (bs.take k) with
      | .error (.link, _) => .error (devLinkCheck s ctx)
      | .error (e, va) => .error (if e.replays then postRec s ctx (faultRec s e va 0 2) else s)
      | .ok s => placeBytes s ctx tag cl f (va + k) (bs.drop k)

/-- A message is complete: its status entry, then its counter (02 R42, R43). -/
def rxComplete (s : State) (ctx : Nat) (cx : Ctx) (pk : UePkt) (r : List Byte) (m : RMsg) : State :=
  let st := match m.slot with
    | some j => [DevOp.store (wrField r 40 8 + 16 * j) (leBytes pk.msgid.toNat 4 ++ leBytes pk.len 4 ++ leBytes pk.src 8)]
    | none => []
  let ct := if pk.rcen && cx.net.ctrBase != 0 then [DevOp.add (cx.net.ctrBase + 8 * pk.rctr) 1] else []
  let s := dropRmsg s m.pdc m.first
  let s := if st.isEmpty && ct.isEmpty then s else startJob s ctx { ops := st ++ ct, queue := none, tag := pk.qtag, cluster := loopCluster s pk }
  statAdd s ctx 24 1 pk.qtag

/-- Place one packet (02 R41-R43). -/
def placePkt (s : State) (p : Nat) (pk : UePkt) : Placing :=
  match tget s.ctxs pk.ctx with
  | none => .refused s
  | some cx => match rxCheck cx pk with
    | none => .refused s
    | some r =>
      let m := rmsgOf s p pk.first
      match (if pk.opc = 2 then (s, some 0) else takeSlot s pk.ctx pk.qtag cx (pk.rkey.toNat % 4096) r m) with
      | (s, none) => .notReady s
      | (s, some j) =>
        let va := if pk.opc = 2 then pk.raddr.toNat + pk.off else wrField r 24 8 + wrField r 36 4 * j + pk.off
        let m := { m with slot := if pk.opc = 2 then none else some j, ctx := pk.ctx, key := pk.rkey.toNat % 4096 }
        match placeBytes (setRmsg s m) pk.ctx pk.qtag (loopCluster s pk) 4 va pk.data with
        | .error s => .notReady s
        | .ok s =>
          let m := { m with got := m.got ++ [pk.psn] }
          let s := statAdd (setRmsg s m) pk.ctx 32 1 pk.qtag
          if m.got.length ≥ pk.count then .placed (rxComplete s pk.ctx cx pk r m) else .placed s

/-- The PSNs from one to another. -/
def psnRange (first : Word) (n : Nat) : List Word := (List.range n).map fun i => first + BitVec.ofNat 32 i

/-- A PSN is placed or skipped, as far as the lists tell. -/
def psnTaken (d : RPdc) (x : Word) : Bool := d.got.contains x || d.skipped.contains x

/-- Past the PSNs that are placed or skipped; what the lists no longer need goes, so that a PSN may come again after 2^32 others. -/
def advRPdc : (fuel : Nat) → RPdc → RPdc
  | 0, d => d
  | f + 1, d =>
    if psnTaken d d.next then
      let n := d.next + 1
      advRPdc f { d with next := n, got := d.got.filter fun x => !psnBefore x n, skipped := d.skipped.filter fun x => (n - x).toNat ≤ 2 ^ 30 || psnBefore n x }
    else d

def advanceRx (s : State) (p : Nat) : State := modRPdc s p fun d => advRPdc (d.got.length + d.skipped.length + 1) d

/-- The acknowledgement: every PSN below `next` is placed or skipped, and the bitmap of the 64 that follow it names those that the
receiver has, under ROD also one held for its turn (02 R44). -/
def ackOf (s : State) (p : Nat) : State :=
  match tget s.net.rpdcs p with
  | none => s
  | some d =>
    let bits := (List.range 64).foldl (fun (b : Dword) i =>
      if psnTaken d (d.next + 1 + BitVec.ofNat 32 i) || d.held.any (·.psn == d.next + 1 + BitVec.ofNat 32 i) then b ||| BitVec.ofNat 64 (2 ^ i) else b) 0
    answer s (.ack d.src d.ctx d.pdc d.next bits)

/-- PSNs are marked as skipped; the message that they belong to never completes (02 R407). -/
def skipPsns (s : State) (p : Nat) (first : Word) (n : Nat) : State :=
  let s := modRPdc s p fun d => { d with skipped := d.skipped ++ (psnRange first n).filter fun x => !d.skipped.contains x }
  advanceRx (dropRmsg s p first) p

/-- Place a packet and answer it. -/
def rxOne (s : State) (p : Nat) (pk : UePkt) : State :=
  match placePkt s p pk with
  | .placed s => ackOf (advanceRx (modRPdc s p fun d => { d with got := d.got ++ [pk.psn] }) p) p
  | .refused s => answer (skipPsns s p pk.first pk.count) (.nak pk.src pk.ctx pk.pdc pk.first)
  | .notReady s => answer s (.notReady pk.src pk.ctx pk.pdc pk.first)

/-- Under ROD, packets whose turn has come are placed in PSN order; skipped PSNs count as placed (02 R42). -/
def rxDrain (p : Nat) : (fuel : Nat) → State → State
  | 0, s => s
  | f + 1, s =>
    let s := advanceRx s p
    match tget s.net.rpdcs p with
    | none => s
    | some d => match d.held.find? fun k => k.psn == d.next with
      | none => s
      | some k =>
        let s := rxOne (modRPdc s p fun d => { d with held := d.held.filter fun x => x.psn != k.psn }) p k
        match tget s.net.rpdcs p with
        | some d' => if d'.next == d.next then s else rxDrain p f s
        | none => s

/-- A received packet is checked and placed (02 R41, R42); one of a purged QTAG is discarded (04 R74). -/
def execUePacketReceive (pk : UePkt) (s : State) : Out :=
  if (tget s.ctxs pk.ctx).isNone then .next (answer s (.nak pk.src pk.ctx pk.pdc pk.first))
  else
    let (s, p) := rpdcOf s pk.ctx pk.src pk.pdc pk.rod pk.start
    match tget s.net.rpdcs p with
    | none => .next s
    | some d =>
      if d.purged.contains pk.qtag || d.skipped.contains pk.psn then .next s
      else if psnBefore pk.psn d.next || d.got.contains pk.psn || d.held.any (·.psn == pk.psn) then .next (ackOf (statAdd s pk.ctx 40 1 pk.qtag) p)
      else if pk.rod then
        let s := rxDrain p (d.held.length + 2) (modRPdc s p fun d => { d with held := d.held ++ [pk] })
        .next (if ((tget s.net.rpdcs p).map fun d => d.held.any (·.psn == pk.psn)).getD false then ackOf s p else s)
      else .next (rxOne s p pk)

/-- A skip notice (02 R407); it opens a delivery context of which no packet has come. -/
def execSkipNotice (pk : UeSkip) (s : State) : Out :=
  if (tget s.ctxs pk.ctx).isNone then .next s
  else
    let (s, p) := rpdcOf s pk.ctx pk.src pk.pdc pk.rod pk.start
    let s := skipPsns s p pk.first ((pk.last - pk.first).toNat + 1)
    let s := modRPdc s p fun d => { d with held := d.held.filter fun k => k.first != pk.first }
    .next (ackOf (match tget s.net.rpdcs p with
      | some d => if d.rod then rxDrain p (d.held.length + 2) s else s
      | none => s) p)

/-- A purge marker of a QTAG from an endpoint: its packets that come later, and those held for their turn, are discarded, and the
marker is answered (04 R74). -/
def purgePdcs (s : State) (src qtag : Nat) : State :=
  (s.net.rpdcs.filter fun e => e.2.src == src).foldl (fun s e =>
    let s := modRPdc s e.1 fun d => { d with
      purged := if d.purged.contains qtag then d.purged else d.purged ++ [qtag]
      held := d.held.filter (·.qtag != qtag) }
    answer s (.purged src e.2.ctx e.2.pdc qtag)) s

/-! ### Ports (02 R406) -/

/-- A port's link changes; a change of its readiness raises vector 1 (03 R52). -/
def setPort (s : State) (n : Nat) (x : EthPort) : State :=
  if n < 8 then
    let was := ((tget s.net.ports n).map (·.up)).getD false
    let s := { s with net := { s.net with ports := tset s.net.ports n x } }
    if was != x.up then readyVec s else s
  else s

/-- Messages with packets still to be sent look at the ports again (03 R53). -/
def wakeMsgs (s : State) : State :=
  (s.net.msgs.filter fun e => e.2.pdc.isSome && e.2.sent < e.2.total).foldl (fun s e =>
    if s.timers.any fun t => t.2 == .event (.uePacketTransmit e.1) then s else atTime s s.time (.uePacketTransmit e.1)) s

/-- A port's link comes up (02 R406). -/
def execEthPortUp (port : Nat) (s : State) : Out := .next (wakeMsgs (setPort s port { up := true }))

/-- A port's link goes down or reports a fault (02 R406). -/
def execEthPortDown (port : Nat) (lf rf : Bool) (s : State) : Out := .next (setPort s port { up := false, lfault := lf, rfault := rf })

end Sys2Proof.Machine
end

