-- ==== Sys2Proof/Machine/Engine.lean ====
section
/-! DEFINITION. Class 0xA: engine commands, their graphs and their landing (18 R348-R358, 07 R108, 17 R325). -/
namespace Sys2Proof.Machine

/-! ### Issue -/

/-- Record a new command of the issuing grid: the state, its number and its handle (18 R348). -/
def newCmd (e : Env) (s : State) (c : Cmd) : State × Nat × Word :=
  let i := ((tget s.ctxs e.grid.ctx).map (·.cmdNo)).getD 1
  let c := { c with
    ctx := e.grid.ctx
    gid := e.blk.gid
    bid := e.th.bid
    index := i
    qslot := qtagOf s e.grid
    cluster := e.blk.core / 8
    st := if c.hold then 0 else 1
    tid := e.tid }
  let cid := s.nextId + 1
  let s := modCtx { s with nextId := s.nextId + 2, cmds := tset s.cmds cid c } e.grid.ctx fun cx =>
    { cx with cmdNo := if i + 1 ≥ 2 ^ 21 then 1 else i + 1 }
  (s, cid, BitVec.ofNat 32 (handleOf c))

def blankCmd (kind : Nat) (hold : Bool) : Cmd :=
  { kind := kind, ctx := 0, gid := 0, bid := 0, index := 0, qslot := 0, cluster := 0, st := 1, hold := hold }

def heldBit (f : FmtX) : Bool := f.imm.getLsbD 30

/-- The range-lock table of the cluster has room (17 R325). -/
def lockRoom (s : State) (cluster n : Nat) : Bool := (s.locks.filter (·.cluster == cluster)).length + n ≤ 256

/-- Register ranges for a command: low address, length, destination. -/
def addLocks (s : State) (cluster ctx cid : Nat) (rs : List (Nat × Nat × Bool)) : State :=
  { s with locks := s.locks ++ rs.map fun r => { cluster := cluster, ctx := ctx, lo := r.1, len := r.2.1, dst := r.2.2, cmd := cid } }

/-- A line is still empty for a command other than `cid` (07 R108). -/
def lineBusy (s : State) (bid : Nat) (b : Block) (cid line : Nat) : Bool :=
  b.empty.contains line && (s.cmds.any (fun c => c.1 != cid && c.2.bid == bid && c.2.st < 3 && (stillMarked c.2).contains line)
    || s.mxq.any (fun q => q.2.any fun c => c.tid == ctlThread bid && c.marked.contains line))

/-- Mark scratchpad lines empty for a command. -/
def markLines (s : State) (bid cid : Nat) (ls : List Nat) : State :=
  modCmd (emptyLines s bid ls) cid fun c => { c with marked := c.marked ++ ls.filter fun l => !c.marked.contains l }

/-- The 64-byte structure that A names (18 R349), for the rest of the instruction. -/
def withDesc (e : Env) (f : FmtX) (k : Env → List Byte → Act) : Act :=
  let o := (vreg e f.a.toNat (low e)).toNat
  if e.act == 0 then .done e.s []
  else if o % 64 != 0 then .trap 2 0 e.act o
  else if o + 64 > spLimit e.grid.lrec then .trap 3 0 e.act o
  else if (linesOf o 64).any (e.blk.empty.contains ·) then .wait e.s (.line e.th.bid (linesOf o 64))
  else onePass e (k e (spRead e.blk o 64))

/-- D in every active lane. -/
def giveHandle (e : Env) (f : FmtX) (s : State) (h : Word) : Act := .done s (wrD e false f.d fun _ => h)

/-- A command that breaks its rules finishes at once (18 R350). -/
def badWr (e : Env) (f : FmtX) (c : Cmd) : Act :=
  let (s, cid, h) := newCmd e e.s c
  giveHandle e f (finishCmd s cid 2) h

/-! ### CPY (18 R351) -/

/-- What one strand contributes. -/
structure CpyArg where
  src : Nat
  dst : Nat
  len : Nat
  ctr : Nat
deriving DecidableEq, Repr

def cpyArg (e : Env) (f : FmtX) : CpyArg :=
  let l := low e
  let q := immBits f 10 0
  if e.act == 0 then { src := 0, dst := 0, len := 0, ctr := 0 }
  else
    { src := if immBits f 29 28 = 1 then (vreg e f.a.toNat l).toNat else (vpair e f.a.toNat l).toNat
      dst := if immBits f 29 28 = 0 then (vreg e f.b.toNat l).toNat else (vpair e f.b.toNat l).toNat
      len := (vreg e q l).toNat
      ctr := (vpair e (q + 2) l).toNat }

/-- The open command of a tag that the strand may still join, or none. -/
def openTag (e : Env) (tag : Nat) : Option (Nat × Cmd) :=
  (tget e.blk.tags tag).bind fun cid => (tget e.s.cmds cid).bind fun c => if c.st < 2 then some (cid, c) else none

/-- CPY (18 R351). -/
def execCpy (h : Hdr) (f : FmtX) (s : State) : Out :=
  issue (.cpy h f) (fun e =>
    let dir := immBits f 29 28
    let tag := immBits f 27 20
    let a := cpyArg e f
    let sl : Slice := { src := { sp := dir == 1, at' := a.src }, dst := { sp := dir == 0, at' := a.dst }, len := a.len }
    let op := openTag e tag
    match op with
    | some (_, c) =>
      if c.issued.contains e.tid then .wait e.s .tag
      else if c.dir != dir || c.hold != heldBit f || (a.ctr != 0 && a.ctr != c.ctr) then .trap 1 0x280 e.act 0
      else go e f dir tag a sl op
    | none => go e f dir tag a sl op) s
where
  go (e : Env) (f : FmtX) (dir tag : Nat) (a : CpyArg) (sl : Slice) (op : Option (Nat × Cmd)) : Act :=
    let lim := spLimit e.grid.lrec
    let cl := e.blk.core / 8
    let lines := if dir = 0 then linesOf a.dst a.len else []
    let rs := if a.len = 0 then [] else
      (if dir = 1 then [] else [(a.src, a.len, false)]) ++ (if dir = 0 then [] else [(a.dst, a.len, true)])
    if a.len != 0 && dir = 0 && a.dst + a.len > lim then .trap 3 0 e.act a.dst
    else if a.len != 0 && dir = 1 && a.src + a.len > lim then .trap 3 0 e.act a.src
    else if lines.any (lineBusy e.s e.th.bid e.blk ((op.map Prod.fst).getD 0)) then
      .wait e.s (.line e.th.bid (lines.filter (lineBusy e.s e.th.bid e.blk ((op.map Prod.fst).getD 0))))
    else if !lockRoom e.s cl rs.length then .wait e.s .lock
    else match release e e.s 0x280 3 true none with
    | .error a => a
    | .ok s =>
      let (s, cid, hd) : State × Nat × Word := match op with
        | some (cid, c) => (s, cid, BitVec.ofNat 32 (handleOf c))
        | none => newCmd e s { blankCmd 1 (heldBit f) with dir := dir, tag := tag, ctr := a.ctr, full := false }
      let s := modBlock s e.th.bid fun b => { b with tags := tset b.tags tag cid }
      let s := modCmd s cid fun c => { c with
        issued := c.issued ++ [e.tid]
        slices := if a.len = 0 then c.slices else c.slices ++ [sl] }
      let s := addLocks (markLines s e.th.bid cid lines) cl e.grid.ctx cid rs
      giveHandle e f (tagCheck s e.th.bid) hd

/-! ### CPYT (18 R352) -/

/-- The fields of a tensor descriptor. -/
structure Tensor where
  dir : Nat
  es : Nat
  nd : Nat
  soff : Nat
  gbase : Nat
  ext : List Nat
  org : List Int
  stride1 : Nat
  stride2 : Nat
  box : List Nat
  pitch : Nat
  ctr : Nat
deriving DecidableEq, Repr

def s32 (x : Nat) : Int := (BitVec.ofNat 32 x).toInt

def parseTensor (d : List Byte) : Tensor :=
  { dir := fld d 0 1
    es := fld d 1 1
    nd := fld d 2 1
    soff := fld d 4 4
    gbase := fld d 8 8
    ext := [fld d 16 4, fld d 20 4, fld d 24 4]
    org := [s32 (fld d 28 4), s32 (fld d 32 4), s32 (fld d 36 4)]
    stride1 := fld d 40 4
    stride2 := fld d 44 4
    box := [fld d 48 2, fld d 50 2, fld d 52 2]
    pitch := fld d 54 2
    ctr := fld d 56 8 }

def tensorOk (d : List Byte) (t : Tensor) : Bool :=
  let e := 2 ^ t.es
  t.dir ≤ 1 && t.es ≤ 3 && (t.nd == 2 || t.nd == 3) && fld d 3 1 == 0 && t.soff % 4 == 0 && t.gbase % e == 0
    && t.ext.all (· ≥ 1) && t.stride1 % e == 0 && t.stride2 % e == 0
    && t.box.all (fun b => 1 ≤ b && b ≤ 256) && (t.nd == 3 || t.box.getD 2 1 == 1)
    && t.pitch % 4 == 0 && t.pitch ≥ t.box.getD 0 1 * e && t.ctr % 8 == 0

/-- Coordinate `i` of a box position lies in range. -/
def inExt (t : Tensor) (i : Nat) (b : Nat) : Bool :=
  let g := t.org.getD i 0 + b
  0 ≤ g && g < t.ext.getD i 0

/-- The rows of a tile: its slices, those out of range as zeroes for a g2s copy. -/
def tensorSlices (t : Tensor) : List Slice :=
  let e := 2 ^ t.es
  let bx := t.box.getD 0 1
  (List.range (t.box.getD 2 1)).flatMap fun z => (List.range (t.box.getD 1 1)).flatMap fun y =>
    let row := t.soff + y * t.pitch + z * t.pitch * t.box.getD 1 1
    let lo := (max 0 (-(t.org.getD 0 0))).toNat
    let hi := (min (bx : Int) (t.ext.getD 0 0 - t.org.getD 0 0)).toNat
    let ok := inExt t 1 y && inExt t 2 z && lo < hi
    let zero (a b : Nat) : List Slice :=
      if t.dir = 0 && a < b then
        [{ src := { sp := true, at' := 0 }, dst := { sp := true, at' := row + a * e }, len := (b - a) * e, lit := some (List.replicate ((b - a) * e) 0) }]
      else []
    if !ok then zero 0 bx
    else
      let g := ((t.gbase : Int) + (t.org.getD 0 0 + lo) * e + (t.org.getD 1 0 + y) * t.stride1
        + (t.org.getD 2 0 + z) * t.stride2) % 2 ^ 64
      let sp : Place := { sp := true, at' := row + lo * e }
      let mm : Place := { sp := false, at' := g.toNat }
      zero 0 lo ++ [{ src := if t.dir = 0 then mm else sp, dst := if t.dir = 0 then sp else mm, len := (hi - lo) * e }] ++ zero hi bx

/-- The smallest range that covers the memory side of slices. -/
def memRange (sls : List Slice) (dst : Bool) : List (Nat × Nat × Bool) :=
  let rs := sls.filterMap fun s =>
    let p := if dst then s.dst else s.src
    if p.sp || s.lit.isSome && !dst then none else some (p.at', p.at' + s.len)
  match rs with
  | [] => []
  | r :: rest =>
    let lo := rest.foldl (fun m x => min m x.1) r.1
    let hi := rest.foldl (fun m x => max m x.2) r.2
    [(lo, hi - lo, dst)]

/-- Lines of the scratchpad destinations of slices. -/
def dstLines (sls : List Slice) : List Nat := dedup (sls.flatMap fun s => if s.dst.sp then linesOf s.dst.at' s.len else [])

/-- A command whose places are known: its waits, then its entry (18 R351-R353, R356). -/
def postCmd (e : Env) (f : FmtX) (c : Cmd) (lines : List Nat) (rs : List (Nat × Nat × Bool)) : Act :=
  if lines.any (lineBusy e.s e.th.bid e.blk 0) then .wait e.s (.line e.th.bid (lines.filter (lineBusy e.s e.th.bid e.blk 0)))
  else if !lockRoom e.s (e.blk.core / 8) rs.length then .wait e.s .lock
  else match release e e.s (0x27F + c.kind) 3 true none with
  | .error a => a
  | .ok s =>
    let (s, cid, h) := newCmd e s c
    let s := addLocks (markLines s e.th.bid cid lines) (e.blk.core / 8) e.grid.ctx cid rs
    giveHandle e f (cmdReady s cid) h

/-- The end of the scratchpad tile (18 R352). -/
def tensorEnd (t : Tensor) : Nat :=
  t.soff + t.box.getD 0 1 * 2 ^ t.es + (t.box.getD 1 1 - 1) * t.pitch + (t.box.getD 2 1 - 1) * t.pitch * t.box.getD 1 1

/-- CPYT (18 R352). -/
def execCpyt (h : Hdr) (f : FmtX) (s : State) : Out :=
  issue (.cpyt h f) (fun e => withDesc e f fun e d =>
    let t := parseTensor d
    let c := { blankCmd 2 (heldBit f) with dir := t.dir, ctr := if t.ctr % 8 == 0 then t.ctr else 0 }
    if !tensorOk d t then badWr e f c
    else if tensorEnd t > spLimit e.grid.lrec then .trap 3 0 e.act t.soff
    else
      let sls := tensorSlices t
      postCmd e f { c with slices := sls } (dstLines sls) (memRange sls (t.dir == 1))) s

/-! ### SORTK (18 R353) -/

structure SortDesc where
  flags : Nat
  shift : Nat
  nb : Nat
  n : Nat
  keys : Nat
  counts : Nat
  perm : Nat
  ctr : Nat
deriving DecidableEq, Repr

def parseSort (d : List Byte) : SortDesc :=
  { flags := fld d 0 1, shift := fld d 25 1, nb := fld d 26 2, n := fld d 28 4, keys := fld d 32 8, counts := fld d 40 8
    perm := fld d 48 8, ctr := fld d 56 8 }

/-- Operand `i`: 0 KEYS, 1 COUNTS, 2 PERM, with its bytes; PERM at its largest. -/
def sortOpnd (x : SortDesc) (i : Nat) : Place × Nat :=
  let sp := x.flags.testBit i
  match i with
  | 0 => ({ sp := sp, at' := x.keys }, 2 * x.n)
  | 1 => ({ sp := sp, at' := x.counts }, 4 * x.nb)
  | _ => ({ sp := sp, at' := x.perm }, 4 * x.n)

def placesMeet (a b : Place × Nat) : Bool := a.1.sp == b.1.sp && a.1.at' < b.1.at' + b.2 && b.1.at' < a.1.at' + a.2

def sortOk (d : List Byte) (x : SortDesc) : Bool :=
  x.flags < 8 && zeros d 1 25 && 1 ≤ x.n && x.n ≤ 2 ^ 20 && 1 ≤ x.nb && x.nb ≤ 4096 && x.shift ≤ 15
    && x.keys % 2 == 0 && x.counts % 4 == 0 && x.perm % 4 == 0
    && !placesMeet (sortOpnd x 0) (sortOpnd x 1) && !placesMeet (sortOpnd x 0) (sortOpnd x 2)

/-- Scratchpad lines and memory ranges of a sort. -/
def sortLines (x : SortDesc) : List Nat :=
  dedup ([1, 2].flatMap fun i => if (sortOpnd x i).1.sp then linesOf (sortOpnd x i).1.at' (sortOpnd x i).2 else [])
def sortRanges (x : SortDesc) : List (Nat × Nat × Bool) :=
  [0, 1, 2].filterMap fun i => if (sortOpnd x i).1.sp then none else some ((sortOpnd x i).1.at', (sortOpnd x i).2, i != 0)

/-- SORTK (18 R353). -/
def execSortk (h : Hdr) (f : FmtX) (s : State) : Out :=
  issue (.sortk h f) (fun e => withDesc e f fun e d =>
    let x := parseSort d
    let c := { blankCmd 3 (heldBit f) with ctr := x.ctr, desc := d }
    if !sortOk d x then badWr e f c
    else
      let ops := (List.range 3).map (sortOpnd x)
      match ops.find? fun o => o.1.sp && o.1.at' + o.2 > spLimit e.grid.lrec with
      | some o => .trap 3 0 e.act o.1.at'
      | none => postCmd e f c (sortLines x) (sortRanges x)) s

/-- The outputs of a sort. -/
def sortSlices (x : SortDesc) (keys : List Byte) : List Slice :=
  let bk := (List.range x.n).map fun i => fld keys (2 * i) 2 / 2 ^ x.shift
  let cs := (List.range x.nb).map fun b => bk.countP (· == b)
  let ps := (List.range x.nb).flatMap fun b => (List.range x.n).filter fun i => bk.getD i 0 == b
  let z : Place := { sp := true, at' := 0 }
  let out (p : Place) (ws : List Nat) : List Slice :=
    if ws.isEmpty then [] else [{ src := z, dst := p, len := 4 * ws.length, lit := some (ws.flatMap fun w => leBytes w 4) }]
  out (sortOpnd x 1).1 cs ++ out (sortOpnd x 2).1 ps

/-! ### NPOST and LAUNCH (18 R354, R355) -/

/-- NPOST (18 R354, 02 R39). -/
def execNpost (h : Hdr) (f : FmtX) (s : State) : Out :=
  issue (.npost h f) (fun e => withDesc e f fun e d =>
    let c := { blankCmd 4 (heldBit f) with desc := d }
    let code := wrCode e.s e.grid.ctx d
    if code != 1 then
      let (s, cid, hd) := newCmd e e.s c
      giveHandle e f (netRefuse s cid code) hd
    else postCmd e f c [] [(wrLbuf d, wrLen d, false)]) s

/-- The reserved bytes and MODE bits of hazard interval `j` are 0 (04 R68). -/
def hazReserved (bs : List Byte) (j : Nat) : Bool := zeros bs (189 + 16 * j) (192 + 16 * j) && fld bs (188 + 16 * j) 1 < 4

/-- The launch record of a LAUNCH obeys R355. -/
def launchOk (bs : List Byte) : Bool :=
  fld bs 0 1 == 1 && headerOk bs && recOk (parseRec bs) && (parseRec bs).haz.all (fun x => x.2.1 == 0)
    && (List.range 4).all (hazReserved bs)

/-- The completion record of a launch that never becomes a grid. -/
def cctrJob (s : State) (ctx cctr status tag : Nat) (queue owner cluster : Option Nat) : State :=
  if cctr = 0 then s else startJob s ctx { ops := ccOps cctr status, queue := queue, tag := tag, owner := owner, cluster := cluster }

/-- LAUNCH (18 R355). -/
def execLaunch (h : Hdr) (f : FmtX) (s : State) : Out :=
  issue (.launch h f) (fun e =>
    let va := (vpair e f.a.toNat (low e)).toNat
    let ctx := e.grid.ctx
    if e.act == 0 then .done e.s []
    else if va % 64 != 0 then .trap 2 0 e.act va
    else match arenaTrap1 e va 256 with
      | some a => a
      | none => match fetchAt e 0x287 4 e.s va with
        | .error a => a
        | .ok (s, bs) =>
          let s := dropInbox (acquire e s 3) e.tid
          let r := parseRec bs
          let e := { e with s := s }
          let c := blankCmd 5 (heldBit f)
          if !launchOk bs then badWr e f c
          else if !fitsEmpty s e.grid.part ctx r then
            let (s, cid, hd) := newCmd e s c
            giveHandle e f (finishCmd (cctrJob s ctx r.cctr 2 (qtagOf s e.grid) none (some e.grid.queue) (some (e.blk.core / 8))) cid 0x12) hd
          else match release e s 0x287 3 true none, (tget s.ctxs ctx).bind fun cx => freeSlot cx 3 with
            | .error a, _ => a
            | _, none => .wait s .gslot
            | .ok s, some slot =>
              let (s, cid, hd) := newCmd e s c
              let gid := s.nextId
              let s := newGrid s slot {
                ctx := ctx, queue := e.grid.queue, parent := some e.blk.gid, prio := lesser r.prio e.grid.prio, part := e.grid.part
                lrec := r, slot := slot, gen := 0, cmd := some cid }
              giveHandle e f (cmdReady (modCmd s cid fun c => { c with child := some gid }) cid) hd) s

/-! ### Command graphs (18 R356, R357) -/

/-- The handle in the lowest active lane. -/
def handleIn (e : Env) (r : BitVec 11) : Nat := (vreg e r.toNat (low e)).toNat

/-- ERUN (18 R356). -/
def execErun (h : Hdr) (f : FmtX) (s : State) : Out :=
  issue (.erun h f) (fun e =>
    if e.act == 0 then .done e.s []
    else match cmdOf e.s e.grid.ctx (handleIn e f.a) with
      | none => .trap 1 0x284 e.act 0
      | some (cid, c) =>
        if c.st = 0 then .done (cmdReady (modCmd e.s cid fun c => { c with st := 1 }) cid) [] else .done e.s []) s

/-- ELINK (18 R356). -/
def execElink (h : Hdr) (f : FmtX) (s : State) : Out :=
  issue (.elink h f) (fun e =>
    if e.act == 0 then .done e.s []
    else match cmdOf e.s e.grid.ctx (handleIn e f.a), cmdOf e.s e.grid.ctx (handleIn e f.b) with
      | some (ia, a), some (ib, b) =>
        if b.st != 0 || ib ≤ ia then .trap 1 0x286 e.act 0
        else if a.st = 3 then .done (modCmd e.s ib fun b => { b with skip := b.skip || a.code != 0 }) []
        else if a.succs.length ≥ 16 || b.preds ≥ 255 then .trap 1 0x286 e.act 0
        else .done (modCmd (modCmd e.s ia fun a => { a with succs := a.succs ++ [ib] }) ib fun b => { b with preds := b.preds + 1 }) []
      | _, _ => .trap 1 0x286 e.act 0) s

/-- The word of ESTAT (18 R357). -/
def statWord (s : State) (ctx h : Nat) : Word :=
  match cmdOf s ctx h with
  | none => BitVec.ofNat 32 (3 * 2 ^ 30 + 0xFF)
  | some (_, c) => BitVec.ofNat 32 (c.st * 2 ^ 30 + c.preds * 2 ^ 16 + (if c.st = 3 then c.code else 1))

/-- ESTAT (18 R357): an acquire at the command's scope. -/
def execEstat (h : Hdr) (f : FmtX) (s : State) : Out :=
  issue (.estat h f) (fun e =>
    if e.act == 0 then .done e.s []
    else giveHandle e f (acquire e e.s 3) (statWord e.s e.grid.ctx (handleIn e f.a))) s

/-! ### Start, landing and finish -/

/-- A launch that never runs: its grid goes, with its arena and what was handed to it (18 R356). -/
def dropChild (s : State) (c : Cmd) : State :=
  match c.child.bind fun g => (tget s.grids g).map fun x => (g, x) with
  | none => s
  | some (gid, g) =>
    gslotFree (closeArena { s with grids := tdel s.grids gid } g.ctx 3 g.slot)

/-- End a command that never ran (18 R356, R358). -/
def endUnrun (s : State) (cid code : Nat) : State :=
  match tget s.cmds cid with
  | none => s
  | some c =>
    let code := if c.skip then (if c.kind = 5 then 0x13 else 10) else code
    if c.kind = 4 then netRefuse s cid code else finishCmd (dropChild s c) cid code

/-- The line of a destination: of the scratchpad, or of memory above 2^20. -/
def lineOf (p : Place) (i : Nat) : Nat := if p.sp then (p.at' + i) / 128 else 2 ^ 20 + (p.at' + i) / 128

/-- Every destination line of slices. -/
def landLines (sls : List Slice) : List Nat :=
  dedup (sls.flatMap fun s => (linesOf s.dst.at' s.len).map fun l => if s.dst.sp then l else 2 ^ 20 + l)

/-- The key read of a sort, as a line. -/
def sortLine : Nat := 2 ^ 80

/-- What is left of a command lands line by line, in no defined order. -/
def kickLines (s : State) (cid : Nat) : State :=
  match tget s.cmds cid with
  | none => s
  | some c =>
    if c.kind = 3 && !c.desc.isEmpty then after s (.engineLineLanded cid sortLine)
    else if c.slices.isEmpty then (if c.acks = 0 then after s (.engineCommandFinish cid 0) else s)
    else (landLines c.slices).foldl (fun s l => after s (.engineLineLanded cid l)) s

/-- The command reads or writes its block's scratchpad. -/
def cmdUsesSp (c : Cmd) : Bool :=
  c.kind = 2 || (c.kind = 1 && c.dir < 2) || (c.kind = 3 && (!c.marked.isEmpty || (fld c.desc 0 1) % 8 != 0))

/-- A released command with no predecessor left starts (18 R356). -/
def execEngineCommandStart (cid : Nat) (s : State) : Out :=
  match tget s.cmds cid with
  | none => .next s
  | some c =>
    let away := cmdUsesSp c && ((tget s.blocks c.bid).map fun b => b.stage != .running).getD false
    if c.st != 1 || !c.full || c.preds != 0 || away then .next s
    else if c.skip then .next (endUnrun s cid 10)
    else
      let s := modCmd s cid fun c => { c with st := 2 }
      let s := modBlock s c.bid fun b => { b with tags := b.tags.filter fun t => t.2 != cid }
      let s := wakeRetry s fun _ w => w == .tag
      .next (match c.kind with
        | 4 => netStart s cid c
        | 5 => match c.child with
          | some g => enterGrid s g
          | none => s
        | _ => kickLines s cid)

/-- A part of a slice: source, its own bytes, destination address and length. -/
structure Piece where
  src : Place
  lit : Option (List Byte)
  dst : Nat
  len : Nat
deriving DecidableEq, Repr

/-- The part of a slice that lies in a line. -/
def pieceIn (line : Nat) (s : Slice) : Option Piece :=
  let base := if s.dst.sp then line * 128 else (line - 2 ^ 20) * 128
  let lo := max base s.dst.at'
  let hi := min (base + 128) (s.dst.at' + s.len)
  if s.dst.sp == (line < 2 ^ 20) && lo < hi then
    let o := lo - s.dst.at'
    some { src := { s.src with at' := s.src.at' + o }, lit := s.lit.map fun b => (b.drop o).take (hi - lo), dst := lo, len := hi - lo }
  else none

/-- The parts of a slice outside a line. -/
def sliceRest (line : Nat) (s : Slice) : List Slice :=
  let cut (o n : Nat) : List Slice :=
    if n = 0 then [] else
      [{ src := { s.src with at' := s.src.at' + o }, dst := { s.dst with at' := s.dst.at' + o }, len := n, lit := s.lit.map fun b => (b.drop o).take n }]
  match pieceIn line s with
  | none => [s]
  | some p => cut 0 (p.dst - s.dst.at') ++ cut (p.dst + p.len - s.dst.at') (s.dst.at' + s.len - (p.dst + p.len))

/-- A source line of a piece is still empty. -/
def pieceEmpty (b : Option Block) (p : Piece) : Bool :=
  p.lit.isNone && p.src.sp && (match b with | some b => (linesOf p.src.at' p.len).any (b.empty.contains ·) | none => false)

/-- Read the sources of pieces. -/
def readPieces (cid : Nat) (c : Cmd) (b : Option Block) : State → List Piece → State × Got × List (Piece × List Byte)
  | s, [] => (s, .bytes [], [])
  | s, p :: r =>
    let (s, g) : State × Got := match p.lit with
      | some bs => (s, .bytes bs)
      | none => if p.src.sp then (s, .bytes ((b.map fun b => spRead b p.src.at' p.len).getD [])) else engRead cid c 4 s p.src.at' p.len
    match g with
    | .bytes bs =>
      let (s, g, rest) := readPieces cid c b s r
      (s, g, (p, bs) :: rest)
    | .wait => (((readPieces cid c b s r).1), .wait, [])
    | g => (s, g, [])

/-- The bytes of a line: where pieces overlap, each takes the value of one of them (18 R351). -/
def mergePieces (n : Nat) (ps : List (Piece × List Byte)) (base : Nat) : List (Nat × Byte) :=
  (List.range 128).filterMap fun i =>
    let a := base + i
    let cs := ps.filterMap fun p => if p.1.dst ≤ a && a < p.1.dst + p.1.len then some (p.2.getD (a - p.1.dst) 0) else none
    if cs.isEmpty then none else some (a, cs.getD (Config.overlap n a % cs.length) 0)

/-- Runs of consecutive addresses. -/
def runsOf : List (Nat × Byte) → List (Nat × List Byte)
  | [] => []
  | (a, b) :: r => match runsOf r with
    | (x, bs) :: t => if x = a + 1 then (a, b :: bs) :: t else (a, [b]) :: (x, bs) :: t
    | [] => [(a, [b])]

/-- Write runs of bytes in memory. -/
def writeRuns (cid : Nat) : State → List (Nat × List Byte) → State × Got
  | s, [] => (s, .bytes [])
  | s, (a, bs) :: r =>
    match tget s.cmds cid with
    | none => (s, .bytes [])
    | some c => match engWrite s cid c a bs with
      | (s, .bytes _) => writeRuns cid s r
      | x => x

/-- Passes of the scratchpad's strand port that a data engine takes: one a line (07 R107, 05 R83). -/
def enginePasses (s : State) (c : Cmd) (n : Nat) : State := count s c.cluster 4 n

/-- What a command does when an access of its fails. -/
def cmdFail (s : State) (cid : Nat) (c : Cmd) (line : Nat) (g : Got) : State :=
  match g with
  | .err e va => cmdFault s cid c e va
  | .wait => atTime (tick s) (s.time + 1 + Config.delay s.freeCtr) (.engineLineLanded cid line)
  | .bad => finishCmd s cid 12
  | .down => finishCmd (cmdDown s c) cid 9
  | .bytes _ => s

/-- A sort reads its keys and writes its outputs once they have been read (18 R353). -/
def sortRead (s : State) (cid : Nat) (c : Cmd) (b : Option Block) : State :=
  let x := parseSort c.desc
  let (p, n) := sortOpnd x 0
  if pieceEmpty b { src := p, lit := none, dst := 0, len := n } then cmdFail s cid c sortLine .wait
  else
    let (s, g) : State × Got := if p.sp then (s, .bytes ((b.map fun b => spRead b p.at' n).getD [])) else engRead cid c (n + 1) s p.at' n
    match g with
    | .bytes ks => kickLines (modCmd (if p.sp then enginePasses s c (linesOf p.at' n).length else s) cid fun c => { c with slices := sortSlices x ks, desc := [] }) cid
    | g => cmdFail s cid c sortLine g

/-- Every byte of a command in one destination line lands (07 R108). -/
def execEngineLineLanded (cid line : Nat) (s : State) : Out :=
  match tget s.cmds cid with
  | none => .next s
  | some c =>
    let b := tget s.blocks c.bid
    if c.st != 2 || !c.recs.isEmpty then .next s
    else if line = sortLine then .next (if c.desc.isEmpty then s else sortRead s cid c b)
    else
      let ps := c.slices.filterMap (pieceIn line)
      if ps.isEmpty then .next s
      else if ps.any (pieceEmpty b) then .next (cmdFail s cid c line .wait)
      else match readPieces cid c b s ps with
        | (s, .bytes _, data) =>
          let base := if line < 2 ^ 20 then line * 128 else (line - 2 ^ 20) * 128
          let bytes := mergePieces s.freeCtr data base
          let (s, g) : State × Got :=
            if line < 2 ^ 20 then
              ((runsOf bytes).foldl (fun s r => spWrite s c.bid r.1 r.2) (tick s), .bytes [])
            else writeRuns cid (tick s) (runsOf bytes)
          (match g with
          | .bytes _ =>
            let s := modCmd s cid fun c => { c with slices := c.slices.flatMap (sliceRest line), landed := line :: c.landed }
            let s := enginePasses s c ((ps.map fun p => if p.lit.isNone && p.src.sp then (linesOf p.src.at' p.len).length else 0).sum
              + (if line < 2 ^ 20 then 1 else 0))
            let s := if line < 2 ^ 20 && (stillMarked c).contains line then fillLines s c.bid [line] else s
            .next (match tget s.cmds cid with
              | some c => if c.slices.isEmpty && c.acks = 0 then after s (.engineCommandFinish cid 0) else s
              | none => s)
          | g => .next (cmdFail s cid c line g))
        | (s, g, _) => .next (cmdFail s cid c line g)

/-- A running command finishes (18 R350), a network command by the steps of 02 R45. -/
def execEngineCommandFinish (cid code : Nat) (s : State) : Out :=
  match tget s.cmds cid with
  | some c => .next (if c.st != 2 then s else match c.msg with
    | some m => netFinish s m code
    | none => finishCmd s cid code)
  | none => .next s

/-- A command that waited on replayable faults goes on (10 R175). -/
def cmdRetry (s : State) (cid : Nat) : State :=
  match tget s.cmds cid with
  | none => s
  | some c =>
    if c.st != 2 || !c.recs.isEmpty then s
    else if c.kind = 4 then
      match c.msg.bind fun m => (tget s.net.msgs m).map fun x => (m, x) with
      | none => s
      | some (m, x) =>
        let s := after s (.uePacketTransmit m)
        (match x.pdc.bind fun p => (tget s.net.pdcs p).map fun d => (p, d) with
        | none => s
        | some (p, d) => (d.out.filter fun o => o.msg == m && o.deadline ≤ s.time).foldl (fun s o => after s (.retransmitTimeout p o.psn.toNat)) s)
    else kickLines s cid

end Sys2Proof.Machine
end

