-- ==== Sys2Proof/Machine/Nest.lean ====
section
/-! DEFINITION. Nests of callables: the snapshot and its rules (11 R195-R198), the claim and its seats (11 R205-R208), the
course of every kind of node, statuses, faults and cancels (11 R199-R213). -/
namespace Sys2Proof.Machine

/-! ### Leaves and their records -/

/-- The 256 bytes that a leaf reads as its launch record (17 R329). -/
def rawRec (r : LRec) : List Byte :=
  List.replicate 16 0 ++ leBytes r.code 8 ++ leBytes r.ctrl 8 ++ leBytes r.argp 8 ++ leBytes r.cctr 8 ++ leBytes r.assist 8
    ++ leBytes r.gx 4 ++ leBytes r.gy 2 ++ leBytes r.gz 2 ++ leBytes r.lx 2 ++ leBytes r.ly 2 ++ leBytes r.lz 2
    ++ leBytes r.grpx 1 ++ leBytes r.grpy 1 ++ leBytes r.grpz 1 ++ leBytes r.phasers 1 ++ leBytes r.regs 2
    ++ leBytes r.scratch 4 ++ leBytes r.tiles 4 ++ leBytes r.shadow 2 ++ leBytes r.prio 1 ++ leBytes r.deadline 1
    ++ leBytes r.argsz 4 ++ leBytes (if r.chk then 2 else 0) 4
    ++ leBytes r.arlane 4 ++ leBytes r.arblock 4 ++ leBytes r.arclus 4 ++ leBytes r.argrid 4
    ++ (r.slots.flatMap fun x => leBytes x.toNat 8) ++ List.replicate 80 0

/-- A leaf's launch record: the fields of its entry under the restrictions of R197. -/
def leafRec (nd : Node) (argp prio : Nat) : LRec :=
  let b := nd.entry
  let r : LRec := {
    raw := []
    code := fld b 40 8
    ctrl := fld b 48 8
    argp := argp
    cctr := 0
    assist := 0
    gx := nd.ext.1
    gy := nd.ext.2.1
    gz := nd.ext.2.2
    lx := fld b 18 2
    ly := fld b 16 2
    lz := fld b 14 2
    grpx := 0
    grpy := 0
    grpz := 0
    phasers := fld b 8 1
    regs := fld b 20 2
    scratch := fld b 28 4
    tiles := fld b 24 4
    shadow := fld b 22 2
    prio := prio
    deadline := fld b 3 1
    argsz := 65536
    coop := false
    chk := (fld b 1 1).testBit 1
    mirrorOk := false
    arlane := fld b 9 1
    arblock := fld b 12 2
    arclus := 0
    argrid := fld b 4 4
    slots := nd.slots
    haz := [] }
  { r with raw := rawRec r }

/-- Child reserve of a leaf, in seats (11 R208). -/
def leafChild (nd : Node) : Nat := fld nd.entry 10 2

/-- A leaf obeys its field rules (11 R195-R197). -/
def leafOk (nd : Node) : Bool :=
  let r := leafRec nd 0 0
  fld nd.entry 2 1 == 0 && fld nd.entry 1 1 < 4 && leafChild nd ≤ 4096 && shapeOk r && r.gx ≥ 1 && r.gy ≥ 1 && r.gz ≥ 1
    && (r.deadline == 0 || (10 ≤ r.deadline && r.deadline ≤ 24)) && r.argrid ≤ 2097152 && r.arblock ≤ 4096 && r.arlane ≤ 2

/-- A composite obeys its field rules (11 R198); `pipe`: ESIZE of the PIPE whose consumer B it is. -/
def compOk (k : Nat) (b : List Byte) (pipe : Option Nat) : Bool :=
  match k with
  | 3 | 4 => fld b 1 1 == 0 && zeros b 6 64
  | 5 =>
    let d := fld b 6 2
    let e := fld b 8 2
    fld b 1 1 == 0 && 1 ≤ d && d ≤ 4096 && 4 ≤ e && e ≤ 256 && e % 4 == 0 && d * e ≤ 65536 && zeros b 10 64
  | 6 =>
    let n := fld b 6 2
    let src := fld b 10 1
    let m := fld b 12 4
    fld b 1 1 < 2 && zeros b 4 6 && 1 ≤ n && n ≤ 4096 && 1 ≤ fld b 8 2 && fld b 8 2 ≤ n && zeros b 11 12 && zeros b 36 64
      && fld b 24 8 % 8 == 0
      && (match src with
          | 0 => 1 ≤ m && m < 2 ^ 31 && fld b 16 8 == 0
          | 1 => 1 ≤ m && m ≤ 65536 && fld b 16 8 % 4 == 0
          | 2 => m == 0 && fld b 16 8 == 0 && pipe == some 4
          | _ => false)
  | 7 => fld b 1 1 == 0 && fld b 8 8 % 4 == 0 && zeros b 16 64
  | _ => false

/-! ### The snapshot (11 R195) -/

/-- How a snapshot reads memory: by an instruction, or by a queue. -/
abbrev Reader := State → (va n : Nat) → Except Act (State × List Byte)

/-- A snapshot is not taken: an access fails, or the nest is malformed at a handle. -/
inductive SErr where
  | act (a : Act)
  | bad (s : State) (h : Nat)
deriving DecidableEq, Repr

/-- Base of the table, argument pointer, and the slots of a leaf whose SLOTS is 0. -/
structure SnapCtx where
  tbase : Nat
  argp : Nat
  slots : List Dword
deriving DecidableEq, Repr

/-- Read one leaf: its shape record and its slots. -/
def snapLeaf (rd : Reader) (c : SnapCtx) (s : State) (k h : Nat) (b : List Byte) : Except SErr (State × Node) :=
  let ga := (c.argp + fld b 36 4) % 2 ^ 64
  let byArg := (fld b 1 1).testBit 0
  if byArg && ga % 8 != 0 then .error (.bad s h)
  else match (if byArg then rd s ga 8 else .ok (s, (b.drop 36).take 4 ++ (b.drop 34).take 2 ++ (b.drop 32).take 2)) with
    | .error a => .error (.act a)
    | .ok (s, g) => match (if fld b 56 8 = 0 then .ok (s, c.slots.flatMap fun x => leBytes x.toNat 8) else rd s (fld b 56 8) 64) with
      | .error a => .error (.act a)
      | .ok (s, sl) =>
        let nd : Node := {
          kind := k, handle := h, entry := b, ext := (fld g 0 4, fld g 4 2, fld g 6 2)
          slots := (List.range 8).map fun i => BitVec.ofNat 64 (fld sl (8 * i) 8) }
        if leafOk nd then .ok (s, nd) else .error (.bad s h)

def setKids (ns : List Node) (i : Nat) (ks : List Nat) : List Node :=
  (ns.zip (List.range ns.length)).map fun x => if x.2 = i then { x.1 with kids := ks } else x.1

/-- Read a nest depth-first and left to right: at most 16 levels (`fuel`) and 64 nodes. -/
def snapWalk (rd : Reader) (c : SnapCtx) : (fuel : Nat) → (pipe : Option Nat) → State → (h : Nat) → List Node →
    Except SErr (State × List Node)
  | 0, _, s, h, _ => .error (.bad s h)
  | f + 1, pipe, s, h, ns =>
    if h = 0 || ns.length ≥ 64 then .error (.bad s h)
    else match rd s (c.tbase + 64 * h) 64 with
    | .error a => .error (.act a)
    | .ok (s, b) =>
      let k := fld b 0 1
      if k = 1 || k = 2 then (snapLeaf rd c s k h b).map fun (s, nd) => (s, ns ++ [nd])
      else if !compOk k b pipe then .error (.bad s h)
      else match snapWalk rd c f none s (fld b 2 2) (ns ++ [{ kind := k, handle := h, entry := b }]) with
        | .error x => .error x
        | .ok (s, ns1) =>
          if k ≥ 6 then .ok (s, setKids ns1 ns.length [ns.length + 1])
          else (snapWalk rd c f (if k = 5 then some (fld b 8 2) else none) s (fld b 4 2) ns1).map fun (s, ns2) =>
            (s, setKids ns2 ns.length [ns.length + 1, ns1.length])

/-! ### Claims (11 R205, R206) -/

def nodeAt (x : Nest) (i : Nat) : Node := x.nodes.getD i { kind := 0, handle := 0, entry := [] }

def isLeaf (nd : Node) : Bool := nd.kind = 1 || nd.kind = 2

def maxNeed (a b : Need) : Need :=
  { reg := max a.reg b.reg, sp := max a.sp b.sp, ts := max a.ts b.ts, str := max a.str b.str, phs := max a.phs b.phs, ctl := a.ctl || b.ctl }

/-- The seat shape: the componentwise maximum over the leaves. -/
def seatShape (ns : List Node) : Need :=
  (ns.filter isLeaf).foldl (fun m nd => maxNeed m (needOf (leafRec nd 0 0))) { reg := 0, sp := 0, ts := 0, str := 0, phs := 0, ctl := false }

/-- Instances of a FARM. -/
def farmWidth (nd : Node) (wide : Bool) : Nat := if wide then fld nd.entry 6 2 else fld nd.entry 8 2

/-- Seats and channels of a node. -/
def claimAt (ns : List Node) (wide : Bool) : (fuel i : Nat) → Nat × Nat
  | 0, _ => (0, 0)
  | f + 1, i =>
    let nd := ns.getD i { kind := 0, handle := 0, entry := [] }
    let a := claimAt ns wide f (nd.kids.getD 0 0)
    let b := claimAt ns wide f (nd.kids.getD 1 0)
    match nd.kind with
    | 1 | 2 => (nd.ext.1 * nd.ext.2.1 * nd.ext.2.2 + leafChild nd, 0)
    | 3 => (max a.1 b.1, max a.2 b.2)
    | 4 => (a.1 + b.1, a.2 + b.2)
    | 5 => (a.1 + b.1, a.2 + b.2 + 1)
    | 6 => (farmWidth nd wide * a.1, farmWidth nd wide * a.2)
    | _ => a

/-- A seat on a core, with the block-arena slot that it holds. -/
def seatBlock (pid : Nat) (pl : Plan) (n : Need) (slot now : Nat) : Block :=
  { gid := 0, part := pid, need := n, lin := 0, core := pl.core, bslot := pl.bslot, aslot := slot, gen := 0, ctl := pl.ctl,
    gran := pl.gran, phSlots := pl.phSlots, sslots := pl.sslots, stage := .reserved, nstr := 0, placedAt := now }

/-- Reserve `k` seats for a context by rotation after a core, each as a placement would, with a block-arena slot (06 R94). -/
def takeSeats (c pid : Nat) (p : Part) (cores : List Nat) (need : Need) : (k : Nat) → State → (last : Nat) → List Nat → Option (State × List Nat)
  | 0, s, _, ids => some (s, ids)
  | k + 1, s, last, ids =>
    match (rotate cores last).findSome? fun c => planOn s pid p c need false with
    | none => none
    | some pl => match (tget s.ctxs c).bind fun cx => arenaSlot cx pl.core with
      | none => none
      | some a =>
        let s' := holdSlot (newId s) c 1 a
        takeSeats c pid p cores need k { s' with blocks := tset s'.blocks s.nextId (seatBlock pid pl need a s.time) } pl.core (ids ++ [s.nextId])

/-- Seats for a claim; a partition holds at most 64 blocks on a core. -/
def seatsFor (s : State) (c pid : Nat) (p : Part) (cores : List Nat) (need : Need) (k n : Nat) : Option (State × List Nat) :=
  if k ≤ 64 * cores.length then takeSeats c pid p cores need k s (Config.startCore n % 1536) [] else none

/-- Clusters that take `k` more channels, at most 32 on one (11 R200). -/
def chansFor (s : State) (p : Part) (n : Nat) : (k : Nat) → List Nat → Option (List Nat)
  | 0, cs => some cs
  | k + 1, cs =>
    let used (c : Nat) : Nat := cs.count c + s.nests.foldl (fun t x => t + x.2.chans.count c) 0
    match (rotate p.clusters (Config.chanCluster n k % 192)).find? fun c => used c < 32 with
    | none => none
    | some c => chansFor s p n k (cs ++ [c])

/-- A claim fits in the empty partition; during a PART_SET, in the partition that it makes. -/
def claimFits (s : State) (ctx pid n : Nat) (need : Need) (c : Nat × Nat) : Bool :=
  match (tget s.parts pid).map fun p => (p.pending.map fun b => parsePart b.1).getD p with
  | none => false
  | some p => p.clusters.isEmpty
      || (c.2 ≤ 32 * p.clusters.length && (seatsFor (emptyDev s) ctx pid p (partCores p) need c.1 n).isSome)

/-! ### Seats of a nest -/

/-- Seats that nest `n` has, of its own or borrowed, that no block sits in, and that it has not lent. -/
def freeSeats (s : State) (n : Nat) (x : Nest) : List Nat :=
  (x.seats ++ x.borrow).filter fun b =>
    !s.blocks.any (fun e => e.2.seat == some b) && !s.nests.any fun e => e.2.lender == some n && e.2.borrow.contains b

/-- Seats that a nested APPLY may draw on: the nest that lends them, and how many (11 R208). -/
def lenderOf (s : State) (x : Nest) : Option (Nat × Nest × Nat) :=
  match x.gid.bind fun g => tget s.grids g with
  | none => none
  | some g => match g.nest with
    | none => none
    | some (m, _) => (tget s.nests m).map fun y =>
        let fits := x.shape.reg ≤ y.shape.reg && x.shape.sp ≤ y.shape.sp && x.shape.ts ≤ y.shape.ts && x.shape.str ≤ y.shape.str
          && x.shape.phs ≤ y.shape.phs && (!x.shape.ctl || y.shape.ctl)
        (m, y, if fits then min g.child x.seatN else 0)

/-- Cores that may take what was pre-empted for a reason: after a thermal migration, those at 90 C or less (06 R99). -/
def allowedCores (s : State) (why : Nat) (cores : List Nat) : List Nat := if why = 2 then cores.filter (s.pkg.cool.contains ·) else cores

/-- A claim begins: it takes what it can from the child reserve (11 R208). A restore has what it had borrowed. -/
def openClaim (s : State) (n : Nat) (x : Nest) : State :=
  match (if x.saved then none else lenderOf s x) with
  | none => s
  | some (m, y, k) =>
    let loan := (freeSeats s m y).take k
    let s := match x.gid with
      | some g => modGrid s g fun g => { g with child := g.child - loan.length }
      | none => s
    modNest s n fun x => { x with borrow := loan, lender := if loan.isEmpty then none else some m }

/-- Seats that a claim takes from free resources. -/
def ownSeats (x : Nest) : Nat := x.seatN - x.borrow.length

/-- Reserve some of them (06 R94); the seats of a nest that comes back from a pre-emption for priority are exempt from the next (R93). -/
def claimSeats (s : State) (n k : Nat) : Option State :=
  (tget s.nests n).bind fun x => (tget s.parts x.part).bind fun p =>
    let last := ((x.seats.getLast?.bind fun b => tget s.blocks b).map (·.core)).getD (Config.startCore n % 1536)
    let cores := allowedCores s x.why (partCores p)
    if k > 64 * cores.length then none
    else (takeSeats x.ctx x.part p cores x.shape k s last []).map fun (s, ids) =>
      let s := ids.foldl (fun s b => modBlock s b fun b => { b with restored := x.why == 1 }) s
      modNest s n fun x => { x with seats := x.seats ++ ids }

/-- The claim is complete: its channels are taken. -/
def sealClaim (s : State) (n : Nat) : Option State :=
  (tget s.nests n).bind fun x => (tget s.parts x.part).bind fun p => (chansFor s p n x.chanN []).map fun cs =>
    modNest s n fun x => { x with claimed := true, saved := false, why := 0, back := false, waits := false, skips := 0, chans := cs }

/-- Take a claim whole: the child reserve first, the rest from free resources (11 R206, R208). A restore takes the seats and the
channels that the nest had of its own (R207). -/
def takeClaim (s : State) (n : Nat) (x : Nest) : Option State :=
  let s := openClaim s n x
  (tget s.nests n).bind fun x => (claimSeats s n (ownSeats x)).bind (sealClaim · n)

/-- Give the seats, with the slots that they hold, and the channels back. -/
def dropClaim (s : State) (n : Nat) (x : Nest) : State :=
  let s := (s.blocks.filter fun e => x.seats.contains e.1).foldl (fun s e => dropSlot s x.ctx 1 e.2.aslot) s
  let s := { s with blocks := s.blocks.filter fun e => !x.seats.contains e.1 }
  modNest s n fun x => { x with seats := [], chans := [] }

/-- A claim that is not complete is given up: its reservations are released, and what it took of a child reserve returns. -/
def undoClaim (s : State) (n : Nat) : State :=
  match tget s.nests n with
  | none => s
  | some x =>
    if x.claimed || x.status.isSome then s
    else
      let s := dropClaim s n x
      let s := match x.gid with
        | some g => modGrid s g fun g => { g with child := g.child + x.borrow.length }
        | none => s
      modNest s n fun x => { x with borrow := [], lender := none }

/-! ### Statuses (11 R209) -/

/-- The 64-bit word of a status. -/
def statDword (st : NStat) : Dword :=
  BitVec.ofNat 64 (match st.code with
    | 1 => 1 + 256 * st.fcode + 2 ^ 32 * st.handle
    | 4 => 4 + 256 * (st.killed % 2 ^ 24)
    | c => c)

def earlier (a b : NStat) : Bool := a.time < b.time || (a.time == b.time && a.order ≤ b.order)

/-- The status that a composite has from those of its children. -/
def combine (sts : List NStat) : NStat :=
  let f := (sts.filter (·.code == 1)).foldl (fun (o : Option NStat) x => match o with
    | none => some x
    | some y => if earlier y x then some y else some x) none
  match f with
  | some x => x
  | none =>
    let k := sts.foldl (fun t x => t + x.killed) 0
    if sts.any (·.code == 3) then { code := 3 } else if k > 0 then { code := 4, killed := k } else { code := 0 }

/-! ### The end of a nest -/

/-- The root has completed: the claim is released, the packet completes, and waiters look again (11 R206, R207, R213). -/
def endNest (s : State) (n : Nat) (st : NStat) : State :=
  match tget s.nests n with
  | none => s
  | some x =>
    if x.status.isSome then s
    else
      let s := dropClaim s n x
      let s := match x.gid with
        | some g => modGrid s g fun g => { g with child := g.child + x.borrow.length }
        | none => s
      let s := modNest s n fun x => { x with status := some (statDword st), borrow := [], lender := none, insts := [] }
      let s := wakeRetry s fun _ w => w == .nest n
      let s := match x.pkt with
        | some (q, i) => after { s with nests := tdel s.nests n } (.packetComplete q i (statDword st).toNat)
        | none => s
      let s := match x.gid with
        | some g => after s (.gridEnd g)
        | none => s
      freed s x.part

/-! ### Completion of a node -/

/-- The nearest LOOP that encloses a started node (11 R204). -/
def loopOf (x : Nest) : (fuel : Nat) → (i : Option Nat) → Option Nat
  | f + 1, some i => match tget x.insts i with
    | some v => if (nodeAt x v.node).kind = 7 then some i else loopOf x f v.parent
    | none => none
  | _, _ => none

/-- The coroutines suspended under a LOOP lose their arenas when it completes (11 R204). -/
def endCors (s : State) (n i : Nat) : State :=
  match tget s.nests n with
  | none => s
  | some x =>
    let s := (x.cors.filter (·.loop == i)).foldl (fun s c => closeArena s x.ctx 3 c.slot) s
    gslotFree (modNest s n fun x => { x with cors := x.cors.filter (·.loop != i) })

/-- A node has its status; its parent learns of it by NODE_COMPLETE. A cancelled one is CANCELLED whatever happened (R212). -/
def endInst (s : State) (n i : Nat) (st : NStat) : State :=
  match (tget s.nests n).bind fun x => tget x.insts i with
  | none => s
  | some v =>
    if v.status.isSome then s
    else
      let st := if v.cancelling then { code := 3 } else st
      after (endCors (modInst s n i fun v => { v with status := some st }) n i) (.nodeComplete n i)

/-- A node fails by itself: its entry is named. -/
def failInst (s : State) (n i fcode : Nat) : State :=
  match (tget s.nests n).bind fun x => (tget x.insts i).map fun v => (x, v) with
  | none => s
  | some (x, v) => endInst s n i { code := 1, fcode := fcode, handle := (nodeAt x v.node).handle, time := s.time, order := v.node }

/-- The grid of a leaf has ended (11 R199, R204, R209): the instance completes or suspends. -/
def leafEnd (s : State) (g : Grid) (n i : Nat) : State :=
  match (tget s.nests n).bind fun x => (tget x.insts i).map fun v => (x, v) with
  | none => closeArena s g.ctx 3 g.slot
  | some (x, v) =>
    let nd := nodeAt x v.node
    let cor := nd.kind = 2 && g.yielded
    let st : NStat :=
      if g.cancelled then { code := 3 }
      else match g.fault with
        | some (code, _) => { code := 1, fcode := code, handle := nd.handle, time := s.time, order := v.node }
        | none => if cor || g.killedStrands = 0 then { code := 0 } else { code := 4, killed := g.killedStrands }
    let s := match (if cor then loopOf x 32 v.parent else none) with
      | some l => modNest s n fun x => { x with
          cors := x.cors ++ [{ loop := l, node := v.node, place := v.place, slot := g.slot, count := g.count + 1 }] }
      | none => closeArena s g.ctx 3 g.slot
    endInst s n i st

/-! ### Starting a node -/

/-- A leaf's grid enters the claim's seats; a suspended coroutine of the place goes on in its arena (11 R197, R204, R207). With
no grid slot free it tries again. -/
def startLeaf (s : State) (n i : Nat) : State :=
  match (tget s.nests n).bind fun x => (tget x.insts i).map fun v => (x, v) with
  | none => s
  | some (x, v) =>
    let nd := nodeAt x v.node
    let old := if nd.kind = 2 then
        (loopOf x 32 v.parent).bind fun l => x.cors.find? fun c => c.loop == l && c.node == v.node && c.place == v.place
      else none
    let g : Grid := {
      ctx := x.ctx, queue := x.queue, parent := x.gid, prio := x.prio, part := x.part, lrec := leafRec nd x.argp x.prio, slot := 0, gen := 0
      nest := some (n, i), child := leafChild nd, entered := true, count := (old.map (·.count)).getD 0 }
    let gid := s.nextId
    match tget s.ctxs x.ctx with
    | none => s
    | some cx =>
      match old with
      | some c =>
        let gen := ((tget cx.arenas (arenaKey 3 c.slot 0)).map (·.gen)).getD 0
        let s := modCtx (newId s) x.ctx fun cx => { cx with arenas := tmod cx.arenas (arenaKey 3 c.slot 0) fun a => { a with owner := gid } }
        let s := { s with grids := tset s.grids gid { g with slot := c.slot, gen := gen, handler := cx.handler, evNo := cx.evNo, order := gid } }
        let s := modNest s n fun x => { x with cors := x.cors.filter (· != c) }
        kick (modInst s n i fun v => { v with gid := some gid }) x.part
      | none => match freeSlot cx 3 with
        | some slot => kick (modInst (newGrid s slot g) n i fun v => { v with gid := some gid }) x.part
        | none => atTime (tick s) (s.time + 1 + Config.delay s.freeCtr) (.nodeComplete n i)

/-- A new started node. -/
def newInst (s : State) (n : Nat) (v : NInst) : State × Nat :=
  let i := ((tget s.nests n).map (·.nextInst)).getD 0
  let s := modNest s n fun x => { x with insts := tset x.insts i v, nextInst := i + 1 }
  (match v.parent with
    | some p => modInst s n p fun v => { v with kids := v.kids ++ [i] }
    | none => s, i)

/-- Start a node: its leaves at once, its composites in their course (11 R199, R202, R203). -/
def startNode (n : Nat) : (fuel : Nat) → State → (node : Nat) → (parent : Option Nat) → (pos : Nat) → (place : List Nat) → State
  | 0, s, _, _, _, _ => s
  | f + 1, s, node, parent, pos, place =>
    match tget s.nests n with
    | none => s
    | some x =>
      let nd := nodeAt x node
      let (s, i) := newInst s n { node := node, parent := parent, pos := pos, place := place }
      let kid (j : Nat) : Nat := nd.kids.getD j 0
      match nd.kind with
      | 1 | 2 => startLeaf s n i
      | 3 => startNode n f s (kid 0) (some i) 0 place
      | 4 | 5 => startNode n f (startNode n f s (kid 0) (some i) 0 place) (kid 1) (some i) 0 place
      | 6 =>
        if fld nd.entry 10 1 = 1 then
          startJob s x.ctx { ops := [.words n i (fld nd.entry 16 8) (fld nd.entry 12 4)], queue := none, tag := x.qslot }
        else (List.range (farmWidth nd x.wide)).foldl (fun s j => startNode n f s (kid 0) (some i) j (place ++ [j])) s
      | _ => startNode n f s (kid 0) (some i) 0 []

/-! ### Cancels (11 R212) -/

inductive CItem where
  | inst (n i : Nat)
  | nest (n : Nat)
deriving DecidableEq, Repr

/-- Commands that never start: those of an ended block that use its scratchpad, or those still held (18 R358). -/
def dropCmds (s : State) (p : Cmd → Bool) : State :=
  (s.cmds.filter fun e => e.2.kind != 0 && e.2.st < 2 && p e.2).foldl (fun s e => endUnrun s e.1 11) s

/-- Cancel a grid: its placed blocks are asked to stop, the others are dropped; with no block left, so are the commands that it holds. -/
def cancelGrid (s : State) (gid : Nat) : State :=
  let s := modGrid s gid fun g => { g with cancelled := true }
  let bs := gridBlocks s gid
  let s := if bs.isEmpty then dropCmds s fun c => c.gid == gid && c.st == 0 else s
  let s := (bs.filter fun e => e.2.stage != .running).foldl (fun s e => cancelBlock s e.1) s
  after (setPreq s ((bs.filter fun e => e.2.stage == .running).map Prod.fst) 5) (.gridEnd gid)

def cancelOne (s : State) : CItem → State × List CItem
  | .nest n => match tget s.nests n with
    | none => (s, [])
    | some x =>
      if x.status.isSome then (s, [])
      else if x.insts.isEmpty then (endNest s n { code := 3 }, [])
      else (s, [.inst n 0])
  | .inst n i => match (tget s.nests n).bind fun x => tget x.insts i with
    | none => (s, [])
    | some v =>
      if v.status.isSome || v.cancelling then (s, [])
      else
        let s := modInst s n i fun v => { v with cancelling := true }
        match v.gid with
        | some g => (cancelGrid s g, (s.nests.filter fun e => e.2.gid == some g).map fun e => .nest e.1)
        | none =>
          if !v.kids.isEmpty then (s, v.kids.map (.inst n))
          else if v.logs = 0 then (endInst s n i { code := 3 }, [])
          else (s, [])

def cancelAll : (fuel : Nat) → State → List CItem → State
  | f + 1, s, c :: r =>
    let (s, more) := cancelOne s c
    cancelAll f s (more ++ r)
  | _, s, _ => s

/-- Cancel nodes and nests with everything below them. -/
def cancelNodes (s : State) (cs : List CItem) : State :=
  cancelAll (cs.length + s.nests.foldl (fun t x => t + 2 + 2 * x.2.insts.length) 0) s cs

/-! ### What a parent does (11 R199-R203, R210, R211) -/

/-- The source of a FARM is exhausted (11 R201). -/
def farmDry (x : Nest) (v : NInst) : Bool :=
  let nd := nodeAt x v.node
  v.stopped || (match fld nd.entry 10 1 with
    | 0 => v.next ≥ fld nd.entry 12 4
    | 1 => v.next ≥ v.items.length
    | _ => match v.parent.bind fun p => tget x.insts p with
      | some pv => pv.aDone && pv.chan.isEmpty
      | none => true)

/-- A FARM completes once its source is exhausted, its instances have completed and its log is written. -/
def farmCheck (s : State) (n i : Nat) : State :=
  match (tget s.nests n).bind fun x => (tget x.insts i).map fun v => (x, v) with
  | none => s
  | some (x, v) => if v.kids.isEmpty && v.logs = 0 && (v.cancelling || farmDry x v) then endInst s n i (combine v.got) else s

/-- A failed instance of a FARM is logged. -/
def logFail (s : State) (n i : Nat) (x : Nest) (nd : Node) (item : Word) : State :=
  let log := fld nd.entry 24 8
  if log = 0 then s
  else startJob (modInst s n i fun v => { v with logs := v.logs + 1 }) x.ctx
    { ops := [.logItem log (fld nd.entry 32 4) item, .add log 1, .logged n i], queue := none, tag := x.qslot }

/-- A child `c` of node `p` has completed with a status. -/
def childDone (s : State) (n : Nat) (x : Nest) (p : Nat) (pv : NInst) (c : Nat) (cv : NInst) (st : NStat) : State :=
  let nd := nodeAt x pv.node
  let left := pv.kids.filter (· != c)
  let got := pv.got ++ [st]
  let bad := st.code = 1 || st.code = 3
  let s := modInst s n p fun v => { v with kids := left, got := got }
  match nd.kind with
  | 3 =>
    if bad || pv.cancelling || cv.node == nd.kids.getD 1 0 then endInst s n p (combine got)
    else startNode n 16 s (nd.kids.getD 1 0) (some p) 0 pv.place
  | 4 | 5 =>
    let s := if nd.kind = 5 then
        wakeRetry (modInst s n p fun v =>
          if cv.node == nd.kids.getD 0 0 then { v with aDone := true } else { v with bDone := true }) fun _ w => w == .chan
      else s
    let s := if bad then cancelNodes s (left.map (.inst n)) else s
    if left.isEmpty then endInst s n p (combine got) else s
  | 6 =>
    let fails := bad && !cv.cancelling
    let stop := fails && (fld nd.entry 1 1).testBit 0
    let s := if fails then logFail s n p x nd cv.lastItem else s
    let s := if stop then cancelNodes (modInst s n p fun v => { v with stopped := true }) (left.map (.inst n)) else s
    if pv.cancelling || stop || farmDry x pv then farmCheck s n p
    else startNode n 16 s (nd.kids.getD 0 0) (some p) cv.pos (pv.place ++ [cv.pos])
  | _ =>
    if bad || pv.cancelling then endInst s n p (combine got)
    else
      let s := modInst s n p fun v => { v with iter := v.iter + 1 }
      startJob s x.ctx { ops := [.words n p (fld nd.entry 8 8) 1], queue := none, tag := x.qslot }

/-- The device has read what a node waits for: COND of a LOOP, or the counts of a FARM. -/
def dataDone (s : State) (n : Nat) (x : Nest) (i : Nat) (v : NInst) (d : List Nat) : State :=
  let nd := nodeAt x v.node
  let s := modInst s n i fun v => { v with data := none }
  if nd.kind = 7 then
    let limit := fld nd.entry 4 4
    if d.getD 0 0 != 0 || (limit != 0 && v.iter ≥ limit) then endInst s n i (combine v.got)
    else startNode n 16 s (nd.kids.getD 0 0) (some i) 0 []
  else
    let s := modInst s n i fun v => { v with items := (List.range d.length).filter fun j => d.getD j 0 != 0 }
    (List.range (farmWidth nd x.wide)).foldl (fun s j => startNode n 16 s (nd.kids.getD 0 0) (some i) j (v.place ++ [j])) s

/-- NODE_COMPLETE (11 R199): a node that has its status completes, and its parent starts, replaces, repeats or completes. -/
def execNodeComplete (n i : Nat) (s : State) : Out :=
  match (tget s.nests n).bind fun x => (tget x.insts i).map fun v => (x, v) with
  | none => .next s
  | some (x, v) =>
    match v.status with
    | none =>
      if isLeaf (nodeAt x v.node) then .next (if v.gid.isNone then startLeaf s n i else s)
      else if let some code := v.lost then .next (failInst s n i code)
      else match v.data with
        | some d => .next (dataDone s n x i v d)
        | none => .next (if (nodeAt x v.node).kind = 6 && v.logs = 0 && !v.got.isEmpty then farmCheck s n i else s)
    | some st =>
      if v.told then .next s
      else
        let s := modInst s n i fun v => { v with told := true }
        match v.parent with
        | none => .next (endNest s n st)
        | some p => match tget x.insts p with
          | some pv => if pv.status.isSome then .next s
            else
              let s := modNest s n fun x => { x with insts := tdel x.insts i }
              .next (childDone s n x p pv i v st)
          | none => .next s

/-! ### Registering a nest -/

/-- The status of a malformed nest (11 R195). -/
def badNest (h : Nat) : NStat := { code := 1, fcode := 0x40, handle := h }

/-- A new nest, with its width and claim (11 R206): it waits for its claim, or completes at once with TOOBIG. -/
def addNest (s : State) (x : Nest) : State × Nat :=
  let n := s.nextId
  let shape := seatShape x.nodes
  let wide := claimAt x.nodes true 17 0
  let narrow := claimAt x.nodes false 17 0
  let w := claimFits s x.ctx x.part n shape wide
  let c := if w then wide else narrow
  let x := { x with shape := shape, wide := w, seatN := c.1, chanN := c.2 }
  let s := newId s
  let s := { s with nests := tset s.nests n x }
  if w || claimFits s x.ctx x.part n shape narrow then (arrived (after s (.applyClaim n)) x.part x.prio, n) else (endNest s n { code := 2 }, n)

/-- A nest that is malformed at a handle: it completes at once. -/
def addBadNest (s : State) (x : Nest) (h : Nat) : State × Nat :=
  let n := s.nextId
  let s := newId s
  (endNest { s with nests := tset s.nests n x } n (badNest h), n)

end Sys2Proof.Machine
end

