-- ==== Sys2Proof/Machine/Combin.lean ====
section
/-! DEFINITION. Class 0xC: callables, nests, pipe channels and farm items (19 R368-R377, 11 R193-R213). -/
namespace Sys2Proof.Machine

/-! ### Operands -/

/-- A uniform operand: the value in the lowest active lane. -/
def uniA (e : Env) (f : FmtR) : Nat := (src e 0 f.ka f.a (low e)).toNat
def uniBr (e : Env) (f : FmtR) : Nat := (src e 0 f.kb f.b (low e)).toNat
def uniC (e : Env) (f : FmtR) : Nat := (src e 0 f.kc f.c (low e)).toNat
def uniPairB (e : Env) (f : FmtR) : Nat := (pr e f.kb f.b (low e)).toNat

def illegal (e : Env) (op : Nat) : Act := .trap 1 op e.act 0

/-- The base of the callable table (11 R193). -/
def tableBase (e : Env) : Nat := (((tget e.s.ctxs e.grid.ctx).bind (·.tbase))).getD 0

/-- How an instruction reads the table and the structures that it names. -/
def instRead (e : Env) (op : Nat) : Reader := fun s va n =>
  let base := va / 64 * 64
  let k := (va + n - base + 63) / 64
  match arenaTrap1 e base (64 * k) with
  | some a => .error a
  | none => (fetchAt e op k s base).map fun (s, bs) => (s, (bs.drop (va - base)).take n)

/-! ### Constructors (19 R371) -/

/-- The first FREE entry from `h` on, entry 0 skipped; `fuel` entries are looked at. -/
def scanFree (e : Env) (op : Nat) : (fuel : Nat) → State → (h : Nat) → Except Act (State × Option Nat)
  | 0, s, _ => .ok (s, none)
  | f + 1, s, h =>
    let h := if h = 0 || h ≥ 65536 then 1 else h
    match instRead e op s (tableBase e + 64 * h) 64 with
    | .error a => .error a
    | .ok (s, b) => if fld b 0 1 % 16 = 0 then .ok (s, some h) else scanFree e op f s (h + 1)

/-- Write an entry of the table. -/
def putEntry (e : Env) (op : Nat) (s : State) (h : Nat) (bs : List Byte) : Except Act State :=
  let va := tableBase e + 64 * h
  match translate s e.grid.ctx va .write e.unit with
  | (s, .error x) => .error (.flt s [(x, va)])
  | (s, .ok (.key a pcie)) => .ok (storeLane e s a pcie bs)
  | (s, .ok (.remote p pa)) =>
    if flowBad s e.grid.ctx p true then .error (linkAct e op 0)
    else if flowClash e s bs.length [(0, .remote p pa)] then .error (.wait s .flow)
    else .ok (sendLane e s op p pa va bs.length 0 0 7 1 2 true false bs)

/-- Allocate an entry and write it; D receives its handle, 0 when the table is full. -/
def construct (e : Env) (op : Nat) (f : FmtR) (bs : List Byte) : Act :=
  let cur := ((tget e.s.ctxs e.grid.ctx).map (·.cursor)).getD 1
  match scanFree e op 65535 e.s cur with
  | .error a => a
  | .ok (s, none) => .done (dropInbox s e.tid) (wrD e f.kd f.d fun _ => 0)
  | .ok (s, some h) => match putEntry e op s h bs with
    | .error a => a
    | .ok s =>
      let s := modCtx (dropInbox s e.tid) e.grid.ctx fun cx => { cx with cursor := h + 1 }
      .done s (wrD e f.kd f.d fun _ => BitVec.ofNat 32 h)

/-- The 64-byte image at a scratchpad offset (19 R371). -/
def withImage (e : Env) (o : Nat) (k : List Byte → Act) : Act :=
  if o % 64 != 0 then .trap 2 0 e.act o
  else if o + 64 > spLimit e.grid.lrec then .trap 3 0 e.act o
  else if (linesOf o 64).any (e.blk.empty.contains ·) then .wait e.s (.line e.th.bid (linesOf o 64))
  else onePass e (k (spRead e.blk o 64))

/-- An entry: KIND, then bytes 1 to 63. -/
def entryOf (kind : Nat) (rest : List Byte) : List Byte := BitVec.ofNat 8 kind :: (rest ++ List.replicate 63 0).take 63

def buildLeaf (i : Instr) (kind : Nat) (f : FmtR) (e : Env) : Act :=
  if e.act == 0 then .done e.s []
  else withImage e (uniA e f) fun b => construct e (opOf i) f (entryOf kind (b.drop 1))

def buildTwo (i : Instr) (kind : Nat) (f : FmtR) (tail : List Byte) (e : Env) : Act :=
  if e.act == 0 then .done e.s []
  else if uniA e f ≥ 65536 || uniBr e f ≥ 65536 then illegal e (opOf i)
  else construct e (opOf i) f (entryOf kind ([0] ++ leBytes (uniA e f) 2 ++ leBytes (uniBr e f) 2 ++ tail))

/-- CFN (19 R371). -/
def execCfn (h : Hdr) (f : FmtR) (s : State) : Out := issue (.cfn h f) (buildLeaf (.cfn h f) 1 f) s
/-- CCOR (19 R371). -/
def execCcor (h : Hdr) (f : FmtR) (s : State) : Out := issue (.ccor h f) (buildLeaf (.ccor h f) 2 f) s
/-- CSEQ (19 R371). -/
def execCseq (h : Hdr) (f : FmtR) (s : State) : Out := issue (.cseq h f) (buildTwo (.cseq h f) 3 f []) s
/-- CPAR (19 R371). -/
def execCpar (h : Hdr) (f : FmtR) (s : State) : Out := issue (.cpar h f) (buildTwo (.cpar h f) 4 f []) s
/-- CPIPE (19 R371): DEPTH and ESIZE from C. -/
def execCpipe (h : Hdr) (f : FmtR) (s : State) : Out :=
  issue (.cpipe h f) (fun e => buildTwo (.cpipe h f) 5 f (leBytes (uniC e f) 4) e) s

/-- CFARM (19 R371): N and NMIN from C, the rest from the image. -/
def execCfarm (h : Hdr) (f : FmtR) (s : State) : Out :=
  issue (.cfarm h f) (fun e =>
    if e.act == 0 then .done e.s []
    else if uniA e f ≥ 65536 then illegal e (opOf (.cfarm h f))
    else withImage e (uniBr e f) fun b =>
      construct e (opOf (.cfarm h f)) f
        (entryOf 6 ((b.drop 1).take 1 ++ leBytes (uniA e f) 2 ++ [0, 0] ++ leBytes (uniC e f) 4 ++ b.drop 10))) s

/-- CLOOP (19 R371): COND from B:B+1, LIMIT from C. -/
def execCloop (h : Hdr) (f : FmtR) (s : State) : Out :=
  issue (.cloop h f) (fun e =>
    if e.act == 0 then .done e.s []
    else if uniA e f ≥ 65536 then illegal e (opOf (.cloop h f))
    else construct e (opOf (.cloop h f)) f
      (entryOf 7 ([0] ++ leBytes (uniA e f) 2 ++ leBytes (uniC e f) 4 ++ leBytes (uniPairB e f) 8))) s

/-! ### CFREE (19 R372) -/

/-- CFREE (19 R372): bits 3:0 of byte 0 become 0. -/
def execCfree (h : Hdr) (f : FmtR) (s : State) : Out :=
  issue (.cfree h f) (fun e =>
    let a := uniA e f
    let va := tableBase e + 64 * a
    if e.act == 0 then .done e.s []
    else if a ≥ 65536 then illegal e (opOf (.cfree h f))
    else if a = 0 then .done e.s []
    else match translate e.s e.grid.ctx va .write e.unit with
      | (s, .error x) => .flt s [(x, va)]
      | (s, .ok (.key k pcie)) => .done (storeLane e s k pcie [s.mem.read k &&& 0xF0]) []
      | (s, .ok (.remote p pa)) =>
        if flowBad s e.grid.ctx p true then linkAct e (opOf (.cfree h f)) 0
        else if flowClash e s 4 [(0, .remote p pa)] then .wait s .flow
        else .done (sendLane e s (opOf (.cfree h f)) p pa va 4 0 0 6 1 3 false false ([5, 6] ++ leBytes 0xFFFFFFF0 4)) []) s

/-! ### APPLY and AWAITC (19 R370, R373, R374) -/

/-- The next nest number of a context: 21 bits, never 0. -/
def nextNest (i : Nat) : Nat := if i + 1 ≥ 2 ^ 21 then 1 else i + 1

/-- APPLY (19 R373). -/
def execApply (h : Hdr) (f : FmtR) (s : State) : Out :=
  issue (.apply h f) (fun e =>
    let root := uniA e f
    let argp := uniPairB e f
    if e.act == 0 then .done e.s []
    else if root ≥ 65536 then illegal e (opOf (.apply h f))
    else
      let ctx := e.grid.ctx
      let i := ((tget e.s.ctxs ctx).map (·.nestNo)).getD 1
      let reg (s : State) (ns : List Node) : State × Nest :=
        (modCtx (dropInbox (acquire e s 3) e.tid) ctx fun cx => { cx with nestNo := nextNest i },
         { ctx := ctx, gid := some e.blk.gid, queue := e.grid.queue, index := i, qslot := qtagOf e.s e.grid, argp := argp,
           prio := e.grid.prio, part := e.grid.part, nodes := ns })
      let hd := BitVec.ofNat 32 (qtagOf e.s e.grid % 128 * 2 ^ 21 + i)
      match snapWalk (instRead e (opOf (.apply h f))) { tbase := tableBase e, argp := argp, slots := e.grid.lrec.slots } 16 none e.s root [] with
      | .error (.act a) => a
      | .error (.bad s bad) =>
        let (s, x) := reg s []
        .done (addBadNest s x bad).1 (wrD e f.kd f.d fun _ => hd)
      | .ok (s, ns) =>
        let (s, x) := reg s ns
        .done (addNest s x).1 (wrD e f.kd f.d fun _ => hd)) s

/-- The nest that an apply handle names (19 R370). -/
def nestOf (s : State) (ctx h : Nat) : Option (Nat × Nest) :=
  tfind s.nests fun _ x => x.ctx == ctx && x.gid.isSome && x.qslot % 128 * 2 ^ 21 + x.index == h

/-- AWAITC (19 R374). -/
def execAwaitc (h : Hdr) (f : FmtR) (s : State) : Out :=
  issue (.awaitc h f) (fun e =>
    if e.act == 0 then .done e.s []
    else match nestOf e.s e.grid.ctx (uniA e f) with
      | none => illegal e (opOf (.awaitc h f))
      | some (n, x) => match x.status with
        | some w => .done (acquire e e.s 3) (wrPair e f.kd f.d fun _ => w)
        | none => if f.sub.getLsbD 0 then .done e.s (wrPair e f.kd f.d fun _ => 0xFF) else .wait e.s (.nest n)) s

/-! ### CYLD (19 R375) -/

/-- The leaf that a grid runs: its nest, its started node, the nodes above it from the inside out. -/
def leafOf (s : State) (g : Grid) : Option (Nat × Nest × Nat) :=
  g.nest.bind fun x => (tget s.nests x.1).map fun y => (x.1, y, x.2)

def ancestors (x : Nest) : (fuel : Nat) → Nat → List Nat
  | 0, _ => []
  | f + 1, i => match (tget x.insts i).bind (·.parent) with
    | some p => p :: ancestors x f p
    | none => []

/-- CYLD (19 R375). -/
def execCyld (h : Hdr) (f : FmtR) (s : State) : Out :=
  issue (.cyld h f) (fun e =>
    match (leafOf e.s e.grid).bind fun x => (tget x.2.1.insts x.2.2).map fun v => (nodeAt x.2.1 v.node).kind with
    | some 2 =>
      let s := if e.act == 0 then e.s else modGrid e.s e.blk.gid fun g => { g with yielded := true }
      .ctl (modThread s e.tid fun th =>
        advance (.cyld h f) e (endLanes { th with yielded := th.yielded || e.act != 0 } e.fi e.act))
    | _ => illegal e (opOf (.cyld h f))) s

/-! ### Channels (19 R376, 11 R200) -/

/-- The started node of a kind that `[… + n]` names. -/
def enclosing (x : Nest) (leaf kind n : Nat) : Option Nat :=
  ((ancestors x 32 leaf).filter fun i => ((tget x.insts i).map fun v => (nodeAt x v.node).kind) == some kind)[n]?

/-- The instance of a farm under which a leaf runs. -/
def instanceOf (x : Nest) (leaf farm : Nat) : Option Nat :=
  (leaf :: ancestors x 32 leaf).find? fun i => ((tget x.insts i).bind (·.parent)) == some farm

/-- Lanes of the active set that have not been served. -/
def unserved (e : Env) : List Nat := (lanesOf e.act).filter fun l => !e.fr.prog.any (·.1 == l)

def setProg (s : State) (e : Env) (pg : List (Nat × Word)) : State :=
  modThread s e.tid fun th => { th with frags := tmod th.frags e.fi fun f => { f with prog := pg } }

/-- Put items, lane by lane: the channel, who has been served, and whether everyone has. -/
def servePut (depth : Nat) (closed : Bool) (item : Nat → List Byte) :
    List Nat → List (List Byte) → List (Nat × Word) → List (List Byte) × List (Nat × Word) × Bool
  | [], ch, pg => (ch, pg, true)
  | l :: r, ch, pg =>
    if closed then servePut depth closed item r ch (pg ++ [(l, 0)])
    else if ch.length ≥ depth then (ch, pg, false)
    else servePut depth closed item r (ch ++ [item l]) (pg ++ [(l, 1)])

/-- Get items, lane by lane: also the lanes that received one. -/
def serveGet (closed : Bool) :
    List Nat → List (List Byte) → List (Nat × Word) → List (Nat × List Byte) → List (List Byte) × List (Nat × Word) × List (Nat × List Byte) × Bool
  | [], ch, pg, out => (ch, pg, out, true)
  | l :: r, ch, pg, out =>
    match ch with
    | it :: rest => serveGet closed r rest (pg ++ [(l, 1)]) (out ++ [(l, it)])
    | [] => if closed then serveGet closed r [] (pg ++ [(l, 0)]) out else ([], pg, out, false)

/-- The predicate of a completed CHPUT or CHGET. -/
def chanRes (e : Env) (f : FmtR) (pg : List (Nat × Word)) : List Res :=
  wrP e f.d fun l => pg.any fun x => x.1 == l && x.2 == 1

/-- The channel of an instruction, its item size and the checks of R376. -/
def withChan (i : Instr) (f : FmtR) (e : Env) (k : (n p : Nat) → NInst → (depth size : Nat) → (Nat → Nat) → Act) : Act :=
  match (leafOf e.s e.grid).bind fun x => (enclosing x.2.1 x.2.2 5 f.b.toNat).bind fun p => (tget x.2.1.insts p).map fun v => (x.1, p, v, nodeAt x.2.1 v.node) with
  | none => illegal e (opOf i)
  | some (n, p, v, nd) =>
    let size := fld nd.entry 8 2
    let o (l : Nat) : Nat := (src e 0 f.ka f.a l).toNat
    match pickTrap e 2 (fun _ => 0) (fun l => o l % 4 != 0) o <|> pickTrap e 3 (fun _ => 0) (fun l => o l + size > spLimit e.grid.lrec) o with
    | some a => a
    | none => if e.act == 0 then .done e.s [] else k n p v (fld nd.entry 6 2) size o

/-- The passes of the strand port, which `%sppass` does not count (19 R376). -/
def chanPasses (e : Env) (s : State) (size : Nat) (o : Nat → Nat) : State :=
  count s (e.blk.core / 8) 4 ((List.range (size / 4)).foldl (fun t j => t + passes e.act 4 false fun l => o l + 4 * j) 0)

def wakeChan (s : State) : State := wakeRetry s fun _ w => w == .chan

/-- CHPUT (19 R376). -/
def execChput (h : Hdr) (f : FmtR) (s : State) : Out :=
  issue (.chput h f) (fun e => withChan (.chput h f) f e fun n p v depth size o =>
    let ls := dedup ((unserved e).flatMap fun l => linesOf (o l) size)
    if ls.any (e.blk.empty.contains ·) then .wait e.s (.line e.th.bid ls)
    else
      let (ch, pg, all) := servePut depth (v.aDone || v.bDone) (fun l => spRead e.blk (o l) size) (unserved e) v.chan e.fr.prog
      let s := wakeChan (modInst e.s n p fun v => { v with chan := ch })
      if all then .done (chanPasses e (setProg s e []) size o) (chanRes e f pg) else .wait (setProg s e pg) .chan) s

/-- CHGET (19 R376). -/
def execChget (h : Hdr) (f : FmtR) (s : State) : Out :=
  issue (.chget h f) (fun e => withChan (.chget h f) f e fun n p v _ size o =>
    match pickTrap e 10 (fun _ => 0) (fun l => (unserved e).contains l && (linesOf (o l) size).any (lineFilling e.s e.th.bid e.blk ·)) o with
    | some a => a
    | none =>
      let (ch, pg, out, all) := serveGet v.aDone (unserved e) v.chan e.fr.prog []
      let s := wakeChan (modInst e.s n p fun v => { v with chan := ch })
      let s := out.foldl (fun s x => spWrite s e.th.bid (o x.1) x.2) s
      let s := if out.isEmpty then s else acquire e s 3
      if all then .done (chanPasses e (setProg s e []) size o) (chanRes e f pg) else .wait (setProg s e pg) .chan) s

/-! ### FTAKE (19 R377, 11 R201) -/

/-- One take: the item, the farm and the channel that it comes from; none while the channel is empty and open. -/
def takeItem (nd : Node) (v : NInst) (pv : Option NInst) : Option (Word × NInst × Option NInst) :=
  let none' : Option (Word × NInst × Option NInst) := some (0xFFFFFFFF, v, pv)
  if v.stopped then none'
  else match fld nd.entry 10 1 with
    | 0 => if v.next < fld nd.entry 12 4 then some (BitVec.ofNat 32 v.next, { v with next := v.next + 1 }, pv) else none'
    | 1 => if v.next < v.items.length then some (BitVec.ofNat 32 (v.items.getD v.next 0), { v with next := v.next + 1 }, pv) else none'
    | _ => match pv with
      | none => none'
      | some c => match c.chan with
        | it :: r => some (BitVec.ofNat 32 (leNat it), v, some { c with chan := r })
        | [] => if c.aDone then none' else none

/-- Takes, lane by lane. -/
def takeLanes (nd : Node) : List Nat → NInst → Option NInst → List (Nat × Word) → NInst × Option NInst × List (Nat × Word) × Bool
  | [], v, pv, pg => (v, pv, pg, true)
  | l :: r, v, pv, pg => match takeItem nd v pv with
    | some (x, v, pv) => takeLanes nd r v pv (pg ++ [(l, x)])
    | none => (v, pv, pg, false)

/-- What a take records: the item of the highest lane that received one. -/
def recorded (pg : List (Nat × Word)) : Word := ((pg.filter fun x => x.2 != 0xFFFFFFFF).getLast?.map Prod.snd).getD 0xFFFFFFFF

/-- FTAKE (19 R377). -/
def execFtake (h : Hdr) (f : FmtR) (s : State) : Out :=
  issue (.ftake h f) (fun e =>
    match (leafOf e.s e.grid).bind fun x => (enclosing x.2.1 x.2.2 6 f.a.toNat).bind fun p => (tget x.2.1.insts p).map fun v => (x, p, v) with
    | none => illegal e (opOf (.ftake h f))
    | some ((n, x, leaf), p, v) =>
      if e.act == 0 then .done e.s []
      else
        let nd := nodeAt x v.node
        let uni := f.sub.getLsbD 0
        let ls := if uni then (if e.fr.prog.isEmpty then [low e] else []) else unserved e
        let pv := v.parent.bind fun q => tget x.insts q
        let (v', pv', pg, all) := takeLanes nd ls v pv e.fr.prog
        let s := modInst e.s n p fun _ => v'
        let s := match v.parent, pv' with
          | some q, some c => modInst s n q fun _ => c
          | _, _ => s
        let fromChan := fld nd.entry 10 1 = 2
        let s := if fromChan then wakeChan s else s
        let s := if fromChan && (pg.drop e.fr.prog.length).any (·.2 != 0xFFFFFFFF) then acquire e s 3 else s
        let s := if all || recorded pg != 0xFFFFFFFF then
            (match instanceOf x leaf p with
            | some c => modInst s n c fun v => { v with lastItem := recorded pg }
            | none => s)
          else s
        if !all then .wait (setProg s e pg) .chan
        else
          let s := setProg s e []
          if uni then .done s (wrD e f.kd f.d fun _ => ((pg.head?).map Prod.snd).getD 0xFFFFFFFF)
          else .done s (wrD e false f.d fun l => ((pg.find? (·.1 == l)).map Prod.snd).getD 0xFFFFFFFF)) s

end Sys2Proof.Machine
end

