-- ==== Sys2Proof/Machine/Matrix.lean ====
section
/-! DEFINITION. Class 0xB: matrix commands, their queue and their arithmetic (18 R359-R367, 07 R108-R112, 12 R224-R231,
10 R190). -/
namespace Sys2Proof.Machine

/-! ### Arithmetic (12 R215, R216, R225-R231, 18 R361, R362) -/

/-- Elements of a row or column, floating or integer. -/
abbrev ElF := Nat → FVal
abbrev ElI := Nat → Int

def le16 (rd : Nat → Byte) (o : Nat) : Nat := (rd o).toNat + 256 * (rd (o + 1)).toNat
def le32 (rd : Nat → Byte) (o : Nat) : Nat := le16 rd o + 65536 * le16 rd (o + 2)

/-- The 16-bit format of a kind; FP32X slices are BF16. -/
def halfFmt (kind : Nat) : FFmt := if kind = 2 then f16 else bf16

/-- The byte that the first `p` planes give, bit by bit. -/
def planeByte (p : Nat) (bit : Nat → Bool) : Byte :=
  BitVec.ofNat 8 ((List.range p).foldl (fun x q => x + (if bit q then 2 ^ (7 - q) else 0)) 0)

/-- A[i][k] of a floating kind, at `a`. -/
def aFlt (rd : Nat → Byte) (kind : Nat) (ftz : Bool) (a i k : Nat) : FVal :=
  fdec (halfFmt kind) (flush (halfFmt kind) ftz (le16 rd (a + 64 * k + 2 * i)))

/-- B[k][j] of a floating kind, at `b`. -/
def bFlt (rd : Nat → Byte) (kind : Nat) (ftz : Bool) (b k j : Nat) : FVal :=
  fdec (halfFmt kind) (flush (halfFmt kind) ftz (le16 rd (b + 256 * (k / 2) + 4 * j + 2 * (k % 2))))

/-- A[i][k] of an integer kind. -/
def aInt (rd : Nat → Byte) (s : Dword) (a kk i k : Nat) : Int :=
  match slotA s with
  | 3 => (rd (a + 32 * k + i)).toInt
  | 4 => (rd (a + 32 * k + i)).toNat
  | _ =>
    let ps := 128 * ((kk + 31) / 32)
    bpnVal (planeByte (slotApl s) fun q => (rd (a + q * ps + 4 * k + i / 8)).getLsbD (i % 8)) (slotApl s) (slotMid s)

/-- B[k][j] of an integer kind. -/
def bInt (rd : Nat → Byte) (s : Dword) (b kk k j : Nat) : Int :=
  match slotB s with
  | 3 => (rd (b + 256 * (k / 4) + 4 * j + k % 4)).toInt
  | 4 => (rd (b + 256 * (k / 4) + 4 * j + k % 4)).toNat
  | _ =>
    bpnVal (planeByte (slotBpl s) fun q =>
      (rd (b + 256 * (q * ((kk + 31) / 32) + k / 32) + 4 * j + k % 32 / 8)).getLsbD (k % 8)) (slotBpl s) (slotMid s)

/-- Groups of products added to an FP32 accumulator, one rounding per group (12 R225, R226). -/
def accGroups (ftz : Bool) (groups : Nat) (prods : Nat → List FVal) (c : Nat) : Nat :=
  (List.range groups).foldl (fun c g => fround f32 0 ftz (fsum 0 (fdec f32 c :: prods g))) c

/-- The products of group g of a dense pass. -/
def densePass (x y : ElF) (g : Nat) : List FVal := (List.range 4).map fun t => fmul (x (4 * g + t)) (y (4 * g + t))

/-- The six passes of FP32X, as slices of A and of B (12 R231). -/
def xPasses : List (Nat × Nat) := [(2, 0), (0, 2), (1, 1), (1, 0), (0, 1), (0, 0)]

/-- An INT32 element: the exact sum, and whether it ever left the range (12 R227). -/
def accInt (kk : Nat) (x y : ElI) (c : Int) : Int × Bool :=
  (List.range (kk / 4)).foldl (fun (r : Int × Bool) g =>
    let t := (List.range 4).foldl (fun t u => t + x (4 * g + u) * y (4 * g + u)) r.1
    (t, r.2 || t < -(2 ^ 31) || t ≥ 2 ^ 31)) (c, false)

/-- An FP32 element under SCALE = 2 (12 R228). -/
def accScaled (ftz : Bool) (kk : Nat) (x y : ElI) (scale : Nat → Nat) (c : Nat) : Nat :=
  accGroups ftz (kk / 32) (fun g =>
    let t := (List.range 32).foldl (fun t u => t + x (32 * g + u) * y (32 * g + u)) 0
    [fmul (intVal t) (fdec f32 (scale g))]) c

/-- The 2-bit indices of group g, row i (18 R362). -/
def sparseIdx (ws : List (BitVec 1024)) (sel g i : Nat) : Nat × Nat :=
  let w := ((ws.getD (g / 8) 0).toNat / 2 ^ (32 * ((i + sel) % 32))) % 2 ^ 32
  let nib := w / 2 ^ (4 * (g % 8)) % 16
  (nib % 4, nib / 4)

/-- The products of group g of a 2:4-sparse row. -/
def sparsePass (rd : Nat → Byte) (kind : Nat) (ftz : Bool) (a i : Nat) (ws : List (BitVec 1024)) (sel : Nat) (y : ElF) (g : Nat) : List FVal :=
  let el (o : Nat) : FVal := fdec (halfFmt kind) (flush (halfFmt kind) ftz (le16 rd (a + 128 * g + 4 * i + o)))
  let ix := sparseIdx ws sel g i
  [fmul (el 0) (y (4 * g + ix.1)), fmul (el 2) (y (4 * g + ix.2))]

/-- One element after a matrix command: its 32 bits, and whether it overflowed. `sp`: the scratchpad bytes that a pass over A
streamed; `ts`: bytes of the tile store; `ftz`, `res`: subnormal inputs, and results, are flushed (12 R226, 18 R366). -/
def mmaElem (c : MxCmd) (sp : Nat → Nat → Byte) (ts : Nat → Byte) (ftz res : Bool) (acc i j : Nat) : Nat × Bool :=
  let s := c.slot
  let old := le32 ts (acc + 256 * i + 4 * j)
  let c0 := flush f32 ftz old
  if c.op = 0x2C1 then
    (accGroups res (c.k / 4) (sparsePass (sp 0) (slotA s) ftz c.a i c.ws c.sel fun k => bFlt ts (slotB s) ftz c.b k j) c0, false)
  else if slotA s = 7 then
    (((List.range 6).zip xPasses).foldl (fun v p => accGroups res (c.k / 4)
      (densePass (aFlt (sp p.1) 1 ftz (c.a + 64 * c.k * p.2.1) i) (fun k => bFlt ts 1 ftz (c.b + 128 * c.k * p.2.2) k j)) v) c0, false)
  else if isIntKind (slotA s) then
    (if slotC s = 5 then
      let r := accInt c.k (aInt (sp 0) s c.a c.k i) (fun k => bInt ts s c.b c.k k j) (BitVec.ofNat 32 old).toInt
      ((BitVec.ofInt 32 r.1).toNat, r.2)
    else (accScaled res c.k (aInt (sp 0) s c.a c.k i) (fun k => bInt ts s c.b c.k k j) (fun h => le32 (sp 0) (c.soff + 4 * h)) c0, false))
  else (accGroups res (c.k / 4) (densePass (aFlt (sp 0) (slotA s) ftz c.a i) (fun k => bFlt ts (slotB s) ftz c.b k j)) c0, false)

/-! ### Operands and footprints -/

/-- Bytes of an A operand, without scales (07 R111). -/
def aBytes (s : Dword) (sparse : Bool) (k : Nat) : Nat :=
  if sparse then 32 * k
  else match slotA s with
    | 3 | 4 => 32 * k
    | 6 => slotApl s * (128 * ((k + 31) / 32))
    | 7 => 192 * k
    | _ => 64 * k

/-- Tile-store rows of a B operand (07 R109, 12 R216, R231). -/
def bRows (s : Dword) (k : Nat) : Nat :=
  match slotB s with
  | 3 | 4 => k / 4
  | 6 => slotBpl s * ((k + 31) / 32)
  | 7 => 3 * (k / 2)
  | _ => k / 2

def up128 (n : Nat) : Nat := (n + 127) / 128 * 128

/-- Matrix commands of a thread that are not complete. -/
def mxLeft (s : State) (tid : Nat) : Nat :=
  (s.mxq.flatMap fun q => q.2.filter (·.tid == tid)).length + (s.blocks.flatMap fun b => b.2.mxSaved.filter (·.tid == tid)).length

def mxQueue (s : State) (core : Nat) : List MxCmd := (tget s.mxq core).getD []

/-- The queue of the bound core has no room for a command, or commands of the block's are still to enter it (07 R112). -/
def mxFull (e : Env) (s : State) : Bool := (mxQueue s e.blk.core).length ≥ 16 || !e.blk.mxSaved.isEmpty

/-- Put a command into the queue of the bound core (07 R112); the issue is a release at block scope (09 R158). -/
def mxPush (e : Env) (s : State) (c : MxCmd) : Act :=
  let q := mxQueue s e.blk.core
  if mxFull e s then .wait s .queue
  else match release e s c.op 1 true none with
  | .error a => a
  | .ok s =>
    let s := { s with mxq := tset s.mxq e.blk.core (q ++ [{ c with tid := e.tid, pc := e.fr.pc, tok := e.tok }]) }
    .defer (if q.isEmpty then after s (.matrixCommandComplete e.blk.core) else s) .run

def mxIllegal (e : Env) (op : Nat) : Act := .trap 1 op e.act 0

/-- The shadow of an accumulator while speculation is open, and whether it must be loaded first (18 R366). -/
def shadowOf (e : Env) (s : State) (acc : Nat) : Except Act (State × Nat × Option Nat) :=
  match e.th.spec with
  | none => .ok (s, acc, none)
  | some sp =>
    let base := tsLimit e.grid.lrec
    match sp.shadows.find? (·.1 == acc) with
    | some x => .ok (s, base + 8192 * x.2, none)
    | none =>
      let g := sp.shadows.length
      if g ≥ e.grid.lrec.shadow / 32 then .error (.trap 4 0 e.act acc)
      else .ok (modThread s e.tid fun th => { th with spec := some { sp with shadows := sp.shadows ++ [(acc, g)] } }, base + 8192 * g, some acc)

/-- The accumulator's part of a footprint. -/
def accFp (e : Env) (acc : Nat) (fresh : Option Nat) : List (Nat × Nat × Bool) :=
  if e.th.spec.isNone then [(acc, 8192, true)] else fresh.toList.map fun a => (a, 8192, false)

/-- The checks of a multiply and its entry into the queue (18 R359, R361-R363). -/
def mmaAct (e : Env) (s : State) (c : MxCmd) : Act :=
  let r := e.grid.lrec
  let ab := aBytes c.slot (c.op == 0x2C1) c.k
  let scaled := slotScale c.slot == 2
  let soff := if c.op = 0x2C2 then c.soff else up128 (c.a + ab)
  let aEnd := if scaled && c.op != 0x2C2 then soff + c.k / 8 else c.a + ab
  if c.acc % 256 != 0 then .trap 2 0 e.act c.acc
  else if c.b % 256 != 0 then .trap 2 0 e.act c.b
  else if c.a % 128 != 0 then .trap 2 0 e.act c.a
  else if scaled && soff % 128 != 0 then .trap 2 0 e.act soff
  else if aEnd > spLimit r then .trap 3 0 e.act c.a
  else if scaled && soff + c.k / 8 > spLimit r then .trap 3 0 e.act soff
  else if c.b + 256 * bRows c.slot c.k > tsLimit r then .trap 4 0 e.act c.b
  else if c.acc + 8192 > tsLimit r then .trap 4 0 e.act c.acc
  else if mxFull e s then .wait s .queue
  else match shadowOf e s c.acc with
    | .error a => a
    | .ok (s, acc, fresh) =>
      mxPush e s { c with
        acc := acc
        soff := soff
        fresh := fresh
        spec := e.th.spec.isSome
        fp := (c.b, 256 * bRows c.slot c.k, false) :: accFp e c.acc fresh }

/-- K obeys the slot (12 R224, 18 R361). -/
def kOk (s : Dword) (k : Nat) : Bool :=
  match slotStep s with
  | some st => k != 0 && k ≤ 65535 && k % st == 0
  | none => false

def mxSlot (e : Env) (f : FmtX) : Dword := e.grid.lrec.slots.getD (immBits f 30 28) 0

/-- K of a multiply. -/
def mxK (e : Env) (f : FmtX) : Nat :=
  if f.imm.getLsbD 27 then (vreg e (immBits f 10 0) 0).toNat else immBits f 15 0

/-- MMA (18 R361). -/
def execMma (h : Hdr) (f : FmtX) (s : State) : Out :=
  issue (.mma h f) (fun e =>
    let sl := mxSlot e f
    let k := mxK e f
    if !kOk sl k then mxIllegal e 0x2C0
    else if e.act == 0 then .done e.s []
    else mmaAct e e.s { tid := 0, op := 0x2C0, pc := 0, acc := (vreg e f.d.toNat 0).toNat, a := (vreg e f.a.toNat 0).toNat,
                        b := (vreg e f.b.toNat 0).toNat, k := k, slot := sl }) s

/-- MMASP (18 R362). -/
def execMmasp (h : Hdr) (f : FmtX) (s : State) : Out :=
  issue (.mmasp h f) (fun e =>
    let sl := mxSlot e f
    let k := if f.imm.getLsbD 27 then (vreg e (immBits f 10 0) 0).toNat else immBits f 10 0
    let m := immBits f 19 16
    if !kOk sl k || !(slotA sl == 1 || slotA sl == 2) || k > 32 * (16 - m) then mxIllegal e 0x2C1
    else if e.act == 0 then .done e.s []
    else mmaAct e e.s { tid := 0, op := 0x2C1, pc := 0, acc := (vreg e f.d.toNat 0).toNat, a := (vreg e f.a.toNat 0).toNat,
                        b := (vreg e f.b.toNat 0).toNat, k := k, slot := sl, sel := immBits f 25 21,
                        ws := (List.range (16 - m)).map fun j => sget e.th.w (m + j) }) s

/-- MMAG (18 R363). -/
def execMmag (h : Hdr) (f : FmtX) (s : State) : Out :=
  issue (.mmag h f) (fun e =>
    let sl := mxSlot e f
    let va := (vpair e f.a.toNat 0).toNat
    if (slotStep sl).isNone then mxIllegal e 0x2C2
    else if e.act == 0 then .done e.s []
    else if va % 64 != 0 then .trap 2 0 e.act va
    else match arenaTrap1 e va 64 with
      | some a => a
      | none => match fetchAt e 0x2C2 1 e.s va with
        | .error a => a
        | .ok (s, d) =>
          let n (lo k : Nat) : Nat := leNat ((d.drop lo).take k)
          let m := n 20 1
          let nn := n 21 1
          let c : MxCmd := { tid := 0, op := 0x2C2, pc := 0, acc := n 8 4, a := n 0 4, b := n 4 4, k := n 16 4, soff := n 12 4,
                             slot := sl, m := m, n := nn }
          if (d.drop 22).any (· != 0) || m > 32 || nn > 64 then mxIllegal e 0x2C2
          else if m = 0 || nn = 0 then mxPush e (dropInbox s e.tid) { c with k := 0 }
          else if !kOk sl c.k || (slotScale sl != 2 && c.soff != 0) then mxIllegal e 0x2C2
          else mmaAct e (dropInbox s e.tid) c) s

/-- MXZ (18 R364). -/
def execMxz (h : Hdr) (f : FmtX) (s : State) : Out :=
  issue (.mxz h f) (fun e =>
    let acc := (vreg e f.d.toNat 0).toNat
    if e.act == 0 then .done e.s []
    else if acc % 256 != 0 then .trap 2 0 e.act acc
    else if acc + 8192 > tsLimit e.grid.lrec then .trap 4 0 e.act acc
    else if mxFull e e.s then .wait e.s .queue
    else match shadowOf e e.s acc with
      | .error a => a
      | .ok (s, x, fresh) =>
        mxPush e s { tid := 0, op := 0x2C3, pc := 0, acc := x, fresh := fresh, spec := e.th.spec.isSome, fp := accFp e acc fresh }) s

/-! ### Drains and copies -/

/-- The pieces of rows in memory, none crossing a granule: offset in the data, length, address. -/
def rowPieces (rows len dst pitch : Nat) : List (Nat × Nat × Nat) :=
  (List.range rows).flatMap fun i =>
    let va := (dst + i * pitch) % 2 ^ 64
    let k := min len (4096 - va % 4096)
    (i * len, k, va) :: (if k < len then [(i * len + k, len - k, (va + k) % 2 ^ 64)] else [])

/-- The pieces that a drain or a bulk load has in memory. -/
def mxPieces (c : MxCmd) : List (Nat × Nat × Nat) :=
  if c.op = 0x2C4 then rowPieces 32 (if c.mode = 2 then 64 else 256) c.at' c.pitch else rowPieces c.rows 256 c.at' 256

/-- Where the pieces lie. -/
def segsOf (ps : List (Nat × Nat × Nat)) (ts : List (Nat × Tgt)) : List (Nat × Nat × Nat × Option Nat) :=
  (ps.zip ts).map fun (p, t) => match t.2 with
    | .key k _ => (p.1, p.2.1, k, none)
    | .remote pk pa => (p.1, p.2.1, pa, some pk)

/-- Translate pieces at issue: all of them, or the instruction faults with every page that fails (18 R359, 07 R120). -/
def mxSegs (e : Env) (op : Nat) (u : Use) (s : State) (ps : List (Nat × Nat × Nat)) : Except Act (State × List (Nat × Nat × Nat × Option Nat)) :=
  match xlateAll s e.grid.ctx u e.unit (ps.map fun p => (p.2.2, 0, p.2.1)) with
  | .error (s, bad) => .error (notNow s bad)
  | .ok (s, ts) =>
    if ts.any fun t => match t.2 with | .remote p _ => flowBad s e.grid.ctx p true | _ => false then .error (linkAct e op 0)
    else .ok (s, segsOf ps ts)

/-- The first piece that fails checks 1-4 of R138. -/
def piecesTrap (e : Env) (ps : List (Nat × Nat × Nat)) : Option Act :=
  (ps.findSome? fun p => (arenaCode e p.2.2).map fun c => (c, p.2.2)).map fun x => .trap x.1 (bitsOf x.2 55 53) e.act x.2

/-- MXDR (18 R365). -/
def execMxdr (h : Hdr) (f : FmtX) (s : State) : Out :=
  issue (.mxdr h f) (fun e =>
    let sl := mxSlot e f
    let mode := immBits f 27 26
    let dmem := f.imm.getLsbD 25
    let acc := (vreg e f.d.toNat 0).toNat
    let dst := if dmem then (vpair e f.b.toNat 0).toNat else (vreg e f.b.toNat 0).toNat
    let rb := if mode = 2 then 64 else 256
    let al := if mode = 2 then 1 else 4
    let pitch := if immBits f 15 0 = 0 then rb else immBits f 15 0
    let c : MxCmd := { tid := 0, op := 0x2C4, pc := 0, acc := acc, slot := sl, dmem := dmem, at' := dst, pitch := pitch,
                       mode := mode, fp := [(acc, 8192, false)] }
    let spLines := dedup ((List.range 32).flatMap fun i => linesOf (dst + i * pitch) rb)
    if (slotStep sl).isNone || e.th.spec.isSome || pitch < rb then mxIllegal e 0x2C4
    else if e.act == 0 then .done e.s []
    else if acc % 256 != 0 then .trap 2 0 e.act acc
    else if dst % al != 0 || pitch % al != 0 then .trap 2 0 e.act dst
    else if acc + 8192 > tsLimit e.grid.lrec then .trap 4 0 e.act acc
    else if dmem then
      let ps := rowPieces 32 rb dst pitch
      match piecesTrap e ps with
      | some a => a
      | none => match mxSegs e 0x2C4 .write e.s ps with
        | .error a => a
        | .ok (s, segs) => mxPush e s { c with segs := segs }
    else if dst + 31 * pitch + rb > spLimit e.grid.lrec then .trap 3 0 e.act dst
    else if spLines.any fun l => lineFilling e.s e.th.bid e.blk l then
      .wait e.s (.line e.th.bid (spLines.filter fun l => lineFilling e.s e.th.bid e.blk l))
    else match mxPush e (emptyLines e.s e.th.bid spLines) { c with marked := spLines } with
      | .wait _ w => .wait e.s w
      | a => a) s

/-- MXBL (18 R364). -/
def execMxbl (h : Hdr) (f : FmtX) (s : State) : Out :=
  issue (.mxbl h f) (fun e =>
    let dmem := f.imm.getLsbD 25
    let rows := immBits f 13 0
    let ts := (vreg e f.d.toNat 0).toNat
    let src' := if dmem then (vpair e f.a.toNat 0).toNat else (vreg e f.a.toNat 0).toNat
    let c : MxCmd := { tid := 0, op := 0x2C5, pc := 0, acc := ts, at' := src', dmem := dmem, rows := rows, fp := [(ts, 256 * rows, true)] }
    if e.th.spec.isSome then mxIllegal e 0x2C5
    else if e.act == 0 then .done e.s []
    else if ts % 256 != 0 then .trap 2 0 e.act ts
    else if src' % (if dmem then 256 else 128) != 0 then .trap 2 0 e.act src'
    else if ts + 256 * rows > tsLimit e.grid.lrec then .trap 4 0 e.act ts
    else if !dmem && src' + 256 * rows > spLimit e.grid.lrec then .trap 3 0 e.act src'
    else if dmem then
      let ps := rowPieces rows 256 src' 256
      match piecesTrap e ps with
      | some a => a
      | none => match mxSegs e 0x2C5 .read e.s ps with
        | .error a => a
        | .ok (s, segs) => mxPush e s { c with segs := segs }
    else mxPush e e.s c) s

/-! ### Speculation and waits -/

/-- MXSPEC (18 R366). -/
def execMxspec (h : Hdr) (f : FmtX) (s : State) : Out :=
  issue (.mxspec h f) (fun e =>
    if e.th.spec.isSome then mxIllegal e 0x2C6
    else if e.act == 0 then .done e.s []
    else if mxFull e e.s then .wait e.s .queue
    else mxPush e (modThread e.s e.tid fun th => { th with spec := some { tag := immBits f 7 0, shadows := [] } })
      { tid := 0, op := 0x2C6, pc := 0 }) s

/-- MXCMT and MXDSC end the open speculation of their tag. -/
def specEnd (e : Env) (f : FmtX) (op : Nat) (copy : Bool) : Act :=
  match e.th.spec with
  | none => mxIllegal e op
  | some sp =>
    if sp.tag != immBits f 7 0 then mxIllegal e op
    else if e.act == 0 then .done e.s []
    else if mxFull e e.s then .wait e.s .queue
    else mxPush e (modThread e.s e.tid fun th => { th with spec := none })
      { tid := 0, op := op, pc := 0, shadows := if copy then sp.shadows else [],
        fp := if copy then sp.shadows.map fun x => (x.1, 8192, true) else [] }

def execMxcmt (h : Hdr) (f : FmtX) (s : State) : Out := issue (.mxcmt h f) (fun e => specEnd e f 0x2C7 true) s
def execMxdsc (h : Hdr) (f : FmtX) (s : State) : Out := issue (.mxdsc h f) (fun e => specEnd e f 0x2C8 false) s

/-- MXWAIT (18 R367): it issues once few enough commands are left. -/
def execMxwait (h : Hdr) (f : FmtX) (s : State) : Out :=
  issue (.mxwait h f) (fun e =>
    let n := immBits f 4 0
    if e.act == 0 || mxLeft e.s e.tid ≤ n then .done e.s [] else .hold e.s (.mxwait n)) s

/-! ### Completion (07 R111, R112, 10 R190) -/

/-- Copy the 32 rows of an accumulator. -/
def copyAcc (ts : Sparse 8) (src' dst : Nat) : Sparse 8 := ssetList ts dst (sgetList ts src' 8192)

/-- A core's queue starts nothing: one of its contexts is in an assist routine, or about to enter one. -/
def assistHolds (s : State) (core : Nat) : Bool :=
  s.threads.any fun e => e.2.cc && alive e.2 && coreOf s e.2 == core && (e.2.assistSave.isSome || !e.2.assists.isEmpty)

/-- Scratchpad lines in the order in which the A port streams them for a command: the slices of FP32X once per pass, the planes of a
BPN operand group by group, and a line of scales just before the first group that it scales (07 R111). -/
def mxSourceLines (c : MxCmd) : List Nat :=
  let la := c.a / 128
  let scale (g : Nat) : List Nat := if slotScale c.slot == 2 && g % 32 = 0 then [c.soff / 128 + g / 32] else []
  if c.op ≤ 0x2C2 then
    if c.k = 0 then []
    else if c.op != 0x2C1 && slotA c.slot = 7 then
      xPasses.flatMap fun p => (List.range (c.k / 2)).map (la + p.1 * (c.k / 2) + ·)
    else if c.op != 0x2C1 && slotA c.slot = 6 then
      let ng := (c.k + 31) / 32
      (List.range ng).flatMap fun g => scale g ++ (List.range (slotApl c.slot)).map (la + · * ng + g)
    else
      (List.range ((aBytes c.slot (c.op == 0x2C1) c.k + 127) / 128)).flatMap fun j =>
        (if j % 8 = 0 then scale (j / 8) else []) ++ [la + j]
  else if c.op = 0x2C5 && !c.dmem then linesOf c.at' (256 * c.rows)
  else []

/-- The next line that the A port streams. -/
def nextLine (c : MxCmd) : Option Nat := (mxSourceLines c)[c.got.length]?

/-- A byte of A as pass `p` over it streamed it; a pass of FP32X takes k / 2 lines. -/
def gotByte (c : MxCmd) (p a : Nat) : Byte :=
  match (c.got.drop (p * (c.k / 2))).find? (·.1 == a / 128) with
  | some x => x.2.getD (a % 128) 0
  | none => 0

/-- The virtual address of a byte of the data of a drain or a copy. -/
def segVa (c : MxCmd) (o : Nat) : Nat :=
  let rb := if c.mode = 2 then 64 else 256
  if c.op = 0x2C4 then c.at' + o / rb * c.pitch + o % rb else c.at' + o

/-- Ask another package for the pieces that a command reads; whether all have come. -/
def mxAsk (s : State) (c : MxCmd) (gid ctx qtag : Nat) : State × MxCmd × Bool :=
  if !(c.dmem && (c.op = 0x2C5 || c.mode = 1)) then (s, c, true)
  else c.segs.foldl (fun (r : State × MxCmd × Bool) g =>
    match g.2.2.2 with
    | none => r
    | some p =>
      if (tget r.2.1.fetched g.1).isSome then r
      else if r.2.1.asked.contains g.1 then (r.1, r.2.1, false)
      else match flowOf r.1 ctx p with
        | none => (r.1, r.2.1, false)
        | some (fid, f) =>
          let q : Remote := { tid := c.tid, tok := c.tok, d := g.1, lane := 0, width := g.2.1, kind := 6, pc := c.pc, op := c.op, act := 1
                              va := g.2.2.1, len := g.2.1, lva := segVa c g.1, ctx := ctx, gid := gid }
          let s := { r.1 with lnk := { r.1.lnk with remotes := tset r.1.lnk.remotes (remoteKey fid f.seq) q } }
          (sendPkt s fid qtag 0 false (BitVec.ofNat 64 g.2.2.1) (List.replicate g.2.1 0), { r.2.1 with asked := g.1 :: r.2.1.asked }, false))
    (s, c, true)

/-- The bytes that a command reads from memory. -/
def mxBytes (s : State) (c : MxCmd) : List Byte :=
  c.segs.flatMap fun g => match g.2.2.2 with
    | none => rdN s g.2.2.1 g.2.1
    | some _ => (tget c.fetched g.1).getD []

/-- Write the pieces of a drain (07 R115). -/
def mxWrite (s : State) (c : MxCmd) (gid cluster ctx qtag : Nat) (bs : List Byte) : State :=
  c.segs.foldl (fun s g =>
    let d := (bs.drop g.1).take g.2.1
    match g.2.2.2 with
    | none => devStore s (some cluster) g.2.2.1 d
    | some p => match flowOf s ctx p with
      | none => s
      | some (fid, f) =>
        let q : Remote := { tid := c.tid, tok := c.tok, d := 0, lane := 0, width := 0, kind := 1, pc := c.pc, op := c.op, act := 1
                            va := g.2.2.1, len := g.2.1, lva := segVa c g.1, ctx := ctx, gid := gid }
        let s := { s with lnk := { s.lnk with remotes := tset s.lnk.remotes (remoteKey fid f.seq) q } }
        sendPkt s fid qtag 2 false (BitVec.ofNat 64 g.2.2.1) d) s

/-- An element of a drain (12 R230): its bytes, and whether it is a flagged subnormal. `old`: the destination element. -/
def drainElem (c : MxCmd) (x old : Nat) : List Byte × Bool :=
  let s := c.slot
  let flt := slotC s == 0
  match c.mode with
  | 0 => (leBytes x 4, false)
  | 1 =>
    if flt then
      let ftz := slotSub s == 0
      let y := fround f32 0 ftz (fsum 0 [fdec f32 (flush f32 ftz old), fdec f32 (flush f32 ftz x)])
      if slotSub s == 1 && isSub f32 y then (leBytes (flush f32 true y) 4, true) else (leBytes y 4, false)
    else
      let t := (BitVec.ofNat 32 old).toInt + (BitVec.ofNat 32 x).toInt
      (leBytes (fit 32 4 (slotSat s) t).toNat 4, false)
  | _ =>
    let v := if flt then fdec f32 x else intVal (BitVec.ofNat 32 x).toInt
    ([BitVec.ofInt 8 (requant s v)], false)

/-- The elements of a tile in row-major order. -/
def tileElems : List (Nat × Nat) := (List.range 32).flatMap fun i => (List.range 64).map fun j => (i, j)

/-- A flagged result (10 R190). -/
def flagAssist (s : State) (c : MxCmd) (flags : Nat) : State :=
  let has := match tget s.threads c.tid with
    | some th => alive th && ((gridOf s th).map (·.lrec.assist)).getD 0 != 0
    | none => false
  if flags = 0 || !has then s
  else
    let r (i x : Nat) : Nat := if c.op = 0x2C4 then (Config.assistReg s.freeCtr i).toNat else x
    after (modThread s c.tid fun th => { th with assists := th.assists ++ [(c.acc, r 1 c.a, r 2 c.b, r 3 c.k, flags)] }) (.assistEntry c.tid)

/-- A multiply: the new tile, the overflow flag and the flagged elements. -/
def mmaTile (c : MxCmd) (ts : Sparse 8) : Sparse 8 × Bool × Nat :=
  let flt := slotC c.slot == 0
  let ftz := flt && slotSub c.slot == 0
  let res := ftz || (flt && c.spec)
  tileElems.foldl (fun (r : Sparse 8 × Bool × Nat) e =>
    if e.1 ≥ c.m || e.2 ≥ c.n then r
    else
      let (x, ov) := mmaElem c (gotByte c) (sget ts) ftz res c.acc e.1 e.2
      let fl := flt && !res && isSub f32 x
      (ssetList r.1 (c.acc + 256 * e.1 + 4 * e.2) (leBytes (flush f32 fl x) 4), r.2.1 || ov, r.2.2 + (if fl then 2 ^ (64 * e.1 + e.2) else 0)))
    (ts, false, 0)

/-- What a command does to its block when it completes. -/
def mxRun (s : State) (c : MxCmd) (b : Block) (ctx qtag : Nat) : State :=
  let bid := c.tid / 128
  let ts := match c.fresh with
    | some a => copyAcc b.ts a c.acc
    | none => b.ts
  match c.op with
  | 0x2C3 => modBlock s bid fun b => { b with ts := sclear ts c.acc 8192 }
  | 0x2C4 =>
    let old := if c.mode = 1 then
        (if c.dmem then mxBytes s c else (List.range 32).flatMap fun i => sgetList b.sp (c.at' + i * c.pitch) 256)
      else []
    let es := tileElems.map fun (i, j) =>
      drainElem c (le32 (sget ts) (c.acc + 256 * i + 4 * j)) (leNat ((old.drop (256 * i + 4 * j)).take 4))
    let flags := (es.zip (List.range 2048)).foldl (fun f x => if x.1.2 then f + 2 ^ x.2 else f) 0
    let bs := es.flatMap Prod.fst
    let s := flagAssist s c flags
    if c.dmem then mxWrite s c b.gid (b.core / 8) ctx qtag bs
    else
      let rb := if c.mode = 2 then 64 else 256
      modBlock s bid fun b => { b with
        sp := (List.range 32).foldl (fun m i => ssetList m (c.at' + i * c.pitch) ((bs.drop (i * rb)).take rb)) b.sp }
  | 0x2C5 =>
    let bs := if c.dmem then mxBytes s c else (List.range (256 * c.rows)).map fun j => gotByte { c with k := 0 } 0 (c.at' + j)
    modBlock s bid fun b => { b with ts := ssetList b.ts c.acc bs }
  | 0x2C6 => s
  | 0x2C7 =>
    let base := ((tget s.grids b.gid).map fun g => tsLimit g.lrec).getD 0
    modBlock s bid fun b => { b with ts := c.shadows.foldl (fun t x => copyAcc t (base + 8192 * x.2) x.1) b.ts }
  | 0x2C8 => s
  | _ =>
    if c.m = 0 || c.n = 0 then s
    else
      let (t, ov, flags) := mmaTile c ts
      let s := modBlock s bid fun b => { b with ts := t }
      let s := if ov then modThread s c.tid fun th => { th with mxstat := true } else s
      flagAssist s c flags

/-- The context looks again at its MXWAIT (18 R367). -/
def wakeMxwait (s : State) (tid : Nat) : State :=
  modThread s tid fun th => { th with frags := tmap th.frags fun _ f =>
    match f.park with
    | .mxwait n => if mxLeft s tid ≤ n then { f with park := .run } else f
    | _ => f }

/-- Commands of a restored block enter the queue of its core as far as there is room (07 R112). -/
def mxEnter (s : State) (bid : Nat) : State :=
  match tget s.blocks bid with
  | none => s
  | some b =>
    let q := mxQueue s b.core
    let now := b.mxSaved.take (16 - q.length)
    if b.stage != .running || now.isEmpty then s
    else
      let s := modBlock { s with mxq := tset s.mxq b.core (q ++ now) } bid fun b => { b with mxSaved := b.mxSaved.drop now.length }
      if q.isEmpty then after s (.matrixCommandComplete b.core) else s

/-- The head of the queue completes and the next command starts. -/
def mxFinish (s : State) (core : Nat) (c : MxCmd) : State :=
  let q := (mxQueue s core).drop 1
  let s := { s with mxq := if q.isEmpty then tdel s.mxq core else tset s.mxq core q }
  let s := (s.blocks.filter fun b => b.2.core == core && !b.2.mxSaved.isEmpty).foldl (fun s b => mxEnter s b.1) s
  let bid := c.tid / 128
  let s := fillLines s bid c.marked
  let s := modThread s c.tid fun th => landTok th c.tok
  let s := wakeMxwait (wakeRetry s fun _ w => w == .queue) c.tid
  let s := if q.isEmpty then s else after s (.matrixCommandComplete core)
  if blockDone s bid then after s (.blockEnd bid) else s

/-- A block with a request to stop, every strand of which has stopped: its commands that have not started wait for the save (10 R180). -/
def savePends (s : State) (bid : Nat) (b : Block) : Bool :=
  b.stage == .running && !(b.preq.isEmpty && b.late.isEmpty && b.halt = 0) && (strandsOf s bid).all (fun e => allParked e.2 || e.2.stopped)
    && !((tget s.grids b.gid).bind fun g => (tget s.ctxs g.ctx).map (·.stopped)).getD false

/-- The operands in memory of a command whose block was restored translate again; a failure is posted once, and the command waits
(18 R359). -/
def mxAgain (s : State) (core : Nat) (c : MxCmd) (b : Block) (ctx : Nat) : State × MxCmd × Bool :=
  if !c.stale then (s, c, true)
  else if c.recs.any fun r => ((tget s.ctxs ctx).map fun cx => (tget cx.recs r).isSome).getD false then (s, c, false)
  else
    let ps := mxPieces c
    match xlateAll s ctx (if c.op = 0x2C4 then .write else .read) (2048 + core / 8) (ps.map fun p => (p.2.2, 0, p.2.1)) with
    | .ok (s, ts) => (s, { c with segs := segsOf ps ts, stale := false, recs := [] }, true)
    | .error (s, bad) => match bad.filter fun x => x.1.replays with
      | [] => (s, c, false)
      | bad =>
        let (s, ids) := postFaults s ctx (((tget s.threads c.tid).map fun th => strandId s th 0).getD 0) 0 (evOf s b.gid) bad
        (s, { c with recs := ids }, false)

/-- A tile of another package that a command adds to is being added to by another command of this package (09 R161). -/
def tileHeld (s : State) (c : MxCmd) : Bool :=
  c.op == 0x2C4 && c.mode == 1 && c.asked.isEmpty && c.segs.any fun g => match g.2.2.2 with | some p => tileBusy s p g.2.2.1 g.2.1 | none => false

/-- The command at the head of a core's queue streams its next line, which must be full (07 R111), or completes, or waits for its
operands in memory (07 R112). -/
def execMatrixCommandComplete (core : Nat) (s : State) : Out :=
  match mxQueue s core with
  | [] => .next s
  | c :: q =>
    let again (s : State) : State := atTime (tick s) (s.time + 1 + Config.delay s.freeCtr) (.matrixCommandComplete core)
    match tget s.blocks (c.tid / 128) with
    | none => .next (mxFinish s core c)
    | some b =>
      if !c.begun && (assistHolds s core || savePends s (c.tid / 128) b) then .next (again s)
      else
      let c := { c with begun := true }
      let s := { s with mxq := tset s.mxq core (c :: q) }
      match nextLine c with
      | some l =>
        if b.empty.contains l then .next (again s)
        else .next (again { s with mxq := tset s.mxq core ({ c with got := c.got ++ [(l, sgetList b.sp (128 * l) 128)] } :: q) })
      | none =>
        let g := tget s.grids b.gid
        let ctx := (g.map (·.ctx)).getD 0
        let qtag := (g.map (qtagOf s)).getD 0
        let (s, c, ready) := mxAgain s core c b ctx
        if !ready || tileHeld s c then .next (again { s with mxq := tset s.mxq core (c :: q) })
        else
        let (s, c, ok) := mxAsk s c b.gid ctx qtag
        if ok then .next (mxFinish (mxRun s c b ctx qtag) core c)
        else .next (again { s with mxq := tset s.mxq core (c :: q) })

end Sys2Proof.Machine
end

