-- ==== Sys2Proof/Machine/MemOps.lean ====
section
/-! DEFINITION. Class 0x6: loads, stores, scratchpad, tile store and full/empty instructions (17 R322-R331). -/
namespace Sys2Proof.Machine

/-! ### Memory -/

def eaMem (e : Env) (f : FmtM) (l : Nat) : Nat := ea64 (baseM e f l) f.off.toInt

/-- What the destination registers of a lane hold. -/
def heldRegs (e : Env) (d n l : Nat) : List Word := (List.range n).map fun j => sget e.th.v (32 * (d + j) + l)

/-- Every lane loads: the state, the words of each lane, and whether a lane waits for another package. -/
def loadLanes (e : Env) (op d w scope ord cache : Nat) (ea : Nat → Nat) : State → List (Nat × Tgt) → State × List (Nat × List Word) × Bool
  | s, [] => (s, [], false)
  | s, (l, .key k pcie) :: r =>
    let (s, bs) := loadLane e s k pcie (widthBytes w) scope ord cache
    let (s, rows, rem) := loadLanes e op d w scope ord cache ea s r
    (s, (l, extendLoad w bs) :: rows, rem)
  | s, (l, .remote p va) :: r =>
    let s := sendLane e s op p va (ea l) (widthBytes w) l d w 0 0 false (ord == 2 && scope ≥ 2) (List.replicate (widthBytes w) 0)
    let (s, rows, _) := loadLanes e op d w scope ord cache ea s r
    (s, (l, heldRegs e d (widthRegs w) l) :: rows, true)

/-- The end of a load: results now, or with the responses of other packages; a fragment that acquires waits for them. -/
def loadEnd (e : Env) (d w scope ord : Nat) (s : State) (rows : List (Nat × List Word)) (rem : Bool) : Act :=
  let rs := wrRegs d rows (widthRegs w)
  let s := if ord == 2 then acquire e s scope else s
  if rem then .defer (holdRes e rs s) (if ord == 2 then .remote e.tok else .run) else .done s rs

/-- A control context's access through the cluster window (07 R114). `k` carries it out at an offset of a block. -/
def windowAct (e : Env) (w : Nat) (ea : Nat) (k : Nat → Block → Nat → Act) : Act :=
  let n := widthBytes w
  if ea % n != 0 then .trap 2 w e.act ea
  else match windowOf e ea n with
    | none => .trap 3 0 e.act ea
    | some (bid, b, o) => k bid b o

/-- LD (17 R326). -/
def ldAct (e : Env) (op : Nat) (f : FmtM) : Act :=
  let w := f.width.toNat
  let ea := eaMem e f
  if e.act == 0 then .done e.s []
  else if isWindow e (ea 0) then
    windowAct e w (ea 0) fun bid b o =>
      if lockHit e.s (e.blk.core / 8) e.grid.ctx (ea 0) (widthBytes w) false then .trap 10 0 e.act (ea 0)
      else if (linesOf o (widthBytes w)).any (lineWaits e bid b) then .wait e.s (.line bid (linesOf o (widthBytes w)))
      else
        let s := if f.ord == 2 then acquire e e.s f.scope.toNat else e.s
        .done (count s (e.blk.core / 8) 4 ((widthBytes w + 3) / 4))
          (wrRegs f.d.toNat [(0, extendLoad w (spSee e bid b o (widthBytes w)))] (widthRegs w))
  else match checkMem e w false (fun _ => []) ea with
    | some a => a
    | none => match xlate e e.s op .read true ea with
      | .error a => a
      | .ok (s, ts) =>
        if flowClash e s (widthBytes w) ts then .wait s .flow
        else
        let (s, rows, rem) := loadLanes e op f.d.toNat w f.scope.toNat f.ord.toNat f.cache.toNat ea s ts
        loadEnd e f.d.toNat w f.scope.toNat f.ord.toNat s rows rem

def execLd (h : Hdr) (f : FmtM) (s : State) : Out := issue (.ld h f) (fun e => ldAct e 0x180 f) s

/-- Every lane stores, the highest last; of lanes that store to the same place of another package only the highest does (09 R149).
Whether a lane's store left the package. -/
def storeLanes (e : Env) (op w : Nat) (rel : Bool) (ea : Nat → Nat) (data : Nat → List Byte) : State → List (Nat × Tgt) → State × Bool
  | s, [] => (s, false)
  | s, (l, .key k pcie) :: r => storeLanes e op w rel ea data (storeLane e s k pcie (data l)) r
  | s, (l, .remote p va) :: r =>
    if r.any (·.2 == .remote p va) then ((storeLanes e op w rel ea data s r).1, true)
    else ((storeLanes e op w rel ea data (sendLane e s op p va (ea l) (widthBytes w) l 0 w 1 2 rel false (data l)) r).1, true)

/-- The package that every lane's target lies on. -/
def ownPkg (ts : List (Nat × Tgt)) : Option Nat :=
  match ts with
  | (_, .remote p _) :: r => if r.all fun t => match t.2 with | .remote q _ => q == p | _ => false then some p else none
  | _ => none

/-- ST (17 R326). -/
def stAct (e : Env) (op : Nat) (f : FmtM) : Act :=
  let w := f.width.toNat
  let ea := eaMem e f
  let data (l : Nat) : List Byte := dataBytes e f.d.toNat w l
  let halves := storeHalves e f.d.toNat w f.raw
  if e.act == 0 then .done e.s []
  else if isWindow e (ea 0) then
    windowAct e w (ea 0) fun bid b o =>
      match escapeTrap e (fun _ => .block) halves ea with
      | some a => a
      | none =>
        if lockHit e.s (e.blk.core / 8) e.grid.ctx (ea 0) (widthBytes w) true then .trap 10 0 e.act (ea 0)
        else if (linesOf o (widthBytes w)).any (lineFilling e.s bid b) then .trap 10 1 e.act (ea 0)
        else match release e e.s op f.scope.toNat (f.ord == 3) none with
          | .error a => a
          | .ok s => .done (count (spWrite s bid o (data 0)) (e.blk.core / 8) 4 ((widthBytes w + 3) / 4)) []
  else match checkMem e w true halves ea with
    | some a => a
    | none => match xlate e e.s op .write false ea with
      | .error a => a
      | .ok (s, ts) =>
        if flowClash e s (widthBytes w) ts then .wait s .flow
        else match release e s op f.scope.toNat (f.ord == 3) (ownPkg ts) with
        | .error a => a
        | .ok s =>
          let (s, rem) := storeLanes e op w (f.ord == 3) ea data s ts
          if rem then .defer s .run else .done s []

def execSt (h : Hdr) (f : FmtM) (s : State) : Out := issue (.st h f) (fun e => stAct e 0x181 f) s

/-! ### Scratchpad -/

def offsNat (ea : Nat → Int) (l : Nat) : Nat := (ea l).toNat

/-- LDS (17 R327). -/
def execLds (h : Hdr) (f : FmtM) (s : State) : Out :=
  issue (.lds h f) (fun e =>
    let w := f.width.toNat
    let n := widthBytes w
    let o := offsNat (eaSp e f)
    if e.act == 0 then .done e.s []
    else match checkSp e w n (spLimit e.grid.lrec) 3 (eaSp e f) with
      | some a => a
      | none =>
        let ls := dedup ((lanesOf e.act).flatMap fun l => linesOf (o l) n)
        if ls.any (lineWaits e e.th.bid e.blk) then .wait e.s (.line e.th.bid ls)
        else
          let rows := (lanesOf e.act).map fun l => (l, extendLoad w (spSee e e.th.bid e.blk (o l) n))
          let s := addPasses e e.s (passes e.act n false o)
          .done (if f.ord == 2 then acquire e s f.scope.toNat else s) (wrRegs f.d.toNat rows (widthRegs w))) s

/-- Scratchpad stores of the lanes, the highest last. -/
def spStores (e : Env) (s : State) (o : Nat → Nat) (data : Nat → List Byte) : State :=
  (lanesOf e.act).foldl (fun s l => spWrite s e.th.bid (o l) (data l)) s

/-- STS (17 R327). -/
def execSts (h : Hdr) (f : FmtM) (s : State) : Out :=
  issue (.sts h f) (fun e =>
    let w := f.width.toNat
    let n := widthBytes w
    let o := offsNat (eaSp e f)
    if e.act == 0 then .done e.s []
    else match checkSp e w n (spLimit e.grid.lrec) 3 (eaSp e f)
        <|> escapeTrap e (fun _ => .block) (storeHalves e f.d.toNat w f.raw) o
        <|> pickTrap e 10 (fun _ => 1) (fun l => (linesOf (o l) n).any (lineFilling e.s e.th.bid e.blk)) o with
      | some a => a
      | none => match release e e.s 0x183 (max f.scope.toNat (if f.sub.getLsbD 0 then 1 else 0)) (f.ord == 3 || f.sub.getLsbD 0) none with
        | .error a => a
        | .ok s =>
          let s := addPasses e (spStores e s o (dataBytes e f.d.toNat w)) (passes e.act n false o)
          let s := if f.sub.getLsbD 0 then fillLines s e.th.bid ((lanesOf e.act).flatMap fun l => linesOf (o l) n) else s
          .done s []) s

/-! ### Tile store -/

/-- TLD (17 R328). -/
def execTld (h : Hdr) (f : FmtM) (s : State) : Out :=
  issue (.tld h f) (fun e =>
    let w := f.width.toNat
    let n := widthBytes w
    let o := offsNat (eaSp e f)
    match checkSp e w n (tsLimit e.grid.lrec) 4 (eaSp e f)
        <|> pickTrap e 10 (fun _ => 2) (fun l => footHit e.s e.th.bid (o l) n true) o with
    | some a => a
    | none =>
      let rows := (lanesOf e.act).map fun l => (l, extendLoad w (tsRead e.blk (o l) n))
      .done e.s (if e.act == 0 then [] else wrRegs f.d.toNat rows (widthRegs w))) s

/-- TST (17 R328). -/
def execTst (h : Hdr) (f : FmtM) (s : State) : Out :=
  issue (.tst h f) (fun e =>
    let w := f.width.toNat
    let n := widthBytes w
    let o := offsNat (eaSp e f)
    match checkSp e w n (tsLimit e.grid.lrec) 4 (eaSp e f)
        <|> escapeTrap e (fun _ => .block) (storeHalves e f.d.toNat w f.raw) o
        <|> pickTrap e 10 (fun _ => 2) (fun l => footHit e.s e.th.bid (o l) n false) o with
    | some a => a
    | none =>
      .done ((lanesOf e.act).foldl (fun s l => tsWrite s e.th.bid (o l) (dataBytes e f.d.toNat w l)) e.s) []) s

/-! ### LDK and PREF -/

/-- A byte of the record or of the format slots (17 R329). -/
def ldkByte (e : Env) (o : Nat) : Byte :=
  if o < 0x100 then e.grid.lrec.raw.getD o 0
  else if o < 0x140 then (leBytes ((e.grid.lrec.slots.getD ((o - 0x100) / 8) 0).toNat) 8).getD (o % 8) 0
  else 0

/-- LDK (17 R329). -/
def execLdk (h : Hdr) (f : FmtM) (s : State) : Out :=
  issue (.ldk h f) (fun e =>
    let w := f.width.toNat
    let n := widthBytes w
    let o := f.off.toInt
    let d := f.d.toNat
    if e.act == 0 then .done e.s []
    else if o % (n : Int) != 0 then .trap 2 w e.act (BitVec.ofInt 64 o).toNat
    else
      let row (bs : List Byte) : List Res := wrRegs d ((lanesOf e.act).map fun l => (l, extendLoad w bs)) (widthRegs w)
      let args := ((List.range n).filter fun (j : Nat) => 0x10000 ≤ o + (j : Int) && o + (j : Int) < (0x10000 + min e.grid.lrec.argsz 0x10000 : Nat)).length
      if args = 0 then .done e.s (row ((List.range n).map fun j => if 0 ≤ o then ldkByte e (o.toNat + j) else 0))
      else
        let va := (e.grid.lrec.argp + (o.toNat - 0x10000)) % 2 ^ 64
        let ends := [va, (va + args - 1) % 2 ^ 64]
        match [9, 6, 8, 7].findSome? fun c => ends.find? (fun a => arenaCode e a == some c) |>.map fun a => (c, a) with
        | some (c, a) => .trap c (bitsOf a 55 53) e.act a
        | none =>
        if lockHit e.s (e.blk.core / 8) e.grid.ctx va args false then .trap 10 0 e.act va
        else if args = n && va % 4096 + n ≤ 4096 then
          match xlate e e.s 0x186 .read true (fun _ => va) with
          | .error a => a
          | .ok (s, ts) =>
            if flowClash e s n ts then .wait s .flow
            else
            let (s, rows, rem) := loadLanes e 0x186 d w 3 0 0 (fun _ => va) s ts
            loadEnd e d w 3 0 s rows rem
        else match readLong e.s e.grid.ctx va args (qtagOf e.s e.grid) with
          | (s, .ok bs) => .done s (row (bs ++ List.replicate (n - args) 0))
          | (s, .error x) => .flt s [x]) s

/-- The byte that an address of an arena or of the export range names, if it is backed. -/
def backedKey (e : Env) (s : State) (va : Nat) : Option Nat :=
  let c := e.grid.ctx
  if isArena va then
    match checkArena s c (hasGroups e.grid.lrec) va, findArena s c true va with
    | .ok _, .ok (_, x) => match tget x.gran ((arenaAddr va).off / 4096) with
      | some (.backed p _) => some (pageKey c p + (arenaAddr va).off % 4096)
      | _ => none
    | _, _ => none
  else match tget s.ctxs c with
    | none => none
    | some cx =>
      if !inExport cx va then none
      else match tget cx.exportGran ((va - cx.exportBase) / 4096) with
        | some (.backed p _) => some (pageKey c p + (va - cx.exportBase) % 4096)
        | _ => none

/-- The bytes whose lines `PREF` may fetch: of each lane that passes every check and needs no backing (17 R330, 07 R119). -/
def prefKeys (e : Env) (ea : Nat → Nat) : State × List Nat :=
  let paged (l : Nat) : Bool := ((tget e.s.ctxs e.grid.ctx).map fun cx => isPaged cx 0 (ea l)).getD false
  let (s, _, ts) := xlatePages e.s e.grid.ctx .read e.unit [] (((lanesOf e.act).filter paged).map fun l => (ea l, l, 1))
  (s, (ts.filterMap fun t => match t.2 with | .ok (.key k false) => some k | _ => none)
    ++ (((lanesOf e.act).filter fun l => !paged l).filterMap fun l => backedKey e s (ea l)))

/-- PREF (17 R330): the lines that a load of its SCOPE reads through L1 are allocated there. -/
def execPref (h : Hdr) (f : FmtM) (s : State) : Out :=
  issue (.pref h f) (fun e =>
    let (s, ks) := prefKeys e (eaMem e f)
    .done (ks.foldl (fun s k =>
      if e.th.cc || f.scope.toNat > 1 || f.cache == 3 || (l1Line s e.blk.core k).isSome || keyStalls s k then s
      else setL1 s e.blk.core (k / 128) (some (rdN s (k / 128 * 128) 128))) s) []) s

/-! ### Full/empty bits -/

/-- FESET and FECLR (17 R331). -/
def feAct (e : Env) (f : FmtM) (set : Bool) : Act :=
  let a : Int := (src e 0 (if f.ka then .k else .v) f.a (low e)).toNat + f.off.toInt
  let n := f.d.toNat + 1
  let ad := (BitVec.ofInt 64 a).toNat
  if e.act == 0 then .done e.s []
  else if a % 128 != 0 then .trap 2 0 e.act ad
  else if a < 0 || a + 128 * n > spLimit e.grid.lrec then .trap 3 0 e.act ad
  else
    let ls := linesOf a.toNat (128 * n)
    if ls.any (lineFilling e.s e.th.bid e.blk) then .trap 10 1 e.act ad
    else if !set then .done (emptyLines e.s e.th.bid ls) []
    else match release e e.s 0x188 1 true none with
      | .error t => t
      | .ok s => .done (fillLines s e.th.bid ls) []

/-- FESET (17 R331). -/
def execFeset (h : Hdr) (f : FmtM) (s : State) : Out := issue (.feset h f) (fun e => feAct e f true) s
/-- FECLR (17 R331). -/
def execFeclr (h : Hdr) (f : FmtM) (s : State) : Out := issue (.feclr h f) (fun e => feAct e f false) s

end Sys2Proof.Machine
end

