-- ==== Sys2Proof/Machine/Atomic.lean ====
section
/-! DEFINITION. Class 0x7: atomics (17 R332-R334, 09 R162). -/
namespace Sys2Proof.Machine

/-- An FP32 sum rounded to nearest even, subnormals exact (17 R332). -/
def fadd32 (a b : Nat) : Nat := fround f32 0 false (fsum 0 [fdec f32 a, fdec f32 b])

/-- The new value of an operation of R332 on `n`-bit values. -/
def atomVal (op n o b : Nat) : Nat :=
  let sg (x : Nat) : Int := (BitVec.ofNat n x).toInt
  let r := match op with
  | 0 => o + b
  | 1 => if sg b < sg o then b else o
  | 2 => min o b
  | 3 => if sg b > sg o then b else o
  | 4 => max o b
  | 5 => o &&& b
  | 6 => o ||| b
  | 7 => o ^^^ b
  | 8 => b
  | 9 => if o ≥ b then 0 else o + 1
  | 10 => if o = 0 || o > b then b else o - 1
  | 11 => fadd32 o b
  | 12 => fminmax f32 false o b
  | _ => fminmax f32 true o b
  r % 2 ^ n

/-- The operation of an atomic: code of R332, or compare-and-swap. -/
inductive AOp where
  | op (c : Nat)
  | cas
deriving DecidableEq, Repr

/-- What a lane writes, if it writes. -/
def atomNew (a : AOp) (n o b c : Nat) : Option Nat :=
  match a with
  | .op k => some (atomVal k n o b)
  | .cas => if o = b then some (c % 2 ^ n) else none

/-- The lanes one after another, ascending: address, old value, new value (17 R333). `rd` reads what stood there before. -/
def atomLanes (rd : Nat → Nat) (new : Nat → Nat → Option Nat) : List (Nat × Nat) → List (Nat × Nat) → List (Nat × Nat × Nat × Option Nat)
  | _, [] => []
  | cur, (l, a) :: r =>
    let o := match cur.find? (·.1 == a) with
      | some e => e.2
      | none => rd a
    let n := new l o
    (l, a, o, n) :: atomLanes rd new ((a, n.getD o) :: cur) r

/-- Bytes of an atomic's operand registers. -/
def atomBytes (f : FmtA) : Nat := if f.width == 1 then 8 else 4

/-- An operand of a lane: one register, or an even pair. -/
def atomOpnd (e : Env) (f : FmtA) (r : BitVec 11) (l : Nat) : Nat :=
  if f.width == 1 then (vpair e r.toNat l).toNat else (vreg e r.toNat l).toNat

/-- ORD of format A as the order code: 0 is acqrel (17 R332). -/
def ordA (f : FmtA) : Nat := if f.ord == 0 then 4 else f.ord.toNat

def isAcq (ord : Nat) : Bool := ord == 2 || ord == 4
def isRel (ord : Nat) : Bool := ord == 3 || ord == 4

/-- Old values into D (17 R333). -/
def atomRes (f : FmtA) (rows : List (Nat × Nat)) : List Res :=
  if f.noret then []
  else wrRegs f.d.toNat (rows.map fun (l, o) => (l, wordsOf (leBytes o (atomBytes f)))) (atomBytes f / 4)

/-- The payload of an atomic packet: operation (14 for compare-and-swap), WIDTH, operands (notes/assumptions/20.md). -/
def atomData (a : AOp) (f : FmtA) (b c : Nat) : List Byte :=
  let n := atomBytes f
  [BitVec.ofNat 8 (match a with | .op k => k | .cas => 14), BitVec.ofNat 8 (6 + f.width.toNat)] ++ leBytes b n
    ++ (match a with | .cas => leBytes c n | _ => [])

/-- What a lane writes may be an arena address, and depends on the word that stands there (08 R140). -/
def needsOld (e : Env) (a : AOp) (n : Nat) (c : Nat → Nat) : Bool :=
  n = 8 && match a with
  | .op k => k != 8
  | .cas => (lanesOf e.act).any fun l => isArena (c l)

/-- The inbox key of a word of another package that an atomic's check reads. -/
def oldKey (e : Env) (x : Nat × Nat × Nat) : Nat := ((4 + e.fi) * 2 ^ 16 + x.2.1) * 2 ^ 64 + x.2.2

/-- The words on other packages that lanes' atomics meet, as (lane, package, address) there: asked for before anything is performed
(notes/assumptions/49.md). -/
def farOld (e : Env) (s : State) (op n : Nat) (away : List (Nat × Nat × Nat)) : Except Act Unit :=
  let miss := away.filter fun x => (tget e.th.inbox (oldKey e x)).isNone
  if miss.isEmpty then .ok ()
  else .error (.wait (miss.foldl (fun s x => if asked s e.tid (oldKey e x) then s
    else sendLane e s op x.2.1 x.2.2 0 n x.1 (oldKey e x) 0 7 0 false false (List.replicate n 0)) s) .flow)

/-- Where a lane's atomic is performed: an even number for a byte key, an odd one for a place of another package. -/
def atomPlace : Tgt → Nat
  | .key k _ => 2 * k
  | .remote p va => 2 * (p * 2 ^ 64 + va) + 1

/-- What stands there. -/
def placeOld (e : Env) (s : State) (n x : Nat) : Nat :=
  if x % 2 = 0 then rdNat s (x / 2) n else leNat ((tget e.th.inbox (oldKey e (0, x / 2 / 2 ^ 64, x / 2 % 2 ^ 64))).getD [])

/-- The 64-bit values that a lane writes, as its rows tell. -/
def newHalves (n : Nat) (rows : List (Nat × Nat × Nat × Option Nat)) (l : Nat) : List Dword :=
  if n = 4 then [] else rows.filterMap fun (j, _, _, x) => if j = l then x.map (BitVec.ofNat 64) else none

/-- An atomic reaches the slice, unless it goes to host memory through PCIe (07 R116). -/
def sliceOf (e : Env) (pcie : Bool) (s : State) (key : Nat) : State := if pcie then s else countSlice s (e.blk.core / 8) key

/-- ATOM, ATOMCAS and RED on memory. Lanes that meet on another package take effect in their order, each later one sent as a release
(09 R149, notes/assumptions/48.md). -/
def atomMem (e : Env) (op : Nat) (a : AOp) (f : FmtA) : Act :=
  let n := atomBytes f
  let w := 6 + f.width.toNat
  let ord := ordA f
  let ea (l : Nat) : Nat := ea64 (vpair e f.a.toNat l) f.off.toInt
  let b (l : Nat) : Nat := atomOpnd e f f.b l
  let c (l : Nat) : Nat := atomOpnd e f f.c l
  if e.act == 0 then .done e.s []
  else match checkAddr e w ea with
  | some t => t
  | none =>
  let rowsOf (s : State) (ps : List (Nat × Nat)) := atomLanes (placeOld e s n) (fun l o => atomNew a (8 * n) o (b l) (c l)) [] ps
  match xlate e e.s op .write (!f.noret) ea with
    | .error t =>
      let seen := (lanesOf e.act).filterMap fun l => match (translate e.s e.grid.ctx (ea l) .write e.unit).2 with
        | .ok (.key k _) => some (l, 2 * k)
        | _ => none
      (checkValue e n true (newHalves n (rowsOf e.s seen)) ea).getD t
    | .ok (s, ts) =>
      let away := ts.filterMap fun (l, t) => match t with | .remote p va => some (l, p, va) | _ => none
      if flowClash e s n ts then .wait s .flow
      else match (if needsOld e a n c then farOld e s op n away else .ok ()) with
      | .error t => t
      | .ok () =>
      let all := rowsOf s (ts.map fun t => (t.1, atomPlace t.2))
      let rows := (all.filter fun r => r.2.1 % 2 == 0).map fun r => (r.1, r.2.1 / 2, r.2.2)
      let pcie (k : Nat) : Bool := ts.any fun t => t.2 == .key k true
      match checkValue e n true (newHalves n all) ea with
      | some t => t
      | none => match release e s op f.scope.toNat (isRel ord) (ownPkg ts) with
        | .error t => t
        | .ok s =>
          let s := modThread s e.tid fun th => { th with inbox := th.inbox.filter fun x => x.1 / 2 ^ 80 != 4 + e.fi }
          let s := rows.foldl (fun s (_, k, _, x) => match x with
            | some y => setL1 (sliceOf e (pcie k) (storeKey s k (leBytes y n)) k) e.blk.core (k / 128) none
            | none => sliceOf e (pcie k) (setL1 s e.blk.core (k / 128) none) k) s
          let s := away.foldl (fun s (l, p, va) =>
            sendLane e s op p va (ea l) n l f.d.toNat w (if f.noret then 1 else 2) 3 (isRel ord || away.any fun x => x.1 < l && x.2 == (p, va))
              (isAcq ord && f.scope.toNat ≥ 2) (atomData a f (b l) (c l))) s
          let s := if isAcq ord then acquire e s f.scope.toNat else s
          let old := rows.map fun (l, _, o, _) => (l, o)
          if away.isEmpty then .done s (atomRes f old)
          else
            let held := away.map fun (l, _, _) => (l, leNat ((heldRegs e f.d.toNat (n / 4) l).flatMap fun x => leBytes x.toNat 4))
            .defer (holdRes e (atomRes f (old ++ held)) s) (if isAcq ord then .remote e.tok else .run)

/-- ATOMS and ATOMSCAS on the block's scratchpad. -/
def atomSp (e : Env) (op : Nat) (a : AOp) (f : FmtA) : Act :=
  let n := atomBytes f
  let ord := ordA f
  let ea (l : Nat) : Int := (vreg e f.a.toNat l).toNat + f.off.toInt
  let o := offsNat ea
  if e.act == 0 then .done e.s []
  else match checkSp e (6 + f.width.toNat) n (spLimit e.grid.lrec) 3 ea with
  | some t => t
  | none =>
    let rows := atomLanes (fun k => leNat (spRead e.blk k n))
      (fun l x => atomNew a (8 * n) x (atomOpnd e f f.b l) (atomOpnd e f f.c l)) [] ((lanesOf e.act).map fun l => (l, o l))
    let new (l : Nat) : List Dword := if n = 4 then [] else
      (rows.filterMap fun (j, _, _, x) => if j = l then x.map (BitVec.ofNat 64) else none)
    match escapeTrap e (fun _ => .block) new o
        <|> pickTrap e 10 (fun _ => 1) (fun l => (linesOf (o l) n).any (lineFilling e.s e.th.bid e.blk)) o with
    | some t => t
    | none => match release e e.s op f.scope.toNat (isRel ord) none with
      | .error t => t
      | .ok s =>
        let s := rows.foldl (fun s (_, k, _, x) => match x with
          | some y => spWrite s e.th.bid k (leBytes y n)
          | none => s) s
        let s := addPasses e s (passes e.act n true o)
        .done (if isAcq ord then acquire e s f.scope.toNat else s) (atomRes f (rows.map fun (l, _, x, _) => (l, x)))

/-- ATOM (17 R332). -/
def execAtom (h : Hdr) (f : FmtA) (s : State) : Out := issue (.atom h f) (fun e => atomMem e 0x1C0 (.op f.c.toNat) f) s
/-- ATOMCAS (17 R332). -/
def execAtomcas (h : Hdr) (f : FmtA) (s : State) : Out := issue (.atomcas h f) (fun e => atomMem e 0x1C1 .cas f) s
/-- ATOMS (17 R332). -/
def execAtoms (h : Hdr) (f : FmtA) (s : State) : Out := issue (.atoms h f) (fun e => atomSp e 0x1C2 (.op f.c.toNat) f) s
/-- ATOMSCAS (17 R332). -/
def execAtomscas (h : Hdr) (f : FmtA) (s : State) : Out := issue (.atomscas h f) (fun e => atomSp e 0x1C3 .cas f) s
/-- RED (17 R332). -/
def execRed (h : Hdr) (f : FmtA) (s : State) : Out := issue (.red h f) (fun e => atomMem e 0x1C4 (.op f.c.toNat) f) s

end Sys2Proof.Machine
end

