-- ==== Sys2Proof/Machine/Sync.lean ====
section
/-! DEFINITION. Class 0x8: fences, memory waits, barriers, phasers and GSYNC (17 R335-R341). -/
namespace Sys2Proof.Machine

/-! ### FENCE -/

/-- FENCE (17 R335), whatever the guard: it is performed at once if its obligations are met; otherwise instructions that access no memory
issue past it. -/
def execFence (h : Hdr) (f : FmtX) (s : State) : Out :=
  issue (.fence h f) (fun e =>
    let x : Fence := { tok := e.tok, scope := immBits f 6 4, ord := immBits f 2 0, pc := e.fr.pc }
    let rel := x.ord != 2 && x.scope ≥ 4
    if rel && lostWrite e.s e.tid then linkAct e 0x200 0
    else
      let s := if rel then sendReleases e e.s none else e.s
      if fenceMet s e.tid x then .done (if x.ord != 3 then acquire e s x.scope else s) []
      else .defer (modThread s e.tid fun th => { th with frags := tmod th.frags e.fi fun f => { f with fences := f.fences ++ [x] } }) .run) s

/-! ### MWAIT -/

/-- The value that a watched word has now; none when another package has not answered. -/
def watchVal (s : State) (w : Nat) (x : Watch) : Option Nat :=
  match x.pkg with
  | none => some (x.got.getD (rdNat s x.key w))
  | some _ => x.got

/-- An MWAIT looks at its words; `force`: after a restore it returns (17 R336, 10 R181). -/
def checkWait (s : State) (t fr : Nat) (force : Bool) : State :=
  match tget s.threads t with
  | none => s
  | some th => match tget th.frags fr with
    | none => s
    | some f => match f.park with
      | .mwait d w ws sys start tmo tok =>
        if staysParked th && !force then s else
        let vals := ws.map fun x => (x.lane, x.want, watchVal s w x)
        if vals.any fun v => v.2.2.isNone then
          let f := { f with park := .mwait d w ws sys start (if force then 0 else tmo) tok }
          modThread s t fun th => { th with frags := tset th.frags fr f }
        else if force || tmo = 0 || s.time - start ≥ tmo || vals.any (fun v => v.2.2 != some v.2.1) then
          let rows := vals.map fun v => (v.1, wordsOf (leBytes (v.2.2.getD 0) w))
          let s := modThread s t fun th =>
            let th := landTok (writeRes th (wrRegs d rows (w / 4))) tok
            rejoin { th with frags := tset th.frags fr { f with park := .run } }
          dropL1 s (coreOf s th)
        else s
      | _ => s

/-- Ask the other packages for the watched words that lie there (17 R336). -/
def askWords (s : State) (t fr : Nat) : State :=
  match tget s.threads t with
  | none => s
  | some th => match tget th.frags fr, gridOf s th with
    | some f, some g => match f.park with
      | .mwait d w ws sys start tmo tok =>
        let act := maskOf fun l => ws.any (·.lane == l)
        match ws.find? fun x => match x.pkg with | some p => flowBad s g.ctx p true | none => false with
        | some x => linkCheck s { tid := t, tok := tok, d := fr, lane := x.lane, width := w, kind := 3, fi := fr, pc := f.pc - 12, op := 0x207, act := act }
        | none =>
        let ws' := ws.map fun x => if x.pkg.isSome then { x with got := none } else x
        let s := modThread s t fun th => { th with frags := tset th.frags fr { f with park := .mwait d w ws' sys start tmo tok } }
        let s := ws.foldl (fun s x => match x.pkg with
          | none => s
          | some p => match flowOf s g.ctx p with
            | none => s
            | some (fid, sf) =>
              let r : Remote := {
                tid := t, tok := tok, d := fr, lane := x.lane, width := w, kind := 3, acq := true, fi := fr, pc := f.pc - 12, op := 0x207
                act := act, va := x.key, len := w, lva := x.va, ctx := g.ctx }
              let s := { s with lnk := { s.lnk with remotes := tset s.lnk.remotes (remoteKey fid sf.seq) r } }
              sendPkt s fid (qtagOf s g) 0 false (BitVec.ofNat 64 x.key) (List.replicate w 0)) s
        atTime s (s.time + 4096) (.mwaitRemoteReread t fr)
      | _ => s
    | _, _ => s

/-- MWAIT (17 R336). -/
def execMwait (h : Hdr) (f : FmtA) (s : State) : Out :=
  issue (.mwait h f) (fun e =>
    let n := atomBytes f
    let ea (l : Nat) : Nat := ea64 (vpair e f.a.toNat l) f.off.toInt
    if e.act == 0 then .done e.s []
    else match checkMem e (6 + f.width.toNat) false (fun _ => []) ea with
    | some a => a
    | none => match xlate e e.s 0x207 .read true ea with
      | .error a => a
      | .ok (s, ts) =>
        let tmo := (vreg e f.c.toNat (low e)).toNat
        let ws : List Watch := ts.map fun (l, t) => match t with
          | .key k _ => { lane := l, key := k, va := ea l, want := atomOpnd e f f.b l }
          | .remote p va => { lane := l, key := va, va := ea l, want := atomOpnd e f f.b l, pkg := some p }
        if flowClash e s n ts then .wait s .flow
        else
        let far := ws.any (·.pkg.isSome) || ts.any fun t => match t.2 with | .key _ true => true | _ => false
        if !ws.any (·.pkg.isSome) && (tmo = 0 || ws.any fun x => rdNat s x.key n != x.want) then
          .done (acquire e s f.scope.toNat)
            (wrRegs f.d.toNat (ws.map fun x => (x.lane, wordsOf (leBytes (rdNat s x.key n) n))) (n / 4))
        else
          let s := atTime s (s.time + tmo) (.mwaitWake e.tid e.fi)
          let s := if far then atTime s s.time (.mwaitRemoteReread e.tid e.fi) else s
          .defer s (.mwait f.d.toNat n ws (f.scope == 4) s.time tmo e.tok)) s

/-- MWAIT_WAKE: a store to a watched word, a snoop, or the timeout (17 R336). -/
def execMwaitWake (t fr : Nat) (s : State) : Out := .next (checkWait s t fr false)

/-- MWAIT_REMOTE_REREAD: words on LOC 2 and LOC 3 pages are read again (17 R336). -/
def execMwaitRemoteReread (t fr : Nat) (s : State) : Out := .next (checkWait (askWords s t fr) t fr false)

/-! ### Phasers -/

def barrier (e : Env) (id : Nat) : Act := .trap 11 id e.act 0

/-- The strand has another live fragment, or a pending serial-mode record (17 R338). -/
def notWhole (e : Env) : Bool := e.th.frags.length > 1 || e.th.calls.any (·.serial)

/-- Strands of the block, or of the cluster group. -/
def sharers (e : Env) : PhLoc → Nat
  | .core .. => e.blk.nstr
  | .cluster .. => e.grid.lrec.grpx * e.grid.lrec.grpy * e.grid.lrec.grpz * strandCount e.grid.lrec

def isCluster : PhLoc → Bool
  | .core .. => false
  | .cluster .. => true

/-- The result of a completed wait: pD tells whether the phase is abandoned (17 R338). -/
def phRes (e : Env) (pd : Nat) (p : Phaser) (ph : Nat) : List Res :=
  if e.act == 0 then [] else [.p pd e.act (if p.abandoned.contains ph then e.act else 0)]

/-- A completed wait acquires at the phaser's scope (09 R157). -/
def phAcquire (e : Env) (l : PhLoc) (s : State) : State := if isCluster l then dropL1 s e.blk.core else s

/-- An arrival is a release at the phaser's scope (09 R157). -/
def phRelease (e : Env) (l : PhLoc) : Except Act State := releaseGate e 0 (if isCluster l then 2 else 1) none

/-- Put a phaser with a new arrival or signal; the strand goes on if its phase is complete, and parks if not. -/
def phJoin (e : Env) (l : PhLoc) (id pd : Nat) (p : Phaser) (ph : Nat) : Act :=
  match phRelease e l with
  | .error a => a
  | .ok s =>
  let s := phPut s l p
  if (phAt s l).phase > ph then .done (phAcquire e l s) (phRes e pd p ph)
  else .defer s (.phase (isCluster l) id ph pd e.act e.tok)

/-- BAR (17 R339). -/
def execBar (h : Hdr) (f : FmtX) (s : State) : Out :=
  issue (.bar h f) (fun e =>
    let id := immBits f 6 0
    let n := immBits f 18 8
    match phLoc e.grid e.blk e.th.bid id with
    | none => barrier e id
    | some l =>
      let p := phAt e.s l
      if notWhole e || p.mode = 2 || n > sharers e l || (p.mode = 1 && p.count != n) then barrier e id
      else phJoin e l id f.d.toNat { p with mode := 1, count := n, arrived := p.arrived ++ [e.tid] } p.phase) s

/-- PHREG (17 R340). -/
def execPhreg (h : Hdr) (f : FmtX) (s : State) : Out :=
  issue (.phreg h f) (fun e =>
    let id := immBits f 6 0
    if e.act == 0 then .done e.s []
    else match phLoc e.grid e.blk e.th.bid id with
    | none => barrier e id
    | some l =>
      let p := phAt e.s l
      if p.mode = 1 || p.members.any (·.tid == e.tid) then barrier e id
      else .done (setPh e.s l { p with mode := 2, members := p.members ++ [{ tid := e.tid, mode := immBits f 9 8 }] }) []) s

/-- PHDROP (17 R340). -/
def execPhdrop (h : Hdr) (f : FmtX) (s : State) : Out :=
  issue (.phdrop h f) (fun e =>
    let id := immBits f 6 0
    if e.act == 0 then .done e.s []
    else match phLoc e.grid e.blk e.th.bid id with
    | none => barrier e id
    | some l =>
      let p := phAt e.s l
      if p.mode = 1 || !p.members.any (·.tid == e.tid) then barrier e id
      else .done (phDrop e.s l p e.tid) []) s

/-- The member that the issuing strand is. -/
def phMember (e : Env) (p : Phaser) : Option Member := if p.mode = 2 then p.members.find? (·.tid == e.tid) else none

def setMember (p : Phaser) (m : Member) : Phaser :=
  { p with members := p.members.map fun x => if x.tid = m.tid then m else x }

/-- A phaser with the signal of a member. -/
def phSignal (p : Phaser) (m : Member) : Phaser :=
  let q := setMember p { m with lastSig := some p.phase }
  { q with signalled := q.signalled ++ [m.tid] }

/-- PHSIG (17 R340). -/
def execPhsig (h : Hdr) (f : FmtX) (s : State) : Out :=
  issue (.phsig h f) (fun e =>
    let id := immBits f 6 0
    if e.act == 0 then .done e.s []
    else match phLoc e.grid e.blk e.th.bid id with
    | none => barrier e id
    | some l =>
      let p := phAt e.s l
      match phMember e p with
      | none => barrier e id
      | some m =>
        if notWhole e || m.mode = 2 || p.signalled.contains e.tid then barrier e id
        else match phRelease e l with
          | .error a => a
          | .ok s => .done (phPut s l (phSignal p m)) []) s

/-- The phase that a member waits for: that of its last signal unless it has waited for it, else the current one. -/
def waitPhase (p : Phaser) (m : Member) : Nat :=
  match m.lastSig with
  | some q => if (m.lastWait.map fun w => decide (q ≤ w)).getD false then p.phase else q
  | none => p.phase

/-- PHWAIT (17 R340). -/
def execPhwait (h : Hdr) (f : FmtX) (s : State) : Out :=
  issue (.phwait h f) (fun e =>
    let id := immBits f 6 0
    if e.act == 0 then .done e.s []
    else match phLoc e.grid e.blk e.th.bid id with
    | none => barrier e id
    | some l =>
      let p := phAt e.s l
      match phMember e p with
      | none => barrier e id
      | some m =>
        let ph := waitPhase p m
        if m.mode = 1 then barrier e id
        else
          let s := setPh e.s l (setMember p { m with lastWait := some ph })
          if ph < p.phase then .done (phAcquire e l s) (phRes e f.d.toNat p ph)
          else .defer s (.phase (isCluster l) id ph f.d.toNat e.act e.tok)) s

/-- PHSW (17 R340). -/
def execPhsw (h : Hdr) (f : FmtX) (s : State) : Out :=
  issue (.phsw h f) (fun e =>
    let id := immBits f 6 0
    if e.act == 0 then .done e.s []
    else match phLoc e.grid e.blk e.th.bid id with
    | none => barrier e id
    | some l =>
      let p := phAt e.s l
      match phMember e p with
      | none => barrier e id
      | some m =>
        if notWhole e || m.mode != 3 || p.signalled.contains e.tid then barrier e id
        else phJoin e l id f.d.toNat (phSignal p { m with lastWait := some p.phase }) p.phase) s

/-- GSYNC (17 R341). -/
def execGsync (h : Hdr) (f : FmtX) (s : State) : Out :=
  issue (.gsync h f) (fun e =>
    if !e.grid.lrec.coop || e.grid.nest.isSome then .trap 1 (opOf (.gsync h f)) e.act 0
    else if notWhole e then barrier e 0x7F
    else match releaseGate e 0 3 none with
    | .error a => a
    | .ok s =>
      let ph := e.grid.gsPhase
      let s := gsyncCheck (modGrid s e.blk.gid fun g => { g with gsArrived := g.gsArrived ++ [e.tid] }) e.blk.gid
      if ((tget s.grids e.blk.gid).map (·.gsPhase)).getD 0 > ph then
        .done (dropL1 s e.blk.core) (if e.act == 0 then [] else [.p f.d.toNat e.act (if e.grid.gsAbandoned.contains ph then e.act else 0)])
      else .defer s (.gsync ph f.d.toNat e.act e.tok)) s

end Sys2Proof.Machine
end

