-- ==== Sys2Proof/Machine/Place.lean ====
section
/-! DEFINITION. The distributor of a partition: which launch is served, placement, gangs, and the start of blocks (06 R88-R95,
11 R206, R207), restores (10 R181, 05 R81), and the ends of blocks and grids (06 R88, 08 R123, 18 R358). -/
namespace Sys2Proof.Machine

/-! ### Tenants -/

/-- The function whose slice runs (05 R79); a partition with no list serves the PF. -/
def tenantOf (p : Part) : Nat := (p.slices.getD p.slicePos (0, 0)).1

/-- Work of a context may be placed in a partition now. -/
def ctxRuns (s : State) (pid c : Nat) : Bool :=
  match tget s.parts pid, tget s.ctxs c with
  | some p, some cx => !p.switching && !p.clusters.isEmpty && !cx.stopped && cx.leaving.isNone && tenantOf p == cx.fn
  | _, _ => false

/-! ### Starting a block (06 R88, 10 R181) -/

/-- Copies of a block that wait on replayable faults, or that have not started though nothing holds them: replay entries of every strand
that issued them, or a slice of them (05 R80, 09 R156). -/
def replayOf (s : State) (bid tid : Nat) : List Nat :=
  (s.cmds.filter fun e => e.2.bid == bid && (e.2.tid == tid || e.2.issued.contains tid) && 1 ≤ e.2.kind && e.2.kind ≤ 3
    && ((e.2.st == 2 && !e.2.recs.isEmpty) || (e.2.st == 1 && e.2.full && e.2.preds = 0))).map Prod.fst

/-- A sleeper of a restored block wakes at the time that it has (15 R299). -/
def sleepOn (s : State) (t fi : Nat) : State :=
  match ((tget s.threads t).bind fun th => tget th.frags fi).map fun f => f.park with
  | some (Park.sleep till) => atTime s (max s.time till) (.sleepExpiry t fi)
  | _ => s

/-- A restored block goes on: parked fragments look at their waits again (10 R181); a strand waits for its replay entries (09 R156). In a
context that is stopped none issues. -/
def resumeRun (s : State) (bid : Nat) (b : Block) : State :=
  let s := dropL1 (claimGrans s b) b.core
  let stop := ctxStopped s b
  let s := modBlock s bid fun b => { b with stage := .running, placedAt := s.time, preq := [], why := 0, back := false }
  let wake (fr : Frag) : Frag := match fr.park with
    | .stopped | .retry _ => { fr with park := .run }
    | _ => fr
  let s := { s with threads := tmap s.threads fun t th =>
    if th.bid = bid then rejoin { th with
      stopped := stop
      replay := replayOf s bid t
      skidLeft := if b.halted then th.skidLeft else none
      frags := tmap th.frags fun _ f => wake f } else th }
  let waits := (s.threads.filter fun e => e.2.bid == bid).flatMap fun e => e.2.frags.map fun f => (e.1, f.1)
  let s := waits.foldl (fun s w => sleepOn (checkWait (askWords s w.1 w.2) w.1 w.2 true) w.1 w.2) s
  let s := wakeMxwait (mxEnter s bid) (ctlThread bid)
  (s.cmds.filter fun e => e.2.bid == bid).foldl (fun s e => cmdReady s e.1) s

/-- A block whose granules are clean of others starts or goes on; requests that waited take effect. -/
def goBlock (s : State) (bid : Nat) : State :=
  match tget s.blocks bid with
  | none => s
  | some b =>
    let s := if s.threads.any fun e => e.2.bid == bid then resumeRun s bid b else runBlock s bid
    if b.halt != 0 then stopStrands s bid
    else
      let s := modBlock s bid fun b => { b with late := [] }
      saveCheck (takePreq s bid b.late) bid

/-- Start a block whose resources are taken: granules that another launch held are scrubbed first (06 R88, 07 R104). -/
def beginBlock (s : State) (bid : Nat) : State :=
  match tget s.blocks bid with
  | none => s
  | some b =>
    let dirty := b.gran.filter fun g => match tget s.granules (512 * b.core + g) with | some x => x.last != b.gid | none => false
    let s := match tget s.grids b.gid with | some g => startArena s bid b g | none => s
    let s := queueScrub s b.core dirty
    if scrubPending s b then modBlock s bid fun b => { b with stage := .scrubbing } else goBlock s bid

/-- A nest and every nest that sits in its seats (11 R207, R208). -/
def nestRoot (s : State) : (fuel : Nat) → Nat → Nat
  | 0, n => n
  | f + 1, n => match (tget s.nests n).bind (·.lender) with
    | some m => nestRoot s f m
    | none => n

def nestFamily (s : State) (n : Nat) : List Nat :=
  let r := nestRoot s 64 n
  (s.nests.filter fun e => e.2.status.isNone && nestRoot s 64 e.1 == r).map Prod.fst

def leafNest (s : State) (b : Block) : Option Nat := (tget s.grids b.gid).bind fun g => g.nest.map (·.1)

/-- Blocks of the leaves of nests. -/
def familyBlocks (s : State) (ns : List Nat) : List (Nat × Block) :=
  s.blocks.filter fun e => match leafNest s e.2 with | some n => ns.contains n | none => false

/-- Blocks of a grid that hold reservations. -/
def reservedOf (s : State) (gid : Nat) : List Nat := (s.blocks.filter fun e => e.2.gid == gid && e.2.stage == .reserved).map Prod.fst

/-- The blocks that a transaction starts: those of a grid, or of a nest that comes back with its family. -/
def gangBlocks (s : State) (g : Bool × Nat) : List (Nat × Block) :=
  if g.1 then s.blocks.filter fun e => e.2.gid == g.2 else familyBlocks s (nestFamily s g.2)

/-- A launch has had its turn: the next queue of its priority is served (06 R92). -/
def turnOver (p : Part) (prio q : Nat) : Part := { p with serving := tdel p.serving prio, lastQueue := tset p.lastQueue prio q }

/-- A grid is served on until its last block is placed. -/
def serveOn (p : Part) (gid : Nat) (g : Grid) : Part :=
  if g.next ≥ blockCount g.lrec then turnOver p g.prio g.queue else { p with serving := tset p.serving g.prio (true, gid) }

/-- The transaction is over once every block of it has started, or ended before. -/
def closeGang (s : State) (pid : Nat) : State :=
  match tget s.parts pid with
  | none => s
  | some p => match p.gang with
    | none => s
    | some g =>
      if !p.committed || (gangBlocks s g).any (fun e => e.2.stage == .reserved || e.2.stage == .scrubbing) then s
      else
        let s := if g.1 && p.backs.isEmpty then (match tget s.grids g.2 with
          | some x => modPart s pid fun p => serveOn p g.2 x
          | none => s) else s
        kick (modPart s pid fun p => { p with gang := none, committed := false, backs := [] }) pid

/-- SCARAB_SCRUB (07 R104): the first granule of a core's queue is clear, its scratchpad lines are full; blocks that waited for
it start. -/
def execScarabScrub (core : Nat) (s : State) : Out :=
  match tget s.scrubQ core with
  | none | some [] => .next s
  | some (g :: r) =>
    let s := { s with
      scrubQ := if r.isEmpty then tdel s.scrubQ core else tset s.scrubQ core r
      granules := tdel s.granules (512 * core + g) }
    let s := if r.isEmpty then s else atTime s (s.time + 128 * clkDiv s core) (.scarabScrub core)
    .next ((s.blocks.filter fun e => e.2.stage == .scrubbing && e.2.core == core && e.2.gran.contains g).foldl
      (fun s e => if scrubPending s e.2 then s else closeGang (goBlock s e.1) e.2.part) s)

/-! ### Which launch is served (06 R91, R92) -/

inductive Lch where
  | grid (g : Nat)
  | nest (n : Nat)
deriving DecidableEq, Repr

/-- A launch with unplaced blocks, or a nest that waits for its claim. -/
structure Cand where
  who : Lch
  queue : Nat
  prio : Nat
  waits : Bool
  skips : Nat
  order : Nat
deriving DecidableEq, Repr

/-- Launches of a partition that may be placed. -/
def candidates (s : State) (pid : Nat) : List Cand :=
  (s.grids.filterMap fun e =>
    let g := e.2
    if g.part == pid && g.entered && !g.cancelled && !g.done && !g.parked && g.nest.isNone && g.next < blockCount g.lrec && ctxRuns s pid g.ctx
    then some { who := .grid e.1, queue := g.queue, prio := g.prio, waits := g.waits, skips := g.skips, order := e.1 } else none)
  ++ s.nests.filterMap fun e =>
    let x := e.2
    if x.part == pid && x.status.isNone && !x.claimed && ctxRuns s pid x.ctx
    then some { who := .nest e.1, queue := x.queue, prio := x.prio, waits := x.waits, skips := x.skips, order := e.1 } else none

/-- The oldest launch of each queue: the one that was created first. That a held LAUNCH has its age from its issue, not from its release,
is the model's choice (notes/assumptions/60.md). -/
def headsOf (cs : List Cand) : List Cand := cs.filter fun c => !cs.any fun d => d.queue == c.queue && d.order < c.order

/-- A launch, as a gang names it. -/
def Lch.name : Lch → Bool × Nat
  | .grid g => (true, g)
  | .nest n => (false, n)

/-- The heads of the top waiting priority. -/
def topHeads (s : State) (pid : Nat) : List Cand :=
  let hs := headsOf (candidates s pid)
  let top := hs.foldl (fun m c => max m c.prio) 0
  hs.filter (·.prio == top)

def minQueue (cs : List Cand) : Option Cand :=
  cs.foldl (fun o c => match o with | none => some c | some d => if c.queue < d.queue then some c else some d) none

/-- The launch that is served next: a blocking one, the one in progress, or that of the next queue in rotation. -/
def pickLaunch (s : State) (pid : Nat) (p : Part) : Option Cand :=
  let ts := topHeads s pid
  match ts.find? fun c => c.skips ≥ 64 with
  | some b => if b.waits then none else some b
  | none =>
    let free := ts.filter fun c => !c.waits
    let prio := (ts.head?.map (·.prio)).getD 0
    match (tget p.serving prio).bind fun g => free.find? fun c => c.who.name == g with
    | some c => some c
    | none => match minQueue (free.filter fun c => c.queue > (tget p.lastQueue prio).getD 0) with
      | some c => some c
      | none => minQueue free

/-- A launch of higher priority has an unplaced block (06 R95). -/
def outranked (s : State) (pid prio : Nat) : Bool := (headsOf (candidates s pid)).any fun c => c.prio > prio

/-- A launch fits nowhere: it is skipped, until a block of the partition ends. -/
def skipLaunch (s : State) (pid : Nat) (c : Cand) : State :=
  let s := match c.who with
    | .grid g => modGrid s g fun g => { g with skips := g.skips + 1, waits := true }
    | .nest n => modNest s n fun x => { x with skips := x.skips + 1, waits := true }
  modPart s pid fun p => turnOver p c.prio c.queue

/-! ### Leaves in their seats (11 R207) -/

/-- What a leaf's block takes of a seat. -/
def seatPlan (b : Block) (n : Need) : Plan :=
  { core := b.core, bslot := b.bslot, gran := b.gran.take (n.reg + n.sp + n.ts), phSlots := b.phSlots.take n.phs,
    sslots := b.sslots.take n.str, ctl := if n.ctl then b.ctl else none, mirrored := false }

/-- Seats of a nest on which a block may be placed: not on a cluster that is being swapped, or that another function's slice leases (01 R18,
05 R84). -/
def openSeats (s : State) (n : Nat) (x : Nest) : List Nat :=
  (freeSeats s n x).filter fun b => match tget s.blocks b with
    | some b => !s.pkg.swapping.contains (b.core / 8) && clusterOpen s x.part (b.core / 8)
    | none => false

/-- Place one block of a leaf of the partition in a free seat, if one is due. -/
def placeLeaf (s : State) (pid : Nat) : Option State :=
  s.grids.findSome? fun e =>
    let g := e.2
    match g.nest.bind fun x => (tget s.nests x.1).map fun y => (x.1, y) with
    | none => none
    | some (n, x) =>
      if g.part == pid && g.entered && !g.cancelled && !g.done && g.next < blockCount g.lrec && x.claimed && !x.saved && x.why == 0 && ctxRuns s pid g.ctx then
        (openSeats s n x).head?.bind fun sid => (tget s.blocks sid).bind fun b =>
          (takeBlock s e.1 g (seatPlan b (needOf g.lrec)) (some sid) .reserved).map fun (s, bid) => beginBlock s bid
      else none

/-! ### Restores (05 R81, 10 R181, 11 R207) -/

def spotOf (b : Block) : Spot :=
  { core := b.core, bslot := b.bslot, gran := b.gran, phSlots := b.phSlots, sslots := b.sslots, ctl := b.ctl, mirrored := b.mirrored }

/-- A reservation of a block that comes back is released: it is saved as before. -/
def unspot (b : Block) : Block :=
  match b.was with
  | some w => { b with
      core := w.core, bslot := w.bslot, gran := w.gran, phSlots := w.phSlots, sslots := w.sslots, ctl := w.ctl, mirrored := w.mirrored
      stage := .saved, was := none }
  | none => b

/-- A saved block takes resources on one of the cores, in rotation after the core that it had. -/
def putBlock (s : State) (p : Part) (cores : List Nat) (bid : Nat) : Option State :=
  match tget s.blocks bid with
  | none => none
  | some b =>
    let mo := ((tget s.grids b.gid).map (·.lrec.mirrorOk)).getD false
    ((rotate (allowedCores s b.why cores) b.core).findSome? fun c => planOn s b.part p c b.need mo).map fun pl =>
      modBlock s bid fun b => { b with
        core := pl.core
        bslot := pl.bslot
        gran := pl.gran
        phSlots := pl.phSlots
        sslots := pl.sslots
        ctl := pl.ctl
        mirrored := pl.mirrored
        stage := .reserved
        was := some (spotOf b)
        restored := b.why == 1 }

def putBlocks (p : Part) (cores : List Nat) : List Nat → State → Option State
  | [], s => some s
  | b :: r, s => (putBlock s p cores b).bind (putBlocks p cores r)

/-- The cluster that can take a whole cluster group. -/
def groupHome (s : State) (p : Part) (phasers : Nat) (bids : List Nat) : Option Nat :=
  p.clusters.find? fun c => phasers ≤ (freeCph s p c).length && (putBlocks p ((List.range 8).map (8 * c + ·)) bids s).isSome

/-- A cluster group takes its cluster phasers on a cluster. -/
def homeGroup (s : State) (p : Part) (gid q phasers c : Nat) : State :=
  let cph := (freeCph s p c).take phasers
  modGrid s gid fun g => { g with groups := tmod g.groups q fun x => { x with cluster := c, cph := cph } }

/-- A cluster group goes to one cluster. -/
def putGroup (s : State) (p : Part) (gid q phasers : Nat) (bids : List Nat) : Option State :=
  (groupHome s p phasers bids).bind fun c => putBlocks p ((List.range 8).map (8 * c + ·)) bids (homeGroup s p gid q phasers c)

/-- The saved blocks of a grid, by group if it has groups. -/
def putGrid (s : State) (p : Part) (gid : Nat) (g : Grid) (bids : List Nat) : Option State :=
  if !hasGroups g.lrec then putBlocks p (partCores p) bids s
  else
    let grp (b : Nat) : Nat := ((tget s.blocks b).map fun b => groupIdx g.lrec b.lin).getD 0
    (dedup (bids.map grp)).foldl (fun o q => o.bind fun s => putGroup s p gid q g.lrec.phasers (bids.filter fun b => grp b == q)) (some s)

/-- A saved block of a nest sits down in a seat that is free. -/
def sitDown (s : State) (n bid : Nat) : Option State :=
  match tget s.nests n, tget s.blocks bid with
  | some x, some b => (openSeats s n x).head?.bind fun sid => (tget s.blocks sid).map fun sb =>
      let pl := seatPlan sb b.need
      modBlock s bid fun b => { b with
        core := pl.core, bslot := pl.bslot, gran := pl.gran, phSlots := pl.phSlots, sslots := pl.sslots, ctl := pl.ctl
        mirrored := false, stage := .reserved
        seat := some sid, restored := b.why == 1 }
  | _, _ => none

/-- The saved blocks of a nest that may come back. -/
def nestBack (s : State) (n : Nat) : List Nat := ((familyBlocks s [n]).filter fun e => e.2.stage == .saved && e.2.back).map Prod.fst

/-- The claims of a family are complete again, lenders first, and its blocks sit down. -/
def sealFamily (s : State) (ns : List Nat) : Option State :=
  ns.foldl (fun o n => o.bind fun s => match tget s.nests n with
    | none => some s
    | some x =>
      let s := match x.lender.bind fun m => (tget s.nests m).map fun y => (m, y) with
        | some (m, y) => modNest s n fun x => { x with borrow := (freeSeats s m y).take x.borrow.length }
        | none => s
      (sealClaim s n).bind fun s => (nestBack s n).foldl (fun o b => o.bind fun s => sitDown s n b) (some s)) (some s)

/-- Seats that a family still has to reserve, nest by nest. -/
def familyLacks (s : State) (ns : List Nat) : List (Nat × Nat) :=
  ns.filterMap fun n => (tget s.nests n).bind fun x => if x.seats.length < ownSeats x then some (n, ownSeats x - x.seats.length) else none

/-- Retake the claims of a family. -/
def putFamily (s : State) (ns : List Nat) : Option State :=
  ((familyLacks s ns).foldl (fun o e => o.bind fun s => claimSeats s e.1 e.2) (some s)).bind (sealFamily · ns)

/-- Every nest of a family has given its claim up and may come back. -/
def familyReady (s : State) (ns : List Nat) : Bool := ns.all fun n => ((tget s.nests n).map fun x => x.saved && x.back) == some true

/-- The blocks that are restored together with one: its COOP grid, its cluster group, or itself. -/
def gangOf (s : State) (bid : Nat) (b : Block) : List Nat :=
  match tget s.grids b.gid with
  | none => [bid]
  | some g =>
    if g.lrec.coop then (gridBlocks s b.gid).map Prod.fst
    else if hasGroups g.lrec then ((gridBlocks s b.gid).filter fun e => groupIdx g.lrec e.2.lin == groupIdx g.lrec b.lin).map Prod.fst
    else [bid]

def stageOf (s : State) (bid : Nat) : BStage := ((tget s.blocks bid).map (·.stage)).getD .ended

/-- The saved blocks that come back with one. -/
def savedGang (s : State) (bid : Nat) (b : Block) : List Nat := (gangOf s bid b).filter fun x => stageOf s x == .saved

/-- A block of its gang is on its way out, or may not come back yet. -/
def gangBusy (s : State) (bid : Nat) (b : Block) : Bool :=
  (gangOf s bid b).any fun x => match tget s.blocks x with
    | some y => (y.stage == .running && !y.preq.isEmpty) || (y.stage == .saved && !y.back)
    | none => false

/-- Resources for a saved block with its gang, if all of it fits: one of a leaf whose nest holds its claim sits down. -/
def restoreUnit (s : State) (bid : Nat) : Option State :=
  match tget s.blocks bid with
  | none => none
  | some b => match tget s.parts b.part, leafNest s b, tget s.grids b.gid with
    | some _, some n, _ => if ((tget s.nests n).map fun x => x.claimed && !x.saved) == some true then sitDown s n bid else none
    | some p, none, some g => if gangBusy s bid b then none else putGrid s p b.gid g (savedGang s bid b)
    | _, _, _ => none

/-- What a restored block gives back of the save pool. -/
def saveBytes (b : Block) : Nat := 16384 * (b.need.reg + b.need.sp + b.need.ts) + 8192

def unsave (s : State) (bids : List Nat) : State :=
  bids.foldl (fun s bid => match tget s.blocks bid with
    | some b => match tget s.grids b.gid with
      | some g => modCtx s g.ctx fun cx => { cx with saveUsed := cx.saveUsed - saveBytes b }
      | none => s
    | none => s) s

/-- Blocks that come back have their resources for good: their share of the save pool is given back. -/
def keepSpots (s : State) (bids : List Nat) : State := bids.foldl (fun s b => modBlock s b fun b => { b with was := none }) (unsave s bids)

/-- What may come back: a saved block with its gang, or a nest with its family: since when, why it left, its priority, and the event that
brings it back. -/
structure Back where
  at' : Nat
  why : Nat
  prio : Nat
  ev : Instr
deriving DecidableEq, Repr

/-- What of a partition may be restored now, oldest first; what a PART_SET has moved waits for its end (05 R77). -/
def backList (s : State) (pid : Nat) : List Back :=
  let moving := ((tget s.parts pid).map (·.pending.isSome)).getD false
  let blocks := s.blocks.filterMap fun e => (tget s.grids e.2.gid).bind fun g =>
    let away := ((leafNest s e.2).bind fun n => tget s.nests n).any (·.saved)
    if e.2.part == pid && e.2.stage == .saved && e.2.back && !away && !g.parked && !(moving && e.2.why == 4) && ctxRuns s pid g.ctx
    then some ({ at' := e.2.savedAt, why := e.2.why, prio := g.prio, ev := .blockRestore e.1 } : Back) else none
  let nests := s.nests.filterMap fun e =>
    if e.2.part == pid && e.2.status.isNone && e.2.lender.isNone && e.2.saved && e.2.back && !(moving && e.2.why == 4) && ctxRuns s pid e.2.ctx
    then some ({ at' := e.2.savedAt, why := e.2.why, prio := e.2.prio, ev := .applyClaim e.1 } : Back) else none
  (blocks ++ nests).foldl (fun o e => o.filter (fun x => x.at' ≤ e.at') ++ [e] ++ o.filter fun x => x.at' > e.at') []

/-- All of it fits now. -/
def backFits (s : State) (x : Back) : Bool :=
  match x.ev with
  | .blockRestore b => (restoreUnit s b).isSome
  | .applyClaim n => familyReady s (nestFamily s n) && (putFamily s (nestFamily s n)).isSome
  | _ => false

/-- It is restored before any other placement: what was pre-empted for priority, oldest first, then what was saved at the end of a
slice (05 R80, R81, notes/assumptions/53.md). -/
def sliceRestore (s : State) (pid : Nat) : Option Instr :=
  let sv := backList s pid
  ((sv.filter (·.why == 1) ++ sv.filter (·.why == 6)).find? (backFits s)).map (·.ev)

/-- No launch of higher priority has an unplaced block, and none of this priority or above is blocking (06 R92). -/
def mayCome (s : State) (pid prio : Nat) : Bool :=
  let ts := topHeads s pid
  ts.foldl (fun m c => max m c.prio) 0 ≤ prio && !ts.any fun c => c.skips ≥ 64 && c.prio ≥ prio

/-- Something else that is restored before new placements at its priority or below, but not past a launch that is blocking (06 R92, R99). -/
def nextRestore (s : State) (pid : Nat) : Option Instr :=
  ((backList s pid).find? fun x => !(x.why == 1 || x.why == 6) && mayCome s pid x.prio && backFits s x).map (·.ev)

/-- A partition whose transaction brings something back. -/
def bringsBack (s : State) (p : Part) : Bool :=
  match p.gang with
  | some (false, n) => ((tget s.nests n).map (·.saved)).getD false
  | _ => !p.backs.isEmpty

/-- Open the transaction that restores saved blocks of a grid, or a nest, unless one is open (06 R94). -/
def openBack (s : State) (pid : Nat) (g : Bool × Nat) (bids : List Nat) : State :=
  match tget s.parts pid with
  | none => s
  | some p =>
    if p.gang.isSome || p.committed then s
    else atTime (modPart s pid fun p => { p with gang := some g, backs := bids }) s.time (.gangReserve pid)

/-- BLOCK_RESTORE (10 R181): a gang comes back in one transaction (06 R94), a block by itself at once. -/
def execBlockRestore (bid : Nat) (s : State) : Out :=
  match tget s.blocks bid with
  | none => .next s
  | some b =>
    if b.stage != .saved || !b.back then .next s
    else match restoreUnit s bid with
      | none => .next s
      | some s' =>
        .next (if (leafNest s b).isNone && ((tget s.grids b.gid).map fun g => g.lrec.coop || hasGroups g.lrec) == some true
          then openBack s b.part (true, b.gid) (savedGang s bid b)
          else kick (beginBlock (keepSpots s' [bid]) bid) b.part)

/-- The blocks of a parked COOP grid, if it fits again. -/
def parkedFits (s : State) (gid : Nat) (g : Grid) : Option (List Nat) :=
  match tget s.parts g.part with
  | none => none
  | some p =>
    let bids := ((gridBlocks s gid).filter fun e => e.2.stage == .saved).map Prod.fst
    if !g.parked || bids.isEmpty || (gridBlocks s gid).any (fun e => e.2.stage != .saved) || p.pending.isSome || !ctxRuns s g.part g.ctx then none
    else (putGrid s p gid g bids).map fun _ => bids

/-- COOP_RESUME (05 R78): restored whole, in one gang transaction. -/
def execCoopResume (gid : Nat) (s : State) : Out :=
  match tget s.grids gid with
  | none => .next s
  | some g => match parkedFits s gid g with
    | some bids => .next (openBack s g.part (true, gid) bids)
    | none => .next s

/-- ADDR of a COOP_PARKED record (05 R78): TAG and queue id, or the handle of the LAUNCH command. -/
def launchName (s : State) (g : Grid) : Nat :=
  match g.cmd with
  | some c => ((tget s.cmds c).map handleOf).getD 0 + 0x3FF * 2 ^ 32
  | none => match g.pkt with
    | some _ => fld g.lrec.raw 4 4 + ((tget s.queues g.queue).map (·.qid)).getD 0 * 2 ^ 32
    | none => 0

/-- Park a COOP grid: every block is saved, and it waits until it fits again. -/
def parkGrid (s : State) (gid : Nat) (g : Grid) : State :=
  let s := modGrid s gid fun g => { g with parked := true }
  let s := postRec s g.ctx { kind := 3, code := 0, flags := 0, strand := 0, addr := launchName s g, time := s.time, body := [], ev := some g.evNo }
  stopNow s ((gridBlocks s gid).map Prod.fst) 4

/-- A COOP grid some of whose blocks a shrinking partition has displaced, and which fits no more: it must not run partially (05 R78). -/
def stranded (s : State) (pid : Nat) : Option (Nat × Grid) :=
  if ((tget s.parts pid).map (·.pending.isSome)).getD true then none
  else s.grids.find? fun e => e.2.part == pid && e.2.lrec.coop && !e.2.parked && !e.2.cancelled
    && (gridBlocks s e.1).any (fun b => b.2.stage == .running)
    && (gridBlocks s e.1).any fun b => b.2.stage == .saved && b.2.why == 4 && b.2.back && !gangBusy s b.1 b.2 && (restoreUnit s b.1).isNone

/-! ### Placement (06 R90, R92, R94) -/

def isGang (r : LRec) : Bool := r.coop || hasGroups r

/-- Some launch of the top priority fits nowhere, and no pre-emption for priority is in progress (06 R93). -/
def wantsVictim (s : State) (pid : Nat) (p : Part) : Bool :=
  p.victim.isEmpty && (topHeads s pid).any (·.waits)
    && s.blocks.any fun e => e.2.part == pid && holds e.2

/-- Ask for a victim now. -/
def seekVictim (s : State) (pid : Nat) (p : Part) : State :=
  if wantsVictim s pid p then atTime s s.time (.priorityPreemption pid) else s

/-! ### Open transactions (06 R94, R95) -/

/-- A nest comes back with its family. -/
def comesBack (s : State) (n : Nat) : Bool := ((tget s.nests n).map (·.saved)).getD false

/-- Reservations that an open transaction holds, and those that it needs: blocks of a grid or of a group, or seats of claims. -/
def gangHeld (s : State) (g : Bool × Nat) : Nat :=
  if g.1 then (reservedOf s g.2).length
  else if comesBack s g.2 then ((nestFamily s g.2).map fun n => ((tget s.nests n).map (·.seats.length)).getD 0).sum
  else ((tget s.nests g.2).map (·.seats.length)).getD 0

def gangNeeds (s : State) (p : Part) (g : Bool × Nat) : Nat :=
  if g.1 then
    if p.backs.isEmpty then ((tget s.grids g.2).map fun x => gangSize x.lrec).getD 0
    else (p.backs.filter fun b => stageOf s b == .saved || stageOf s b == .reserved).length
  else if comesBack s g.2 then ((nestFamily s g.2).map fun n => ((tget s.nests n).map ownSeats).getD 0).sum
  else ((tget s.nests g.2).map ownSeats).getD 0

/-- What it places is gone. -/
def gangGone (s : State) (g : Bool × Nat) : Bool :=
  if g.1 then ((tget s.grids g.2).map (·.cancelled)).getD true else ((tget s.nests g.2).map (·.status.isSome)).getD true

/-- One more block of a grid comes back to a place: with its group, if it has one. -/
def backStep (s : State) (p : Part) (gid : Nat) : Option State :=
  match p.backs.find? fun b => stageOf s b == .saved, tget s.grids gid with
  | some b, some g =>
    if !hasGroups g.lrec then putBlocks p (partCores p) [b] s
    else
      let grp (b : Nat) : Nat := ((tget s.blocks b).map fun b => groupIdx g.lrec b.lin).getD 0
      let mates := p.backs.filter fun x => grp x == grp b
      if mates.any fun x => stageOf s x == .reserved then
        let c := ((tget g.groups (grp b)).map (·.cluster)).getD 0
        putBlocks p ((List.range 8).map (8 * c + ·)) [b] s
      else (groupHome s p g.lrec.phasers mates).bind fun c =>
        putBlocks p ((List.range 8).map (8 * c + ·)) [b] (homeGroup s p gid (grp b) g.lrec.phasers c)
  | _, _ => some s

/-- One reservation more, if it can be had. -/
def gangNext (s : State) (p : Part) (g : Bool × Nat) : Option State :=
  if g.1 then (if p.backs.isEmpty then gangStep s g.2 else backStep s p g.2)
  else if comesBack s g.2 then (match (familyLacks s (nestFamily s g.2)).head? with | some e => claimSeats s e.1 1 | none => some s)
  else claimSeats s g.2 1

/-- Every reservation of an open transaction is released. -/
def releaseGang (s : State) (p : Part) (g : Bool × Nat) : State :=
  if g.1 then
    if p.backs.isEmpty then unreserve s g.2
    else { s with blocks := tmap s.blocks fun b x => if p.backs.contains b && x.stage == .reserved then unspot x else x }
  else if comesBack s g.2 then (nestFamily s g.2).foldl (fun s n => match tget s.nests n with | some x => dropClaim s n x | none => s) s
  else undoClaim s g.2

/-- The open transaction aborts: every reservation is released; one that could not be reserved is skipped, and waits. -/
def abortGang (s : State) (pid : Nat) (waits : Bool) : State :=
  match tget s.parts pid with
  | none => s
  | some p => match p.gang with
    | none => s
    | some g =>
      let back := bringsBack s p
      let (q, prio) := if g.1 then ((tget s.grids g.2).map fun x => (x.queue, x.prio)).getD (0, 0)
        else ((tget s.nests g.2).map fun x => (x.queue, x.prio)).getD (0, 0)
      let s := modPart (releaseGang s p g) pid fun p => { p with gang := none, backs := [] }
      if !waits || back then kick s pid
      else
        let s := skipLaunch s pid { who := if g.1 then .grid g.2 else .nest g.2, queue := q, prio := prio, waits := true, skips := 0, order := 0 }
        kickNow (match tget s.parts pid with | some p => seekVictim s pid p | none => s) pid

/-- Place the next block of a launch, or open its gang, or let a nest take its claim. -/
def placeOne (s : State) (pid : Nat) (p : Part) (c : Cand) : State :=
  match c.who with
  | .nest n => atTime s s.time (.applyClaim n)
  | .grid gid => match tget s.grids gid with
    | none => s
    | some g =>
      if isGang g.lrec then
        atTime (modPart (modGrid s gid fun g => { g with prevCore := g.lastCore }) pid fun p => { p with
          gang := some (true, gid), serving := tset p.serving g.prio (true, gid) }) s.time (.gangReserve pid)
      else match (firstPlan s g (coreOrder p gid g)).bind fun pl => takeBlock s gid g pl none .reserved with
        | some (s, bid) =>
          let s := beginBlock (modGrid s gid fun g => { g with skips := 0 }) bid
          kick (modPart s pid fun p => serveOn p gid { g with next := g.next + 1 }) pid
        | none =>
          let s := skipLaunch s pid c
          kickNow (match tget s.parts pid with | some p => seekVictim s pid p | none => s) pid

/-- BLOCK_PLACE (06 R88-R92): the distributor of a partition does one thing. -/
def execBlockPlace (pid : Nat) (s : State) : Out :=
  match tget s.parts pid with
  | none => .next s
  | some p =>
    if p.committed then .next s
    else match (if bringsBack s p then none else sliceRestore s pid) with
      | some i => .next (if p.gang.isSome then abortGang s pid false else kick (atTime s s.time i) pid)
      | none => match placeLeaf s pid with
        | some s => .next (kick s pid)
        | none => match p.gang with
          | some g => .next (if outranked s pid (gangPrio s p g) then atTime s s.time (.gangAbort pid) else s)
          | none => match stranded s pid with
            | some (gid, g) => .next (kick (parkGrid s gid g) pid)
            | none => match s.grids.find? fun e => e.2.part == pid && (parkedFits s e.1 e.2).isSome && mayCome s pid e.2.prio with
              | some e => .next (kick (atTime s s.time (.coopResume e.1)) pid)
              | none => match nextRestore s pid with
                | some i => .next (kick (atTime s s.time i) pid)
                | none => match pickLaunch s pid p with
                  | some c => .next (placeOne s pid p c)
                  | none => .next (seekVictim s pid p)

/-- The root of a nest starts. -/
def startRoot (s : State) (n : Nat) : State := startNode n 17 s 0 none 0 []

/-- APPLY_CLAIM (11 R206-R208): a claim that the child reserve covers is taken at once; for another the transaction opens when the
distributor serves it. A nest that gave its claim up retakes it with its family. -/
def execApplyClaim (n : Nat) (s : State) : Out :=
  match tget s.nests n with
  | none => .next s
  | some x =>
    if x.status.isSome || !ctxRuns s x.part x.ctx then .next s
    else if x.saved then .next (if familyReady s (nestFamily s n) then openBack s x.part (false, n) [] else s)
    else if x.claimed then .next s
    else
      let loan := ((lenderOf s x).map fun l => min l.2.2 (freeSeats s l.1 l.2.1).length).getD 0
      if x.seatN ≤ loan && x.chanN = 0 then
        .next (match takeClaim s n x with | some s => startRoot s n | none => kick s x.part)
      else match tget s.parts x.part with
        | none => .next s
        | some p => match (if p.gang.isSome || p.committed then none else pickLaunch s x.part p) with
          | some c =>
            if c.who != .nest n then .next (kick s x.part)
            else
              let s := modPart (openClaim s n x) x.part fun p => { p with gang := some (false, n), serving := tset p.serving x.prio (false, n) }
              .next (atTime s s.time (.gangReserve x.part))
          | none => .next (kick s x.part)

/-! ### Gangs (06 R94, R95) -/

/-- GANG_RESERVE (06 R94): one more reservation, 4 cycles each. -/
def execGangReserve (pid : Nat) (s : State) : Out :=
  match tget s.parts pid with
  | none => .next s
  | some p => match p.gang with
    | none => .next s
    | some g =>
      if p.committed then .next s
      else if gangGone s g || outranked s pid (gangPrio s p g) then .next (abortGang s pid false)
      else if gangHeld s g ≥ gangNeeds s p g then .next (atTime s s.time (.gangCommit pid))
      else match gangNext s p g with
        | none => .next (abortGang s pid true)
        | some s => .next (if gangHeld s g ≥ gangNeeds s p g then atTime s s.time (.gangCommit pid) else atTime s (s.time + 4) (.gangReserve pid))

/-- The transaction commits: each of its blocks starts within 64 cycles per block. -/
def commitGang (s : State) (pid : Nat) (g : Bool × Nat) : State :=
  let n := ((gangBlocks s g).filter fun e => e.2.stage == .reserved).length
  let s := modPart s pid fun p => { p with committed := true, commitAt := s.time }
  if n = 0 then closeGang s pid
  else (List.range n).foldl (fun s j => atTime (tick s) (s.time + 64 * j + 1 + Config.delay s.freeCtr % 64) (.gangBlockStart pid)) s

/-- GANG_COMMIT (06 R94): everything has its reservation. Each block starts within 64 cycles per block; the root of a nest starts. -/
def execGangCommit (pid : Nat) (s : State) : Out :=
  match tget s.parts pid with
  | none => .next s
  | some p => match p.gang with
    | none => .next s
    | some g =>
      if p.committed || gangHeld s g < gangNeeds s p g then .next s
      else if gangGone s g || outranked s pid (gangPrio s p g) then .next (abortGang s pid false)
      else if g.1 then
        let s := if p.backs.isEmpty then s else keepSpots s (reservedOf s g.2)
        .next (commitGang (modGrid s g.2 fun g => { g with skips := 0, parked := false }) pid g)
      else if comesBack s g.2 then
        .next (match sealFamily s (nestFamily s g.2) with
        | some s => commitGang (unsave s (((gangBlocks s g).filter fun e => e.2.stage == .reserved).map Prod.fst)) pid g
        | none => abortGang s pid true)
      else match sealClaim s g.2, tget s.nests g.2 with
        | some s, some x => .next (kick (startRoot (modPart s pid fun p => { turnOver p x.prio x.queue with gang := none }) g.2) pid)
        | _, _ => .next (abortGang s pid true)

/-- GANG_BLOCK_START (06 R94): a committed block is started. -/
def execGangBlockStart (pid : Nat) (s : State) : Out :=
  match tget s.parts pid with
  | none => .next s
  | some p => match p.gang with
    | none => .next s
    | some g =>
      if !p.committed then .next s
      else match (gangBlocks s g).find? fun e => e.2.stage == .reserved with
        | some e => .next (closeGang (beginBlock s e.1) pid)
        | none => .next (closeGang s pid)

/-- GANG_ABORT (06 R95): a launch of higher priority has an unplaced block before the commit. -/
def execGangAbort (pid : Nat) (s : State) : Out :=
  match tget s.parts pid with
  | none => .next s
  | some p => match p.gang with
    | none => .next s
    | some g => .next (if p.committed || !outranked s pid (gangPrio s p g) then s else abortGang s pid false)

/-! ### The end of a block (06 R88, 18 R358) -/

/-- A command has still to read or write its block's scratchpad: of a sort that has not read its keys all its operands, else what of its
slices has not landed. -/
def cmdOnSp (c : Cmd) : Bool :=
  if c.kind = 3 && !c.desc.isEmpty then fld c.desc 0 1 % 8 != 0 else c.slices.any fun x => x.dst.sp || (x.src.sp && x.lit.isNone)

/-- A command that has started still uses the block's scratchpad (06 R88). -/
def cmdsHold (s : State) (bid : Nat) : Bool := s.cmds.any fun e => e.2.bid == bid && e.2.st == 2 && e.2.kind != 0 && cmdOnSp e.2

/-- Release a family's claims when it is being pre-empted and no block of it is placed any more (11 R207). -/
def familyAway (s : State) (n : Nat) : State :=
  let ns := nestFamily s n
  let leaving := ns.any fun n => ((tget s.nests n).map (·.why)).getD 0 != 0
  if !leaving || (familyBlocks s ns).any (fun e => e.2.stage != .saved && e.2.stage != .ended) then s
  else ns.foldl (fun s n => match tget s.nests n with
    | none => s
    | some x =>
      if !x.claimed || x.saved then s
      else
        let cls := dedup (x.seats.filterMap fun b => (tget s.blocks b).map (·.core / 8))
        let s := dropClaim s n x
        let s := { s with blocks := tmap s.blocks fun _ b => if b.stage == .saved && (leafNest s b) == some n then { b with seat := none } else b }
        slotsBack (freedOn (modNest s n fun x => { x with saved := true, back := !(x.why == 1 || x.why == 6), savedAt := s.time }) x.part cls) x.ctx) s

/-- The cluster group of a block that ends. -/
def leaveGroup (s : State) (b : Block) (g : Grid) : State :=
  if !hasGroups g.lrec then s
  else
    let q := groupIdx g.lrec b.lin
    match tget g.groups q with
    | none => s
    | some x =>
      if x.left ≤ 1 then
        let s := modGrid s b.gid fun g => { g with groups := tdel g.groups q }
        if x.started then closeArena s g.ctx 2 x.slot else dropSlot s g.ctx 2 x.slot
      else modGrid s b.gid fun g => { g with groups := tset g.groups q { x with left := x.left - 1 } }

/-- The arena of a block that ends; one that has not begun leaves its slot. -/
def leaveArena (s : State) (b : Block) (c : Nat) : State :=
  if ((tget s.ctxs c).map fun cx => slotIdle cx 1 b.aslot) == some true then (if seatHolds s b then s else dropSlot s c 1 b.aslot)
  else modCtx (closeArena s c 1 b.aslot) c fun cx => { cx with freed := tset cx.freed b.core b.aslot }

/-- BLOCK_END (06 R88). -/
def execBlockEnd (bid : Nat) (s : State) : Out :=
  match tget s.blocks bid with
  | none => .next s
  | some b =>
    if b.gid = 0 || !blockDone s bid || cmdsHold s bid then .next s
    else match tget s.grids b.gid with
      | none => .next s
      | some g =>
        let s := if b.stage == .saved || b.was.isSome then unsave s [bid] else leaveGrans s b
        let s := dropCmds s fun c => c.bid == bid && cmdUsesSp c
        let s := { s with
          blocks := tdel s.blocks bid
          threads := s.threads.filter fun e => e.2.bid != bid }
        let s := leaveGroup (leaveArena s b g.ctx) b g
        let s := modGrid s b.gid fun g => { g with ended := g.ended + 1 }
        let last := (gridBlocks s b.gid).isEmpty && (g.next ≥ blockCount g.lrec || g.cancelled)
        let s := if last then dropCmds s fun c => c.gid == b.gid && c.st == 0 else s
        let s := modPart s b.part fun p => { p with victim := p.victim.filter (· != bid) }
        let s := match g.nest with
          | some x => familyAway s x.1
          | none => s
        .next (after (closeGang (freedBy s b g.ctx) b.part) (.gridEnd b.gid))

/-! ### The end of a grid (08 R123, 04 R68) -/

/-- What a grid reports to whoever launched it. -/
def reportGrid (s : State) (g : Grid) : State :=
  let st := gridStatus g
  match g.cmd, g.pkt with
  | some cid, _ =>
    let s := cctrJob s g.ctx g.lrec.cctr st ((tget s.queues g.queue).map (·.tag) |>.getD 0) none (some g.queue) ((tget s.cmds cid).map (·.cluster))
    after s (.engineCommandFinish cid (0x10 + st % 256))
  | none, some i => after s (.packetComplete g.queue i st)
  | none, none => s

/-- A context with no live grid gets its retired slots back, at generation 0 (08 R139). -/
def quiesce (s : State) (c : Nat) : State :=
  if s.grids.any fun e => e.2.ctx == c then s else modCtx s c fun cx => { cx with retired := [] }

/-- GRID_END (08 R123): everything that the grid waits for has ended, and its writes are released at system scope (04 R62). -/
def execGridEnd (gid : Nat) (s : State) : Out :=
  match tget s.grids gid with
  | none => .next s
  | some g =>
    if !gridOver s gid g then .next s
    else if gridWrites s gid then .next (again s (.gridEnd gid))
    else
      let s := modGrid s gid fun g => { g with done := true }
      let s := match g.nest with
        | some (n, i) => leafEnd s g n i
        | none => reportGrid (closeArena s g.ctx 3 g.slot) g
      let s := { s with
        grids := tdel s.grids gid
        cmds := s.cmds.filter fun e => !(e.2.gid == gid && e.2.kind != 0)
        nests := s.nests.filter fun e => e.2.gid != some gid }
      let s := quiesce s g.ctx
      let s := match g.parent with
        | some p => after s (.gridEnd p)
        | none => s
      .next (kick (gslotFree s) g.part)

end Sys2Proof.Machine
end

