-- ==== Sys2Proof/Machine/Preempt.lean ====
section
/-! DEFINITION. Pre-emption: who is asked to stop (06 R93, R98, R99), saves (10 R178-R180, 05 R80), the handler deadline
(10 R170), tenant slices (05 R79-R81) and leased counter banks at their edges (05 R84). -/
namespace Sys2Proof.Machine

/-- Work of Shawm's that comes while it does not run waits until it runs again (03 R54). -/
def backlog (s : State) (i : Instr) : State :=
  { s with pkg := { s.pkg with backlog := if s.pkg.backlog.contains i then s.pkg.backlog else s.pkg.backlog ++ [i] } }

/-! ### Saves -/

/-- A block's matrix command runs, a copy of it runs and is not held by a fault, or a store or an atomic of it on another package is
not acknowledged (05 R80). -/
def notQuiet (s : State) (bid : Nat) (b : Block) : Bool :=
  ((mxQueue s b.core).head?.map fun c => c.tid == ctlThread bid && c.begun) == some true
    || s.cmds.any (fun e => e.2.bid == bid && e.2.st == 2 && e.2.recs.isEmpty && ((1 ≤ e.2.kind && e.2.kind ≤ 3) || cmdUsesSp e.2))
    || writesOut s fun r => ((tget s.threads r.tid).map (·.bid)) == some bid

/-- The lowest reason of a pre-emption, or the stop without YIELD. -/
def saveReason (b : Block) : Nat := if b.halt != 0 then b.halt else (b.preq ++ b.late).foldl min 15

/-- The image of a block in the save pool: `n` opaque bytes at an opaque place in it; what a block is restored from is kept apart. Pages
of it that do not translate are left out (notes/assumptions/61.md). -/
def writeImage (s : State) (c : Nat) (v : Events) (n : Nat) : State :=
  let at' := v.pool + 4096 * (Config.savePlace s.freeCtr % (256 * v.size - n / 4096 + 1))
  let k := s.freeCtr
  (List.range (n / 4096)).foldl (fun s j => (writeVa s c (at' + 4096 * j) ((List.range 4096).map fun i => Config.savedByte k (4096 * j + i))).1) (tick s)

/-- Write the image of a block, whose resources come free (10 R180); one that does not fit in the save pool stops the context. -/
def putAway (s : State) (bid : Nat) (b : Block) : State :=
  let ctx := ((tget s.grids b.gid).map (·.ctx)).getD 0
  match tget s.ctxs ctx with
  | none => s
  | some cx =>
    let ev := evOf s b.gid
    if cx.saveUsed + saveBytes b > (eventsOf cx ev).size * 2 ^ 20 then
      stopCtx (postRec s ctx { kind := 7, code := 0, flags := 0, strand := 0, addr := 0, time := s.time, body := [], ev := ev }) ctx
    else
      let why := saveReason b
      let q := mxQueue s b.core
      let (mine, rest) := q.partition fun c => c.tid == ctlThread bid
      let s := { s with mxq := if rest.isEmpty then tdel s.mxq b.core else tset s.mxq b.core rest }
      let s := writeImage (leaveGrans s b) ctx (eventsOf cx ev) (saveBytes b)
      let s := modCtx s ctx fun cx => { cx with saveUsed := cx.saveUsed + saveBytes b }
      let s := modBlock s bid fun b => { b with
        stage := .saved
        preq := []
        late := []
        halt := 0
        why := why
        savedAt := s.time
        back := !(why == 1 || why == 6 || why == 7)
        seat := none
        mxSaved := mine.map (fun c => { c with stale := c.dmem }) ++ b.mxSaved }
      let s := modPart s b.part fun p => { p with victim := p.victim.filter (· != bid) }
      let s := match leafNest s b with
        | some n => familyAway s n
        | none => s
      freedBy s b ctx

/-- BLOCK_SAVE (10 R178): every strand has stopped; a cancelled block is killed, not saved (11 R212). It waits for quiescence. In a context
that is stopped nothing is saved (10 R174, 01 R14). -/
def execBlockSave (bid : Nat) (s : State) : Out :=
  match tget s.blocks bid with
  | none => .next s
  | some b =>
    let stopped := (strandsOf s bid).all fun e => allParked e.2 || e.2.stopped
    if b.stage != .running || (b.preq.isEmpty && b.late.isEmpty && b.halt = 0) || ctxStopped s b then .next s
    else if !stopped && b.halt = 7 && !inTrap b then .next (stopStrands s bid)
    else if !stopped then .next s
    else if (b.preq ++ b.late).contains 5 then .next (cancelBlock s bid)
    else if notQuiet s bid b then .next (atTime (tick s) (s.time + 1 + Config.delay s.freeCtr) (.blockSave bid))
    else .next (putAway s bid b)

/-- FORCED_SAVE (10 R179): the deadline of the request has passed; in trap mode it waits for the handler's (R170). -/
def execForcedSave (bid : Nat) (s : State) : Out :=
  match tget s.blocks bid with
  | none => .next s
  | some b =>
    let dl := ((tget s.grids b.gid).map fun g => deadlineOf g.lrec).getD 65536
    if b.stage != .running || b.preq.isEmpty || s.time < b.preqAt + dl then .next s
    else if inTrap b then .next (watchTrap s bid)
    else .next (stopStrands s bid)

/-- HANDLER_DEADLINE_EXPIRY (10 R170): 8,192 cycles after the later of the handler's entry and the request. -/
def execHandlerDeadlineExpiry (bid : Nat) (s : State) : Out :=
  match tget s.blocks bid with
  | none => .next s
  | some b =>
    if b.stage != .running || !inTrap b || (b.preq.isEmpty && b.late.isEmpty && b.halt = 0) then .next s
    else if s.time < trapLimit b then .next (atTime s (trapLimit b) (.handlerDeadlineExpiry bid))
    else .next (stopStrands s bid)

/-! ### Asking a unit to stop -/

/-- The blocks that stop together with one: its COOP grid, cluster group or nest family (06 R93, 11 R207). -/
def unitOf (s : State) (bid : Nat) (b : Block) : List Nat :=
  match leafNest s b with
  | some n => (familyBlocks s (nestFamily s n)).map Prod.fst
  | none => gangOf s bid b

/-- Ask a unit to stop; a nest is marked as leaving. -/
def askUnit (s : State) (bid reason : Nat) : State :=
  match tget s.blocks bid with
  | none => s
  | some b =>
    let s := match leafNest s b with
      | some n => (nestFamily s n).foldl (fun s n => modNest s n fun x => { x with why := reason }) s
      | none => s
    setPreq s (unitOf s bid b) reason

/-- Ask a nest to stop through one of its seats. -/
def askNest (s : State) (n reason : Nat) : State :=
  let ns := nestFamily s n
  let s := ns.foldl (fun s n => modNest s n fun x => { x with why := reason }) s
  familyAway (setPreq s ((familyBlocks s ns).map Prod.fst) reason) n

/-! ### Priority (06 R93) -/

/-- Priority of what holds a block's resources: its launch, or the nest whose seat it is. -/
def holderPrio (s : State) (bid : Nat) (b : Block) : Nat :=
  if b.gid = 0 then ((s.nests.find? fun e => e.2.seats.contains bid).map fun e => e.2.prio).getD 8
  else ((tget s.grids b.gid).map (·.prio)).getD 8

/-- Blocks and seats of a core that a launch of priority `pr` may displace. -/
def displaceable (s : State) (pid core pr : Nat) : List (Nat × Block) :=
  s.blocks.filter fun e => e.2.part == pid && e.2.core == core && holds e.2 && !e.2.restored && holderPrio s e.1 e.2 < pr
    && (e.2.stage == .running || e.2.stage == .scrubbing || e.2.gid = 0)

/-- The lowest priority first, and among equals the most recently placed. -/
def victimIn (s : State) (vs : List (Nat × Block)) : Option (Nat × Block) :=
  vs.foldl (fun o e => match o with
    | none => some e
    | some v =>
      let a := holderPrio s e.1 e.2
      let b := holderPrio s v.1 v.2
      if a < b || (a == b && e.2.placedAt > v.2.placedAt) then some e else some v) none

/-- What a launch's next block needs, and the cores that it tries. -/
def launchNeed (s : State) (p : Part) (c : Cand) : Option (Need × Bool × List Nat) :=
  match c.who with
  | .grid g => (tget s.grids g).map fun x => (needOf x.lrec, x.lrec.mirrorOk, coreOrder p g x)
  | .nest n => (tget s.nests n).map fun x => (x.shape, false, rotate (partCores p) (Config.startCore n % 1536))

/-- The victim for the first waiting launch of the top priority that displacing makes fit. -/
def findVictim (s : State) (pid : Nat) (p : Part) : Option (Nat × Block) :=
  ((topHeads s pid).filter (·.waits)).findSome? fun c => (launchNeed s p c).bind fun (n, mo, cores) =>
    cores.findSome? fun core =>
      let vs := displaceable s pid core c.prio
      let s' := { s with blocks := s.blocks.filter fun e => !vs.any fun v => v.1 == e.1 }
      if (planOn s' pid p core n mo).isSome then victimIn s vs else none

/-- PRIORITY_PREEMPTION (06 R93). -/
def execPriorityPreemption (pid : Nat) (s : State) : Out :=
  match tget s.parts pid with
  | none => .next s
  | some p =>
    if !p.victim.isEmpty || p.committed then .next s
    else match findVictim s pid p with
      | none => .next s
      | some (bid, b) =>
        if b.gid = 0 then
          match s.nests.find? fun e => e.2.seats.contains bid with
          | some e =>
            let s := modPart s pid fun p => { p with
              victim := ((familyBlocks s (nestFamily s e.1)).filter fun x => x.2.stage == .running || x.2.stage == .scrubbing).map Prod.fst }
            .next (askNest s e.1 1)
          | none => .next s
        else
          let s := modPart s pid fun p => { p with victim := (unitOf s bid b).filter fun x => stageOf s x == .running || stageOf s x == .scrubbing }
          .next (askUnit s bid 1)

/-! ### Thermal migration (06 R99) -/

/-- Cycles of 2 ms of device time (01 R15). -/
def twoMs : Nat := 3200000

/-- THERMAL_MIGRATION (06 R99): `cool` are the cores that firmware reads at 90 C or less. -/
def execThermalMigration (core : Nat) (cool : List Nat) (s : State) : Out :=
  if !s.pkg.shawm then .next (backlog s (.thermalMigration core cool))
  else
  let s := { s with pkg := { s.pkg with cool := cool } }
  let old (x : Nat) : Bool := match tget s.blocks x with
    | some b => b.stage == .running && b.placedAt + twoMs ≤ s.time
    | none => false
  let coolPart (pid : Nat) : Bool := ((tget s.parts pid).map fun p => (partCores p).any (cool.contains ·)).getD false
  let bs := s.blocks.filter fun e => e.2.core == core && e.2.gid != 0 && coolPart e.2.part && (unitOf s e.1 e.2).all old
  let sorted := bs.foldl (fun (o : List (Nat × Block)) e =>
    o.filter (fun x => x.2.placedAt ≤ e.2.placedAt) ++ [e] ++ o.filter fun x => x.2.placedAt > e.2.placedAt) []
  .next (sorted.foldl (fun s e => askUnit s e.1 2) s)

/-! ### Leases at the edges of a slice (05 R84) -/

def modBank (s : State) (cl : Nat) (f : Bank → Bank) : State := { s with banks := tset s.banks cl (f ((tget s.banks cl).getD {})) }

/-- The counters of a bank and its EN, as saved. -/
def bankImage (b : Bank) : List Dword := (List.range 16).map (fun n => sget b.ctr n) ++ [if b.en then 1 else 0]

/-- A lease ends for some units: counters stay with the bank, EN reads 0, the unit has no holder. -/
def endBanks (s : State) (cls : List Nat) : State :=
  cls.foldl (fun s c => modBank s c fun b => { b with en := false, leased := false, owner := 0, moved := b.moved || b.leased }) s

/-- A partition in which a slice of the function runs. -/
def runsIn (s : State) (fn : Nat) : Option Nat :=
  (s.parts.find? fun e => tenantOf e.2 == fn && !e.2.switching && !e.2.clusters.isEmpty).map Prod.fst

/-- At the end of the slice in which a VF's leases run, the banks are saved, and what the PF asked for passes to it; a slice of the VF that
runs in another partition has them on. -/
def leaseOut (s : State) (pid fn : Nat) : State :=
  (s.leases.filter fun l => l.2.fn == fn && l.2.part == some pid && fn != 0).foldl (fun s l =>
    match runsIn s fn with
    | some other => { s with leases := tset s.leases l.1 { l.2 with part := some other } }
    | none =>
      let keep := l.2.banks.filter fun c => !l.2.pfBanks.contains c
      let saved := keep.foldl (fun t c => tset t c (bankImage ((tget s.banks c).getD {}))) []
      let s := keep.foldl (fun s c => modBank s c fun b => { b with ctr := [], en := false }) s
      let s := endBanks s l.2.pfBanks
      let s := l.2.pfUnits.foldl (fun s u => { s with lace := tset s.lace u { owner := some 0 } }) s
      { s with leases := tset s.leases l.1 { l.2 with
          part := none
          banks := keep
          units := l.2.units.filter fun u => !l.2.pfUnits.contains u
          saved := saved
          pfBanks := []
          pfUnits := [] } }) s

/-- The nests that have seats on some clusters, and that are not leaving. -/
def nestsOn (s : State) (cls : List Nat) : List (Nat × Nest) :=
  s.nests.filter fun e => e.2.claimed && !e.2.saved && e.2.why = 0
    && e.2.seats.any fun b => ((tget s.blocks b).map fun b => cls.contains (b.core / 8)).getD false

/-- The blocks and the nests of partitions other than one leave some clusters. -/
def clearOthers (s : State) (pid : Nat) (cls : List Nat) : State :=
  let s := ((nestsOn s cls).filter fun e => e.2.part != pid).foldl (fun s e => askNest s e.1 4) s
  (s.blocks.filter fun e => e.2.gid != 0 && e.2.part != pid && cls.contains (e.2.core / 8) && (leafNest s e.2).isNone).foldl
    (fun s e => askUnit s e.1 4) s

/-- At the start of a slice they are restored, and other partitions' blocks leave the leased clusters. -/
def leaseIn (s : State) (pid fn : Nat) : State :=
  (s.leases.filter fun l => l.2.fn == fn && l.2.part.isNone && fn != 0).foldl (fun s l =>
    let s := l.2.saved.foldl (fun s c => modBank s c.1 fun b => { b with
      ctr := ssetList [] 0 (c.2.take 16)
      en := c.2.getD 16 (0 : Dword) == (1 : Dword) }) s
    clearOthers { s with leases := tset s.leases l.1 { l.2 with part := some pid, saved := [] } } pid l.2.banks) s

/-! ### Slices (05 R79-R81) -/

/-- Blocks of a function's contexts in a partition. -/
def tenantBlocks (s : State) (pid fn : Nat) : List (Nat × Block) :=
  s.blocks.filter fun e => e.2.part == pid && e.2.gid != 0
    && ((tget s.grids e.2.gid).bind fun g => (tget s.ctxs g.ctx).map (·.fn)) == some fn

def tenantNests (s : State) (pid fn : Nat) : List Nat :=
  (s.nests.filter fun e => e.2.part == pid && e.2.status.isNone && e.2.claimed && ((tget s.ctxs e.2.ctx).map (·.fn)) == some fn).map Prod.fst

def placed (b : Block) : Bool := b.stage == .running || b.stage == .scrubbing || b.stage == .reserved

/-- Copies and atomics of a function's contexts in a partition that run and are not held by a fault (05 R80). -/
def copiesOut (s : State) (pid fn : Nat) : List Nat :=
  let here (c : Cmd) : Bool := ((tget s.ctxs c.ctx).map (·.fn)) == some fn && (match c.pkt with
    | some q => ((tget s.queues q.1).map (·.part)) == some pid
    | none => ((tget s.grids c.gid).map (·.part)) == some pid)
  (s.cmds.filter fun e => e.2.kind ≤ 3 && e.2.st == 2 && e.2.recs.isEmpty && here e.2).map Prod.fst

def atomicsOut (s : State) (pid fn : Nat) : Bool :=
  writesOut s fun r => ((tget s.ctxs r.ctx).map (·.fn)) == some fn && ((tget s.grids r.gid).map (·.part)) == some pid

/-- Look again at a slice that is ending. -/
def pollSlice (s : State) (pid : Nat) : State := atTime (tick s) (s.time + 1 + Config.delay s.freeCtr) (.sliceEnd pid)

/-- The slice of a position begins: its length less the tenant's overrun, at least half of it. -/
def startSlice (s : State) (pid pos : Nat) (p : Part) : State :=
  let (fn, len) := p.slices.getD pos (0, 0)
  let cut := min ((tget p.overrun fn).getD 0) (len / 2)
  let s := modPart s pid fun p => { p with
    slicePos := pos, switching := false, drain := [], overrun := tdel p.overrun fn, sliceAt := s.time + len - cut }
  let s := if p.slices.length ≤ 1 then s else atTime s (s.time + len - cut) (.sliceEnd pid)
  let mine := (tenantBlocks s pid fn).map Prod.fst
  let nests := tenantNests s pid fn
  let s := mine.foldl (fun s b => modBlock s b fun b =>
    if b.stage == .saved && (b.why == 1 || b.why == 6) then { b with back := true } else b) s
  let s := nests.foldl (fun s n => modNest s n fun x => if x.saved then { x with back := true } else x) s
  kick (leaseIn s pid fn) pid

/-- SLICE_END (05 R80): the tenant's placed contexts are saved, and the next tenant's slice begins. -/
def execSliceEnd (pid : Nat) (s : State) : Out :=
  match tget s.parts pid with
  | none => .next s
  | some p =>
    let fn := tenantOf p
    if !s.pkg.shawm then .next (backlog s (.sliceEnd pid))
    else if (p.slices.length ≤ 1 && p.setting.isNone) || s.time < p.sliceAt then .next s
    else
      let fn := p.setting.getD fn
      let s := if p.committed then s else abortGang s pid false
      let s := if p.switching && p.drain.isEmpty then s
        else modPart s pid fun x => { x with drain := (copiesOut s pid fn).filter fun c => !p.switching || p.drain.contains c }
      let s := modPart s pid fun p => { p with switching := true }
      let nests := tenantNests s pid fn
      let s := nests.foldl (fun s n => modNest s n fun x => { x with why := 6 }) s
      let bs := (tenantBlocks s pid fn).filter fun e => placed e.2
      let s := stopNow s ((bs.filter fun e => e.2.halt = 0).map Prod.fst) 6
      if !bs.isEmpty || p.committed || ((tget s.parts pid).map fun x => !x.drain.isEmpty).getD false || atomicsOut s pid fn
      then .next (pollSlice s pid)
      else
        let s := nests.foldl familyAway s
        let s := (tenantBlocks s pid fn).foldl (fun s e => modBlock s e.1 fun b => { b with restored := false }) s
        let s := s.parts.foldl (fun s e => freed s e.1) (leaseOut s pid fn)
        let s := modPart s pid fun p => { p with
          overrun := if p.setting.isSome then [] else tset p.overrun fn (s.time - p.sliceAt)
          setting := none }
        match tget s.parts pid with
        | none => .next s
        | some p => .next (startSlice s pid (if p.slices.isEmpty then 0 else (p.slicePos + 1) % p.slices.length) p)

end Sys2Proof.Machine
end

