-- ==== Sys2Proof/Machine/Shares.lean ====
section
/-! DEFINITION. A partition whose share of the device shrinks: blocks that hold what it loses leave (05 R77, R78, 01 R19). -/
namespace Sys2Proof.Machine

/-- What two ranges have in common, as base and count. -/
def meet (b c b' c' : Nat) : Nat × Nat := (max b b', min (b + c) (b' + c') - max b b')

/-- The ranges that a descriptor shares with another: placement goes on in these only (05 R77). -/
def meetPart (p q : Part) : Part :=
  let g := meet p.gbase p.gcount q.gbase q.gcount
  let st := meet p.sbase p.scount q.sbase q.scount
  let b := meet p.bbase p.bcount q.bbase q.bcount
  let ph := meet p.pbase p.pcount q.pbase q.pcount
  let cp := meet p.cpbase p.cpcount q.cpbase q.cpcount
  let cc := meet p.ccbase p.cccount q.ccbase q.cccount
  { p with
    clusters := p.clusters.filter (q.clusters.contains ·)
    gbase := g.1
    gcount := g.2
    sbase := st.1
    scount := st.2
    bbase := b.1
    bcount := b.2
    pbase := ph.1
    pcount := ph.2
    cpbase := cp.1
    cpcount := cp.2
    ccbase := cc.1
    cccount := cc.2 }

/-- The ranges of a descriptor put in place of a partition's own. -/
def takeRanges (p q : Part) : Part :=
  { p with
    clusters := q.clusters
    gbase := q.gbase
    gcount := q.gcount
    sbase := q.sbase
    scount := q.scount
    bbase := q.bbase
    bcount := q.bcount
    pbase := q.pbase
    pcount := q.pcount
    cpbase := q.cpbase
    cpcount := q.cpcount
    ccbase := q.ccbase
    cccount := q.cccount
    rcap := q.rcap
    scap := q.scap
    tcap := q.tcap }

def inRange (b c i : Nat) : Bool := b ≤ i && i < b + c

/-- A block holds something that its partition loses: `q` are the ranges that stay. -/
def losing (s : State) (q : Part) (b : Block) : Bool :=
  let cph := ((groupRec s b).map (·.cph)).getD []
  !q.clusters.contains (b.core / 8) || b.gran.any (!inRange q.gbase q.gcount ·) || !inRange q.bbase q.bcount b.bslot
    || b.phSlots.any (!inRange q.pbase q.pcount ·) || (b.ctl.map (!inRange q.ccbase q.cccount ·)).getD false
    || b.sslots.any (fun x => !inRange q.sbase q.scount (x % 256)) || cph.any (!inRange q.cpbase q.cpcount ·)

/-- Blocks and seats of a partition that hold something that it loses. -/
def losers (s : State) (pid : Nat) (q : Part) : List (Nat × Block) :=
  s.blocks.filter fun e => e.2.part == pid && holds e.2 && losing s q e.2

/-- The blocks of a grid that leave with one: its cluster group, or itself. -/
def groupMates (s : State) (bid : Nat) (b : Block) (g : Grid) : List Nat :=
  if hasGroups g.lrec then ((gridBlocks s b.gid).filter fun e => groupIdx g.lrec e.2.lin == groupIdx g.lrec b.lin).map Prod.fst else [bid]

/-- The COOP grids that must park: those that do not find a place in the shrunk partition, one after the other, for what they lose, beside
what stays of them, of the other residents, and of those that found theirs (05 R78, notes/assumptions/39.md). `q` the ranges that stay, `d` the
new ones. -/
def coopParks (s : State) (pid : Nat) (q d : Part) : List Nat :=
  let ls := losers s pid q
  let coops := s.grids.filter fun g => g.2.lrec.coop && ls.any fun e => e.2.gid == g.1
  let away (t : State) (bs : List Nat) : State := { t with blocks := tmap t.blocks fun b x => if bs.contains b then { x with stage := .saved } else x }
  let t0 := away (modPart s pid fun x => takeRanges x d) (ls.map Prod.fst)
  (coops.foldl (fun (o : State × List Nat) g =>
    let out := dedup ((ls.filter fun e => e.2.gid == g.1).flatMap fun e => groupMates s e.1 e.2 g.2)
    let t := away o.1 out
    match (tget t.parts pid).bind fun x => putGrid t x g.1 g.2 out with
    | some t => (t, o.2)
    | none => (away t ((gridBlocks t g.1).map Prod.fst), o.2 ++ [g.1])) (t0, [])).2

/-- One block or seat that must leave: a COOP grid parks as a whole if it does not fit any more, a nest moves as a whole. -/
def moveOut (parks : List Nat) (s : State) (bid : Nat) : State :=
  match tget s.blocks bid with
  | none => s
  | some b =>
    if b.gid = 0 then
      match s.nests.find? fun e => e.2.seats.contains bid with
      | some e => if e.2.why = 0 then askNest s e.1 4 else s
      | none => s
    else if b.preq.contains 4 || b.late.contains 4 || b.halt = 4 then s
    else match tget s.grids b.gid with
      | none => s
      | some g =>
        if !g.lrec.coop then askUnit s bid 4
        else if parks.contains b.gid then parkGrid s b.gid g
        else setPreq s (groupMates s bid b g) 4

/-- Steps 1 and 2 of R77: placement stops in what goes, an open gang that is not committed starts again, and the blocks that
hold it are asked to leave. `q`: the ranges that stay, `d`: the new ones. -/
def shrink (s : State) (pid : Nat) (p q d : Part) : State :=
  let s := if p.committed then s else abortGang s pid false
  let s := modPart s pid fun x => takeRanges x q
  let parks := coopParks s pid q d
  (losers s pid q).foldl (fun s e => moveOut parks s e.1) s

/-- Nothing that was asked to leave, and nothing outside the ranges, is left in a partition. -/
def shrunk (s : State) (pid : Nat) (q : Part) : Bool :=
  !s.blocks.any fun e => e.2.part == pid && holds e.2
    && (e.2.preq.contains 4 || e.2.late.contains 4 || e.2.halt == 4 || losing s q e.2)

end Sys2Proof.Machine
end

