-- ==== Sys2Proof/Machine/Package.lean ====
section
/-! DEFINITION. Results that land and promotions (13 R243, 06 R97), and the package: power, heat, spares, lifetime counters
(01 R14-R23), readiness (03 R52), and module reset (03 R54, R56). -/
namespace Sys2Proof.Machine

/-! ### Landing and promotion -/

/-- VARIABLE_LATENCY_RESULT (13 R243): the results of an instruction have landed and its slot counts down. -/
def execVariableLatencyResult (t i : Nat) (s : State) : Out := .next (modThread s t fun th => landTok th i)

/-- FRAGMENT_PROMOTE (06 R97): a fragment that has been ready for 256 cycles of its core's clock. -/
def execFragmentPromote (t fr : Nat) (s : State) : Out :=
  match tget s.threads t with
  | none => .next s
  | some th =>
    let n := 256 * clkDiv s (coreOf s th)
    let up (f : Frag) : Frag := match f.readySince, f.promoted with
      | some r, none => if r + n ≤ s.time then { f with promoted := some s.time, demoted := false } else f
      | _, _ => f
    .next (modThread s t fun th => { th with frags := tmod th.frags fr up })

/-! ### Lifetime counters (01 R21-R23) -/

/-- Number of a counter: kind, unit, and its place in the entry. -/
def lifeKey (kind unit bin : Nat) : Nat := kind * 2 ^ 40 + unit * 2 ^ 8 + bin

def addLife (s : State) (kind unit bin k : Nat) : State :=
  let key := lifeKey kind unit bin
  { s with pkg := { s.pkg with life := tset s.pkg.life key (((tget s.pkg.life key).getD 0 + k) % 2 ^ 64) } }

/-- What the dies have spent at each temperature since the last commit. -/
def addHeat (s : State) : State :=
  (List.range 18).foldl (fun s d => (List.range 16).foldl (fun s b => addLife s 3 d b (Config.dieSeconds s.freeCtr d b)) s) s

/-- The counters are committed to flash as one snapshot. -/
def commitLife (s : State) : State :=
  let s := tick (addHeat s)
  { s with pkg := { s.pkg with flash := s.pkg.life, flashSeq := (s.pkg.flashSeq + 1) % 2 ^ 16, flashAt := s.time, commitAt := s.time, shawmAt := s.time } }

/-- COUNTER_COMMIT (01 R23): every 10 minutes, by Shawm (03 R54). -/
def execCounterCommit (s : State) : Out :=
  if !s.pkg.shawm then .next (backlog s .counterCommit)
  else
  let s := commitLife s
  .next (if s.timers.any fun t => t.2 == .event .counterCommit then s else atTime s (s.time + tenMinutes) .counterCommit)

/-- ORDERLY_SHUTDOWN (01 R23): the commit is work of Shawm (03 R54). -/
def execOrderlyShutdown (s : State) : Out := .next (if s.pkg.shawm then commitLife s else backlog s .orderlyShutdown)

/-! ### Heat and supply (01 R14, R16) -/

def modPkg (s : State) (f : Pkg → Pkg) : State := { s with pkg := f s.pkg }

/-- What a stack's cores count in cycles of their clock, stalls, results of fixed latency, the wait for a promotion and scrubs, when the
clock changes: `f` tells how long what is left takes now, `g` how long it would have taken for what is past (01 R15, R16). -/
def retime (s : State) (st : Nat) (f g : Nat → Nat) : State :=
  let at' (t : Nat) : Nat := if t ≤ s.time then t else s.time + f (t - s.time)
  let since (t : Nat) : Nat := s.time - g (s.time - t)
  let here (core : Nat) : Bool := stackOf core == st
  { s with
    threads := tmap s.threads fun _ th =>
      if here (coreOf s th) then { th with
        stallTill := at' th.stallTill
        pend := th.pend.map fun p => { p with due := p.due.map at' }
        frags := tmap th.frags fun _ fr => { fr with readySince := fr.readySince.map since } }
      else th
    timers := s.timers.map fun t => match t.2 with
      | .event (.scarabScrub core) => if here core then (at' t.1, t.2) else t
      | _ => t }

/-- STACK_CLOCK_HALVE (01 R14): a sensor of the stack reads above 105 C. -/
def execStackClockHalve (st : Nat) (s : State) : Out :=
  .next (if st < 8 && !s.pkg.halved.contains st then modPkg (retime s st (2 * ·) (2 * ·)) fun p => { p with halved := p.halved ++ [st] } else s)

/-- STACK_CLOCK_RESTORE (01 R14): it reads below 100 C. -/
def execStackClockRestore (st : Nat) (s : State) : Out :=
  let half (n : Nat) : Nat := (n + 1) / 2
  .next (if s.pkg.halved.contains st then modPkg (retime s st half half) fun p => { p with halved := p.halved.filter (· != st) } else s)

/-- MODULE_TRIP (01 R14): every context is stopped without saving, and vector 2 of every function is raised (03 R51). -/
def execModuleTrip (s : State) : Out :=
  let s := { s with
    ctxs := tmap s.ctxs fun _ c => { c with stopped := true }
    threads := tmap s.threads fun _ th => { th with stopped := true } }
  let s := modPkg s fun p => { p with tripped := true }
  .next ((List.range 64).foldl (fun s f => raiseVec s f 2) s)

/-- SUPPLY_DROOP (01 R16): the clock of the stack stretches for `n` cycles, which no strand of it issues in and which everything counted in
its cycles takes longer by. -/
def execSupplyDroop (st n : Nat) (s : State) : Out :=
  if st ≥ 8 || n = 0 || n > 4 then .next s
  else
    let s := modPkg s fun p => { p with droops := tset p.droops st ((tget p.droops st).getD 0 + 1) }
    let s := addLife s 4 st (n - 1) 1
    let s := retime s st (· + n) (· - n)
    let here (th : Thread) : Bool := stackOf (coreOf s th) == st
    .next { s with threads := tmap s.threads fun _ th => if here th then { th with stallTill := max th.stallTill (s.time + n) } else th }

/-! ### Spares and retirement (01 R17-R19) -/

/-- A cluster is quiescent (01 R18): its data engine runs no copy. -/
def clusterQuiet (s : State) (cl : Nat) : Bool :=
  !s.blocks.any (fun e => e.2.core / 8 == cl && holds e.2)
    && !s.cmds.any (fun e => e.2.cluster == cl && e.2.st == 2 && 1 ≤ e.2.kind && e.2.kind ≤ 3)
    && !s.locks.any (·.cluster == cl)

/-- The caches of a cluster's cores hold nothing, and their granules are clear. -/
def freshCluster (s : State) (cl : Nat) : State :=
  { s with
    l1 := s.l1.filter fun e => e.1 / 8 != cl
    l0 := s.l0.filter fun e => e.1 / 8 != cl
    granules := s.granules.filter fun e => e.1 / 4096 != cl
    scrubQ := s.scrubQ.filter fun e => e.1 / 8 != cl }

/-- The partitions that own a cluster. -/
def ownersOf (s : State) (cl : Nat) : List (Nat × Part) := s.parts.filter fun e => e.2.clusters.contains cl

def kickAll (s : State) : State := s.parts.foldl (fun s e => kick s e.1) s

/-- The pools of a spare pass to Scarab, all of them, before it takes the number of a cluster (01 R18, 07 R104). -/
def scrubSpare (s : State) (cl : Nat) : State :=
  let s := modPkg (freshCluster s cl) fun p => { p with swapScrub := p.swapScrub ++ [cl] }
  (List.range 8).foldl (fun s j => passGrans s (8 * cl + j) (List.range 384)) s

/-- Scarab has cleared the pools of a cluster. -/
def poolsClear (s : State) (cl : Nat) : Bool := !s.scrubQ.any fun e => e.1 / 8 == cl && !e.2.isEmpty

/-- A spare takes the number of a quiescent cluster. -/
def swapIn (s : State) (cl : Nat) : State :=
  let st := cl / 24
  let s := modPkg s fun p => { p with
    spareClusters := tset p.spareClusters st ((tget p.spareClusters st).getD 0 + 1)
    swapScrub := p.swapScrub.filter (· != cl)
    swapping := p.swapping.filter (· != cl) }
  kickAll (commitLife (addLife s 5 st 0 1))

/-- A quiescent cluster is disabled. -/
def retireCluster (s : State) (cl : Nat) : State :=
  let s := modPkg (freshCluster s cl) fun p => { p with
    clRetired := p.clRetired ++ [cl]
    clready := p.clready.filter (· != cl)
    swapping := p.swapping.filter (· != cl) }
  readyVec (commitLife (addLife s 5 (cl / 24) 1 1))

/-- The blocks of a cluster that have been resident for 2 ms are asked to leave, units as a whole (01 R18). -/
def askAway (s : State) (cl : Nat) : State :=
  let old (x : Nat) : Bool := match tget s.blocks x with
    | some b => b.stage == .running && b.placedAt + twoMs ≤ s.time
    | none => false
  let ns := (nestsOn s [cl]).filter fun e => ((familyBlocks s (nestFamily s e.1)).filter fun x => placed x.2).all fun x => old x.1
  let s := ns.foldl (fun s e => if ((tget s.nests e.1).map (·.why)) == some 0 then askNest s e.1 3 else s) s
  let bs := s.blocks.filter fun e =>
    e.2.core / 8 == cl && e.2.gid != 0 && (leafNest s e.2).isNone && !e.2.preq.contains 3 && (unitOf s e.1 e.2).all old
  bs.foldl (fun s e => askUnit s e.1 3) s

/-- CLUSTER_SWAP (01 R18, R19): placement stops on a failing cluster, its blocks leave, and at its quiescence a spare takes its
number, or it is retired. -/
def execClusterSwap (cl : Nat) (s : State) : Out :=
  if cl ≥ 192 || s.pkg.clRetired.contains cl then .next s
  else if !s.pkg.shawm then .next (backlog s (.clusterSwap cl))
  else
    let spare := (tget s.pkg.spareClusters (cl / 24)).getD 0 < 2
    let s := modPkg s fun p => { p with swapping := if p.swapping.contains cl then p.swapping else p.swapping ++ [cl] }
    let s := if spare then s
      else (ownersOf s cl).foldl (fun s e =>
        let q := { e.2 with clusters := e.2.clusters.filter (· != cl) }
        shrink s e.1 e.2 q q) s
    let scrubbed := s.pkg.swapScrub.contains cl
    if clusterQuiet s cl && !spare then .next (retireCluster s cl)
    else if clusterQuiet s cl && scrubbed && poolsClear s cl then .next (swapIn s cl)
    else
      let s := if !spare then s else if !clusterQuiet s cl then askAway s cl else if scrubbed then s else scrubSpare s cl
      .next (atTime (tick s) (s.time + 1 + Config.delay s.freeCtr) (.clusterSwap cl))

/-- Stack of an SRAM array, numbered as UNIT of kind 2: the pool of core c as c, slice j as 0x1000 + j, near-memory die d as
0x2000 + d, the L1 of core c as 0x3000 + c (notes/assumptions/24.md). -/
def arrayStack (arr : Nat) : Nat :=
  let u := arr % 4096
  match arr / 4096 with
  | 1 => u / 24
  | 2 => u / 2
  | _ => u / 192

/-- A repaired row of a pool comes into use: Scarab gets its granule, once no block holds it (01 R17, 07 R104). -/
def repairRow (s : State) (core g : Nat) : State :=
  if s.blocks.any fun e => e.2.core == core && holds e.2 && e.2.gran.contains g
  then modPkg s fun p => { p with rowScrub := p.rowScrub ++ [512 * core + g] }
  else passGrans s core [g]

/-- SRAM_ROW_SPARE (01 R17, R19): a spare row of the group of 64, or the group is retired; in a pool, the granule that holds it
becomes unplaceable, and in near memory its 64 KiB pages leave the arena pool. That row `r` of a pool lies in granule r / 128, and
which pages hold a group of near memory, are the model's choices (notes/assumptions/24.md). -/
def execSramRowSpare (arr row : Nat) (s : State) : Out :=
  if !s.pkg.shawm then .next (backlog s (.sramRowSpare arr row))
  else
  let key := arr * 2 ^ 32 + row / 64
  let used := (tget s.pkg.spareRows key).getD 0
  let s := modPkg s fun p => { p with spareRows := tset p.spareRows key (used + 1) }
  if used = 0 then .next (commitLife (addLife (if arr < 4096 then repairRow s arr (row / 128) else s) 5 (arrayStack arr) 0 1))
  else
    let s := if used != 1 then s
      else if arr < 4096 then modPkg s fun p => { p with granRetired := p.granRetired ++ [512 * arr + row / 128] }
      else if arr / 4096 = 2 then modPkg s fun p => { p with pagesRetired := p.pagesRetired ++ Config.rowPages (arr % 4096) (row / 64) }
      else s
    .next (if used = 1 then commitLife (addLife s 5 (arrayStack arr) 1 1) else s)

def modLink (s : State) (l : Nat) (f : LmlLink → LmlLink) : State :=
  { s with lnk := { s.lnk with links := tset s.lnk.links l (f ((tget s.lnk.links l).getD {})) } }

/-- A link retrains in at most 20 µs, and holds its traffic. -/
def retrain (s : State) (link : Nat) : State :=
  match tget s.lnk.links link with
  | some x =>
    let s := modLink s link fun x => { x with training := true }
    atTime (tick s) (s.time + 1 + Config.delay s.freeCtr % 32000) (.lmlLinkUp link x.lanes x.spares x.peer)
  | none => s

/-- LML_LANE_SPARE (01 R17, R19): a spare lane, or the link runs at 8 lanes. Traffic is held while it retrains. -/
def execLmlLaneSpare (link : Nat) (s : State) : Out :=
  if !s.pkg.shawm then .next (backlog s (.lmlLaneSpare link))
  else match tget s.lnk.links link with
  | none => .next s
  | some x =>
    if !x.up then .next s
    else if x.spares > 0 then .next (retrain (commitLife (addLife (modLink s link fun x => { x with spares := x.spares - 1 }) 5 (0x100 + link) 0 1)) link)
    else .next (retrain (commitLife (addLife (modLink s link fun x => { x with lanes := 8 }) 5 (0x100 + link) 1 1)) link)

/-! ### When firmware decides (01 R20) -/

def sevenDays : Nat := 967680000000000
def oneDay : Nat := 138240000000000
def oneHour : Nat := 5760000000000

/-- Default triggers (01 R20): failed and corrected residue retries of a cluster, corrected and uncorrectable errors of a row, errors per
10^12 bits of a lane, retries of a pin pair. -/
def thresholdDefault : Nat → Nat
  | 0 => 2
  | 1 => 256
  | 2 => 3
  | 3 => 1
  | 4 => 1
  | _ => 16

/-- What a trigger asks for, of its unit: cluster, 2^32 · array + row, 64 · link + lane, or 64 · channel + pin pair. -/
def triggered (k unit : Nat) : Instr :=
  match k with
  | 0 | 1 => .clusterSwap unit
  | 2 | 3 => .sramRowSpare (unit / 2 ^ 32) (unit % 2 ^ 32)
  | 5 => .farPinPairSpare (unit / 64)
  | _ => .lmlLaneSpare (unit / 64)

/-- The events of a trigger in its window reach its threshold. A lane carries 224 · 10^9 bits in a second (02 R24). -/
def reaches (s : State) (k unit : Nat) : Bool :=
  let span := if k = 0 then sevenDays else if k ≥ 4 then oneHour else oneDay
  let n := (s.pkg.hist.filter fun e => e.1 == k && e.2.1 == unit && s.time + s.pkg.epoch ≤ e.2.2 + span).length
  let t := (tget s.pkg.thresholds k).getD (thresholdDefault k)
  if k = 4 then 10 * n > 8064 * t else n ≥ t

/-- Triggers of one kind of unit. -/
def sameUnits (j k : Nat) : Bool := if k < 4 then j / 2 == k / 2 else j == k

/-- An event that trigger `k` counts, of a unit: firmware compares, and replaces the unit once the threshold is reached (01 R20,
notes/assumptions/27.md). -/
def noteError (s : State) (k unit : Nat) : State :=
  let s := modPkg s fun p => { p with hist := (p.hist.filter fun e => s.time + p.epoch ≤ e.2.2 + sevenDays) ++ [(k, unit, s.time + p.epoch)] }
  if !reaches s k unit then s
  else
    let s := modPkg s fun p => { p with hist := p.hist.filter fun e => !(sameUnits e.1 k && e.2.1 == unit) }
    let i := triggered k unit
    if s.timers.any fun t => t.2 == .event i then s else atTime s s.time i

/-- A link-level retry on a pin pair of a far channel: firmware counts it, and the spare follows once the threshold is reached (01 R20).
That retries arrive as items of the agenda is the model's choice (notes/assumptions/27.md). -/
def pinRetry (ch pair : Nat) (s : State) : Out := .next (if ch < 32 then noteError s 5 (64 * ch + pair % 64) else s)

/-- FAR_PIN_PAIR_SPARE (01 R17, R19): a spare pair, and the channel retrains in at most 50 µs; with none left the channel is
removed at the next module reset. -/
def execFarPinPairSpare (ch : Nat) (s : State) : Out :=
  if ch ≥ 32 || s.pkg.chanRemoved.contains ch then .next s
  else if !s.pkg.shawm then .next (backlog s (.farPinPairSpare ch))
  else if (tget s.pkg.sparePins ch).getD 0 = 0 then
    let was := s.pkg.chans.contains ch
    let s := modPkg s fun p => { p with sparePins := tset p.sparePins ch 1, chans := p.chans.filter (· != ch) }
    let s := commitLife (addLife s 5 (0x200 + ch) 0 1)
    let s := if was then readyVec s else s
    .next (atTime (tick s) (s.time + 1 + Config.delay s.freeCtr % 80000) (.farChannelTrained ch))
  else if s.pkg.chanDoomed.contains ch then .next s
  else .next (commitLife (addLife (modPkg s fun p => { p with chanDoomed := p.chanDoomed ++ [ch] }) 5 (0x200 + ch) 1 1))

/-- PATROL_SCRUB (07 R117, 01 R21): near memory by stack and half; an error in data that nothing consumes is only counted, and
a single-bit error is corrected. That an error of two bits is counted with the corrected ones is the model's choice
(notes/assumptions/24.md). -/
def execPatrolScrub (addr bits : Nat) (s : State) : Out :=
  let near := (0x4000000000 ≤ addr && addr ≤ 0x43FFFFFFFF) || (0x5000000000 ≤ addr && addr ≤ 0x53FFFFFFFF)
  if !near || bits = 0 then .next s
  else
    let die := if addr < 0x5000000000 then (addr - 0x4000000000) / 2 ^ 30
      else (addr / 4096 % 8) * 2 + (addr - 0x5000000000) / 2 ^ 33 % 2
    let arr := 0x2000 + die
    .next (noteError (addLife s 2 arr 0 1) (if bits = 1 then 2 else 3) (arr * 2 ^ 32 + Config.rowAt arr addr % 2 ^ 32))

/-! ### Readiness (03 R52) -/

/-- MEMORY_TIER_TRAINED (03 R52): the memory tier is trained and the pools of its enabled clusters are scrubbed. -/
def execMemoryTierTrained (st : Nat) (s : State) : Out :=
  if st ≥ 8 || s.pkg.stkReady.contains st then .next s
  else
    let cls := ((List.range 24).map (24 * st + ·)).filter fun c => !s.pkg.clRetired.contains c && !s.pkg.clready.contains c
    .next (kickAll (readyVec (modPkg s fun p => { p with stkReady := p.stkReady ++ [st], clready := p.clready ++ cls })))

/-! ### Shawm and module reset (03 R54, R56) -/

/-- SHAWM_WATCHDOG (03 R54): Shawm has shown nothing for 2^28 cycles of device time (notes/assumptions/54.md). SHAWM clears and the host is
interrupted; running grids continue. -/
def execShawmWatchdog (s : State) : Out :=
  .next (if s.pkg.shawm && s.pkg.shawmAt + 2 ^ 28 ≤ s.time then readyVec (modPkg s fun p => { p with shawm := false }) else s)

/-- What module flash and fuses keep (01 R10, R17, R19, R23), with the counters as last committed. That a module reset takes the thresholds
of SET_THRESH back to their defaults, stacks to their full clock, and forgets a thermal trip, is the model's choice
(notes/assumptions/25.md). -/
def keptPkg (p : Pkg) : Pkg :=
  { chanRemoved := p.chanRemoved ++ p.chanDoomed
    clRetired := p.clRetired
    granRetired := p.granRetired
    spareClusters := p.spareClusters
    spareRows := p.spareRows
    sparePins := p.sparePins
    life := p.life
    flash := p.flash
    flashSeq := p.flashSeq
    flashAt := p.flashAt
    commitAt := p.commitAt
    epoch := p.epoch
    pagesRetired := p.pagesRetired
    hist := p.hist
    fwRunning := p.fwRunning
    fwStaged := p.fwStaged }

/-- The bytes of the firmware image that runs, or that the boot ROM tries (03 R56). -/
def fwImage (p : Pkg) : List Byte := p.fwRunning.getD Config.fwFactory

/-- Partition 0 owns every cluster and every resource (05 R76). -/
def resetParts : Tab Part := (0, Part.whole) :: (List.range 7).map fun i => (i + 1, {})

/-- The next multiple of 2^k. -/
def nextTick (t k : Nat) : Nat := (t / 2 ^ k + 1) * 2 ^ k

/-- MODULE_RESET (03 R56): every function starts over; the boot ROM verifies and measures the firmware, the staged image if one
is staged, and starts it only if its signature holds. That an image whose signature fails stays the one that is tried is the model's
choice (notes/assumptions/26.md). Memory, the history of vectors and device time stay (notes/assumptions/25.md). -/
def execModuleReset (s : State) : Out :=
  let img := match s.pkg.fwStaged with
    | some b => some b
    | none => s.pkg.fwRunning
  let ok := Config.fwSignatureOk (img.getD Config.fwFactory)
  let t : State := { State.reset with
    agenda := s.agenda
    timers := [(nextTick s.time 16, .event .cicadaTick), (max s.time (s.pkg.commitAt + tenMinutes), .event .counterCommit), (s.time + 2 ^ 20, .event .timeSyncExchange)]
    freeCtr := s.freeCtr
    nextId := s.nextId
    time := s.time
    mem := s.mem.filter fun e => e.1 < arenaBase
    msix := s.msix
    parts := resetParts
    images := s.images
    pkg := { keptPkg s.pkg with shawm := ok, shawmAt := s.time, fwRunning := img, fwStaged := none } }
  .next (if ok then readyVec t else t)

/-- POWER_LOSS (01 R23): uncommitted counts are lost, with everything that the module does not keep; host memory is not the
module's. At power-on the module resets, and device time starts over; firmware's windows (01 R20) run on. -/
def execPowerLoss (s : State) : Out :=
  .next { State.reset with
    agenda := s.agenda
    freeCtr := s.freeCtr + 1
    nextId := s.nextId
    mem := s.mem.filter fun e => hostBase ≤ e.1 && e.1 < arenaBase
    msix := s.msix
    images := s.images
    pkg := { keptPkg s.pkg with
      life := s.pkg.flash
      commitAt := 0
      epoch := s.pkg.epoch + s.time + Config.offTime s.freeCtr
      hist := s.pkg.hist.filter fun e => e.2.2 ≤ s.pkg.commitAt + s.pkg.epoch } }

end Sys2Proof.Machine
end

