-- ==== Sys2Proof/Machine/Lml.lean ====
section
/-! DEFINITION. Lerolmotte Links (02 R24-R33): packets at their destination, answers at their source, flows that fail, links and
device time across packages. -/
namespace Sys2Proof.Machine

/-! ### Flows that fail (02 R31) -/

/-- What waits on a flow for a value, or for the end of an engine's access, ends: the machine check of a strand, or a
command's fault. -/
def failWait (s : State) (r : Remote) : State :=
  if r.kind = 4 || r.kind = 5 then
    match tget s.cmds r.tid with
    | some c =>
      if c.st != 2 then s
      else match c.msg with
        | some m => netFinish (cmdDown s c) m 9
        | none => finishCmd (cmdDown s c) r.tid 9
    | none => s
  else if r.kind = 8 then { s with lnk := { s.lnk with box := s.lnk.box.filter fun x => !(x.ctx == r.tid && x.va == r.d && x.len == r.width && x.who == r.tok) } }
  else linkCheck s r

def checkWaiters (s : State) (flow : Nat) : State :=
  let hit (e : Nat × Remote) : Bool := e.1 / 2 ^ 32 == flow && e.2.kind != 1
  let rs := s.lnk.remotes.filter hit
  let s := { s with lnk := { s.lnk with remotes := s.lnk.remotes.filter fun e => !hit e } }
  settleFences <| retrySettled (wakeRetry (rs.foldl (fun s e => failWait s e.2) s) fun _ w => w == .flow)

/-- A flow enters the failed state. -/
def failFlow (s : State) (flow : Nat) : State := checkWaiters (modFlow s flow fun f => { f with failed := true }) flow

/-- Flows to packages to which no route remains fail (02 R31). -/
def failRouteless (s : State) (gone : Nat → Bool) : State :=
  (s.lnk.src.filter fun f => !f.2.failed && gone f.2.pkg && !routeUp s f.2.pkg).foldl (fun s f => failFlow s f.1) s

/-- A flow number is used again: a write of the old flow that was not acknowledged still fails its strand's next release. -/
def orphanFlow (s : State) (flow : Nat) : State :=
  let s := checkWaiters s flow
  let old := s.lnk.remotes.filter fun e => e.1 / 2 ^ 32 == flow
  let rest := s.lnk.remotes.filter fun e => e.1 / 2 ^ 32 != flow
  { s with lnk := { s.lnk with remotes := old.foldl (fun t e => tset t (e.1 + 2 ^ 52) e.2) rest } }

/-! ### At the destination (02 R27-R29) -/

/-- The answer to a packet: same flow and sequence number. -/
def reply (s : State) (pk : LmlPkt) (ty : Nat) (data : List Byte) : State :=
  emit s { pk with spkg := s.lnk.pkgNum, dpkg := pk.spkg, rel := false, ty := ty, va := 0, data := data }

def dstKey (pk : LmlPkt) : Nat := pk.spkg * 4096 + pk.flow
def modDst (s : State) (k : Nat) (f : DstFlow → DstFlow) : State := { s with lnk := { s.lnk with dst := tmod s.lnk.dst k f } }

/-- An atomic packet's operation on an old value (notes/assumptions/20.md): the new value, if it writes. -/
def atomPacket (data : List Byte) (n o : Nat) : Option Nat :=
  let b := leNat ((data.drop 2).take n)
  let op := (data.getD 0 0).toNat
  if op = 14 then (if o = b then some (leNat ((data.drop (2 + n)).take n)) else none) else some (atomVal op (8 * n) o b)

/-- Bytes that a packet reads or writes. -/
def lmlSpan (pk : LmlPkt) : Nat := if pk.ty = 3 then (if (pk.data.getD 1 0).toNat = 7 then 8 else 4) else pk.data.length

/-- Perform a packet in its context; a failure with its record's error. -/
def perform (s : State) (c : Nat) (pk : LmlPkt) : Except TErr State :=
  let va := pk.va.toNat
  if pk.ty = 6 then .ok s
  else match translate s c va (if pk.ty = 0 then .read else .write) with
    | (_, .error e) => .error e
    | (_, .ok (.remote ..)) => .error (.cause 1)
    | (s, .ok (.key a _)) =>
      if spanStalls s a (lmlSpan pk) then .error .stall
      else match pk.ty with
      | 0 => .ok (reply s pk 1 (rdN s a pk.data.length))
      | 2 => .ok (reply (storeKey s a pk.data) pk 5 [])
      | _ =>
        let n := if (pk.data.getD 1 0).toNat = 7 then 8 else 4
        let o := rdNat s a n
        let s := match atomPacket pk.data n o with
          | some x => storeKey s a (leBytes x n)
          | none => s
        .ok (reply (reply s pk 4 (leBytes o n)) pk 5 [])

/-- A packet whose turn has come: performed, discarded if its tag is purged, or waiting behind a record of its context; as record 0,
behind a channel that is not trained (03 R53). -/
def takePkt (s : State) (k : Nat) (f : DstFlow) (pk : LmlPkt) : State :=
  let done (s : State) : State := modDst s k fun f => { f with done := pk.seq :: f.done }
  if f.purged.contains pk.qtag then done (reply s pk 5 [])
  else match perform s f.ctx pk with
    | .ok s => done s
    | .error .stall => modDst s k fun f => { f with faults := f.faults ++ [(0, pk)] }
    | .error e =>
      let id := s.nextId
      let s := postRec s f.ctx (faultRec s e pk.va.toNat 0 2)
      modDst s k fun f => { f with faults := f.faults ++ [(id, pk)] }

/-- Sequence numbers that have taken effect are passed. -/
def advDst : (fuel : Nat) → DstFlow → DstFlow
  | 0, f => f
  | n + 1, f => if f.done.contains f.next then advDst n { f with next := f.next + 1, done := f.done.filter (· != f.next) } else f

/-- Packets whose turn has come leave the reorder buffer. -/
def drainDst (k : Nat) : (fuel : Nat) → State → State
  | 0, s => s
  | n + 1, s =>
    match tget s.lnk.dst k with
    | none => s
    | some f =>
      let f := advDst (f.done.length + 1) f
      let s := modDst s k fun _ => f
      match f.held.find? fun p => p.seq == f.next with
      | none => s
      | some pk => drainDst k n (takePkt (modDst s k fun f => { f with held := f.held.filter fun p => p.seq != pk.seq }) k f pk)

/-- It takes effect only after every packet before it (02 R29). -/
def inOrder (pk : LmlPkt) : Bool := !pk.unordered || pk.rel || pk.ty == 6

/-- A reserved TYPE value, or a reserved bit of the header that is not 0 (02 R27). -/
def reservedPkt (pk : LmlPkt) : Bool := pk.rsv || pk.ty > 7 || pk.flow ≥ 4096 || pk.qtag ≥ 128

/-- A packet is discarded and counted as an error of its link (02 R27). -/
def discard (s : State) (pk : LmlPkt) : State := if pk.via < 16 then modLink s pk.via fun x => { x with errors := x.errors + 1 } else s

/-- A request packet arrives: discarded as reserved, forwarded, refused with a negative acknowledgement, ignored as a repetition, refused while the
buffer is full (the link layer sends it again), held, or performed. -/
def receive (s : State) (pk : LmlPkt) : State :=
  if reservedPkt pk then discard s pk
  else if pk.dpkg != s.lnk.pkgNum then emit s pk
  else match tget s.lnk.dst (dstKey pk) with
    | none => reply s pk 5 [1]
    | some f =>
      let seen := (pk.seq - f.next).toNat ≥ 2 ^ 31 || f.done.contains pk.seq || f.held.any (·.seq == pk.seq) || f.faults.any (·.2.seq == pk.seq)
      if seen then s
      else if inOrder pk && pk.seq != f.next then
        (if f.held.length ≥ 8192 then s else modDst s (dstKey pk) fun f => { f with held := f.held ++ [pk] })
      else drainDst (dstKey pk) (f.held.length + 1) (takePkt s (dstKey pk) f pk)

/-- LML_READ_REQUEST (02 R29). -/
def execLmlReadRequest (pk : LmlPkt) (s : State) : Out := .next (receive s { pk with ty := 0 })
/-- LML_WRITE (02 R29). -/
def execLmlWrite (pk : LmlPkt) (s : State) : Out := .next (receive s { pk with ty := 2 })
/-- LML_ATOMIC (02 R29). -/
def execLmlAtomic (pk : LmlPkt) (s : State) : Out := .next (receive s { pk with ty := 3 })
/-- LML_RELEASE (02 R29, R30). -/
def execLmlRelease (pk : LmlPkt) (s : State) : Out := .next (receive s { pk with ty := 6 })

/-- The packets that waited on a record are taken again. -/
def dstRetry (s : State) (k rcd : Nat) : State :=
  match tget s.lnk.dst k with
  | none => s
  | some f =>
    let ps := (f.faults.filter fun e => e.1 == rcd).map Prod.snd
    let s := modDst s k fun f => { f with faults := f.faults.filter fun e => e.1 != rcd }
    ps.foldl receive s

/-- The packets that waited on a record are refused. -/
def dstKill (s : State) (k rcd : Nat) : State :=
  match tget s.lnk.dst k with
  | none => s
  | some f =>
    let ps := (f.faults.filter fun e => e.1 == rcd).map Prod.snd
    let s := modDst s k fun f => { f with
      faults := f.faults.filter fun e => e.1 != rcd
      done := ps.map (·.seq) ++ f.done }
    drainDst k (f.held.length + 1) (ps.foldl (fun s p => reply s p 5 [1]) s)

/-- PURGE_MARKER (04 R74): packets of the tag from that source are discarded, those that are held at once, and the marker is
acknowledged. A source below 4,096 is a package, and 4,096 + e the endpoint e of the network (notes/assumptions/28.md). -/
def execPurgeMarker (src qtag : Nat) (s : State) : Out :=
  if src ≥ 4096 then .next (purgePdcs s (src - 4096) qtag)
  else .next ((s.lnk.dst.filter fun e => e.2.src == src).foldl (fun s e =>
    let gone := e.2.held.filter (·.qtag == qtag)
    let s := modDst s e.1 fun f => { f with
      purged := if f.purged.contains qtag then f.purged else f.purged ++ [qtag]
      held := f.held.filter (·.qtag != qtag)
      done := gone.map (·.seq) ++ f.done }
    let s := drainDst e.1 (e.2.held.length + 1) (gone.foldl (fun s p => reply s p 5 []) s)
    emit s { spkg := s.lnk.pkgNum, dpkg := src, flow := e.1 % 4096, seq := 0, qtag := qtag, unordered := false, rel := false, ty := 5, va := 0, data := [2] }) s)

/-! ### At the source (02 R27, R28) -/

/-- Packets held at the limit are sent while there is room; `sent` are those sent before, `held` those held. -/
def refill (s : State) (flow : Nat) : (fuel : Nat) → (sent held : List LmlPkt) → State
  | 0, sent, held => modFlow s flow fun f => { f with out := sent ++ held }
  | n + 1, sent, held =>
    let sent := settleOut sent
    let k := 65536 - sent.length
    if held.isEmpty || k = 0 then modFlow s flow fun f => { f with out := sent ++ held }
    else refill ((held.take k).foldl emit s) flow n (sent ++ held.take k) (held.drop k)

/-- A packet is answered: it is no longer outstanding, and packets held at the limit are sent (02 R28). -/
def retire (s : State) (flow : Nat) (seq : Word) : State :=
  match tget s.lnk.src flow with
  | none => s
  | some f =>
    wakeRetry (refill s flow (f.out.length + 1) ((f.out.take 65536).filter fun p => p.seq != seq) (f.out.drop 65536)) fun _ w => w == .flow

def dropRemote (s : State) (key : Nat) : State := { s with lnk := { s.lnk with remotes := tdel s.lnk.remotes key } }

/-- Nothing of an instruction is out any more: its results have landed, and a fragment that acquires goes on. -/
def tokCheck (s : State) (r : Remote) : State :=
  if s.lnk.remotes.any fun e => e.2.tid == r.tid && e.2.tok == r.tok && e.2.kind ≤ 2 then s
  else
    let core := ((tget s.threads r.tid).map (coreOf s)).getD 0
    let s := modThread s r.tid fun th =>
      let th := landTok th r.tok
      rejoin { th with frags := tmap th.frags fun _ f => if f.park == .remote r.tok then { f with park := .run } else f }
    if r.acq then dropL1 s core else s

/-- Earlier writes of a strand on a flow that are not acknowledged. -/
def relWaits (s : State) (e : Nat × Remote) : Bool :=
  s.lnk.remotes.any fun x => x.2.tid == e.2.tid && (x.2.kind == 1 || x.2.kind == 2) && !x.2.acked && x.2.tok < e.2.tok

/-- Releases that are acknowledged themselves complete once every earlier write of their strand is (02 R30). -/
def settleRel (s : State) (tid : Nat) : State :=
  (s.lnk.remotes.filter fun e => e.2.tid == tid && e.2.acked).foldl
    (fun s e => if relWaits s e then s else tokCheck (dropRemote s e.1) e.2) s

/-- A write or an atomic of a strand is acknowledged. -/
def ackedLane (s : State) (key : Nat) (r : Remote) : State :=
  let s := { s with lnk := { s.lnk with remotes := tset s.lnk.remotes key { r with acked := true } } }
  if r.rel then settleRel s r.tid else settleRel (tokCheck (dropRemote s key) r) r.tid

/-- Data from another package reach what asked for them. -/
def deliver (s : State) (r : Remote) (bs : List Byte) : State :=
  match r.kind with
  | 0 => tokCheck (modThread s r.tid fun th => writeRes th (wrRegs r.d [(r.lane, extendLoad r.width bs)] (widthRegs r.width))) r
  | 2 => modThread s r.tid fun th => writeRes th (wrRegs r.d [(r.lane, wordsOf bs)] (widthRegs r.width))
  | 3 =>
    let got (x : Watch) : Watch := if x.lane = r.lane && x.pkg.isSome then { x with got := some (leNat bs) } else x
    let s := modThread s r.tid fun th => { th with frags := tmod th.frags r.d fun f => match f.park with
      | .mwait d w ws sys st tmo tok => if tok = r.tok then { f with park := .mwait d w (ws.map got) sys st tmo tok } else f
      | _ => f }
    checkWait s r.tid r.d false
  | 4 => modCmd s r.tid fun c => { c with fetched := tset c.fetched r.d bs, asked := c.asked.filter (· != r.d) }
  | 6 =>
    let put (c : MxCmd) : MxCmd := if c.tid = r.tid && c.tok = r.tok then { c with fetched := tset c.fetched r.d bs } else c
    { s with
      mxq := tmap s.mxq fun _ q => q.map put
      blocks := tmap s.blocks fun _ b => { b with mxSaved := b.mxSaved.map put } }
  | 7 => wakeRetry (modThread s r.tid fun th => { th with inbox := tset th.inbox r.d bs }) fun _ w => w == .flow
  | 8 =>
    let put (x : DevRead) : DevRead := if x.ctx == r.tid && x.va == r.d && x.len == r.width && x.who == r.tok then { x with got := some bs } else x
    retryStalled { s with lnk := { s.lnk with box := s.lnk.box.map put } }
  | _ => s

/-- A response meets its request; an atomic's result counts as its acknowledgement. -/
def response (s : State) (pk : LmlPkt) : State :=
  if reservedPkt pk then discard s pk
  else if pk.dpkg != s.lnk.pkgNum then emit s pk
  else
    let key := remoteKey pk.flow pk.seq
    match tget s.lnk.remotes key with
    | none => retire s pk.flow pk.seq
    | some r =>
      let s := retire s pk.flow pk.seq
      if r.kind = 2 then ackedLane (deliver s r pk.data) key r
      else if r.kind = 1 then ackedLane s key r else deliver (dropRemote s key) r pk.data

/-- LML_READ_RESPONSE (02 R27). -/
def execLmlReadResponse (pk : LmlPkt) (s : State) : Out := .next (settleFences (retrySettled (response s pk)))
/-- LML_ATOMIC_RESPONSE (02 R27). -/
def execLmlAtomicResponse (pk : LmlPkt) (s : State) : Out := .next (settleFences (retrySettled (response s pk)))

/-- What an acknowledgement ends: a write of a strand, or of an engine command. -/
def acked (s : State) (key : Nat) : State :=
  match tget s.lnk.remotes key with
  | some r =>
    if r.kind = 1 then ackedLane s key r
    else if r.kind = 5 then
      let s := modCmd (dropRemote s key) r.tid fun c => { c with acks := c.acks - 1 }
      match tget s.cmds r.tid with
      | some c => if c.st = 2 && c.slices.isEmpty && c.acks = 0 && c.desc.isEmpty then after s (.engineCommandFinish r.tid 0) else s
      | none => s
    else s
  | none => s

/-- LML_ACK (02 R28, R32): an acknowledgement, or a negative one. -/
def execLmlAck (pk : LmlPkt) (s : State) : Out :=
  if reservedPkt pk then .next (discard s pk)
  else if pk.dpkg != s.lnk.pkgNum then .next (emit s pk)
  else if pk.data == [1] then .next (failFlow s pk.flow)
  else if pk.data == [2] then .next (modFlow s pk.flow fun f => { f with purging := f.purging.filter (· != pk.qtag) })
  else .next (settleFences <| retrySettled (retire (acked s (remoteKey pk.flow pk.seq)) pk.flow pk.seq))

/-! ### Links (02 R24, R25, R31) -/

/-- What a link holds goes out, by the routes as they are now. -/
def flushLink (s : State) (link : Nat) : State :=
  let ps := ((tget s.lnk.links link).map (·.held)).getD []
  ps.foldl emit (modLink s link fun x => { x with held := [] })

/-- LML_LINK_UP (02 R25): the link is trained, and what it held while it retrained goes out (01 R17). -/
def execLmlLinkUp (link lanes spares peer : Nat) (s : State) : Out :=
  if link ≥ 16 then .next s
  else
    let was := ((tget s.lnk.links link).map (·.up)).getD false
    let s := modLink s link fun x => { x with up := true, training := false, lanes := lanes, spares := spares, peer := peer }
    let s := flushLink s link
    .next (if was then s else readyVec s)

/-- LML_LINK_DOWN (02 R31): traffic moves to another route; with none left, the flows fail. That TLOCK clears at once, before the
2^24 cycles of R33, is the model's choice (notes/assumptions/59.md). -/
def execLmlLinkDown (link : Nat) (s : State) : Out :=
  match tget s.lnk.links link with
  | none => .next s
  | some x =>
    if !x.up then .next s
    else
      let s := readyVec (modLink s link fun x => { x with up := false, training := false, tlock := false, lanes := 0 })
      let s := flushLink s link
      .next (failRouteless s fun _ => true)

/-- FLIT_CRC_REPLAY (02 R24, 01 R20): the link layer sends the flit again, and the error counts. -/
def execFlitCrcReplay (link lane : Nat) (s : State) : Out :=
  .next (if link < 16 then noteError (modLink s link fun x => { x with errors := x.errors + 1 }) 4 (64 * link + lane % 64) else s)

/-- LML_PACKET_DISCARD (02 R27): counted as a link error. -/
def execLmlPacketDiscard (link : Nat) (s : State) : Out :=
  .next (if link < 16 then modLink s link fun x => { x with errors := x.errors + 1 } else s)

/-! ### Device time across packages (02 R33) -/

/-- A time-sync packet with the device time. -/
def syncPkt (s : State) (peer : Nat) : LmlPkt :=
  { spkg := s.lnk.pkgNum, dpkg := peer, flow := 0, seq := 0, qtag := 0, unordered := false, rel := false, ty := 7, va := 0, data := leBytes s.time 8 }

/-- LML_TIME_SYNC: the master answers with its time; any other package slews the error against the master away, and TLOCK is set within
8 cycles per hop, 32 at most. -/
def execLmlTimeSync (link : Nat) (err : Int) (hops : Nat) (s : State) : Out :=
  if link ≥ 16 then .next s
  else if s.lnk.timeMaster then
    .next (match tget s.lnk.links link with
      | some x => if x.up then emitOn s link (syncPkt s x.peer) else s
      | none => s)
  else
    let bound := min (8 * hops) 32
    let s := modLink s link fun x => { x with lastSync := s.time, bound := some bound, tlock := x.tlock || err.natAbs ≤ bound }
    .next (atTime { s with lnk := { s.lnk with slew := err } } (s.time + 2 ^ 24) (.tlockLoss link))

/-- TLOCK_LOSS: no exchange for 2^24 cycles. -/
def execTlockLoss (link : Nat) (s : State) : Out :=
  .next { s with lnk := { s.lnk with links := tmod s.lnk.links link fun x => if x.lastSync + 2 ^ 24 ≤ s.time then { x with tlock := false, bound := none } else x } }

/-- TIME_SYNC_EXCHANGE: every 2^20 cycles over the primary links of the route table. -/
def execTimeSyncExchange (s : State) : Out :=
  let ls := dedup (s.lnk.routes.flatMap fun r => r.2.prim)
  let s := ls.foldl (fun s l => match tget s.lnk.links l with
    | some x => if x.up then emitOn s l (syncPkt s x.peer) else s
    | none => s) s
  .next (if s.timers.any fun t => t.2 == .event .timeSyncExchange then s else atTime s (s.time + 2 ^ 20) .timeSyncExchange)

end Sys2Proof.Machine
end

