-- ==== Sys2Proof/Machine/Queue.lean ====
section
/-! DEFINITION. Queues (04): packets at the head, hazards, dispatch and completion, links, wakes, hardware slots and resets. A
queue is numbered 1,024 · function + queue id. -/
namespace Sys2Proof.Machine

def queueNo (fn qid : Nat) : Nat := fn * 1024 + qid

/-! ### The descriptor (04 R60, 10 R405) -/

/-- Writes of the device's to the descriptor. -/
def descJob (s : State) (q : Nat) (x : Queue) (ops : List DevOp) : State := startJob s x.ctx { ops := ops, queue := some q, tag := x.tag, owner := some q }

def flagByte (x : Queue) : List Byte := leBytes ((if x.nopre then 1 else 0) + (if x.wakeAgain then 2 else 0) + (if x.error then 4 else 0)) 1

def writeFlags (s : State) (q : Nat) : State :=
  match tget s.queues q with
  | some x => descJob s q x [.store (x.desc + 10) (flagByte x)]
  | none => s

/-- The queue looks again after some time. -/
def queuePoll (s : State) (q : Nat) : State :=
  if s.timers.any fun t => t.2 == .event (.queueMap q) then s else again s (.queueMap q)

/-- An access to the ring, the descriptor or an address of the packet fails. A translation fault is posted once, and the queue waits (04
R61); what stalls is tried again; one without a usable flow is a link machine check, behind which the queue waits for its reset
(notes/assumptions/50.md). -/
def queueFault (s : State) (q : Nat) (x : Queue) (e : TErr) (va : Nat) : State :=
  let id := s.nextId
  let wait (s : State) : State := modQueue s q fun x => { x with rcd := some id }
  match e with
  | .stall => queuePoll s q
  | .link => wait (devLinkCheck s x.ctx)
  | e => wait (postRec s x.ctx (faultRec s e va 0 1))

/-! ### The interval table (04 R69) -/

def conflict (a b : Interval) : Bool :=
  a.ctx == b.ctx && a.lo < b.lo + b.len && b.lo < a.lo + a.len && (a.mode.testBit 1 || b.mode.testBit 1)

def ofPkt (q i : Nat) (x : Interval) : Bool := x.queue == q && x.pkt == i

/-- A live entry of another packet, or a pending entry of one that reached its head before, conflicts. -/
def hazard (s : State) (q i : Nat) : Bool :=
  let mine := s.intervals.filter (ofPkt q i)
  let before := s.intervals.takeWhile fun x => !ofPkt q i x
  mine.any fun x => s.intervals.any (fun y => !ofPkt q i y && y.live && conflict x y) || before.any fun y => !y.live && conflict x y

/-- The table has room for the entries of a packet beside those that are live (notes/assumptions/28.md). -/
def tableRoom (s : State) (q i : Nat) : Bool :=
  (s.intervals.filter (·.live)).length + (s.intervals.filter (ofPkt q i)).length ≤ 4096

/-- The queue's head packet looks again. -/
def retryHead (s : State) (q ty : Nat) : State :=
  let go (i : Instr) : State := if s.timers.any fun t => t.2 == .event i then s else atTime s s.time i
  match ty with
  | 1 => go (.launchPacket q)
  | 2 => go (.applyPacket q)
  | 3 => go (.copy q)
  | 4 => go (.signal q)
  | 5 => go (.waitsig q)
  | 6 => go (.linkRelease q)
  | 7 => go (.linkWait q)
  | 8 => go (.hostflush q)
  | 9 => go (.marker q)
  | _ => go (.resetq q)

/-- The type of the packet at the head. -/
def headType (x : Queue) : Option Nat := x.head.map fun bs => fld bs 0 1

/-- Held packets are evaluated again, in the order in which they reached their heads (04 R69). -/
def reheld (s : State) : State :=
  let byTable := (s.intervals.filter fun x => !x.live).map (·.queue)
  let all := dedup (byTable ++ s.queues.map Prod.fst)
  all.foldl (fun s q => match (tget s.queues q).bind headType with
    | some t => retryHead s q t
    | none => s) s

/-- The intervals that a packet registers: those that it lists, and a COPY's source and destination (04 R65, R68). -/
def intervalsOf (bs : List Byte) : List (Nat × Nat × Nat) :=
  let listed := (List.range 4).filterMap fun j =>
    let n := fld bs (184 + 16 * j) 4
    if n = 0 then none else some (fld bs (176 + 16 * j) 8, n, fld bs (188 + 16 * j) 1)
  match fld bs 0 1 with
  | 1 | 2 => listed
  | 3 => (fld bs 16 8, fld bs 32 8, 1) :: (fld bs 24 8, fld bs 32 8, 2) :: listed
  | _ => []

/-- A listed interval obeys R68. That one whose reserved bits are not 0 is BADINT, not BADPKT, is the model's choice
(notes/assumptions/28.md). -/
def intervalOk (bs : List Byte) (j : Nat) : Bool :=
  let o := 176 + 16 * j
  let b := fld bs o 8
  let n := fld bs (o + 8) 4
  let m := fld bs (o + 12) 1
  zeros bs (o + 13) (o + 16) && m < 4 && (n = 0 || (m != 0 && b + n ≤ 2 ^ 57))

/-! ### Malformed packets (04 R63) -/

/-- An address that the queue hardware reads or writes lies in the arena window. -/
def inWindow (bs : List Byte) (o : Nat) : Bool := isArena (fld bs o 8)

/-- The body of a packet type: bytes that it does not list are 0, and its fields are within their ranges. -/
def bodyOk (s : State) (q : Nat) (x : Queue) (bs : List Byte) : Bool :=
  match fld bs 0 1 with
  | 1 => true
  | 2 => zeros bs 19 24 && zeros bs 40 176 && zeros bs 240 256 && fld bs 18 1 ≤ 7 && !inWindow bs 32
  | 3 => zeros bs 48 176 && zeros bs 240 256 && 1 ≤ fld bs 32 8 && fld bs 32 8 ≤ 2 ^ 40 && !inWindow bs 40
  | 4 => zeros bs 33 256 && fld bs 16 8 % 8 == 0 && fld bs 32 1 ≤ 1 && !inWindow bs 16
  | 5 => zeros bs 33 256 && fld bs 32 1 ≤ 2 && !inWindow bs 16
  | 6 | 7 => zeros bs 18 20 && zeros bs 24 256
  | 8 => zeros bs 24 256 && !inWindow bs 16
  | 9 => zeros bs 24 256 && fld bs 16 8 % 16 == 0 && !inWindow bs 16
  | 10 => zeros bs 18 24 && zeros bs 32 256 && !inWindow bs 24 && fld bs 16 2 < 1024 && fld bs 16 2 != x.qid
      && (tget s.queues (q / 1024 * 1024 + fld bs 16 2)).isSome
  | _ => false

/-- The error code of a packet that is malformed. That a LAUNCH whose CCTR lies in the arena window is BADREC, not BADPKT, is the model's
choice (notes/assumptions/28.md). -/
def badPacket (s : State) (q : Nat) (x : Queue) (bs : List Byte) : Option Nat :=
  let ty := fld bs 0 1
  if !headerOk bs || !bodyOk s q x bs then some 1
  else if ty = 1 && !recOk (parseRec bs) then some 2
  else if ty ≤ 3 && !(List.range 4).all (intervalOk bs) then some 6
  else none

/-- A malformed packet stops its queue. -/
def stopQueue (s : State) (q i code : Nat) : State :=
  match tget s.queues q with
  | none => s
  | some x =>
    let info := BitVec.ofNat 64 (i * 256 + code)
    let s := modQueue s q fun x => { x with error := true, errinfo := info, head := none, watch := none }
    let s := { s with intervals := s.intervals.filter fun y => !(y.queue == q && !y.live) }
    let s := descJob (writeFlags s q) q x [.store (x.desc + 40) (leBytes info.toNat 8)]
    reheld (raiseVec s x.fn x.vec)

/-! ### The head of a queue (04 R61, R72) -/

/-- Read the packet at the head; a malformed one stops the queue, another holds pending entries and looks for its dispatch. -/
def reachHead (s : State) (q : Nat) (x : Queue) : State :=
  let va := x.ring + 256 * (x.read % 2 ^ x.size)
  match readLong s x.ctx va 256 x.tag with
  | (s, .error (e, va)) => queueFault s q x e va
  | (s, .ok bs) =>
    match badPacket s q x bs with
    | some code => stopQueue s q x.read code
    | none =>
      let s := modQueue s q fun x => { x with head := some bs }
      let ents := (intervalsOf bs).map fun e => ({ ctx := x.ctx, lo := e.1, len := e.2.1, mode := e.2.2, queue := q, pkt := x.read, live := false } : Interval)
      retryHead { s with intervals := s.intervals ++ ents } q (fld bs 0 1)

/-- The queue may take packets now. -/
def running (s : State) (q : Nat) (x : Queue) : Bool := x.slot.isSome && !x.error && !x.resetting && x.rcd.isNone && !descHeld s q x

/-- Re-read WRITE (04 R61, R72). -/
def rereadWrite (s : State) (q : Nat) (x : Queue) : State :=
  match readVa s x.ctx (x.desc + 16) 8 x.tag with
  | (s, .error e) => queueFault s q x e (x.desc + 16)
  | (s, .ok bs) =>
    let w := leNat bs
    if w < x.write || w - x.done > 2 ^ x.size then stopQueue s q x.read 3
    else modQueue s q fun x => { x with write := w }

/-- The queue goes on: the next packet is reached; with none left WRITE is read once more, and the queue idles until a wake. -/
def pump (s : State) (q : Nat) : State :=
  match tget s.queues q with
  | none => s
  | some x =>
    if descHeld s q x then queuePoll s q
    else if !running s q x || x.head.isSome then s
    else if x.read < x.write then reachHead s q x
    else if x.idle then s
    else
      let s := rereadWrite s q x
      match tget s.queues q with
      | some x =>
        if !running s q x || x.head.isSome then s
        else if x.read < x.write then reachHead s q x
        else if s.timers.any fun t => t.2 == .event (.queueMap q) then s
        else modQueue s q fun x => { x with idle := true }
      | none => s

/-! ### Dispatch and completion (04 R62) -/

/-- LINK_RELEASE and HOSTFLUSH packets whose every earlier packet has completed. -/
def progress (s : State) (q : Nat) : State :=
  match tget s.queues q with
  | none => s
  | some x => match x.pkts.find? fun p => !p.done with
    | none => s
    | some p =>
      if jobsHeld s q x then s
      else
      let once (s : State) : State := modQueue s q fun x => { x with
        pkts := x.pkts.map fun y => if y.idx = p.idx then { y with flush := false, todo := none } else y }
      if p.flush then after (once s) (.packetComplete q p.idx 0)
      else match p.todo with
        | none => s
        | some (l, n) => match tget s.qlinks l with
          | none => stopQueue (once s) q p.idx 4
          | some k =>
            if k.count + n ≥ 2 ^ 32 then stopQueue (once s) q p.idx 5
            else
              let s := { s with qlinks := tset s.qlinks l { k with count := k.count + n } }
              atTime (reheld (once s)) s.time (.packetComplete q p.idx 0)

/-- The head packet is dispatched: its entries are live, READ advances, and the next packet is reached. -/
def dispatch (s : State) (q : Nat) (x : Queue) (p : PktState) : State :=
  let s := { s with intervals := s.intervals.map fun y => if ofPkt q p.idx y then { y with live := true } else y }
  let s := modQueue s q fun x => { x with read := x.read + 1, head := none, watch := none, pkts := x.pkts ++ [p] }
  pump (progress (descJob s q x [.store (x.desc + 24) (leBytes (x.read + 1) 8)]) q) q

/-- A packet as dispatched. -/
def pktOf (x : Queue) (bs : List Byte) (cctr : Nat) : PktState := { idx := x.read, cctr := cctr, irq := (fld bs 1 1).testBit 1 }

/-- A packet of a type stands at the head, its BARRIER is clear or every earlier packet has completed, no hazard is left and
the table has room. -/
def atHead (q ty : Nat) (s : State) (k : Queue → List Byte → State) : Out :=
  match tget s.queues q with
  | none => .next s
  | some x => match x.head with
    | none => .next s
    | some bs =>
      if !running s q x || fld bs 0 1 != ty then .next s
      else if (fld bs 1 1).testBit 0 && (x.done < x.read || jobsHeld s q x) then .next s
      else if hazard s q x.read || !tableRoom s q x.read then .next s
      else .next (k x bs)

/-- Complete a packet: a release at system scope for its writes, its completion record, then DONE as far as the completed prefix reaches, and
the vector, all behind the completions of the queue that are held (04 R62); its entries are removed and the
held packets look again. -/
def completePkt (s : State) (q i status : Nat) : State :=
  match tget s.queues q with
  | none => s
  | some x => match x.pkts.find? fun p => p.idx == i && !p.done with
    | none => s
    | some p =>
      let pk := x.pkts.map fun y => if y.idx = i then { y with done := true } else y
      let rest := pk.dropWhile (·.done)
      let d := (rest.head?.map (·.idx)).getD x.read
      let s := modQueue s q fun x => { x with pkts := rest, done := d }
      let cc := ccOps p.cctr status
      let dn : List DevOp := if d != x.done then [.store (x.desc + 32) (leBytes d 8)] else []
      let s := startJob s x.ctx {
        ops := .release x.tags :: cc ++ (if cc.isEmpty then [] else [.release x.tags]) ++ dn ++ (if p.irq then [.raise x.fn x.vec] else [])
        queue := some q, tag := x.tag, owner := some q, inOrder := true }
      let s := { s with
        intervals := s.intervals.filter fun y => !ofPkt q i y
        cmds := s.cmds.filter fun e => e.2.pkt != some (q, i) }
      pump (reheld (progress s q)) q

/-- PACKET_COMPLETE (04 R62); in the name of no packet, 2^64, those that wait for the ones before them look again. -/
def execPacketComplete (q idx status : Nat) (s : State) : Out :=
  .next (if ((tget s.queues q).map (·.resetting)).getD true then s
    else if idx = 2 ^ 64 then progress s q
    else completePkt s q idx status)

/-! ### Packets (04 R65) -/

/-- LAUNCH (04 R66-R68): a grid of the queue's partition, or TOOBIG; it waits for a grid slot (08 R139). -/
def execLaunchPacket (q : Nat) (s : State) : Out :=
  atHead q 1 s fun x bs =>
    let r := parseRec bs
    if !fitsEmpty s x.part x.ctx r then completePkt (dispatch s q x (pktOf x bs r.cctr)) q x.read 2
    else match (tget s.ctxs x.ctx).bind fun cx => freeSlot cx 3 with
      | none => s
      | some slot =>
        let gid := s.nextId
        let s := newGrid s slot {
          ctx := x.ctx, queue := q, pkt := some x.read, prio := lesser r.prio x.prio, part := x.part, lrec := r, slot := slot, gen := 0 }
        enterGrid (dispatch s q x (pktOf x bs r.cctr)) gid

/-- How the queue reads a nest (11 R195). -/
def queueRead (q ctx tag : Nat) : Reader := fun s va n =>
  match readLong s ctx va n tag (q + 1) with
  | (s, .ok bs) => .ok (s, bs)
  | (s, .error e) => .error (.flt s [e])

/-- APPLY (04 R65, 11 R193, R195, R206). -/
def execApplyPacket (q : Nat) (s : State) : Out :=
  atHead q 2 s fun x bs =>
    let root := fld bs 16 2
    let p := pktOf x bs (fld bs 32 8)
    let i := ((tget s.ctxs x.ctx).map (·.nestNo)).getD 1
    let new (ns : List Node) : Nest :=
      { ctx := x.ctx, gid := none, pkt := some (q, x.read), queue := q, index := i, qslot := x.tag, argp := fld bs 24 8
        prio := lesser (fld bs 18 1) x.prio, part := x.part, nodes := ns }
    let go (s : State) : State := dispatch (modCtx (dropSnap s q) x.ctx fun cx => { cx with nestNo := nextNest i }) q x p
    match (tget s.ctxs x.ctx).bind (·.tbase) with
    | none => (addBadNest (go s) (new []) root).1
    | some tb => match snapWalk (queueRead q x.ctx x.tag) { tbase := tb, argp := fld bs 24 8, slots := List.replicate 8 0 } 16 none s root [] with
      | .ok (s, ns) => (addNest (go s) (new ns)).1
      | .error (.bad s h) => (addBadNest (go s) (new []) h).1
      | .error (.act (.flt s (e :: _))) => queueFault (if e.1 == .stall then s else dropSnap s q) q x e.1 e.2
      | .error (.act _) => s

/-- COPY (04 R65): an engine command of its own. -/
def execCopy (q : Nat) (s : State) : Out :=
  atHead q 3 s fun x bs =>
    let sl : Slice := { src := { sp := false, at' := fld bs 16 8 }, dst := { sp := false, at' := fld bs 24 8 }, len := fld bs 32 8 }
    let c : Cmd := {
      kind := 0, ctx := x.ctx, gid := 0, bid := 0, index := 0, qslot := x.tag, cluster := 0, st := 1, slices := [sl], pkt := some (q, x.read) }
    let cid := s.nextId
    let s := newId s
    cmdReady (dispatch { s with cmds := tset s.cmds cid c } q x (pktOf x bs (fld bs 40 8))) cid

/-- SIGNAL (04 R65): a 64-bit store or wrapping add, as a release at system scope. -/
def execSignal (q : Nat) (s : State) : Out :=
  atHead q 4 s fun x bs =>
    let va := fld bs 16 8
    let op : DevOp := if fld bs 32 1 = 0 then .store va (leBytes (fld bs 24 8) 8) else .add va (fld bs 24 8)
    match runOp s x.ctx x.tag none op with
    | (s, .error (e, va)) => queueFault s q x e va
    | (s, .ok _) => completePkt (dispatch s q x (pktOf x bs 0)) q x.read 0

/-- A WAITSIG's condition on the word. -/
def sigMeets (cond w v : Nat) : Bool :=
  match cond with
  | 0 => w ≥ v
  | 1 => w == v
  | _ => w != v

/-- Where the word of a WAITSIG lies, for the stores that are observed. -/
def wordKey (s : State) (c va : Nat) : Option Nat :=
  match (translate s c va .read).2 with
  | .ok (.key a _) => some a
  | _ => none

/-- An acquire read at system scope; the queue is held, and the word is read again after 2^12 cycles at the latest. -/
def tryWaitsig (q : Nat) (s : State) : Out :=
  atHead q 5 s fun x bs =>
    let va := fld bs 16 8
    match readLong s x.ctx va 8 x.tag with
    | (s, .error (e, va)) => queueFault s q x e va
    | (s, .ok ws) =>
      if sigMeets (fld bs 32 1) (leNat ws) (fld bs 24 8) then completePkt (dispatch s q x (pktOf x bs 0)) q x.read 0
      else
        let s := modQueue s q fun x => { x with watch := wordKey s x.ctx va }
        if s.timers.any fun t => t.2 == .event (.waitsigReread q) && t.1 ≤ s.time + 4096 then s else atTime s (s.time + 4096) (.waitsigReread q)

/-- WAITSIG (04 R65). -/
def execWaitsig (q : Nat) (s : State) : Out := tryWaitsig q s
/-- WAITSIG_REREAD (04 R65): on a store that the device observes, or after 2^12 cycles. -/
def execWaitsigReread (q : Nat) (s : State) : Out := tryWaitsig q s

/-- LINK_RELEASE (04 R70): the count is added once every earlier packet has completed. -/
def execLinkRelease (q : Nat) (s : State) : Out :=
  atHead q 6 s fun x bs =>
    match tget s.qlinks (fld bs 16 2) with
    | some k => if k.producer = q then dispatch s q x { pktOf x bs 0 with todo := some (fld bs 16 2, fld bs 20 4) } else stopQueue s q x.read 4
    | none => stopQueue s q x.read 4

/-- LINK_WAIT (04 R70): holds until the link has the tokens, and takes them. -/
def execLinkWait (q : Nat) (s : State) : Out :=
  atHead q 7 s fun x bs =>
    let n := fld bs 20 4
    match tget s.qlinks (fld bs 16 2) with
    | some k =>
      if k.consumer != q then stopQueue s q x.read 4
      else if k.count < n then s
      else
        let s := { s with qlinks := tset s.qlinks (fld bs 16 2) { k with count := k.count - n } }
        completePkt (dispatch s q x (pktOf x bs 0)) q x.read 0
    | none => stopQueue s q x.read 4

/-- HOSTFLUSH (04 R65): completes after every earlier packet, when a read of host memory has returned. -/
def execHostflush (q : Nat) (s : State) : Out :=
  atHead q 8 s fun x bs => dispatch s q x { pktOf x bs (fld bs 16 8) with flush := true }

/-- MARKER (04 R65): TAG and device time in the record, and a record of every Lacewing unit that is enabled. -/
def execMarker (q : Nat) (s : State) : Out :=
  atHead q 9 s fun x bs =>
    let va := fld bs 16 8
    let tag := fld bs 4 4
    let ops : List DevOp := if va = 0 then [] else [.store va (leBytes tag 4), .store (va + 8) (leBytes s.time 8)]
    match runOps s x.ctx x.tag none ops with
    | (s, _, some (e, va)) => queueFault s q x e va
    | (s, _, none) =>
      let s := (List.range 8).foldl (fun s j => lacewing s j 5 tag 0 0 0) s
      completePkt (dispatch s q x (pktOf x bs 0)) q x.read 0

/-! ### Queue reset (04 R74) -/

/-- Blocks of a grid stop for good, without a record. -/
def dropGrid (s : State) (gid : Nat) : State :=
  let s := modGrid s gid fun g => { g with cancelled := true, parked := false }
  let s := (gridBlocks s gid).foldl (fun s e => cancelBlock s e.1) s
  after s (.gridEnd gid)

/-- The engine commands of a queue's work. -/
def queueCmds (s : State) (q : Nat) : List (Nat × Cmd) :=
  s.cmds.filter fun e => (match e.2.pkt with | some p => p.1 == q | none => false)
    || (e.2.kind != 0 && ((tget s.grids e.2.gid).map (·.queue)) == some q)

/-- Purge markers on every flow and delivery context that carried traffic with the tag. -/
def sendPurges (s : State) (c tag : Nat) : State :=
  let fs := (s.lnk.src.filter fun f => f.2.ctx == c && f.2.tags.contains tag && !f.2.failed).map Prod.fst
  let s := fs.foldl (fun s f => modFlow s f fun x => { x with tags := x.tags.filter (· != tag), purging := x.purging ++ [tag] }) s
  let ps := (s.net.pdcs.filter fun p => p.2.ctx == c && p.2.tags.contains tag).map Prod.fst
  let s := ps.foldl (fun s p => modPdc s p fun x => { x with tags := x.tags.filter (· != tag) }) s
  { s with
    lnk := { s.lnk with purgeOut := s.lnk.purgeOut ++ fs.map fun f => (f, tag) }
    net := { s.net with purgeOut := s.net.purgeOut ++ ps.map fun p => (p, tag) } }

/-- Steps 1 to 3; a reset that runs already is joined. -/
def startReset (s : State) (q : Nat) : State :=
  match tget s.queues q with
  | none => s
  | some x =>
    if x.resetting then s
    else
      let s := modQueue (dropSnap s q) q fun x => { x with resetting := true, purged := false, drains := [], head := none, watch := none, rcd := none }
      let s := { s with intervals := s.intervals.filter fun y => !(y.queue == q && !y.live) }
      let s := cancelNodes s ((s.nests.filter fun e => e.2.queue == q && e.2.status.isNone).map fun e => .nest e.1)
      let s := ((s.grids.filter fun e => e.2.queue == q).map Prod.fst).foldl dropGrid s
      let s := (queueCmds s q).foldl (fun s e =>
        if e.2.st < 2 then endUnrun s e.1 7
        else match e.2.msg with
          | some m => if e.2.st = 2 then netFinish s m 7 else s
          | none => s) s
      let s := modCtx s x.ctx fun cx => { cx with jobs := cx.jobs.filter fun j => j.queue == some q || j.owner != some q }
      after (reheld s) (.queueResetDone q)

/-- What the first steps of a reset still wait for: the queue's grids, nests and commands. -/
def workLeft (s : State) (q : Nat) : Bool :=
  s.grids.any (fun e => e.2.queue == q) || s.nests.any (fun e => e.2.queue == q && e.2.status.isNone) || (queueCmds s q).any (fun e => e.2.st < 3)

/-- Another queue of the context has the QTAG now. -/
def tagLent (s : State) (q : Nat) (x : Queue) (tag : Nat) : Bool :=
  ((tget s.slots tag).map fun v => v != q && ((tget s.queues v).map (·.ctx)) == some x.ctx).getD false

/-- Step 4: markers for the QTAGs that the queue's work has had. Where another queue of the context has one of them now, a marker would discard its
packets too: those that are out are waited for (notes/assumptions/30.md). -/
def purgeWork (s : State) (q : Nat) (x : Queue) : State :=
  let s := modQueue s q fun x => { x with purged := true, drains := tagOut s x.ctx (x.tags.filter (tagLent s q x)) }
  (x.tags.filter fun t => !tagLent s q x t).foldl (fun s t => sendPurges s x.ctx t) s

/-- What step 4 waits for: the answers to its markers. -/
def purgeLeft (s : State) (x : Queue) : Bool :=
  s.lnk.src.any (fun f => f.2.ctx == x.ctx && !f.2.failed && x.tags.any f.2.purging.contains)
    || s.net.pdcs.any (fun p => p.2.ctx == x.ctx && p.2.out.any (·.notice)) || !allSettled s x.drains

/-- Writes of completion records during a reset: one that fails is discarded (10 R405). -/
def quietOps (s : State) (c tag : Nat) (ops : List DevOp) : State :=
  ops.foldl (fun s op => match runOp s c tag none op with | (s, .ok _) => s | (s, .error _) => s) s

/-- One of them stalls on a far-memory channel (03 R53). -/
def opsStall (s : State) (c tag : Nat) (ops : List DevOp) : Bool :=
  ops.any fun op => match runOp s c tag none op with | (_, .error (.stall, _)) => true | _ => false

/-- A wake is served (04 R72): WRITE is read, and the queue dispatches up to it. -/
def serveWake (s : State) (q : Nat) : State :=
  match tget s.queues q with
  | none => s
  | some x =>
    let s := if x.wakeAgain then writeFlags (modQueue s q fun x => { x with wakeAgain := false }) q else s
    let s := modQueue s q fun x => { x with idle := false }
    if !running s q x then s
    else pump (rereadWrite s q x) q

/-- Set WAKE_AGAIN and PEND. -/
def markAgain (s : State) (q : Nat) : State := writeFlags (modQueue s q fun x => { x with wakeAgain := true }) q

/-- Tokens return, and marked queues are served, one event each 256 cycles. -/
def refillSoon (s : State) (fn : Nat) : State :=
  if s.timers.any fun t => t.2 == .event (.wakeTokenRefill fn) then s else atTime s (s.time + 256) (.wakeTokenRefill fn)

/-- A wake reaches its queue: a mapped queue is served, another goes to Shawm (04 R73). -/
def wakeQueue (s : State) (q : Nat) : State :=
  match tget s.queues q with
  | none => s
  | some x => if x.slot.isSome then serveWake s q else after s (.queueMap q)

/-- What step 5 writes: records of packets that completed and are not written yet, then CANCELLED for every dispatched packet. -/
def resetOps (s : State) (q : Nat) (x : Queue) : List DevOp :=
  let held := ((tget s.ctxs x.ctx).map fun cx => (cx.jobs.filter fun j => j.queue == some q).flatMap (·.ops)).getD []
  held ++ (x.pkts.filter fun p => !p.done).flatMap fun p => ccOps p.cctr 3

/-- Steps 5 and 6: every dispatched packet is CANCELLED, the queue is empty, RDONE is set, and the RESETQ packets complete. -/
def finishReset (s : State) (q : Nat) (x : Queue) : State :=
  let s := quietOps s x.ctx x.tag (resetOps s q x)
  let s := modCtx s x.ctx fun cx => { cx with jobs := cx.jobs.filter fun j => j.queue != some q && j.owner != some q }
  let s := { s with
    intervals := s.intervals.filter fun y => y.queue != q
    cmds := s.cmds.filter fun e => (e.2.pkt.map Prod.fst) != some q }
  let w := match readVa s x.ctx (x.desc + 16) 8 with
    | (_, .ok bs) => leNat bs
    | (_, .error _) => x.write
  let s := modQueue s q fun x => { x with
    read := w
    done := w
    write := w
    pkts := []
    error := false
    errinfo := 0
    resetting := false
    rdone := true
    idle := true
    tags := [x.tag]
    resetters := [] }
  let s := descJob (writeFlags s q) q x
    [.store (x.desc + 24) (leBytes w 8), .store (x.desc + 32) (leBytes w 8), .store (x.desc + 40) (leBytes 0 8)]
  let s := x.resetters.foldl (fun s r => completePkt s r.1 r.2 0) s
  reheld (if x.wakeAgain then wakeQueue s q else s)

def dropQueue (s : State) (q : Nat) : State :=
  match tget s.queues q with
  | none => s
  | some x =>
    let s := { s with queues := tdel s.queues q, slots := match x.slot with | some i => tdel s.slots i | none => s.slots }
    (dedup (s.queues.filterMap fun e => if e.2.wakeAgain then some e.2.fn else none)).foldl refillSoon s

/-- QUEUE_RESET_DONE (04 R74). -/
def execQueueResetDone (q : Nat) (s : State) : Out :=
  match tget s.queues q with
  | none => .next s
  | some x =>
    if !x.resetting then .next s
    else if workLeft s q then .next (again s (.queueResetDone q))
    else if !x.purged then .next (again (purgeWork s q x) (.queueResetDone q))
    else if purgeLeft s x || opsStall s x.ctx x.tag (resetOps s q x) then .next (atTime (tick s) (s.time + 1 + Config.delay s.freeCtr) (.queueResetDone q))
    else
      let s := finishReset s q x
      .next (if x.gone then dropQueue s q else s)

/-- RESETQ (04 R65, R74). -/
def execResetq (q : Nat) (s : State) : Out :=
  atHead q 10 s fun x bs =>
    let t := q / 1024 * 1024 + fld bs 16 2
    let s := dispatch s q x (pktOf x bs (fld bs 24 8))
    modQueue (startReset s t) t fun y => { y with resetters := y.resetters ++ [(q, x.read)] }

/-- QCTL_RESET (04 R71, R74): a write of 1 to QCTL.RESET. -/
def execQctlReset (fn qid : Nat) (s : State) : Out := .next (startReset s (queueNo fn qid))

/-! ### Wakes and slots (04 R71-R73) -/

/-- WAKE (04 R71, R72). -/
def execWake (fn qid : Nat) (val : Dword) (s : State) : Out :=
  if qid ≥ 1024 then .next s
  else
    let s := modFn s fn fun f => { f with wakes := tset f.wakes qid val }
    let q := queueNo fn qid
    match tget s.queues q with
    | none => .next s
    | some x =>
      if x.resetting then .next (markAgain s q)
      else if (fnOf s fn).tokens = 0 then .next (refillSoon (markAgain s q) fn)
      else
        let s := refillSoon (modFn s fn fun f => { f with tokens := f.tokens - 1 }) fn
        .next (wakeQueue s q)

/-- The next queue of a function, after the one served last, that has WAKE_AGAIN set. -/
def nextAgain (s : State) (fn : Nat) : Option Nat :=
  let qs := (s.queues.filter fun e => e.2.fn == fn && e.2.wakeAgain && !e.2.resetting).map Prod.fst
  (rotate qs (fnOf s fn).lastServed).head?

/-- WAKE_TOKEN_REFILL (04 R72). -/
def execWakeTokenRefill (fn : Nat) (s : State) : Out :=
  let s := modFn s fn fun f => { f with tokens := min 64 (f.tokens + 1) }
  let s := match nextAgain s fn with
    | none => s
    | some q =>
      let s := modFn s fn fun f => { f with tokens := f.tokens - 1, lastServed := q }
      wakeQueue (writeFlags (modQueue s q fun x => { x with wakeAgain := false }) q) q
  .next (if (fnOf s fn).tokens < 64 || s.queues.any (fun e => e.2.fn == fn && e.2.wakeAgain) then refillSoon s fn else s)

/-- Give a queue a slot, and serve its wake. -/
def mapQueue (s : State) (q slot : Nat) : State :=
  serveWake (modQueue { s with slots := tset s.slots slot q } q fun x => { x with slot := some slot, tag := slot, tags := if x.tags.contains slot then x.tags else x.tags ++ [slot] }) q

/-- A mapped queue leaves its slot between packets; its WAKE_AGAIN is set. -/
def unmapQueue (s : State) (v slot : Nat) : State :=
  let s := { s with
    slots := tdel s.slots slot
    intervals := s.intervals.filter fun y => !(y.queue == v && !y.live) }
  let s := markAgain (modQueue (dropSnap s v) v fun x => { x with slot := none, head := none, watch := none }) v
  refillSoon s (v / 1024)

/-- QUEUE_MAP (04 R73): a free slot, or one of a queue with NOPRE clear; with neither, or with SHAWM clear, WAKE_AGAIN is set. That a queue
whose reset runs is not displaced is the model's choice (notes/assumptions/29.md). A mapped queue looks again at what it waited for. -/
def execQueueMap (q : Nat) (s : State) : Out :=
  match tget s.queues q with
  | none => .next s
  | some x =>
    if x.slot.isSome then
      .next (match headType x with | some t => retryHead s q t | none => pump s q)
    else if !s.pkg.shawm then .next (refillSoon (markAgain s q) x.fn)
    else match tfree s.slots 0 128 fun _ => true with
      | some i => .next (mapQueue s q i)
      | none =>
        let vs := s.slots.filter fun e => ((tget s.queues e.2).map fun y => !y.nopre && !y.resetting).getD true
        match vs[Config.victimSlot s.freeCtr % vs.length]? with
        | some (i, v) => .next (mapQueue (unmapQueue (tick s) v i) q i)
        | none => .next (refillSoon (markAgain s q) x.fn)

/-! ### A far-memory channel trains (03 R52, R53) -/

/-- FAR_CHANNEL_TRAINED (03 R52, 01 R17): its accesses go on. -/
def execFarChannelTrained (ch : Nat) (s : State) : Out :=
  if ch ≥ 32 || s.pkg.chanRemoved.contains ch || s.pkg.chans.contains ch then .next s
  else
    let s := retryStalled (readyVec (modPkg s fun p => { p with chans := p.chans ++ [ch] }))
    let s := (s.lnk.dst.map Prod.fst).foldl (fun s k => dstRetry s k 0) s
    let ts := (s.queues.filter fun e => e.2.slot.isSome).map Prod.fst
    .next (ts.foldl (fun s q => match (tget s.queues q).bind headType with
      | some t => retryHead s q t
      | none => pump s q) s)

end Sys2Proof.Machine
end

