-- ==== Sys2Proof/Machine/Sha.lean ====
section
/-! DEFINITION. SHA-512 (FIPS 180-4), by which firmware measures and signs (03 R56, R57, 05 R82). -/
namespace Sys2Proof.Machine

/-- The constants of the 80 rounds: the fractional parts of the cube roots of the first 80 primes. -/
def shaConsts : List Dword :=
  [0x428A2F98D728AE22, 0x7137449123EF65CD, 0xB5C0FBCFEC4D3B2F, 0xE9B5DBA58189DBBC, 0x3956C25BF348B538,
     0x59F111F1B605D019, 0x923F82A4AF194F9B, 0xAB1C5ED5DA6D8118, 0xD807AA98A3030242, 0x12835B0145706FBE,
     0x243185BE4EE4B28C, 0x550C7DC3D5FFB4E2, 0x72BE5D74F27B896F, 0x80DEB1FE3B1696B1, 0x9BDC06A725C71235,
     0xC19BF174CF692694, 0xE49B69C19EF14AD2, 0xEFBE4786384F25E3, 0x0FC19DC68B8CD5B5, 0x240CA1CC77AC9C65]
    ++ [0x2DE92C6F592B0275, 0x4A7484AA6EA6E483, 0x5CB0A9DCBD41FBD4, 0x76F988DA831153B5, 0x983E5152EE66DFAB,
      0xA831C66D2DB43210, 0xB00327C898FB213F, 0xBF597FC7BEEF0EE4, 0xC6E00BF33DA88FC2, 0xD5A79147930AA725,
      0x06CA6351E003826F, 0x142929670A0E6E70, 0x27B70A8546D22FFC, 0x2E1B21385C26C926, 0x4D2C6DFC5AC42AED,
      0x53380D139D95B3DF, 0x650A73548BAF63DE, 0x766A0ABB3C77B2A8, 0x81C2C92E47EDAEE6, 0x92722C851482353B]
    ++ [0xA2BFE8A14CF10364, 0xA81A664BBC423001, 0xC24B8B70D0F89791, 0xC76C51A30654BE30, 0xD192E819D6EF5218,
      0xD69906245565A910, 0xF40E35855771202A, 0x106AA07032BBD1B8, 0x19A4C116B8D2D0C8, 0x1E376C085141AB53,
      0x2748774CDF8EEB99, 0x34B0BCB5E19B48A8, 0x391C0CB3C5C95A63, 0x4ED8AA4AE3418ACB, 0x5B9CCA4F7763E373,
      0x682E6FF3D6B2B8A3, 0x748F82EE5DEFB2FC, 0x78A5636F43172F60, 0x84C87814A1F0AB72, 0x8CC702081A6439EC]
    ++ [0x90BEFFFA23631E28, 0xA4506CEBDE82BDE9, 0xBEF9A3F7B2C67915, 0xC67178F2E372532B, 0xCA273ECEEA26619C,
      0xD186B8C721C0C207, 0xEADA7DD6CDE0EB1E, 0xF57D4F7FEE6ED178, 0x06F067AA72176FBA, 0x0A637DC5A2C898A6,
      0x113F9804BEF90DAE, 0x1B710B35131C471B, 0x28DB77F523047D84, 0x32CAAB7B40C72493, 0x3C9EBE0A15C9BEBC,
      0x431D67C49C100D4C, 0x4CC5D4BECB3E42B6, 0x597F299CFC657E2A, 0x5FCB6FAB3AD6FAEC, 0x6C44198C4A475817]

/-- The eight words of the hash. -/
structure Sha where
  a : Dword
  b : Dword
  c : Dword
  d : Dword
  e : Dword
  f : Dword
  g : Dword
  h : Dword
deriving DecidableEq, Repr

/-- The fractional parts of the square roots of the first eight primes. -/
def shaInit : Sha :=
  { a := 0x6A09E667F3BCC908
    b := 0xBB67AE8584CAA73B
    c := 0x3C6EF372FE94F82B
    d := 0xA54FF53A5F1D36F1
    e := 0x510E527FADE682D1
    f := 0x9B05688C2B3E6C1F
    g := 0x1F83D9ABFB41BD6B
    h := 0x5BE0CD19137E2179 }

def rotr (x : Dword) (n : Nat) : Dword := x.rotateRight n

/-- One more word of the message schedule; the words stand latest first. -/
def shaNext (w : List Dword) : Dword :=
  let x := w.getD 14 0
  let y := w.getD 1 0
  (rotr y 19 ^^^ rotr y 61 ^^^ (y >>> 6)) + w.getD 6 0 + (rotr x 1 ^^^ rotr x 8 ^^^ (x >>> 7)) + w.getD 15 0

def shaExtend : (n : Nat) → List Dword → List Dword
  | 0, w => w
  | n + 1, w => shaExtend n (shaNext w :: w)

/-- A round, with its constant and its word of the schedule. -/
def shaRound (v : Sha) (kw : Dword × Dword) : Sha :=
  let t := v.h + (rotr v.e 14 ^^^ rotr v.e 18 ^^^ rotr v.e 41) + ((v.e &&& v.f) ^^^ (~~~v.e &&& v.g)) + kw.1 + kw.2
  let u := (rotr v.a 28 ^^^ rotr v.a 34 ^^^ rotr v.a 39) + ((v.a &&& v.b) ^^^ (v.a &&& v.c) ^^^ (v.b &&& v.c))
  { a := t + u, b := v.a, c := v.b, d := v.c, e := v.d + t, f := v.e, g := v.f, h := v.g }

/-- The 16 words of a block of 128 bytes, each with its highest byte first, latest word first. -/
def shaWords (bs : List Byte) : List Dword :=
  ((List.range 16).map fun i => ((bs.drop (8 * i)).take 8).foldl (fun (x : Dword) (b : Byte) => x * 256 + b.setWidth 64) 0).reverse

def shaBlock (v : Sha) (bs : List Byte) : Sha :=
  let x := (shaConsts.zip (shaExtend 64 (shaWords bs)).reverse).foldl shaRound v
  { a := v.a + x.a, b := v.b + x.b, c := v.c + x.c, d := v.d + x.d, e := v.e + x.e, f := v.f + x.f, g := v.g + x.g, h := v.h + x.h }

/-- The lowest `n` bytes of a number, highest first. -/
def beBytes (x n : Nat) : List Byte := ((List.range n).map fun i => BitVec.ofNat 8 (x / 256 ^ i)).reverse

/-- The message, a one bit, zeros, and its length in bits in the last 16 bytes of a block. -/
def shaPad (bs : List Byte) : List Byte :=
  bs ++ [(0x80 : Byte)] ++ List.replicate ((239 - bs.length % 128) % 128) 0 ++ beBytes (8 * bs.length) 16

/-- SHA-512: 64 bytes. -/
def sha512 (bs : List Byte) : List Byte :=
  let m := shaPad bs
  let v := (List.range (m.length / 128)).foldl (fun v i => shaBlock v ((m.drop (128 * i)).take 128)) shaInit
  [v.a, v.b, v.c, v.d, v.e, v.f, v.g, v.h].flatMap fun x => beBytes x.toNat 8

end Sys2Proof.Machine
end

