-- ==== Sys2Proof/Machine/Mailbox.lean ====
section
/-! DEFINITION. The firmware mailbox (03 R55) and its requests on firmware (03 R57, 01 R20-R22), contexts (03 R58), queues (04 R59),
links and the network (02 R32, R37). -/
namespace Sys2Proof.Machine

/-! ### Serving a request (03 R55) -/

/-- Byte key of a host physical address. -/
def hostKey (a : Nat) : Nat := hostBase + a % 2 ^ 48

/-- A request: its arguments, the output buffer and its length. -/
structure Req where
  args : List Byte
  out : Nat
  outlen : Nat
deriving DecidableEq, Repr

/-- What serving comes to: a status, or Shawm looks again. -/
inductive Ans where
  | fin (s : State) (status : Nat)
  | later (s : State)
deriving DecidableEq, Repr

def ok (s : State) : Ans := .fin s 0
def badReq (s : State) : Ans := .fin s 1
def denied (s : State) : Ans := .fin s 2
def short (s : State) : Ans := .fin s 3
def busyAns (s : State) : Ans := .fin s 4

/-- Shawm finishes a request: STATUS, BUSY, vector 0. -/
def finishReq (s : State) (fn status : Nat) : State :=
  let s := storeKey s (hostKey ((fnOf s fn).mboxAddr + 4)) (leBytes status 4)
  raiseVec (modFn s fn fun f => { f with busy := false }) fn 0

def pollReq (s : State) (fn : Nat) : State :=
  let s := tick s
  { s with timers := s.timers ++ [(s.time + 1 + Config.delay s.freeCtr, .mbox fn)] }

/-- The 64 bytes of the request that a function's mailbox holds. -/
def reqBytes (s : State) (fn : Nat) : List Byte := rdN s (hostKey (fnOf s fn).mboxAddr) 64

/-- The function whose request is served next: functions in rotation, one request each (03 R55). -/
def nextFn (s : State) : Option Nat := (rotate ((s.fns.filter fun f => f.2.busy).map Prod.fst) s.pkg.lastFn).head?

/-- It is the function's turn; without SHAWM only RESTART is served, whenever it comes (03 R53, R54). -/
def fnTurn (s : State) (fn code : Nat) : Bool := if s.pkg.shawm then nextFn s == some fn else code == 7

/-- Shawm serves the outstanding request of a function if its CODE is this one. Reserved fields, the issuing function and unused
argument bytes are checked first. -/
def withReq (fn code nargs : Nat) (pfOnly : Bool) (s : State) (k : State → Req → Ans) : Out :=
  let bs := reqBytes s fn
  if !(fnOf s fn).busy || fld bs 0 2 != code || !fnTurn s fn code then .next s
  else
  let s := modPkg s fun p => { p with lastFn := fn, shawmAt := s.time }
  if !zeros bs 2 4 || !zeros bs 8 16 then .next (finishReq s fn 1)
  else if pfOnly && fn != 0 then .next (finishReq s fn 2)
  else if !zeros bs (32 + nargs) 64 then .next (finishReq s fn 1)
  else match k s { args := bs.drop 32, out := fld bs 24 8, outlen := fld bs 16 8 } with
    | .fin s st => .next (finishReq s fn st)
    | .later s => .next (pollReq s fn)

/-- Write an output, if the buffer is large enough. -/
def putOut (s : State) (r : Req) (bs : List Byte) : Ans :=
  if r.outlen < bs.length then short s else ok (storeKey s (hostKey r.out) bs)

/-- A context that the issuing function holds. -/
def heldCtx (s : State) (fn c : Nat) : Option Ctx := (tget s.ctxs c).filter fun cx => fn == 0 || cx.fn == fn

/-- One that is not stopped: a stopped context can only be destroyed (03 R58), and another request on it is BADREQ
(notes/assumptions/55.md). -/
def liveCtx (s : State) (fn c : Nat) : Option Ctx := (heldCtx s fn c).filter fun cx => !cx.stopped

/-- A request whose first argument is the id of a context that is not stopped. -/
def withCtx (fn code nargs : Nat) (s : State) (k : State → Req → (c : Nat) → Ctx → Ans) : Out :=
  withReq fn code nargs false s fun s r =>
    match liveCtx s fn (fld r.args 0 4) with
    | some cx => k s r (fld r.args 0 4) cx
    | none => badReq s

/-- A grid of the context is live. -/
def ctxBusy (s : State) (c : Nat) : Bool := s.grids.any fun g => g.2.ctx == c

def hostBytes (s : State) (a n : Nat) : List Byte := rdN s (hostKey a) n

/-! ### Firmware -/

/-- The records of one entry of two counts, of one, or of a histogram (01 R22). -/
def ctrRecords (p : Pkg) (kind unit parts : Nat) : List Byte :=
  (List.range parts).flatMap fun j =>
    let v (b : Nat) : Nat := (tget p.flash (lifeKey kind unit b)).getD 0
    leBytes kind 1 ++ leBytes j 1 ++ leBytes p.flashSeq 2 ++ leBytes unit 4 ++ leBytes p.flashAt 8 ++ leBytes (v (2 * j)) 8 ++ leBytes (v (2 * j + 1)) 8

/-- Every entry of the committed snapshot, by kind and unit. That the record set holds logical units only, none with UNIT bit 31 set, is
the model's choice (notes/assumptions/24.md). -/
def allRecords (p : Pkg) : List Byte :=
  (List.range 192).flatMap (fun u => ctrRecords p 1 u 1)
    ++ ((List.range 1536) ++ (List.range 192).map (0x1000 + ·) ++ (List.range 16).map (0x2000 + ·) ++ (List.range 1536).map (0x3000 + ·)).flatMap
      (fun u => ctrRecords p 2 u 1)
    ++ (List.range 18).flatMap (fun u => ctrRecords p 3 u 8)
    ++ (List.range 8).flatMap (fun u => ctrRecords p 4 u 2)
    ++ ((List.range 8) ++ (List.range 16).map (0x100 + ·) ++ (List.range 32).map (0x200 + ·)).flatMap (fun u => ctrRecords p 5 u 1)

/-- READ_CTRS (01 R22). -/
def execReadCtrs (fn : Nat) (s : State) : Out := withReq fn 0x0001 0 true s fun s r => putOut s r (allRecords s.pkg)

/-- SET_THRESH (01 R20, 03 R55): trigger number (1 byte), value (8 bytes) (notes/assumptions/26.md). -/
def execSetThresh (fn : Nat) (s : State) : Out :=
  withReq fn 0x0002 9 true s fun s r =>
    let i := fld r.args 0 1
    if i > 5 then badReq s
    else if fld r.args 1 8 > thresholdDefault i then denied s
    else ok (modPkg s fun p => { p with thresholds := tset p.thresholds i (fld r.args 1 8) })

/-- Exactly `n` bytes. -/
def pad (n : Nat) (bs : List Byte) : List Byte := (bs ++ List.replicate n 0).take n

/-- M0: the measurement of the firmware image (03 R56). -/
def measure0 (s : State) : List Byte := sha512 (fwImage s.pkg)

/-- The 384-byte report (03 R57). -/
def attestReport (s : State) (fn : Nat) (nonce : List Byte) : List Byte :=
  let body := leBytes 1 8 ++ leBytes fn 2 ++ leBytes 0 6 ++ leBytes Config.stepping.toNat 8 ++ pad 16 Config.serial
    ++ pad 64 (measure0 s) ++ pad 64 (sha512 (Config.fwPolicy (fwImage s.pkg))) ++ pad 32 nonce ++ leBytes s.time 8
  body ++ pad 132 (Config.signature (sha512 body)) ++ leBytes 0 44

/-- ATTEST (03 R57). -/
def execAttest (fn : Nat) (s : State) : Out := withReq fn 0x0003 32 false s fun s r => putOut s r (attestReport s fn (r.args.take 32))
/-- GET_CERT (03 R55, R57). -/
def execGetCert (fn : Nat) (s : State) : Out := withReq fn 0x0004 0 false s fun s r => putOut s r Config.certificate

/-- FW_STAGE (03 R55): the image at a host address (8 bytes) (notes/assumptions/26.md). -/
def execFwStage (fn : Nat) (s : State) : Out :=
  withReq fn 0x0006 8 true s fun s r =>
    let a := fld r.args 0 8
    let img := hostBytes s a (Config.fwLength (hostBytes s a 64))
    ok (modPkg s fun p => { p with fwStaged := some img })

/-- What waited for Shawm is done now. -/
def runBacklog (s : State) : State :=
  s.pkg.backlog.foldl (fun s i => atTime s s.time i) (modPkg s fun p => { p with backlog := [] })

/-- RESTART (03 R54, R55): Shawm starts again from the boot ROM; running grids are not affected. That it answers OK where the signature does
not hold, and that other functions' requests are kept and served afterwards, are the model's choices (notes/assumptions/54.md). -/
def execRestart (fn : Nat) (s : State) : Out :=
  withReq fn 0x0007 0 true s fun s _ =>
    let up := Config.fwSignatureOk (fwImage s.pkg)
    let was := s.pkg.shawm
    let s := modPkg s fun p => { p with shawm := up }
    let s := if was != up then readyVec s else s
    let s := if up then runBacklog s else s
    let fns := dedup (s.queues.filterMap fun e => if e.2.wakeAgain then some e.2.fn else none)
    let s := fns.foldl refillSoon s
    ok ((s.fns.filter fun f => f.2.busy && f.1 != fn).foldl (fun s f => pollReq s f.1) s)

/-! ### Contexts (03 R58) -/

/-- Scarab has cleared every granule that held data of the context that had this id (03 R58). -/
def idFree (s : State) (c : Nat) : Bool := !s.granules.any fun g => g.2.ctx == c

/-- CTX_CREATE. That a context takes the lowest free id is the model's choice (notes/assumptions/55.md). -/
def execCtxCreate (fn : Nat) (s : State) : Out :=
  withReq fn 0x0008 12 false s fun s r =>
    let root := fld r.args 0 8
    let pasid := fld r.args 8 4
    if !rootOk root || pasid ≥ 2 ^ 20 || s.ctxs.any (fun c => c.2.fn == fn && c.2.pasid == pasid) then badReq s
    else match tfree s.ctxs 0 4096 (idFree s) with
      | none => denied s
      | some c =>
        if r.outlen < 4 then short s
        else ok (storeKey { s with ctxs := tset s.ctxs c { fn := fn, root := root, pasid := pasid } } (hostKey r.out) (leBytes c 4))

def dropTlb (s : State) (c : Nat) : State := { s with tlb := s.tlb.filter fun e => e.ctx != c }

/-- TLB entries of a context that cover a range are dropped, and an MWAIT that watches a word in it returns (07 R122, 17 R336). -/
def dropRange (s : State) (c va n : Nat) : State :=
  let s := { s with tlb := s.tlb.filter fun e => !(e.ctx == c && e.page * 2 ^ e.shift < va + n && va < (e.page + 1) * 2 ^ e.shift) }
  let sees (f : Frag) : Bool := match f.park with
    | .mwait _ _ ws _ _ _ _ => ws.any fun x => va ≤ x.va && x.va < va + n
    | _ => false
  let ws := (s.threads.filter fun e => ctxOf s e.2 == c).flatMap fun e => (e.2.frags.filter fun f => sees f.2).map fun f => (e.1, f.1)
  ws.foldl (fun s w => checkWait s w.1 w.2 true) s

/-- A matrix command that has translated an address in a range, and has not yet accessed it. -/
def rangeMx (s : State) (c va n : Nat) : Bool :=
  s.mxq.any fun q => q.2.any fun k => k.dmem && !k.stale
    && (((tget s.blocks (k.tid / 128)).bind fun b => tget s.grids b.gid).map (·.ctx)) == some c
    && (mxPieces k).any fun p => va < p.2.2 + p.2.1 && p.2.2 < va + n

/-- An access of a context to an address in a range is on its way in another package, or queued (07 R122). -/
def rangeOut (s : State) (c va n : Nat) : Bool :=
  rangeMx s c va n || s.lnk.remotes.any fun r => r.2.ctx == c && r.1 < 2 ^ 52 && va < r.2.lva + max r.2.len 1 && r.2.lva < va + n
    && !((tget s.lnk.src (r.1 / 2 ^ 32)).map (·.failed)).getD true

/-- CTX_ROOT. -/
def execCtxRoot (fn : Nat) (s : State) : Out :=
  withCtx fn 0x0009 12 s fun s r c _ =>
    if !rootOk (fld r.args 4 8) then badReq s
    else if ctxBusy s c then busyAns s
    else if rangeOut s c 0 (2 ^ 64) then .later (dropTlb s c)
    else ok (dropTlb (modCtx s c fun cx => { cx with root := fld r.args 4 8 }) c)

/-- Granules that still hold a context's data pass to Scarab (03 R58, 07 R104). -/
def scrubCtx (s : State) (c : Nat) : State :=
  let gs := (s.granules.filter fun g => g.2.ctx == c).map Prod.fst
  gs.foldl (fun s g => queueScrub s (g / 512) [g % 512]) s

/-- A context and everything that is its own goes: arenas and their pages, flows, network tables, TLB entries. -/
def destroyCtx (s : State) (c : Nat) : State :=
  let s := scrubCtx (dropTlb s c) c
  let s := ((s.lnk.src.filter fun f => f.2.ctx == c).map Prod.fst).foldl (fun s f =>
    let s := orphanFlow s f
    { s with lnk := { s.lnk with src := tdel s.lnk.src f } }) s
  freePdcs { s with
    ctxs := tdel s.ctxs c
    l0 := s.l0.filter fun e => e.2.1 != c
    locks := s.locks.filter fun k => k.ctx != c
    intervals := s.intervals.filter fun y => y.ctx != c
    mem := s.mem.filter fun e => !(arenaBase + c * 2 ^ 49 ≤ e.1 && e.1 < arenaBase + (c + 1) * 2 ^ 49)
    lnk := { s.lnk with
      dst := s.lnk.dst.filter fun f => f.2.ctx != c
      box := s.lnk.box.filter fun x => x.ctx != c }
    net := { s.net with
      rmsgs := s.net.rmsgs.filter fun m => m.ctx != c
      pdcs := s.net.pdcs.filter fun p => p.2.ctx != c
      rpdcs := s.net.rpdcs.filter fun p => p.2.ctx != c
      msgs := s.net.msgs.filter fun m => m.2.ctx != c } }

/-! ### Queues (04 R59, R60) -/

/-- Vectors of a function (03 R51). -/
def vecCount (fn : Nat) : Nat := if fn = 0 then 32 else 8

/-- A descriptor is valid for a queue id of a function (04 R60). -/
def descOk (fn qid : Nat) (d : List Byte) : Bool :=
  let size := fld d 8 1
  zeros d 14 16 && zeros d 50 64 && fld d 10 1 < 8 && fld d 12 2 == qid && fld d 11 1 < 8 && fld d 9 1 < 8 && 4 ≤ size && size ≤ 20
    && 3 ≤ fld d 48 2 && fld d 48 2 < vecCount fn && fld d 0 8 % 256 == 0 && fld d 16 8 ≤ 2 ^ size

/-- QUEUE_CREATE: a descriptor on another package, or on a channel that is not trained, is waited for; the queue goes to Shawm for a slot, and dispatches from packet 0 up to WRITE (04 R60). -/
def execQueueCreate (fn : Nat) (s : State) : Out :=
  withReq fn 0x0010 14 false s fun s r =>
    let va := fld r.args 0 8
    let c := fld r.args 8 4
    let qid := fld r.args 12 2
    let q := queueNo fn qid
    match liveCtx s fn c with
    | none => badReq s
    | some _ =>
      if qid ≥ 1024 || (tget s.queues q).isSome || va % 64 != 0 || isArena va then badReq s
      else match readVa s c va 64 with
        | (s, .error .stall) => .later s
        | (s, .error .link) => badReq (devLinkCheck s c)
        | (_, .error _) => badReq s
        | (s, .ok d) =>
          let ring := fld d 0 8
          if !descOk fn qid d || isArena ring || isArena (ring + 2 ^ (fld d 8 1 + 8) - 1) then badReq s
          else
            let x : Queue := {
              fn := fn, qid := qid, ctx := c, desc := va, ring := ring, size := fld d 8 1, prio := fld d 9 1, part := fld d 11 1
              vec := fld d 48 2, nopre := (fld d 10 1).testBit 0, write := fld d 16 8 }
            let s := { s with queues := tset s.queues q x }
            let s := descJob (writeFlags s q) q x
              [.store (va + 24) (leBytes 0 8), .store (va + 32) (leBytes 0 8), .store (va + 40) (leBytes 0 8)]
            ok (after s (.queueMap q))

/-- WRITE as it stands in the descriptor. -/
def writeNow (s : State) (x : Queue) : Nat :=
  match (readVa s x.ctx (x.desc + 16) 8).2 with
  | .ok bs => leNat bs
  | .error _ => x.write

/-- QUEUE_DESTROY. -/
def execQueueDestroy (fn : Nat) (s : State) : Out :=
  withReq fn 0x0011 2 false s fun s r =>
    let q := queueNo fn (fld r.args 0 2)
    match (if fld r.args 0 2 < 1024 then tget s.queues q else none) with
    | none => badReq s
    | some x => if x.resetting || jobsHeld s q x || x.done != writeNow s x then busyAns s else ok (dropQueue s q)

/-- LINK_CREATE (04 R59, R70). -/
def execLinkCreate (fn : Nat) (s : State) : Out :=
  withReq fn 0x0012 4 false s fun s r =>
    let a := fld r.args 0 2
    let b := fld r.args 2 2
    let has (i : Nat) : Bool := i < 1024 && (tget s.queues (queueNo fn i)).isSome
    if !has a || !has b then badReq s
    else match tfree s.qlinks 0 256 fun _ => true with
      | none => denied s
      | some l =>
        if r.outlen < 2 then short s
        else ok (storeKey { s with qlinks := tset s.qlinks l { producer := queueNo fn a, consumer := queueNo fn b } } (hostKey r.out) (leBytes l 2))

/-- LINK_DESTROY (04 R59): a LINK_WAIT that holds on the link looks again. -/
def execLinkDestroy (fn : Nat) (s : State) : Out :=
  withReq fn 0x0013 2 false s fun s r =>
    match tget s.qlinks (fld r.args 0 2) with
    | none => badReq s
    | some k => if k.producer / 1024 != fn then badReq s else ok (reheld { s with qlinks := tdel s.qlinks (fld r.args 0 2) })

/-! ### Readiness as a whole (03 R52, R408) -/

def linkUp (s : State) (n : Nat) : Bool := ((tget s.lnk.links n).map (·.up)).getD false

/-- ALL: every readiness bit of an existing function is set. -/
def allReady (s : State) : Bool :=
  let namedLinks := s.lnk.routes.flatMap fun r => r.2.prim ++ r.2.sec
  let ports := s.ctxs.flatMap fun c => c.2.net.addrs.flatMap fun e =>
    if fld e.2 8 1 = 1 then (List.range 8).filter fun p => (fld e.2 9 1).testBit p else []
  s.pkg.shawm && (List.range 8).all (s.pkg.stkReady.contains ·)
    && (List.range 32).all (fun n => s.pkg.chans.contains n || s.pkg.chanRemoved.contains n)
    && (List.range 192).all (fun n => s.pkg.clready.contains n || s.pkg.clRetired.contains n)
    && namedLinks.all (linkUp s) && ports.all (portReady s)

/-- A change of configuration that changes ALL raises vector 1 (03 R52). -/
def noteAll (s s' : State) : State := if allReady s == allReady s' then s' else readyVec s'

/-- CTX_DESTROY (03 R58). -/
def execCtxDestroy (fn : Nat) (s : State) : Out :=
  withReq fn 0x000A 4 false s fun s r =>
    let c := fld r.args 0 4
    if (heldCtx s fn c).isNone then badReq s
    else if s.queues.any fun q => q.2.ctx == c then busyAns s
    else ok (noteAll s (destroyCtx s c))

/-! ### Links between packages (02 R32) -/

/-- PKG_SET. -/
def execPkgSet (fn : Nat) (s : State) : Out :=
  withReq fn 0x0080 3 true s fun s r =>
    if fld r.args 2 1 > 1 then badReq s
    else if (List.range 16).any (linkUp s) then busyAns s
    else ok { s with lnk := { s.lnk with pkgNum := fld r.args 0 2, timeMaster := fld r.args 2 1 == 1 } }

/-- ROUTE_SET; a new route with no link that is up fails the flows that had one (02 R31). -/
def execRouteSet (fn : Nat) (s : State) : Out :=
  withReq fn 0x0081 4 true s fun s r =>
    let d := fld r.args 0 2
    let p := fld r.args 2 1
    let q := fld r.args 3 1
    if d == s.lnk.pkgNum || p > 15 || (q > 15 && q != 0xFF) then badReq s
    else
      let was := routeUp s d
      let s := noteAll s { s with lnk := { s.lnk with routes := tset s.lnk.routes d { prim := [p], sec := if q = 0xFF then [] else [q] } } }
      ok (if was then failRouteless s (· == d) else s)

/-- FLOW_CREATE. -/
def execFlowCreate (fn : Nat) (s : State) : Out :=
  withCtx fn 0x0082 7 s fun s r c _ =>
    let p := fld r.args 4 2
    let mode := fld r.args 6 1
    let new : SrcFlow := { ctx := c, pkg := p, unordered := mode == 1 }
    let put (s : State) (f : Nat) : Ans :=
      if r.outlen < 2 then short s
      else ok (storeKey { s with lnk := { s.lnk with src := tset s.lnk.src f new } } (hostKey r.out) (leBytes f 2))
    if mode > 1 then badReq s
    else match flowOf s c p with
      | some (f, x) => if x.failed then (if r.outlen < 2 then short s else put (orphanFlow s f) f) else busyAns s
      | none => match tfree s.lnk.src 0 4096 fun _ => true with
        | some f => put s f
        | none => denied s

/-- FLOW_ACCEPT. That an entry may be installed again while 4,096 exist, and that an entry of another function's context
is replaced only by the PF, are the model's choices (notes/assumptions/56.md). -/
def execFlowAccept (fn : Nat) (s : State) : Out :=
  withReq fn 0x0083 8 false s fun s r =>
    let k := fld r.args 0 2 * 4096 + fld r.args 2 2
    let c := fld r.args 4 4
    let others := fn != 0 && (((tget s.lnk.dst k).bind fun f => tget s.ctxs f.ctx).map fun cx => cx.fn != fn).getD false
    if (liveCtx s fn c).isNone || fld r.args 2 2 ≥ 4096 then badReq s
    else if others then denied s
    else if (tget s.lnk.dst k).isNone && s.lnk.dst.length ≥ 4096 then denied s
    else ok { s with lnk := { s.lnk with dst := tset s.lnk.dst k { ctx := c, src := fld r.args 0 2 } } }

/-- FLOW_DESTROY: accesses that wait on a removed source flow end as on a failed one. -/
def execFlowDestroy (fn : Nat) (s : State) : Out :=
  withCtx fn 0x0084 7 s fun s r c _ =>
    let p := fld r.args 4 2
    match fld r.args 6 1 with
    | 0 => match flowOf s c p with
      | none => badReq s
      | some (f, _) =>
        let s := orphanFlow (modFlow s f fun x => { x with failed := true }) f
        ok { s with lnk := { s.lnk with src := tdel s.lnk.src f } }
    | 1 =>
      if !s.lnk.dst.any fun e => e.2.src == p && e.2.ctx == c then badReq s
      else ok { s with lnk := { s.lnk with dst := s.lnk.dst.filter fun e => !(e.2.src == p && e.2.ctx == c) } }
    | _ => badReq s

/-! ### The network (02 R37) -/

def modNet (s : State) (c : Nat) (f : CtxNet → CtxNet) : State := modCtx s c fun cx => { cx with net := f cx.net }

/-- A key record breaks no rule. -/
def keyOk (d : List Byte) : Bool :=
  let rights := fld d 16 1
  let ring := rights.testBit 1
  zeros d 17 20 && zeros d 48 64 && rights &&& 0x7C == 0 && fld d 20 4 < 2 ^ 20 && !(rights.testBit 0 && ring)
    && (!ring || !rights.testBit 7 || (1 ≤ fld d 32 4 && fld d 32 4 ≤ 65536 && fld d 36 4 % 128 == 0 && 128 ≤ fld d 36 4 && fld d 36 4 ≤ 2 ^ 30
      && fld d 24 8 % 128 == 0 && fld d 40 8 % 16 == 0))

/-- KEY_INSTALL. That the receive ring of a key that is replaced starts over at slot 0 is the model's choice (notes/assumptions/56.md). -/
def execKeyInstall (fn : Nat) (s : State) : Out :=
  withCtx fn 0x0005 16 s fun s r c _ =>
    let i := fld r.args 4 2
    let d := hostBytes s (fld r.args 8 8) 64
    if i ≥ 4096 || !zeros r.args 6 8 || !keyOk d then badReq s
    else ok (modNet s c fun n => { n with
      keys := if (fld d 16 1).testBit 7 then tset n.keys i d else tdel n.keys i
      ringNext := tdel n.ringNext i })

/-- NET_CONFIG. -/
def execNetConfig (fn : Nat) (s : State) : Out :=
  withCtx fn 0x0088 20 s fun s r c _ =>
    let b := fld r.args 4 8
    let st := fld r.args 12 8
    if b % 8 != 0 || st % 64 != 0 then badReq s
    else ok (modNet s c fun n => { n with ctrBase := b, stats := st })

/-- An address-resolution record breaks no rule. -/
def addrOk (n : CtxNet) (i : Nat) (d : List Byte) : Bool :=
  let valid := fld d 8 1 == 1
  let sa := fld d 36 4
  zeros d 6 8 && zeros d 10 12 && zeros d 34 36 && zeros d 40 64 && fld d 8 1 ≤ 1 && (sa < 1024 || sa == 0xFFFFFFFF)
    && (!valid || (fld d 9 1 != 0 && !n.addrs.any fun e => e.1 != i && fld e.2 8 1 == 1 && fld e.2 0 6 == fld d 0 6))

/-- ADDR_SET. -/
def execAddrSet (fn : Nat) (s : State) : Out :=
  withCtx fn 0x0089 16 s fun s r c cx =>
    let i := fld r.args 4 2
    let d := hostBytes s (fld r.args 8 8) 64
    if i ≥ 16384 || !zeros r.args 6 8 || !addrOk cx.net i d then badReq s
    else ok (noteAll s (modNet s c fun n => { n with addrs := tset n.addrs i d }))

/-- SA_SET. -/
def execSaSet (fn : Nat) (s : State) : Out :=
  withCtx fn 0x008A 16 s fun s r c _ =>
    let i := fld r.args 4 2
    let d := hostBytes s (fld r.args 8 8) 64
    if i ≥ 1024 || !zeros r.args 6 8 || !zeros d 9 16 || !zeros d 48 64 || fld d 8 1 > 1 || (fld d 8 1 = 0 && !zeros d 32 48) then badReq s
    else ok (modNet s c fun n => { n with sas := tset n.sas i d })

end Sys2Proof.Machine
end

