-- ==== Sys2Proof/Machine/Tenants.lean ====
section
/-! DEFINITION. Mailbox requests on partitions, tenants, leases and migration (05 R75-R85), Lacewing (10 R192), translation
(07 R122), arenas (08 R135), events and debug stops (10 R172, R191), and callable tables (11 R193). -/
namespace Sys2Proof.Machine

/-! ### Partitions (05 R75-R78) -/

/-- Two ranges overlap. -/
def rangesMeet (b c b' c' : Nat) : Bool := c != 0 && c' != 0 && b < b' + c' && b' < b + c

/-- Two partitions that share a cluster hold overlapping ranges of one resource. -/
def partsClash (p q : Part) : Bool :=
  p.clusters.any (q.clusters.contains ·)
    && (rangesMeet p.gbase p.gcount q.gbase q.gcount || rangesMeet p.sbase p.scount q.sbase q.scount
      || rangesMeet p.bbase p.bcount q.bbase q.bcount || rangesMeet p.pbase p.pcount q.pbase q.pcount
      || rangesMeet p.cpbase p.cpcount q.cpbase q.cpcount || rangesMeet p.ccbase p.cccount q.ccbase q.cccount)

/-- A descriptor breaks no rule of R76. -/
def partDescOk (s : State) (d : List Byte) : Bool :=
  let q := parsePart d
  fld d 0 1 < 8 && zeros d 1 4 && zeros d 10 24
    && q.gbase + q.gcount ≤ 384 && q.sbase + q.scount ≤ 256 && q.bbase + q.bcount ≤ 64 && q.pbase + q.pcount ≤ 32
    && q.cpbase + q.cpcount ≤ 64 && q.ccbase + q.cccount ≤ 16 && q.rcap ≤ 256 && q.scap ≤ 128 && q.tcap ≤ 128
    && !s.parts.any fun e => e.1 != fld d 0 1 && partsClash e.2 q

/-- A granule of a core belongs to a descriptor's share. -/
def ownsGran (p : Part) (core g : Nat) : Bool := p.clusters.contains (core / 8) && inRange p.gbase p.gcount g

/-- Every granule that changes owner passes to Scarab, one that falls to no owner too (05 R77 step 3). -/
def scrubMoved (s : State) (p q : Part) : State :=
  (partCores { p with clusters := dedup (p.clusters ++ q.clusters) }).foldl (fun s c =>
    passGrans s c ((List.range 384).filter fun g => ownsGran p c g != ownsGran q c g)) s

/-- PART_SET (05 R77): it completes when nothing holds what the partition loses. -/
def execPartSet (fn : Nat) (s : State) : Out :=
  withReq fn 0x0020 8 true s fun s r =>
    let d := hostBytes s (fld r.args 0 8) 64
    let pid := fld d 0 1
    match tget s.parts pid with
    | none => badReq s
    | some p => match p.pending with
      | none =>
        if !partDescOk s d then badReq s
        else
          let s := shrink s pid p (meetPart p (parsePart d)) (parsePart d)
          .later (modPart s pid fun x => { x with pending := some (d, partBytes pid p) })
      | some (new, old) =>
        if !shrunk s pid p then .later s
        else
          let s := scrubMoved s (parsePart old) (parsePart new)
          let s := modPart s pid fun x => { takeRanges x (parsePart new) with pending := none }
          let was := !(parsePart old).clusters.isEmpty
          let is := !(parsePart new).clusters.isEmpty
          let s := if is && !was then leaseIn s pid (tenantOf p) else if was && !is then leaseOut s pid (tenantOf p) else s
          ok (s.parts.foldl (fun s e => freed s e.1) s)

/-- Granules of a partition that wait for Scarab. -/
def scrubWaiting (s : State) (p : Part) : Nat :=
  (s.scrubQ.flatMap fun e => e.2.filter (ownsGran p e.1)).length

/-- PART_QUERY (05 R75). -/
def execPartQuery (fn : Nat) (s : State) : Out :=
  withReq fn 0x0021 0 true s fun s r =>
    let part (i : Nat) : Part := (tget s.parts i).getD {}
    let desc (i : Nat) : List Byte := ((part i).pending.map (·.2)).getD (partBytes i (part i))
    let word (i : Nat) : Nat := (s.grids.filter fun g => g.2.part == i && g.2.parked).length + 2 ^ 32 * scrubWaiting s (part i)
    putOut s r ((List.range 8).flatMap desc ++ (List.range 8).flatMap fun i => leBytes (word i) 8)

/-! ### Tenants (05 R79) -/

/-- The entries of a list: function and length in cycles. -/
def sliceList (bs : List Byte) (n : Nat) : List (Nat × Nat) := (List.range n).map fun j => (fld bs (4 * j) 1, fld bs (4 * j + 2) 2 * 160000)

def sliceOk (bs : List Byte) (n : Nat) : Bool :=
  (List.range n).all fun j => fld bs (4 * j) 1 < 64 && fld bs (4 * j + 1) 1 == 0 && 1 ≤ fld bs (4 * j + 2) 2 && fld bs (4 * j + 2) 2 ≤ 1000

/-- SLICE_SET (05 R79): the new rotation begins; the contexts of another tenant are saved first. -/
def execSliceSet (fn : Nat) (s : State) : Out :=
  withReq fn 0x0022 10 true s fun s r =>
    let pid := fld r.args 0 1
    let n := fld r.args 1 1
    let bs := hostBytes s (fld r.args 2 8) (4 * n)
    match tget s.parts pid with
    | none => badReq s
    | some p =>
      if n > 16 || !sliceOk bs n then badReq s
      else
        let l := sliceList bs n
        let old := tenantOf p
        let s := modPart s pid fun p => { p with slices := l, slicePos := n - 1, sliceAt := s.time, overrun := [] }
        if old == (l.getD 0 (0, 0)).1 then
          (match tget s.parts pid with
          | some p => ok (startSlice s pid 0 p)
          | none => ok s)
        else ok (atTime (modPart s pid fun p => { p with
          switching := true, setting := p.setting.orElse (fun _ => some old), drain := copiesOut s pid old }) s.time (.sliceEnd pid))

/-! ### Leases (05 R84) -/

def maskBits (x n : Nat) : List Nat := (List.range n).filter (x.testBit ·)

/-- A slice of the VF that holds a lease runs. -/
def leaseRuns (l : LeaseRec) : Bool := l.part.isSome

/-- A unit is held by a function other than this one. -/
def heldByOther (s : State) (fn : Nat) (banks units : List Nat) : Bool :=
  s.leases.any fun l => l.2.fn != fn && (banks.any (l.2.banks.contains ·) || units.any (l.2.units.contains ·))

/-- The PF has a LEASE of one of the units outstanding. -/
def pfWants (s : State) (banks units : List Nat) : Bool :=
  let bs := reqBytes s 0
  (fnOf s 0).busy && fld bs 0 2 == 0x0023
    && (banks.any ((fld bs 32 24).testBit ·) || units.any ((fld bs 56 1).testBit ·))

def joinList (a b : List Nat) : List Nat := a ++ b.filter fun x => !a.contains x

/-- The PF takes units that a VF holds: at the end of its slice, or at once if it is not running. -/
def pfTakes (s : State) (banks units : List Nat) : State :=
  (s.leases.filter fun l => l.2.fn != 0).foldl (fun s l =>
    let bs := l.2.banks.filter (banks.contains ·)
    let us := l.2.units.filter (units.contains ·)
    if leaseRuns l.2 then
      { s with leases := tset s.leases l.1 { l.2 with pfBanks := joinList l.2.pfBanks bs, pfUnits := joinList l.2.pfUnits us } }
    else
      let s := endBanks s bs
      let s := { s with leases := tset s.leases l.1 { l.2 with
        banks := l.2.banks.filter fun b => !bs.contains b
        units := l.2.units.filter fun u => !us.contains u
        saved := l.2.saved.filter fun e => !bs.contains e.1 } }
      us.foldl (fun s u => { s with lace := tset s.lace u { owner := some 0 } }) s) s

/-- Record a lease. -/
def addLease (s : State) (fn : Nat) (banks units : List Nat) : State :=
  let l := (tget s.leases fn).getD { fn := fn, part := if fn = 0 then none else runsIn s fn, banks := [], units := [] }
  { s with leases := tset s.leases fn { l with banks := joinList l.banks banks, units := joinList l.units units } }

/-- A VF's lease begins: EN reads 0, and outside its slices the counters stand aside. -/
def vfLease (s : State) (fn : Nat) (banks units : List Nat) : State :=
  let mine := ((tget s.leases fn).map (·.banks)).getD []
  let new := banks.filter fun b => !mine.contains b
  let s := addLease s fn banks units
  let s := new.foldl (fun s b => modBank s b fun x => { x with en := false, leased := true, owner := fn, moved := true }) s
  let s := (units.filter fun u => ((tget s.lace u).bind (·.owner)) != some fn).foldl (fun s u => { s with lace := tset s.lace u { owner := some fn } }) s
  match tget s.leases fn with
  | none => s
  | some l =>
    if let some pid := l.part then clearOthers s pid new
    else
      let saved := new.foldl (fun t b => tset t b (bankImage ((tget s.banks b).getD {}))) l.saved
      let s := new.foldl (fun s b => modBank s b fun x => { x with ctr := [] }) s
      { s with leases := tset s.leases fn { l with saved := saved } }

/-- LEASE (05 R84). That a request of which one unit is held by another owner grants nothing is the model's choice (notes/assumptions/38.md). -/
def execLease (fn : Nat) (s : State) : Out :=
  withReq fn 0x0023 25 false s fun s r =>
    let banks := maskBits (fld r.args 0 24) 192
    let units := maskBits (fld r.args 24 1) 8
    if fn = 0 then
      let s := pfTakes s banks units
      let free := units.filter fun u => !(s.leases.any fun l => l.2.fn != 0 && l.2.units.contains u)
      let s := free.foldl (fun s u => if ((tget s.lace u).bind (·.owner)) == some 0 then s else { s with lace := tset s.lace u { owner := some 0 } }) s
      ok (addLease s 0 banks units)
    else if heldByOther s fn banks units || pfWants s banks units then busyAns s
    else ok (vfLease s fn banks units)

/-- Units go back: counters stay with the bank, EN reads 0. -/
def endLease (s : State) (fn : Nat) (banks units : List Nat) : State :=
  match tget s.leases fn with
  | none => s
  | some l =>
    let bs := l.banks.filter (banks.contains ·)
    let us := l.units.filter (units.contains ·)
    let s := (l.saved.filter fun e => bs.contains e.1).foldl (fun s e => modBank s e.1 fun x => { x with ctr := ssetList [] 0 (e.2.take 16) }) s
    let s := if fn = 0 then s else endBanks s bs
    let pf (u : Nat) : Option Nat := if l.pfUnits.contains u then some 0 else none
    let s := us.foldl (fun s u => { s with lace := tset s.lace u { owner := pf u } }) s
    let l := { l with
      banks := l.banks.filter fun b => !bs.contains b
      units := l.units.filter fun u => !us.contains u
      saved := l.saved.filter fun e => !bs.contains e.1
      pfBanks := l.pfBanks.filter fun b => !bs.contains b
      pfUnits := l.pfUnits.filter fun u => !us.contains u }
    kickAll { s with leases := if l.banks.isEmpty && l.units.isEmpty then tdel s.leases fn else tset s.leases fn l }

/-- LEASE_END (05 R84). -/
def execLeaseEnd (fn : Nat) (s : State) : Out :=
  withReq fn 0x0024 25 false s fun s r => ok (endLease s fn (maskBits (fld r.args 0 24) 192) (maskBits (fld r.args 24 1) 8))

/-- CICADA_SET (05 R85): a ring in host memory, and for the PF the tick exponent. That the ring starts with WR = 0 and LOST = 0 is the model's
choice (notes/assumptions/38.md). -/
def execCicadaSet (fn : Nat) (s : State) : Out :=
  withReq fn 0x0025 10 false s fun s r =>
    let lg := fld r.args 8 1
    let k := fld r.args 9 1
    if lg < 4 || lg > 20 || (if fn = 0 then k < 10 || k > 24 else k != 0) then badReq s
    else
      let s := modFn s fn fun f => { f with ring := some (fld r.args 0 8, lg), ringWr := 0, ringLost := 0 }
      if fn != 0 then ok s
      else
        let s := { s with timers := s.timers.filter fun t => !(t.2 == Turn.event .cicadaTick) }
        ok (atTime { s with cicadaK := k } (nextTick s.time k) .cicadaTick)

/-! ### Migration (05 R82, 08 R145) -/

/-- The compatibility key. -/
def compatKey (s : State) : List Byte := pad 32 (sha512 (leBytes Config.stepping.toNat 8 ++ pad 64 (measure0 s)))

/-- MIGRATE_KEY. -/
def execMigrateKey (fn : Nat) (s : State) : Out := withReq fn 0x0026 0 true s fun s r => putOut s r (compatKey s)

/-- The image of a context, and the state without it. -/
def takeImage (s : State) (c : Nat) (cx : Ctx) : State × Image :=
  let gids := (s.grids.filter fun g => g.2.ctx == c).map Prod.fst
  let bids := (s.blocks.filter fun b => gids.contains b.2.gid).map Prod.fst
  let isPage (e : Host.Cell) : Bool := arenaBase + c * 2 ^ 49 ≤ e.1 && e.1 < arenaBase + (c + 1) * 2 ^ 49
  let qs := s.queues.filter fun q => q.2.ctx == c
  let img : Image := {
    ctx := { cx with leaving := none }
    cid := c
    grids := s.grids.filter fun g => g.2.ctx == c
    blocks := s.blocks.filter fun b => bids.contains b.1
    threads := s.threads.filter fun t => bids.contains t.2.bid
    cmds := s.cmds.filter fun x => x.2.ctx == c
    nests := s.nests.filter fun n => n.2.ctx == c
    queues := tmap qs fun _ x => { x with slot := none, head := none, watch := none, wakeAgain := true }
    intervals := s.intervals.filter fun y => y.ctx == c && y.live
    locks := s.locks.filter fun k => k.ctx == c
    bytes := (s.mem.filter isPage).map fun e => (e.1 - c * 2 ^ 49, e.2)
    top := s.nextId }
  let s := { s with
    grids := s.grids.filter fun g => g.2.ctx != c
    blocks := s.blocks.filter fun b => !bids.contains b.1
    threads := s.threads.filter fun t => !bids.contains t.2.bid
    cmds := s.cmds.filter fun x => x.2.ctx != c
    nests := s.nests.filter fun n => n.2.ctx != c }
  (destroyCtx ((qs.map Prod.fst).foldl dropQueue s) c, img)

/-- The 64-byte header. -/
def imageHeader (s : State) (c len : Nat) : List Byte :=
  compatKey s ++ leBytes 0 8 ++ leBytes 1 4 ++ leBytes c 4 ++ leBytes len 8 ++ leBytes 0 8

/-- Blocks of a context. -/
def ctxBlocks (s : State) (c : Nat) : List (Nat × Block) :=
  s.blocks.filter fun e => ((tget s.grids e.2.gid).map (·.ctx)) == some c

/-- Stop the blocks of a context and its nests, and give up its open gang (05 R80). -/
def stopWork (s : State) (c : Nat) : State :=
  let s := s.parts.foldl (fun s p => match p.2.gang with
    | some g =>
      let of := if g.1 then (tget s.grids g.2).map (·.ctx) else (tget s.nests g.2).map (·.ctx)
      if !p.2.committed && of == some c then abortGang s p.1 false else s
    | none => s) s
  let ns := (s.nests.filter fun n => n.2.ctx == c && n.2.status.isNone && n.2.claimed).map Prod.fst
  let s := ns.foldl (fun s n => modNest s n fun x => { x with why := 6 }) s
  let s := stopNow s (((ctxBlocks s c).filter fun e => placed e.2 && e.2.halt = 0).map Prod.fst) 6
  ns.foldl familyAway s

/-- Everything of a context is saved and its commands have landed. -/
def ctxQuiet (s : State) (c : Nat) : Bool :=
  (ctxBlocks s c).all (fun e => e.2.stage == .saved || e.2.stage == .ended)
    && !s.cmds.any (fun x => x.2.ctx == c && (if x.2.kind = 4 then x.2.st == 2 || (x.2.st == 1 && x.2.full && x.2.preds = 0) else x.2.st == 2 && x.2.kind != 5 && x.2.recs.isEmpty))
    && !s.net.msgs.any (fun m => m.2.ctx == c)
    && !s.nests.any (fun n => n.2.ctx == c && n.2.status.isNone && n.2.claimed && !n.2.saved)

/-- MIGRATE_OUT. -/
def execMigrateOut (fn : Nat) (s : State) : Out :=
  withReq fn 0x0027 20 true s fun s r =>
    let c := fld r.args 0 4
    match tget s.ctxs c with
    | none => badReq s
    | some cx =>
      if cx.stopped then badReq s
      else match cx.leaving with
        | none =>
          let n := s.nextId
          if fld r.args 12 8 < 64 + (Config.imageBody n).length then short s
          else .later (stopWork (modCtx (newId s) c fun cx => { cx with leaving := some n }) c)
        | some n =>
          if !ctxQuiet s c then .later (stopWork s c)
          else
            let len := 64 + (Config.imageBody n).length
            let s := storeKey s (hostKey (fld r.args 4 8)) (imageHeader s c len ++ Config.imageBody n)
            let (t, img) := takeImage s c cx
            ok { noteAll s t with images := tset t.images n img }

/-- A number of an image, as this machine numbers it: `k` higher; 0 names nothing. -/
def shiftId (k x : Nat) : Nat := if x = 0 then 0 else x + k

/-- A thread's number. -/
def shiftTid (k t : Nat) : Nat := t + 128 * k

def shiftPh (k : Nat) (p : Phaser) : Phaser :=
  { p with
    arrived := p.arrived.map (shiftTid k)
    killed := p.killed.map (shiftTid k)
    members := p.members.map fun m => { m with tid := shiftTid k m.tid }
    signalled := p.signalled.map (shiftTid k) }

def shiftPark (k : Nat) (p : Park) : Park :=
  match p with
  | .fault ids => .fault (ids.map (· + k))
  | .cret r => .cret (r + k)
  | .retry (.nest n) => .retry (.nest (n + k))
  | .retry (.line b ls) => .retry (.line (b + k) ls)
  | p => p

def shiftThread (k : Nat) (th : Thread) : Thread :=
  { th with
    bid := th.bid + k
    frags := tmap th.frags fun _ f => { f with park := shiftPark k f.park, snaps := f.snaps.map fun x => (x.1 + k, x.2) }
    frame := th.frame.map fun w => { w with rcd := w.rcd + k }
    replay := th.replay.map (· + k) }

def shiftMx (k : Nat) (c : MxCmd) : MxCmd := { c with tid := shiftTid k c.tid, recs := c.recs.map (· + k) }

def shiftBlock (k : Nat) (b : Block) : Block :=
  { b with
    gid := shiftId k b.gid
    seat := b.seat.map (· + k)
    tags := tmap b.tags fun _ x => x + k
    phs := tmap b.phs fun _ p => shiftPh k p
    trap := { b.trap with tid := shiftTid k b.trap.tid }
    mxSaved := b.mxSaved.map (shiftMx k) }

def shiftGrid (k : Nat) (g : Grid) : Grid :=
  { g with
    parent := g.parent.map (· + k)
    cmd := g.cmd.map (· + k)
    nest := g.nest.map fun x => (x.1 + k, x.2)
    order := g.order + k
    groups := tmap g.groups fun _ q => { q with phs := tmap q.phs fun _ p => shiftPh k p }
    gsArrived := g.gsArrived.map (shiftTid k) }

def shiftCmd (k : Nat) (c : Cmd) : Cmd :=
  { c with
    gid := shiftId k c.gid
    bid := shiftId k c.bid
    tid := shiftTid k c.tid
    succs := c.succs.map (· + k)
    issued := c.issued.map (shiftTid k)
    child := c.child.map (· + k)
    recs := c.recs.map (· + k) }

def shiftNest (k : Nat) (x : Nest) : Nest :=
  { x with
    gid := x.gid.map (· + k)
    seats := x.seats.map (· + k)
    borrow := x.borrow.map (· + k)
    lender := x.lender.map (· + k)
    insts := tmap x.insts fun _ v => { v with gid := v.gid.map (· + k) } }

def shiftOp (k : Nat) (o : DevOp) : DevOp :=
  match o with
  | .words n i va w => .words (n + k) i va w
  | .logged n i => .logged (n + k) i
  | o => o

/-- Numbers of the context's records, of the owners of its arenas, and of the accesses that it is owed; queues by `qn`. -/
def shiftCtx (k : Nat) (qn : Nat → Nat) (cx : Ctx) : Ctx :=
  { cx with
    waiting := cx.waiting.map (· + k)
    recs := cx.recs.map fun e => (e.1 + k, e.2)
    arenas := tmap cx.arenas fun _ a => { a with owner := a.owner + k }
    jobs := cx.jobs.map fun j => { j with
      ops := j.ops.map (shiftOp k), queue := j.queue.map qn, owner := j.owner.map qn, rcd := j.rcd.map (· + k) } }

/-- An image with every number `k` higher, so that none is in use here. -/
def shiftImage (k : Nat) (qn : Nat → Nat) (m : Image) : Image :=
  { m with
    ctx := shiftCtx k qn m.ctx
    grids := m.grids.map fun g => (g.1 + k, shiftGrid k g.2)
    blocks := m.blocks.map fun b => (b.1 + k, shiftBlock k b.2)
    threads := m.threads.map fun t => (shiftTid k t.1, shiftThread k t.2)
    cmds := m.cmds.map fun c => (c.1 + k, shiftCmd k c.2)
    nests := m.nests.map fun n => (n.1 + k, shiftNest k n.2)
    locks := m.locks.map fun l => { l with cmd := l.cmd + k } }

/-- A context of an image under a number, for a function. -/
def putImage (s : State) (fn c : Nat) (m : Image) : State :=
  let qn (q : Nat) : Nat := queueNo fn (q % 1024)
  let m := shiftImage s.nextId qn m
  let s := { s with
    nextId := s.nextId + m.top + 1
    ctxs := tset s.ctxs c { m.ctx with fn := fn, stopped := false, leaving := none }
    grids := m.grids.foldl (fun t g => tset t g.1 { g.2 with ctx := c, queue := qn g.2.queue }) s.grids
    blocks := m.blocks.foldl (fun t b => tset t b.1 { b.2 with back := b.2.why != 7 || b.2.back }) s.blocks
    threads := m.threads.foldl (fun t x => tset t x.1 x.2) s.threads
    cmds := m.cmds.foldl (fun t x => tset t x.1 { x.2 with ctx := c, pkt := x.2.pkt.map fun p => (qn p.1, p.2) }) s.cmds
    nests := m.nests.foldl (fun t x => tset t x.1 { x.2 with
      ctx := c, queue := qn x.2.queue, pkt := x.2.pkt.map (fun p => (qn p.1, p.2)), back := x.2.saved }) s.nests
    queues := m.queues.foldl (fun t q => tset t (qn q.1) { q.2 with fn := fn, ctx := c }) s.queues
    intervals := s.intervals ++ m.intervals.map fun y => { y with ctx := c, queue := qn y.queue }
    locks := s.locks ++ m.locks.map fun k => { k with ctx := c }
    mem := m.bytes.foldl (fun t e => t.write (e.1 + c * 2 ^ 49) e.2) s.mem }
  kickAll (if m.queues.isEmpty then s else refillSoon s fn)

/-- The image that a body carries: one that this device wrote, or an intact one of another device (05 R82, notes/assumptions/40.md). -/
def imageIn (s : State) (body : List Byte) : Option Image :=
  match s.images.find? fun e => Config.imageBody e.1 == body with
  | some e => some e.2
  | none => imageOf body

/-- MIGRATE_IN. That it answers BUSY where the function holds a queue id of the image, and DENIED where no context number is free, are the
model's choices (notes/assumptions/40.md). -/
def execMigrateIn (fn : Nat) (s : State) : Out :=
  withReq fn 0x0028 9 true s fun s r =>
    let h := hostBytes s (fld r.args 0 8) 64
    let dest := fld r.args 8 1
    if dest > 63 then badReq s
    else if h.take 32 != compatKey s then denied s
    else
      let body := hostBytes s (fld r.args 0 8 + 64) (fld h 48 8 - 64)
      if fld h 40 4 != 1 || !zeros h 32 40 || !zeros h 56 64 then badReq s
      else match imageIn s body with
        | none => badReq s
        | some m =>
          let same := if m.cid < 4096 && (tget s.ctxs m.cid).isNone && idFree s m.cid then some m.cid else tfree s.ctxs 0 4096 (idFree s)
          (match same with
          | none => denied s
          | some c =>
            if m.queues.any fun q => (tget s.queues (queueNo dest (q.1 % 1024))).isSome then busyAns s
            else ok (noteAll s (putImage s dest c m)))

/-! ### Lacewing (10 R192) -/

/-- LACE_SET: the holder of the unit sets its ring and its filters. -/
def execLaceSet (fn : Nat) (s : State) : Out :=
  withReq fn 0x0029 20 false s fun s r =>
    let u := fld r.args 0 1
    let lg := fld r.args 9 1
    if u > 7 || lg < 4 || lg > 20 then badReq s
    else
      let x := (tget s.lace u).getD {}
      let owner := x.owner.getD 0
      if owner != fn then (if fn = 0 then busyAns s else denied s)
      else ok { s with lace := tset s.lace u { x with
        ring := hostKey (fld r.args 1 8)
        log := lg
        kinds := fld r.args 10 2
        matchId := BitVec.ofNat 32 (fld r.args 12 4)
        mask := BitVec.ofNat 32 (fld r.args 16 4)
        wr := 0
        lost := 0 } }

/-! ### Fault records that wait (10 R174) -/

/-- Post the records that wait, oldest first, up to one that cannot be posted. -/
def postWaiting (c : Nat) : (fuel : Nat) → State → State
  | 0, s => s
  | n + 1, s =>
    match tget s.ctxs c with
    | none => s
    | some cx => match cx.waiting with
      | [] => s
      | id :: rest => match tget cx.recs id with
        | none => postWaiting c n (modCtx s c fun cx => { cx with waiting := rest })
        | some r => match tryPost s c cx id r with
          | (s, .yes) => postWaiting c n (modCtx s c fun cx => { cx with waiting := rest })
          | (s, .later) => again s (.faultRecordRetry c)
          | (s, .no) =>
            let gone (s : State) : State := modCtx s c fun cx => { cx with waiting := rest, recs := tdel cx.recs id }
            if r.kind = 5 then postWaiting c n (modCtx (gone s) c fun cx => { cx with dropped := cx.dropped + 1 })
            else if r.kind > 3 then stopCtx (gone s) c
            else if s.timers.any fun t => t.2 == .event (.faultRecordRetry c) then s else atTime s (s.time + 2 ^ 20) (.faultRecordRetry c)

/-- FAULT_RECORD_RETRY (10 R174). -/
def execFaultRecordRetry (ctx : Nat) (s : State) : Out :=
  .next (postWaiting ctx ((((tget s.ctxs ctx).map (·.waiting.length)).getD 0) + 1) s)

def retryRecords (s : State) (c : Nat) : State := postWaiting c ((((tget s.ctxs c).map (·.waiting.length)).getD 0) + 1) s

/-! ### Translation (07 R122) -/

/-- TLB_INV: entries that cover the range are dropped, and it completes once accesses on their way to other packages have been performed;
records that wait are tried again if it covers the ring. -/
def execTlbInv (fn : Nat) (s : State) : Out :=
  withCtx fn 0x0030 20 s fun s r c cx =>
    let va := fld r.args 4 8
    let n := fld r.args 12 8
    let s := dropRange s c va n
    let ringIn (v : Events) : Bool := v.ring != 0 && va < v.ring + 64 + 64 * 2 ^ v.log && v.ring < va + n
    if rangeOut s c va n then .later s
    else ok (if ringIn (eventsOf cx none) || cx.evOld.any (fun e => ringIn e.2) then retryRecords s c else s)

/-! ### Arenas (08 R135) -/

/-- ARENA_CONFIG. -/
def execArenaConfig (fn : Nat) (s : State) : Out :=
  withCtx fn 0x0040 32 s fun s r c cx =>
    let pool := fld r.args 4 4
    let view := fld r.args 8 1
    let lg := fld r.args 9 1
    let len := fld r.args 12 4 * 4096
    let base := fld r.args 16 8
    let ring := fld r.args 24 8
    let held := (cx.exportGran.filter fun e => match e.2 with | .backed .. => true | _ => false).length
    if view > 9 || lg < 4 || lg > 16 || !zeros r.args 10 12 || base % 4096 != 0 || ring % 64 != 0 then badReq s
    else if (pool < cx.poolUnits && (ctxBusy s c || pool * 16 < held))
        || ((base != cx.exportBase || len != cx.exportLen) && !cx.exportGran.isEmpty)
        || ((ring != cx.ringAddr || lg != cx.ringLog) && ctxBusy s c) then busyAns s
    else ok (modCtx s c fun cx => { cx with
      poolUnits := pool
      view := view
      exportBase := base
      exportLen := len
      ringAddr := ring
      ringLog := lg
      arenaSet := true })

/-- ARENA_RELEASE: export granules go back to the pool. -/
def execArenaRelease (fn : Nat) (s : State) : Out :=
  withCtx fn 0x0041 20 s fun s r c cx =>
    let a := fld r.args 4 8
    let n := fld r.args 12 8
    if a % 4096 != 0 || n % 4096 != 0 || a < cx.exportBase || a + n > cx.exportBase + cx.exportLen then badReq s
    else
      let lo := (a - cx.exportBase) / 4096
      ok (modCtx s c fun cx => { cx with exportGran := cx.exportGran.filter fun e => e.1 < lo || lo + n / 4096 ≤ e.1 })

/-! ### Events (10 R172) and callable tables (11 R193) -/

/-- CTX_EVENTS: launches that have dispatched keep the event handling that they dispatched with. -/
def execCtxEvents (fn : Nat) (s : State) : Out :=
  withCtx fn 0x0050 32 s fun s r c cx =>
    let lg := fld r.args 4 1
    let vec := fld r.args 5 1
    let handler := fld r.args 8 8
    let ring := fld r.args 16 8
    let pool := fld r.args 24 8
    if lg < 4 || lg > 16 || vec < 3 || vec ≥ vecCount cx.fn || handler % 4 != 0 || ring % 64 != 0 || pool % 4096 != 0 then badReq s
    else
      let known := (eventsOf cx none :: cx.evOld.map Prod.snd).find? fun v => v.ring == ring && v.log == lg
      let used := s.grids.any fun g => g.2.ctx == c && g.2.evNo == cx.evNo
      ok (retryRecords (modCtx s c fun cx => { cx with
        evNo := cx.evNo + 1
        evOld := (if used then tset cx.evOld cx.evNo (eventsOf cx none) else cx.evOld).filter fun e =>
          s.grids.any fun g => g.2.ctx == c && g.2.evNo == e.1
        handler := BitVec.ofNat 64 handler
        faultRing := ring
        faultLog := lg
        vec := vec
        savePool := pool
        saveSize := fld r.args 6 2
        wr := (known.map (·.wr)).getD 0 }) c)

/-- CALLTAB_SET. -/
def execCalltabSet (fn : Nat) (s : State) : Out :=
  withCtx fn 0x0070 12 s fun s r c _ =>
    let tb := fld r.args 4 8
    if tb % 65536 != 0 || isArena tb then badReq s
    else if ctxBusy s c then busyAns s
    else ok (modCtx s c fun cx => { cx with tbase := some tb, cursor := 1 })

/-! ### Debug stops (10 R191) -/

/-- The block, the thread and the fragment that a strand id of a context names (10 R172). -/
def namedStrand (s : State) (c id : Nat) : Option (Nat × Block × Nat × Nat) :=
  let cc := bitsOf id 31 31 = 1
  (ctxBlocks s c).findSome? fun (bid, b) =>
    if b.stage == .ended || bitsOf id 30 27 != 0 then none
    else if cc then
      if b.core / 8 = bitsOf id 26 16 && b.ctl == some (bitsOf id 3 0) then some (bid, b, ctlThread bid, 0) else none
    else if b.core = bitsOf id 26 16 && b.bslot = bitsOf id 15 10 && bitsOf id 9 4 < b.nstr then some (bid, b, bid * 128 + bitsOf id 9 4, bitsOf id 3 0)
    else none

/-- The named strand stops, its block halts with skid, and it is saved. -/
def debugStop (s : State) (bid : Nat) (b : Block) (tid : Nat) : State :=
  let th := tget s.threads tid
  let pc := ((th.bind fun th => th.frags.head?).map fun f => f.2.pc).getD 0
  let fi := ((th.bind fun th => th.frags.head?).map Prod.fst).getD 0
  let sid := (th.map fun th => strandId s th fi).getD 0
  let s := lacewing s (stackOf b.core) 8 0 sid (actAt s tid fi) pc
  if inTrap b then stopNow s [bid] 7
  else
    let s := modThread s tid fun th => { th with stopped := true, stopPc := pc, skid := 0, stopParked := allParked th }
    after (modBlock (haltSiblings s bid tid) bid fun b => { noteLate s.time b with halt := 7 }) (.blockSave bid)

/-- DBG_STOP: it completes once the block is saved. -/
def execDbgStop (fn : Nat) (s : State) : Out :=
  withCtx fn 0x0060 8 s fun s r c _ =>
    match namedStrand s c (fld r.args 4 4) with
    | none => badReq s
    | some (bid, b, tid, _) =>
      if b.stage == .saved && b.why = 7 then ok s
      else if b.halt = 7 then .later s
      else if b.stage == .scrubbing || b.stage == .reserved then .later (stopNow s [bid] 7)
      else if b.stage != .running then busyAns s
      else .later (debugStop s bid b tid)

/-- DBG_RESUME: a block stopped by DBG_STOP is restored. -/
def execDbgResume (fn : Nat) (s : State) : Out :=
  withCtx fn 0x0061 8 s fun s r c _ =>
    match namedStrand s c (fld r.args 4 4) with
    | some (bid, b, _, _) =>
      if b.stage == .saved && b.why = 7 then ok (kick (modBlock s bid fun b => { b with back := true }) b.part) else badReq s
    | none => badReq s

end Sys2Proof.Machine
end

