-- ==== Sys2Proof/Machine/HostReg.lean ====
section
/-! DEFINITION. The registers of the functions (03 R51, R52, R55, 02 R25, R406, 04 R71, 05 R83), fault service (10 R175, R405), Cicada
(05 R85), function-level resets (03 R50), and the rotation of Shawm's mailboxes (03 R55). -/
namespace Sys2Proof.Machine

/-! ### Fault service (10 R175, R405) -/

/-- The outstanding record that a SEQ names, in the context that FSCTX holds. -/
def servedRec (s : State) (fn seq : Nat) : Option (Nat × Nat × FRec) :=
  let c := (fnOf s fn).fsctx.toNat
  match heldCtx s fn c with
  | none => none
  | some cx => (cx.recs.find? fun e => e.2.kind ≤ 2 && (e.2.seq.map (· % 2 ^ 32)) == some (seq % 2 ^ 32)).map fun e => (c, e.1, e.2)

/-- A fragment stops waiting on a record. -/
def servePark (id : Nat) (p : Park) : Park :=
  match p with
  | .fault ids =>
    if ids.contains id then (if (ids.filter (· != id)).isEmpty then .run else .fault (ids.filter (· != id))) else p
  | .cret r => if r = id then .run else p
  | _ => p

def serveThread (id : Nat) (th : Thread) : Thread :=
  { th with
    frame := th.frame.map fun w => if w.rcd = id then { w with served := true } else w
    frags := tmap th.frags fun _ f => { f with park := servePark id f.park } }

/-- The record is no longer outstanding. -/
def dropRec (s : State) (c id : Nat) : State := modCtx s c fun cx => { cx with recs := tdel cx.recs id }

/-- Retry: everything that waits on the record translates again. -/
def retryRec (s : State) (c id : Nat) : State :=
  let s := dropRec s c id
  let s := { s with threads := tmap s.threads fun _ th => serveThread id th }
  let cs := (s.cmds.filter fun e => e.2.recs.contains id).map Prod.fst
  let s := cs.foldl (fun s x => cmdRetry (modCmd s x fun y => { y with recs := y.recs.filter (· != id) }) x) s
  let qs := (s.queues.filter fun e => e.2.rcd == some id).map Prod.fst
  let s := qs.foldl (fun s q =>
    let s := modQueue s q fun x => { x with rcd := none }
    match (tget s.queues q).bind headType with
    | some t => retryHead s q t
    | none => pump s q) s
  let js := ((tget s.ctxs c).map fun cx => cx.jobs.filter fun j => j.rcd == some id).getD []
  let s := modCtx s c fun cx => { cx with jobs := cx.jobs.filter fun j => j.rcd != some id }
  let s := js.foldl (fun s j => startJob s c { j with rcd := none }) s
  let s := (dedup (js.filterMap (·.queue))).foldl (fun s q => match (tget s.queues q).bind headType with
    | some t => retryHead (lookAgain s q) q t
    | none => pump (lookAgain s q) q) s
  let ks := (s.lnk.dst.filter fun e => e.2.faults.any (·.1 == id)).map Prod.fst
  ks.foldl (fun s k => dstRetry s k id) s

/-- A fragment of the strand waits on the record, or its continuation frame holds it. -/
def waitsOn (id : Nat) (th : Thread) : Bool :=
  th.frags.any (fun f => match f.2.park with | .fault ids => ids.contains id | _ => false)
    || ((th.frame.map fun w => w.rcd == id && !w.served).getD false)

/-- A refused access of the device's: that write alone is discarded, or the node whose words it reads faults; later accesses follow,
those of a queue in its reset (10 R405). -/
def killJob (s : State) (c code : Nat) (j : DevJob) : State :=
  let s := match j.ops with
    | .words n i _ _ :: _ => failInst s n i code
    | _ => s
  match j.queue with
  | some q => quietOps (startReset s q) c j.tag (if j.behind then j.ops else j.ops.drop 1)
  | none => startJob s c { j with ops := j.ops.drop 1, rcd := none }

/-- Fault code of a killed record (10 R171). -/
def killCode (r : FRec) : Nat := if r.kind = 2 then 0x26 else 0x20 + r.code

/-- Kill: the blocks of the waiting strands are killed, commands end with their fault status, queues are reset. -/
def killRec (s : State) (c id : Nat) (r : FRec) : State :=
  let s := dropRec s c id
  let mx := (s.mxq.flatMap (·.2) ++ s.blocks.flatMap (·.2.mxSaved)).filter fun k => k.recs.contains id
  let bids := dedup ((s.threads.filter fun e => waitsOn id e.2).map (fun e => e.2.bid) ++ mx.map (·.tid / 128))
  let s := { s with mxq := tmap s.mxq fun _ q => q.filter fun k => !k.recs.contains id }
  let s := bids.foldl (fun s b => killBlock s b (killCode r) r.strand r.addr) s
  let cs := s.cmds.filter fun e => e.2.recs.contains id
  let s := cs.foldl (fun s e =>
    let s := modCmd s e.1 fun y => { y with recs := y.recs.filter (· != id), tag := if y.kind = 0 then killCode r - 0x20 else y.tag }
    match e.2.msg with
    | some m => netFinish s m 9
    | none => finishCmd s e.1 9) s
  let qs := (s.queues.filter fun e => e.2.rcd == some id).map Prod.fst
  let s := qs.foldl startReset s
  let js := ((tget s.ctxs c).map fun cx => cx.jobs.filter fun j => j.rcd == some id).getD []
  let s := modCtx s c fun cx => { cx with jobs := cx.jobs.filter fun j => j.rcd != some id }
  let s := js.foldl (fun s j => killJob s c (killCode r) j) s
  let ks := (s.lnk.dst.filter fun e => e.2.faults.any (·.1 == id)).map Prod.fst
  ks.foldl (fun s k => dstKill s k id) s

/-- FSERV holds what was written: SEQ and ANSWER. -/
def setFserv (s : State) (fn seq ans : Nat) : State :=
  modFn s fn fun f => { f with fserv := BitVec.ofNat 64 (seq % 2 ^ 32 * 2 ^ 32 + ans % 4) }

/-- FSERV_RETRY (10 R175). -/
def execFservRetry (fn seq : Nat) (s : State) : Out :=
  let s := setFserv s fn seq 0
  match servedRec s fn seq with
  | some (c, id, _) => .next (retryRec s c id)
  | none => .next s

/-- FSERV_KILL (10 R175). -/
def execFservKill (fn seq : Nat) (s : State) : Out :=
  let s := setFserv s fn seq 1
  match servedRec s fn seq with
  | some (c, id, r) => .next (killRec s c id r)
  | none => .next s

/-! ### The register map (03 R51) -/

/-- A register of a function's BAR0. -/
inductive Reg where
  | devid | stepping
  | ready (i : Nat) | clpres (i : Nat)
  | mboxDb | mboxSt | fsctx | fserv
  | link (n : Nat) | port (n : Nat)
  | wake (q : Nat) | qctl (q : Nat)
  | bctl (cl : Nat) | ctr (cl n : Nat)
  /-- BAR4: a word of the MSI-X table, a word of the pending-bit array. -/
  | vecWord (v j : Nat) | vecPend (j : Nat)
deriving DecidableEq, Repr

/-- Queue registers: offset in the wake page. -/
def wakePage (o width : Nat) : Option Reg :=
  if o ≥ 16 * 1024 then none
  else if o % 16 = 0 && width = 64 then some (.wake (o / 16))
  else if o % 16 = 8 && width = 32 then some (.qctl (o / 16))
  else none

/-- Counter banks: offset in their window. -/
def bankPage (o width : Nat) : Option Reg :=
  if o ≥ 192 * 4096 then none
  else if o % 4096 = 0 && width = 32 then some (.bctl (o / 4096))
  else if o % 4096 ≥ 0x200 && o % 4096 < 0x280 && o % 8 = 0 && width = 64 then some (.ctr (o / 4096) ((o % 4096 - 0x200) / 8))
  else none

/-- BAR4 (03 R51): the MSI-X table of 16 bytes for each vector, and the pending-bit array behind it (notes/assumptions/52.md). -/
def vecPage (fn o width : Nat) : Option Reg :=
  let pba := if fn = 0 then 0x8000 else 0x2000
  if width != 32 || o % 4 != 0 then none
  else if o < 16 * vecCount fn then some (.vecWord (o / 16) (o % 16 / 4))
  else if pba ≤ o && o < pba + 8 then some (.vecPend ((o - pba) / 4))
  else none

/-- The register at an offset, of BAR0, or of BAR4 from 2^32 on; none for an access that is not of a register's width and alignment
(03 R51, notes/assumptions/52.md). -/
def regAt (fn off width : Nat) : Option Reg :=
  if 2 ^ 32 ≤ off then vecPage fn (off - 2 ^ 32) width
  else if width = 32 && off = 0 then some .devid
  else if width = 64 && off = 8 then some .stepping
  else if width = 32 && off % 4 = 0 && 0x100 ≤ off && off ≤ 0x108 then some (.ready ((off - 0x100) / 4))
  else if width = 32 && off % 4 = 0 && 0x110 ≤ off && off ≤ 0x124 then some (.clpres ((off - 0x110) / 4))
  else if width = 64 && off = 0x1000 then some .mboxDb
  else if width = 32 && off = 0x1008 then some .mboxSt
  else if width = 32 && off = 0x2000 then some .fsctx
  else if width = 64 && off = 0x2008 then some .fserv
  else if fn = 0 then
    if width = 32 && off % 4 = 0 && 0x10000 ≤ off && off < 0x10040 then some (.link ((off - 0x10000) / 4))
    else if width = 32 && off % 4 = 0 && 0x20000 ≤ off && off < 0x20020 then some (.port ((off - 0x20000) / 4))
    else if 0x1000000 ≤ off then bankPage (off - 0x1000000) width
    else if 0x100000 ≤ off then wakePage (off - 0x100000) width
    else none
  else if 0x20000 ≤ off then bankPage (off - 0x20000) width
  else if 0x10000 ≤ off then wakePage (off - 0x10000) width
  else none

def bits (n : Nat) (p : Nat → Bool) : Nat := (List.range n).foldl (fun a i => a + if p i then 2 ^ i else 0) 0
def b2n (b : Bool) : Nat := if b then 1 else 0

/-- READY0, READY1, READY2 (03 R52). -/
def readyReg (s : State) : Nat → Nat
  | 0 => b2n (allReady s) * 2 ^ 31 + bits 8 (s.pkg.stkReady.contains ·) * 2 ^ 10 + bits 8 (portReady s) * 4 + b2n s.pkg.shawm * 2 + 1
  | 1 => bits 32 (s.pkg.chans.contains ·)
  | _ => bits 16 (linkUp s)

/-- Status of an LML link (02 R25). -/
def linkReg (x : LmlLink) : Nat :=
  b2n x.up * 2 ^ 31 + b2n x.tlock * 2 ^ 30 + (if x.up then x.lanes % 64 * 2 ^ 24 + x.spares % 4 * 2 ^ 22 + x.peer % 2 ^ 16 else 0)

/-- Status of an Ethernet port (02 R406). -/
def portReg (x : EthPort) : Nat := b2n x.up * 2 ^ 31 + b2n x.lfault * 2 ^ 30 + b2n x.rfault * 2 ^ 29

/-- A function may use a bank: the PF, or the VF that holds its lease (05 R83, R84). -/
def reachesBank (s : State) (fn cl : Nat) : Bool :=
  fn = 0 || (((tget s.leases fn).map fun l => l.banks.contains cl).getD false)

/-- A bank as a function sees it: outside its slices a VF sees it as it left it (05 R84, notes/assumptions/38.md). -/
def bankSeen (s : State) (fn cl : Nat) : Bank :=
  let b := (tget s.banks cl).getD {}
  match (if fn = 0 then none else (tget s.leases fn).bind fun l => tget l.saved cl) with
  | some img => { b with ctr := ssetList [] 0 (img.take 16), en := img.getD 16 (0 : Dword) == (1 : Dword) }
  | none => b

/-- A word of the MSI-X table: message address and data, and in vector control the mask bit. -/
def vecReg (x : VecTab) (v j : Nat) : Word := if j = 3 then (if x.opened.contains v then 0 else 1) else sget x.words (4 * v + j)

/-- A write of one: a vector whose mask bit is cleared pends no more, its message is sent. -/
def vecWrite (x : VecTab) (v j : Nat) (val : Word) : VecTab :=
  if j = 0 then { x with words := sset x.words (4 * v) (val &&& 0xFFFFFFFC) }
  else if j != 3 then { x with words := sset x.words (4 * v + j) val }
  else if val.getLsbD 0 then { x with opened := x.opened.filter (· != v) }
  else { x with opened := if x.opened.contains v then x.opened else x.opened ++ [v], pending := x.pending.filter (· != v) }

def bctlReg (b : Bank) : Nat := b.owner % 64 * 2 ^ 20 + b2n b.leased * 2 ^ 19 + b2n b.en * 2 ^ 18

/-- What a read of a register returns. -/
def regValue (s : State) (fn : Nat) (r : Reg) : Dword :=
  let f := fnOf s fn
  match r with
  | .devid => Config.devid.setWidth 64
  | .stepping => Config.stepping
  | .ready i => BitVec.ofNat 64 (readyReg s i)
  | .clpres i => BitVec.ofNat 64 (bits 32 fun j => s.pkg.clready.contains (32 * i + j))
  | .mboxDb => f.mboxDb
  | .mboxSt => BitVec.ofNat 64 (b2n f.ovr * 2 + b2n f.busy)
  | .fsctx => f.fsctx.setWidth 64
  | .fserv => f.fserv
  | .link n => BitVec.ofNat 64 (linkReg ((tget s.lnk.links n).getD {}))
  | .port n => BitVec.ofNat 64 (portReg ((tget s.net.ports n).getD {}))
  | .wake q => (tget f.wakes q).getD 0
  | .qctl q => match tget s.queues (queueNo fn q) with
    | some x => BitVec.ofNat 64 (b2n x.slot.isSome * 8 + b2n x.wakeAgain * 4 + b2n x.rdone * 2 + b2n x.resetting)
    | none => 0
  | .bctl cl => if reachesBank s fn cl then BitVec.ofNat 64 (bctlReg (bankSeen s fn cl)) else 0
  | .ctr cl n => if reachesBank s fn cl then sget (bankSeen s fn cl).ctr n else 0
  | .vecWord v j => (vecReg ((tget s.vecs fn).getD {}) v j).setWidth 64
  | .vecPend j => BitVec.ofNat 64 (bits 32 fun i => ((tget s.vecs fn).getD {}).pending.contains (32 * j + i))

/-- A read of a function's BAR0 or BAR4 (03 R51). -/
def regRead (s : State) (fn off width : Nat) : Dword :=
  match regAt fn off width with
  | some r => regValue s fn r
  | none => 0

/-- A write of MBOX_DB (03 R55): an aligned address submits a request, unless one is outstanding. -/
def ringDoorbell (s : State) (fn : Nat) (val : Dword) : State :=
  let f := fnOf s fn
  if f.busy then modFn s fn fun f => { f with ovr := true }
  else
    let s := modFn s fn fun f => { f with mboxDb := val }
    if val.toNat % 64 != 0 then s
    else pollReq (modFn s fn fun f => { f with mboxAddr := val.toNat, busy := true }) fn

/-- A write of BCTL (05 R83): while a VF holds the bank, only its own write takes effect, outside its slices on the bank as it left it. -/
def writeBctl (s : State) (fn cl : Nat) (en : Bool) : State :=
  let b := (tget s.banks cl).getD {}
  if fn = 0 then (if b.leased then s else modBank s cl fun b => { b with en := en })
  else match (tget s.leases fn).filter fun l => l.banks.contains cl with
    | none => s
    | some l => match tget l.saved cl with
      | some img => { s with leases := tset s.leases fn { l with saved := tset l.saved cl (img.take 16 ++ [if en then 1 else 0]) } }
      | none => modBank s cl fun b => { b with en := en }

/-- REGISTER_WRITE (00 R4, 03 R51): each field takes the write by its access code. -/
def execRegisterWrite (fn off width : Nat) (val : Dword) (s : State) : Out :=
  match regAt fn off width with
  | some .mboxDb => .next (ringDoorbell s fn val)
  | some .mboxSt => .next (modFn s fn fun f => { f with ovr := f.ovr && !val.getLsbD 1 })
  | some .fsctx => .next (modFn s fn fun f => { f with fsctx := val.setWidth 32 })
  | some .fserv => match val.toNat % 4 with
    | 0 => execFservRetry fn (val.toNat / 2 ^ 32) s
    | 1 => execFservKill fn (val.toNat / 2 ^ 32) s
    | a => .next (setFserv s fn (val.toNat / 2 ^ 32) a)
  | some (.wake q) => execWake fn q val s
  | some (.qctl q) =>
    let s := modQueue s (queueNo fn q) fun x => { x with rdone := x.rdone && !val.getLsbD 1 }
    .next (if val.getLsbD 0 then startReset s (queueNo fn q) else s)
  | some (.bctl cl) => .next (writeBctl s fn cl (val.getLsbD 18))
  | some (.vecWord v j) => .next { s with vecs := tset s.vecs fn (vecWrite ((tget s.vecs fn).getD {}) v j (val.setWidth 32)) }
  | _ => .next s

/-! ### Cicada (05 R85) -/

/-- The owner of a bank: the VF that leases it, or the PF. -/
def bankOwner (b : Bank) : Nat := if b.leased then b.owner else 0

/-- One record of an enabled bank. That FLAGS bit 0 is set when any link has TLOCK is the model's choice (notes/assumptions/38.md). -/
def cicadaRecord (s : State) (cl : Nat) (b : Bank) : List Byte :=
  let lock := s.lnk.links.any fun l => l.2.tlock
  leBytes s.time 8 ++ leBytes (s.time / 2 ^ s.cicadaK) 8 ++ leBytes (b2n lock + 2 * b2n b.moved) 2 ++ leBytes cl 2 ++ leBytes 0 12
    ++ (List.range 16).flatMap fun n => leBytes (sget b.ctr n).toNat 8

/-- The record goes into the owner's ring, or is lost. -/
def cicadaPut (s : State) (cl : Nat) (b : Bank) (bs : List Byte) : State :=
  let fn := bankOwner b
  let f := fnOf s fn
  match f.ring with
  | none => s
  | some (base, lg) =>
    let n := 2 ^ lg
    let rd := rdNat s (hostKey (base + 8)) 8
    if f.ringWr - rd ≥ n then
      storeKey (modFn s fn fun f => { f with ringLost := f.ringLost + 1 }) (hostKey (base + 16)) (leBytes (f.ringLost + 1) 8)
    else
      let s := storeKey (modFn s fn fun f => { f with ringWr := f.ringWr + 1 }) (hostKey (base + 64 + 160 * (f.ringWr % n))) bs
      let s := storeKey s (hostKey base) (leBytes (f.ringWr + 1) 8)
      modBank s cl fun b => { b with moved := false }

/-- CICADA_TICK (05 R85): every counter latches at once, and each owner gets its records. -/
def execCicadaTick (s : State) : Out :=
  let rs := (s.banks.filter fun e => e.2.en).map fun e => (e.1, e.2, cicadaRecord s e.1 e.2)
  let s := rs.foldl (fun s r => cicadaPut s r.1 r.2.1 r.2.2) s
  .next (if s.timers.any fun t => t.2 == Turn.event .cicadaTick then s else atTime s (nextTick s.time s.cicadaK) .cicadaTick)

/-- HOST_COMPLETION_RING_SPACE (08 R143): the host has advanced RD, and a parked AHAND looks again. -/
def execHostCompletionRingSpace (c : Nat) (s : State) : Out :=
  .next (wakeRetry s fun th w => w == .ring && ctxOf s th == c)

/-! ### Function-level resets (03 R50) -/

/-- Reset every queue of a function, to be gone when it is over. -/
def flrStart (s : State) (fn : Nat) : State :=
  ((s.queues.filter fun e => e.2.fn == fn).map Prod.fst).foldl (fun s q => startReset (modQueue s q fun x => { x with gone := true }) q) s

def flrQueuesGone (s : State) (fn : Nat) : Bool := !s.queues.any fun e => e.2.fn == fn

/-- Its contexts and their arenas go, also one made while the reset runs; Scarab gets their granules, and its leases end. -/
def flrClean (s : State) (fn : Nat) : State :=
  let was := ((fnOf s fn).flr).getD []
  let cs := (s.ctxs.filter fun e => e.2.fn == fn).map Prod.fst
  let t := cs.foldl destroyCtx s
  let t := match tget t.leases fn with
    | some l => endLease t fn l.banks l.units
    | none => t
  modFn (noteAll s t) fn fun f => { f with flr := some (was ++ cs) }

/-- Its registers start over, the PF's counter banks too (00 R4, 05 R83). -/
def flrEnd (s : State) (fn : Nat) : State :=
  { s with
    fns := tdel s.fns fn
    vecs := tdel s.vecs fn
    qlinks := s.qlinks.filter fun e => e.2.producer / 1024 != fn
    banks := if fn = 0 then [] else s.banks }

/-- The steps of a reset in their order: the queues, the contexts, and Scarab's scrub of every granule that these held. Whether it is over. -/
def flrStep (s : State) (fn : Nat) : State × Bool :=
  let s := flrStart s fn
  if !flrQueuesGone s fn then (s, false)
  else
    let s := if (fnOf s fn).flr.isSome && !s.ctxs.any (fun e => e.2.fn == fn) then s else flrClean s fn
    if ((fnOf s fn).flr.getD []).all (idFree s) then (flrEnd s fn, true) else (s, false)

/-- The VFs that the device knows. -/
def knownVfs (s : State) : List Nat :=
  dedup ((s.fns.map Prod.fst ++ s.ctxs.map (·.2.fn) ++ s.queues.map (·.2.fn) ++ s.leases.map Prod.fst).filter (· != 0))

/-- FLR_VF (03 R50). -/
def execFlrVf (fn : Nat) (s : State) : Out :=
  if fn = 0 || fn ≥ 64 then .next s
  else match flrStep s fn with
    | (s, true) => .next s
    | (s, false) => .next (again s (.flrVf fn))

/-- FLR_PF (03 R50): every virtual function first. -/
def execFlrPf (s : State) : Out :=
  let s := (knownVfs s).foldl (fun s f => (flrStep s f).1) s
  if !(knownVfs s).isEmpty then .next (again s .flrPf)
  else match flrStep s 0 with
    | (s, true) => .next s
    | (s, false) => .next (again s .flrPf)

/-! ### Shawm serves a mailbox (03 R55) -/

/-- The request that a function's mailbox holds, by its CODE. An unknown CODE returns BADREQ. -/
def serveFn (fn : Nat) (s : State) : Out :=
  if !(fnOf s fn).busy then .next s
  else match fld (reqBytes s fn) 0 2 with
  | 0x0001 => execReadCtrs fn s
  | 0x0002 => execSetThresh fn s
  | 0x0003 => execAttest fn s
  | 0x0004 => execGetCert fn s
  | 0x0005 => execKeyInstall fn s
  | 0x0006 => execFwStage fn s
  | 0x0007 => execRestart fn s
  | 0x0008 => execCtxCreate fn s
  | 0x0009 => execCtxRoot fn s
  | 0x000A => execCtxDestroy fn s
  | 0x0010 => execQueueCreate fn s
  | 0x0011 => execQueueDestroy fn s
  | 0x0012 => execLinkCreate fn s
  | 0x0013 => execLinkDestroy fn s
  | 0x0020 => execPartSet fn s
  | 0x0021 => execPartQuery fn s
  | 0x0022 => execSliceSet fn s
  | 0x0023 => execLease fn s
  | 0x0024 => execLeaseEnd fn s
  | 0x0025 => execCicadaSet fn s
  | 0x0026 => execMigrateKey fn s
  | 0x0027 => execMigrateOut fn s
  | 0x0028 => execMigrateIn fn s
  | 0x0029 => execLaceSet fn s
  | 0x0030 => execTlbInv fn s
  | 0x0040 => execArenaConfig fn s
  | 0x0041 => execArenaRelease fn s
  | 0x0050 => execCtxEvents fn s
  | 0x0060 => execDbgStop fn s
  | 0x0061 => execDbgResume fn s
  | 0x0070 => execCalltabSet fn s
  | 0x0080 => execPkgSet fn s
  | 0x0081 => execRouteSet fn s
  | 0x0082 => execFlowCreate fn s
  | 0x0083 => execFlowAccept fn s
  | 0x0084 => execFlowDestroy fn s
  | 0x0088 => execNetConfig fn s
  | 0x0089 => execAddrSet fn s
  | 0x008A => execSaSet fn s
  | _ => .next (if s.pkg.shawm then finishReq (modPkg s fun p => { p with lastFn := fn, shawmAt := s.time }) fn 1 else s)

/-- Shawm serves one request: that of the next function in rotation; without SHAWM only a RESTART of `fn` is served (03 R54, R55). -/
def serveMailbox (fn : Nat) (s : State) : Out := serveFn (if s.pkg.shawm then (nextFn s).getD fn else fn) s

end Sys2Proof.Machine
end

