-- ==== Sys2Proof/Machine/Agenda.lean ====
section
/-! DEFINITION. What the machine does next: instruction fetch (07 R102, 13 R235), the choice of a fragment (06 R96, R97, 07 R113), one
cycle of device time (05 R83, 02 R33), and writes from outside. -/
namespace Sys2Proof.Machine

/-! ### Instruction fetch (07 R102, R119, R120) -/

/-- A header without hints. -/
def bareHdr : Hdr := { gn := false, gp := 31, stall := 0, sbset := 0, sbwait := 0, yld := false }

/-- What stands at an address of code. -/
inductive Code where
  | bytes (bs : List Byte)
  /-- Pages that do not translate. -/
  | flt (es : List (TErr × Nat))
  /-- Bytes of another package that have not arrived: the package, their address there, the address here, their number. -/
  | ask (pkg pa va n : Nat)
  /-- The far channel is not trained (03 R53). -/
  | stall
deriving DecidableEq, Repr

/-- Where the inbox of a strand keeps bytes of code. -/
def codeBox (va : Nat) : Nat := 2 ^ 64 + va

/-- A range of addresses, cut at the multiple of 4 KiB in it: the bytes of a part lie together (07 R117). -/
def cut4K (va n : Nat) : List (Nat × Nat) :=
  let k := 4096 - va % 4096
  if n ≤ k then [(va, n)] else [(va, k), (va + k, n - k)]

/-- Two ranges share a byte. -/
def meets (a b : Nat × Nat) : Bool := a.1 < b.1 + b.2 && b.1 < a.1 + a.2

/-- The addresses of the 96-byte lines that `n` bytes lie in (07 R102). -/
def linesAt (va n : Nat) : List Nat := if va % 96 + n ≤ 96 then [va / 96 * 96] else [va / 96 * 96, va / 96 * 96 + 96]

/-- The parts of a line that the L0 holds, as address and bytes; of a line that it has lost in the meantime it holds none. -/
def heldL0 (e : Env) (s : State) (line : Nat) : List (Nat × List Byte) :=
  let here (x : Nat × Nat × Nat × List Byte) : Bool := x.1 == e.blk.core && x.2.1 == e.grid.ctx && x.2.2.1 / 96 * 96 == line
  (s.l0.filter fun x => here x && Config.l0Serves s.freeCtr (line / 96)).map fun x => (x.2.2.1, x.2.2.2)

/-- The parts hold every byte of a range. -/
def holdsAll (ps : List (Nat × List Byte)) (va n : Nat) : Bool :=
  (List.range n).all fun j => ps.any fun p => p.1 ≤ va + j && va + j < p.1 + p.2.length

/-- Bytes out of parts. -/
def bytesOf (ps : List (Nat × List Byte)) (va n : Nat) : List Byte :=
  (List.range n).map fun j => match ps.find? fun p => p.1 ≤ va + j && va + j < p.1 + p.2.length with
    | some p => p.2.getD (va + j - p.1) 0
    | none => 0

/-- What a part of code that has been translated gives. -/
def codeAt (e : Env) (s : State) (va n : Nat) : Except TErr Tgt → Code
  | .error .stall => .stall
  | .error x => .flt [(x, va)]
  | .ok (.key a _) => .bytes (rdN s a n)
  | .ok (.remote p pa) => match tget e.th.inbox (codeBox va) with
    | some bs => .bytes (bs.take n)
    | none => .ask p pa va n

/-- The parts of code together: every page that fails, else what one of them waits for, else all bytes. -/
def joinCode : List (Nat × Code) → Except Code (List (Nat × List Byte))
  | [] => .ok []
  | (va, .bytes bs) :: r => (joinCode r).map ((va, bs) :: ·)
  | (_, .flt es) :: r => match joinCode r with
    | .error (.flt fs) => .error (.flt (es ++ fs))
    | _ => .error (.flt es)
  | (_, c) :: r => match joinCode r with
    | .error (.flt fs) => .error (.flt fs)
    | _ => .error c

/-- Translate parts of code, one walk for each page (07 R119). -/
def codeParts (e : Env) (s : State) (known : Pages) (ps : List (Nat × Nat)) : State × Pages × List (Nat × Code) :=
  let c := e.grid.ctx
  let paged (p : Nat × Nat) : Bool := ((tget s.ctxs c).map fun cx => isPaged cx e.unit p.1).getD false
  let (s, known, ts) := xlatePages s c .fetch e.unit known ((ps.filter paged).map fun p => (p.1, 0, p.2))
  let (s, os) := xlateOthers s c .fetch e.unit ((ps.filter fun p => !paged p).map fun p => (p.1, 0, p.2))
  (s, known, (ps.zip (weave paged ps ts os)).map fun (p, t) => (p.1, codeAt e s p.1 p.2 t.2))

/-- The parts that have come, as the L0 keeps them. -/
def arrivedParts (cs : List (Nat × Code)) : List (Nat × List Byte) :=
  cs.filterMap fun c => match c.2 with | .bytes bs => some (c.1, bs) | _ => none

/-- The L0 of a core holds a line, in place of what it held of it. -/
def putL0 (s : State) (core c line : Nat) (ps : List (Nat × List Byte)) : State :=
  { s with l0 := (ps.map fun p => (core, c, p.1, p.2)) ++ s.l0.filter fun e => !(e.1 == core && e.2.1 == c && e.2.2.1 / 96 * 96 == line) }

/-- Read a line ahead, as far as it translates to local memory. -/
def prefetchL0 (e : Env) (x : State × Pages) (line : Nat) : State × Pages :=
  if !(heldL0 e x.1 line).isEmpty then (tick x.1, x.2)
  else match codeParts e (tick x.1) x.2 (cut4K line 96) with
    | (s, known, cs) => (putL0 s e.blk.core e.grid.ctx line (arrivedParts cs), known)

/-- Bytes of a line through the L0: a miss fills it from the slice as a whole, and the next 4 lines are read ahead. -/
def lineCode (e : Env) (s : State) (known : Pages) (line va n : Nat) : State × Pages × List (Nat × Code) :=
  let held := heldL0 e s line
  if holdsAll held va n then (tick s, known, [(va, .bytes (bytesOf held va n))])
  else match codeParts e (tick s) known (cut4K line 96) with
    | (s, known, cs) =>
      let need := (cut4K line 96).zip cs |>.filter fun x => meets x.1 (va, n)
      let s := putL0 s e.blk.core e.grid.ctx line (arrivedParts cs)
      let (s, known) := (List.range 4).foldl (fun x j => prefetchL0 e x (line + 96 * (j + 1))) (s, known)
      (s, known, need.map Prod.snd)

/-- The parts of `n` bytes of code: a strand's through the L0 of its core, a control context's from the slice. -/
def codeOf (e : Env) (s : State) (va n : Nat) : State × List (Nat × Code) :=
  if e.th.cc then match codeParts e s [] (cut4K va n) with
    | (s, _, cs) => (s, cs)
  else
    let r := (linesAt va n).foldl (fun (x : State × Pages × List (Nat × Code)) line =>
      let lo := max va line
      match lineCode e x.1 x.2.1 line lo (min (va + n) (line + 96) - lo) with
      | (s, known, cs) => (s, known, x.2.2 ++ cs)) (s, [], [])
    (r.1, r.2.2)

/-- Fetch the 12 bytes at a fragment's PC. Bytes of another package that have come are used up. -/
def fetchCode (e : Env) : State × Code :=
  let (s, cs) := codeOf e e.s e.fr.pc.toNat 12
  match joinCode cs with
  | .error c => (s, c)
  | .ok ps => (modThread s e.tid fun th => { th with inbox := th.inbox.filter fun x => x.1 < 2 ^ 64 || 2 ^ 65 ≤ x.1 }, .bytes (bytesOf ps e.fr.pc.toNat 12))

/-- The word that bytes of code make (13 R235). -/
def codeWord (bs : List Byte) : IWord := BitVec.ofNat 96 (leNat bs)

/-- The surroundings of a fragment before its instruction is known. -/
def bareEnv (s : State) (tid fi : Nat) : Option Env := mkEnv bareHdr { s with cur := tid, curFrag := fi }

/-- The fragment asks another package for bytes of code, or takes the machine check of a failed link. -/
def askCode (e : Env) (s : State) (pkg pa va n : Nat) : State :=
  if flowBad s e.grid.ctx pkg true then machineCheck s e.tid e.fi e.fr.em (mcRecord s e.th 6 15 0 0 0 false e.fr.pc 0)
  else
    let s := sendLane e s 0 pkg pa va n 0 (codeBox va) 0 7 0 false false (List.replicate n 0)
    let s := modThread { s with nextId := s.nextId + 1 } e.tid fun th =>
      { th with frags := tmod th.frags e.fi fun f => { f with park := .retry .flow } }
    saveCheck s e.th.bid

/-- A fragment's turn: the instruction that it issues, or the state after what happens instead. -/
def fetchTurn (s : State) (tid fi : Nat) : Except State (State × Instr) :=
  match bareEnv s tid fi with
  | none => .error s
  | some e =>
    if e.fr.park != .run || e.fr.frozen || e.th.stopped || e.blk.stage != .running then .error e.s
    else match fetchCode e with
    | (s, .flt es) => .error (saveCheck (takeFault (tick s) tid fi es) e.th.bid)
    | (s, .ask p pa va n) => .error (askCode e s p pa va n)
    | (s, .stall) => .error (tick s)
    | (s, .bytes bs) => match decode (codeWord bs) with
      | .ok i => .ok (s, i)
      | .error _ =>
        let h := decodeHdr (codeWord bs)
        let act := e.fr.em &&& guardMask e.th s.time s.freeCtr h
        if canIssue { e with h := h } then .error (takeTrap (tick s) tid fi 1 (opField (codeWord bs)) act 0 act) else .error s

/-! ### Which fragment issues (06 R96, R97, 07 R113) -/

/-- The issuing unit of a thread: quarter q of core c is 4·c + q, the control core of cluster j is 8192 + j. -/
def unitNo (th : Thread) (b : Block) : Nat := if th.cc then 8192 + b.core / 8 else 4 * b.core + (th.idx + b.bslot) % 4

/-- The unit has not issued in this cycle of its clock. -/
def unitFree (s : State) (u core : Nat) : Bool :=
  match tget s.quarters u with
  | some t => t + clkDiv s core ≤ s.time
  | none => true

/-- The fragment is ready: the instruction that it has fetched may issue now (06 R96). -/
def wants (s : State) (tid fi : Nat) : Bool :=
  match bareEnv s tid fi with
  | none => false
  | some e => canIssue e && match (fetchCode e).2 with
    | .bytes bs => canIssue { e with h := decodeHdr (codeWord bs) }
    | _ => false

/-- The fragment's fetch faults, or calls for another package: it parks, and uses no issue slot. -/
def fetchParks (s : State) (tid fi : Nat) : Bool :=
  match bareEnv s tid fi with
  | none => false
  | some e => canIssue e && match (fetchCode e).2 with
    | .flt .. | .ask .. => true
    | _ => false

/-- A fragment that parks at its fetch. -/
def firstPark (s : State) : Option (Nat × Nat) :=
  s.threads.findSome? fun (tid, th) => th.frags.findSome? fun (fi, _) => if fetchParks s tid fi then some (tid, fi) else none

/-- A fragment that may issue, with its place in the order of R97 or of the control core's rotation. -/
structure Pick where
  key : List Nat
  tid : Nat
  fi : Nat
  unit : Nat
  ctl : Nat
deriving DecidableEq, Repr

/-- The order of R97, after the unit: rank, promotion, age, strand index, entry; on a control core the contexts follow the one
served last. -/
def pickKey (s : State) (tid fi u : Nat) (th : Thread) (b : Block) (fr : Frag) : List Nat :=
  if th.cc then [u, (b.ctl.getD 0 + 15 - ((tget s.quarters (8192 + u)).getD 15)) % 16]
  else
    let (rank, since) := match fr.promoted with
      | some t => (0, t)
      | none => if fr.demoted then (2, 0) else (1, 0)
    [u, rank, since, b.placedAt, th.idx, tid, fi]

/-- The first of two keys. -/
def keyBefore : List Nat → List Nat → Bool
  | [], _ => true
  | _, [] => false
  | a :: as, b :: bs => a < b || (a == b && keyBefore as bs)

/-- Every fragment that may issue on a unit that is free. -/
def picks (s : State) : List Pick :=
  s.threads.flatMap fun (tid, th) =>
    match tget s.blocks th.bid with
    | none => []
    | some b =>
      let u := unitNo th b
      if !unitFree s u b.core then []
      else th.frags.filterMap fun (fi, fr) =>
        if wants s tid fi then some { key := pickKey s tid fi u th b fr, tid := tid, fi := fi, unit := u, ctl := b.ctl.getD 0 } else none

def firstPick (s : State) : Option Pick :=
  (picks s).foldl (fun o p => match o with
    | none => some p
    | some q => if keyBefore q.key p.key then some q else some p) none

/-- The unit has issued in this cycle. -/
def markIssue (s : State) (p : Pick) : State :=
  let t := tset s.quarters p.unit s.time
  { s with quarters := if p.unit < 8192 then t else tset t (8192 + p.unit) p.ctl }

/-! ### Due events -/

/-- The event that is due: the earliest time, and of equal ones the one put in first. -/
def dueTurn (s : State) : Option (Turn × State) :=
  let least := s.timers.foldl (fun (m : Nat) t => min m t.1) (s.time + 1)
  if least > s.time then none
  else match s.timers.find? fun t => t.1 == least with
    | some t => some (t.2, { s with timers := s.timers.erase t })
    | none => none

/-! ### One cycle of device time -/

/-- A core has a fragment parked on an empty line (07 R107). -/
def lineStall (s : State) (core : Nat) : Bool :=
  s.threads.any fun e => coreOf s e.2 == core && e.2.frags.any fun f => match f.2.park with | .retry (.line ..) => true | _ => false

/-- A cluster has a strand parked on the full range-lock table. -/
def lockStall (s : State) (cl : Nat) : Bool :=
  s.threads.any fun e => clusterOf s e.2 == cl && e.2.frags.any fun f => f.2.park == .retry .lock

/-- The counters of cycles of an enabled bank (05 R83). -/
def countCycle (s : State) (cl : Nat) : State :=
  let s := [1, 2, 3, 9, 14].foldl (fun s n => count s cl n (Config.cycles s.freeCtr cl n)) s
  let s := count s cl 5 ((List.range 8).filter fun j => lineStall s (8 * cl + j)).length
  count (count s cl 10 (if lockStall s cl then 1 else 0)) cl 15 1

/-- The state in which a strand that has issued in this cycle was still to issue: its other fragments were ready then. -/
def beforeIssue (s : State) (tid : Nat) : State :=
  modThread s tid fun th => match th.issuedAt with
    | some t => if s.time < t + clkDiv s (coreOf s th) then { th with stallTill := min th.stallTill s.time } else th
    | none => th

/-- A fragment that was ready and did not issue (06 R97). -/
def noteWait (s : State) (tid fi : Nat) (fr : Frag) : Frag :=
  let issued : Bool := match fr.busyAt, tget s.threads tid with
    | some t, some th => s.time < t + clkDiv s (coreOf s th)
    | _, _ => false
  if !issued && wants (beforeIssue s tid) tid fi then { fr with readySince := some (fr.readySince.getD s.time) } else { fr with readySince := none }

/-- Fragments whose 256th cycle of readiness has gone by. -/
def overdue (s : State) : List (Nat × Nat) :=
  s.threads.flatMap fun (tid, th) => th.frags.filterMap fun (fi, fr) =>
    match fr.readySince, fr.promoted with
    | some r, none => if r + 256 * clkDiv s (coreOf s th) ≤ s.time then some (tid, fi) else none
    | _, _ => none

/-- TLOCK is set on links through which the counter is known to lie near the master's. -/
def lockLinks (s : State) : State :=
  { s with lnk := { s.lnk with links := tmap s.lnk.links fun _ x => match x.bound with
      | some b => if s.lnk.slew.natAbs ≤ b then { x with tlock := true } else x
      | none => x } }

/-- Device time advances by 1; while a package slews, on at most one cycle in 64 by 0 or 2 (02 R33). -/
def advanceTime (s : State) : State :=
  let since := s.lnk.since + 1
  if s.lnk.slew = 0 || since < 64 then { s with time := s.time + 1, lnk := { s.lnk with since := since } }
  else if s.lnk.slew > 0 then lockLinks { s with time := s.time + 2, lnk := { s.lnk with since := 0, slew := s.lnk.slew - 1 } }
  else lockLinks { s with lnk := { s.lnk with since := 0, slew := s.lnk.slew + 1 } }

/-- The end of a cycle in which nothing is left to issue. -/
def cycle (s : State) : State :=
  let s := ((s.banks.filter fun e => e.2.en).map Prod.fst).foldl countCycle (tick s)
  let s' := { s with threads := tmap s.threads fun tid th => { th with frags := tmap th.frags fun fi fr => noteWait s tid fi fr } }
  let s := advanceTime s'
  (overdue s).foldl (fun s x => atTime s s.time (.fragmentPromote x.1 x.2)) s

/-! ### Writes from outside -/

/-- A byte of memory exists under the key (07 R117, R118, 08 R137). -/
def byteExists (s : State) (k : Nat) : Bool :=
  if k < hostBase then devAddrOk k
  else if k < arenaBase then k < 2 * hostBase
  else (tget s.ctxs ((k - arenaBase) / 2 ^ 49)).isSome

/-- The host, or another agent of the bus, writes memory; strands that wait for space in a host completion ring look again (08 R143). -/
def pokeMem (s : State) (key : Nat) (bs : List Byte) : State :=
  let cut (j : Nat) : Nat := key / 4096 * 4096 + 4096 * j - key
  let s := (List.range ((key % 4096 + bs.length + 4095) / 4096)).foldl
    (fun s j => storeKey s (viewKey (key + cut j)) ((bs.drop (cut j)).take (cut (j + 1) - cut j))) s
  let waits := dedup ((s.threads.filter fun e => e.2.frags.any fun f => f.2.park == .retry .ring).map fun e => ctxOf s e.2)
  waits.foldl (fun s c => atTime s s.time (.hostCompletionRingSpace c)) s

def pokeOk (s : State) (key n : Nat) : Bool := (List.range n).all fun j => byteExists s (key + j)

/-! ### A given instruction, next -/

/-- The context of `placeWord`, and the stack memory that holds its page table, at 0x10000, and its code. -/
def placeCtx : Nat := 4095
def placeBase : Nat := 0x4000000000

/-- The word at virtual address 0x1000 of a new context, whose table maps the first 2 MiB to `placeBase`, and a block of one
strand and one control context whose fragments stand there. -/
def placeWord (s : State) (w : Nat) : State :=
  let gid := s.nextId
  let bid := s.nextId + 1
  let entry (m : Memory) (at' v : Nat) : Memory := m.writeN (placeBase + at') (leBytes (placeBase + v) 8)
  let m := entry (entry (entry s.mem 0x10000 0x20001) 0x20000 0x30001) 0x30000 0x33
  let m := m.writeN (placeBase + 0x1000) (leBytes w 12)
  let fr : Frag := { pc := 0x1000, m := 0xFFFFFFFF, em := 0xFFFFFFFF, bmask := 0xFFFFFFFF }
  let r := { parseRec [] with code := 0x1000, ctrl := 0x1000, gx := 1, gy := 1, gz := 1, lx := 32, ly := 1, lz := 1, regs := 2048, phasers := 8 }
  let g : Grid := { ctx := placeCtx, queue := 0, prio := 0, part := 0, lrec := r, slot := 0, gen := 0, entered := true, next := 1 }
  let b : Block := {
    gid := gid, part := 0, need := { reg := 0, sp := 0, ts := 0, str := 1, phs := 8, ctl := true }, lin := 0, core := 0, bslot := 0
    aslot := 0, gen := 0, ctl := some 0, nstr := 1, sslots := [0] }
  let th : Thread := { bid := bid, idx := 0, cc := false, nregs := 2048, lanes := 0xFFFFFFFF, frags := [(0, fr)] }
  let cc : Thread := { bid := bid, idx := 64, cc := true, nregs := 256, lanes := 1, frags := [(0, { fr with m := 1, em := 1, bmask := 1 })] }
  { s with
    nextId := s.nextId + 2
    mem := m
    l0 := s.l0.filter fun e => e.2.1 != placeCtx
    tlb := s.tlb.filter fun e => e.ctx != placeCtx
    ctxs := tset s.ctxs placeCtx { fn := 0, root := placeBase + 0x10000, pasid := 0, tbase := some 0 }
    grids := tset s.grids gid g
    blocks := tset s.blocks bid b
    threads := tset (tset s.threads (bid * 128) th) (bid * 128 + 64) cc }

/-- The thread that issues a placed word: the strand, or the control context for an OP that only one executes (13 R245). -/
def placeTid (s : State) (w : Nat) : Nat :=
  let op := w / 2 ^ 86 % 1024
  (s.nextId + 1) * 128 + (if op / 64 = 11 || op = 0x34B then 64 else 0)

end Sys2Proof.Machine
end

