-- ==== Sys2Proof/Machine/Bits.lean ====
section
/-! DEFINITION. Class 0x1, bit instructions (14 R268-R276). -/
namespace Sys2Proof.Machine

/-! ### Values -/

/-- A word built bit by bit. -/
def ofBits (p : Nat → Bool) : Word := maskOf p

/-- The table in MOD 12:5: TYPE, RND and SAT hold it (14 R268, 15 R281). -/
def modTable (f : FmtR) : BitVec 8 := f.ty ++ f.rnd ++ flagBit f.sat

def lgc3Val (t : BitVec 8) (a b c : Word) : Word := ofBits fun i => table3 t (a.getLsbD i) (b.getLsbD i) (c.getLsbD i)
def shlVal (a b : Word) : Word := if b.toNat ≥ 32 then 0 else a <<< b.toNat
def shrVal (t : Nat) (a b : Word) : Word :=
  if t = 4 then (if b.toNat ≥ 32 then (if a.msb then 0xFFFFFFFF else 0) else a.sshiftRight b.toNat)
  else if b.toNat ≥ 32 then 0 else a >>> b.toNat
def dshVal (r : Bool) (a b c : Word) : Word :=
  let y : Dword := b ++ a
  let n := min c.toNat 64
  if r then lo32 (y >>> n) else hi32 (y <<< n)
def rotVal (r : Bool) (a b : Word) : Word := if r then a.rotateRight (b.toNat % 32) else a.rotateLeft (b.toNat % 32)
def popcVal (a : Word) : Word := BitVec.ofNat 32 (popCount a)
/-- Leading zeros from bit 31 down. -/
def clzNat (a : Word) : Nat := (((List.range 32).find? fun i => a.getLsbD (31 - i)).getD 32)
def clzVal (a : Word) : Word := BitVec.ofNat 32 (clzNat a)
def brevVal (a : Word) : Word := ofBits fun i => a.getLsbD (31 - i)

/-- BFE (14 R274). -/
def bfeVal (t : Nat) (a b c : Word) : Word :=
  let p := b.toNat % 256
  let n := min (c.toNat % 256) 32
  let fb (i : Nat) : Bool := if p + i ≤ 31 then a.getLsbD (p + i) else t == 4 && a.msb
  if n = 0 then 0
  else ofBits fun i => if i < n then fb i else t == 4 && fb (n - 1)

/-- BFI (14 R275). -/
def bfiVal (a b c : Word) : Word :=
  let p := c.toNat % 256
  let n := min (c.toNat / 256 % 256) 32
  ofBits fun i => if p ≤ i && i < p + n then a.getLsbD (i - p) else b.getLsbD i

/-- One result byte of BSHUF (14 R276). -/
def bshufByte (y : Dword) (sel : Byte) : Byte :=
  let v : Byte := y.extractLsb' (8 * (sel.toNat % 8)) 8
  match sel.toNat / 16 % 4 with
  | 0 => v
  | 1 => 0
  | 2 => if v.msb then 0xFF else 0
  | _ => 0xFF

def bshufVal (a b c : Word) : Word :=
  let y : Dword := b ++ a
  bshufByte y (byteOf c 3) ++ bshufByte y (byteOf c 2) ++ bshufByte y (byteOf c 1) ++ bshufByte y (byteOf c 0)

/-! ### Instructions -/

/-- LGC3 (14 R268). -/
def execLgc3 (h : Hdr) (f : FmtR) (s : State) : Out :=
  issue (.lgc3 h f) (fun e => .done e.s (wrD e f.kd f.d fun l =>
    lgc3Val (modTable f) (src e 0 f.ka f.a l) (src e 0 f.kb f.b l) (src e 0 f.kc f.c l))) s

/-- SHL (14 R270). -/
def execShl (h : Hdr) (f : FmtR) (s : State) : Out :=
  issue (.shl h f) (fun e => .done e.s (wrD e f.kd f.d fun l => shlVal (src e 0 f.ka f.a l) (src e 0 f.kb f.b l))) s

/-- SHR (14 R270). -/
def execShr (h : Hdr) (f : FmtR) (s : State) : Out :=
  issue (.shr h f) (fun e => .done e.s (wrD e f.kd f.d fun l => shrVal f.ty.toNat (src e 0 f.ka f.a l) (src e 0 f.kb f.b l))) s

/-- DSH (14 R271). -/
def execDsh (h : Hdr) (f : FmtR) (s : State) : Out :=
  issue (.dsh h f) (fun e => .done e.s (wrD e f.kd f.d fun l =>
    dshVal (f.sub.getLsbD 0) (src e 0 f.ka f.a l) (src e 0 f.kb f.b l) (src e 0 f.kc f.c l))) s

/-- ROT (14 R272). -/
def execRot (h : Hdr) (f : FmtR) (s : State) : Out :=
  issue (.rot h f) (fun e => .done e.s (wrD e f.kd f.d fun l => rotVal (f.sub.getLsbD 0) (src e 0 f.ka f.a l) (src e 0 f.kb f.b l))) s

/-- POPC (14 R273). -/
def execPopc (h : Hdr) (f : FmtR) (s : State) : Out :=
  issue (.popc h f) (fun e => .done e.s (wrD e f.kd f.d fun l => popcVal (src e 0 f.ka f.a l))) s

/-- CLZ (14 R273). -/
def execClz (h : Hdr) (f : FmtR) (s : State) : Out :=
  issue (.clz h f) (fun e => .done e.s (wrD e f.kd f.d fun l => clzVal (src e 0 f.ka f.a l))) s

/-- BREV (14 R273). -/
def execBrev (h : Hdr) (f : FmtR) (s : State) : Out :=
  issue (.brev h f) (fun e => .done e.s (wrD e f.kd f.d fun l => brevVal (src e 0 f.ka f.a l))) s

/-- BFE (14 R274). -/
def execBfe (h : Hdr) (f : FmtR) (s : State) : Out :=
  issue (.bfe h f) (fun e => .done e.s (wrD e f.kd f.d fun l =>
    bfeVal f.ty.toNat (src e 0 f.ka f.a l) (src e 0 f.kb f.b l) (src e 0 f.kc f.c l))) s

/-- BFI (14 R275). -/
def execBfi (h : Hdr) (f : FmtR) (s : State) : Out :=
  issue (.bfi h f) (fun e => .done e.s (wrD e f.kd f.d fun l =>
    bfiVal (src e 0 f.ka f.a l) (src e 0 f.kb f.b l) (src e 0 f.kc f.c l))) s

/-- BSHUF (14 R276). -/
def execBshuf (h : Hdr) (f : FmtR) (s : State) : Out :=
  issue (.bshuf h f) (fun e => .done e.s (wrD e f.kd f.d fun l =>
    bshufVal (src e 0 f.ka f.a l) (src e 0 f.kb f.b l) (src e 0 f.kc f.c l))) s

end Sys2Proof.Machine
end

