-- ==== Sys2Proof/Machine/CmpLane.lean ====
section
/-! DEFINITION. Class 0x2: compare, move, lane and special-register instructions (15 R277-R289). -/
namespace Sys2Proof.Machine

/-- ISETP (15 R280). -/
def execIsetp (h : Hdr) (f : FmtR) (s : State) : Out :=
  issue (.isetp h f) (fun e =>
    let t := f.ty.toNat
    let x (l : Nat) : Int := if is64 t then ival (pr e f.ka f.a l) t else ival (src e 0 f.ka f.a l) t
    let y (l : Nat) : Int := if is64 t then ival (pr e f.kb f.b l) t else ival (src e 0 f.kb f.b l) t
    .done e.s (wrP e f.d fun l => comb f.rnd.toNat (icmp f.sub.toNat (x l) (y l)) (prd e f.c l))) s

/-- FSETP (15 R280). -/
def execFsetp (h : Hdr) (f : FmtR) (s : State) : Out :=
  issue (.fsetp h f) (fun e =>
    let t := f.ty.toNat
    let m := fmtOf t
    let x (k : Kind) (r : BitVec 11) (l : Nat) : FVal := fdec m (opnd m (src e t k r l) 0 false false (f.sub.getLsbD 4))
    .done e.s (wrP e f.d fun l =>
      comb f.rnd.toNat (fcmp (f.sub.toNat % 16) (ford (x f.ka f.a l) (x f.kb f.b l))) (prd e f.c l))) s

/-- PSETP (15 R281). -/
def execPsetp (h : Hdr) (f : FmtR) (s : State) : Out :=
  issue (.psetp h f) (fun e => .done e.s (wrP e f.d fun l => table3 (modTable f) (prd e f.a l) (prd e f.b l) (prd e f.c l))) s

/-- SEL (15 R282). -/
def execSel (h : Hdr) (f : FmtR) (s : State) : Out :=
  issue (.sel h f) (fun e => .done e.s (wrD e f.kd f.d fun l => if prd e f.c l then src e 0 f.ka f.a l else src e 0 f.kb f.b l)) s

/-- MOV (15 R282). -/
def execMov (h : Hdr) (f : FmtR) (s : State) : Out :=
  issue (.mov h f) (fun e => .done e.s (wrD e f.kd f.d fun l => src e 0 f.ka f.a l)) s

/-- MOVI (15 R282). -/
def execMovi (h : Hdr) (f : FmtI) (s : State) : Out :=
  issue (.movi h f) (fun e => .done e.s (wrD e f.kd f.d fun _ => f.imm)) s

/-- READLANE (15 R283). -/
def execReadlane (h : Hdr) (f : FmtR) (s : State) : Out :=
  issue (.readlane h f) (fun e =>
    let j := (src e 0 f.kb f.b 0).toNat % 32
    .done e.s (wrD e true f.d fun _ => if e.act.getLsbD j then vreg e f.a.toNat j else 0)) s

/-- BCAST (15 R282). -/
def execBcast (h : Hdr) (f : FmtR) (s : State) : Out :=
  issue (.bcast h f) (fun e => .done e.s (wrD e false f.d fun l => src e 0 .k f.a l)) s

/-- The lane that SHFL reads, if it lies in the segment (15 R284). -/
def shflLane (mode w l sv : Nat) : Option Nat :=
  let seg := l - l % w
  let i := l % w
  let j : Int := match mode with
    | 0 => sv
    | 1 => (i : Int) - sv
    | 2 => (i : Int) + sv
    | _ => (i ^^^ sv : Nat)
  if 0 ≤ j && j < w then some (seg + j.toNat) else none

/-- SHFL (15 R284). -/
def execShfl (h : Hdr) (f : FmtR) (s : State) : Out :=
  issue (.shfl h f) (fun e => .done e.s (wrD e false f.d fun l =>
    match shflLane (f.sub.toNat % 4) f.c.toNat l (src e 0 f.kb f.b l).toNat with
    | some j => if e.act.getLsbD j then vreg e f.a.toNat j else vreg e f.a.toNat l
    | none => vreg e f.a.toNat l)) s

/-- VOTE (15 R285). -/
def execVote (h : Hdr) (f : FmtR) (s : State) : Out :=
  issue (.vote h f) (fun e =>
    let m := maskOf fun l => e.act.getLsbD l && prd e f.a l
    .done e.s (match f.sub.toNat with
      | 0 => wrP e f.d fun _ => m == e.act
      | 1 => wrP e f.d fun _ => m != 0
      | _ => wrD e f.kd f.d fun _ => m)) s

/-- MATCH (15 R286). -/
def execLmatch (h : Hdr) (f : FmtR) (s : State) : Out :=
  issue (.lmatch h f) (fun e =>
    let eq (l : Nat) : Word := maskOf fun m => e.act.getLsbD m && src e 0 f.ka f.a m == src e 0 f.ka f.a l
    .done e.s (wrD e false f.d fun l => if f.sub.getLsbD 0 then (if eq l == e.act then e.act else 0) else eq l)) s

/-- One step of REDUX. -/
def reduxOp (op t : Nat) (x y : Word) : Word :=
  match op with
  | 0 => x + y | 1 => iminVal t x y | 2 => imaxVal t x y | 3 => x &&& y | 4 => x ||| y | _ => x ^^^ y

/-- REDUX (15 R287). -/
def execRedux (h : Hdr) (f : FmtR) (s : State) : Out :=
  issue (.redux h f) (fun e =>
    let xs := (lanesOf e.act).map fun l => src e 0 f.ka f.a l
    let x := match xs with
      | [] => 0
      | x :: r => r.foldl (reduxOp f.sub.toNat f.ty.toNat) x
    .done e.s (wrD e f.kd f.d fun _ => x)) s

/-! ### Special registers (13 R234, 15 R288) -/

/-- A special register in lane `l`. -/
def special (e : Env) (n l : Nat) : Word :=
  let r := e.grid.lrec
  let (x, y, z) := blockXYZ r e.blk.lin
  BitVec.ofNat 32 (match n with
    | 0x00 => if e.th.cc then 0 else l
    | 0x01 => if e.th.cc then e.blk.ctl.getD 0 else e.th.idx
    | 0x02 => if e.th.cc then 1 else e.blk.nstr
    | 0x03 => x | 0x04 => y | 0x05 => z
    | 0x06 => r.gx | 0x07 => r.gy | 0x08 => r.gz
    | 0x09 => e.blk.core | 0x0A => e.blk.core / 8 | 0x0B => stackOf e.blk.core
    | 0x0C => e.s.time
    | 0x0D => preqOf e.blk
    | 0x0E => if e.th.cc then 0 else e.blk.mirrored.toNat
    | 0x0F => if e.th.cc then 0 else e.th.sppass.toNat
    | 0x10 => r.chk.toNat
    | _ => if e.th.cc then e.th.mxstat.toNat else 0)

/-- GETSR (15 R288). -/
def execGetsr (h : Hdr) (f : FmtR) (s : State) : Out :=
  issue (.getsr h f) (fun e => .done e.s (wrD e f.kd f.d fun l => special e f.a.toNat l)) s

/-- SETSR (15 R288): from a uniform source, or the lowest active lane. -/
def execSetsr (h : Hdr) (f : FmtR) (s : State) : Out :=
  issue (.setsr h f) (fun e =>
    let x := src e 0 f.kb f.b (low e)
    if e.act == 0 then .done e.s []
    else .done (modThread e.s e.tid fun th =>
      if f.a == 0x0F then (if th.cc then th else { th with sppass := x })
      else if th.cc then { th with mxstat := x.getLsbD 0 } else th) []) s

/-- P2V (15 R289). -/
def execP2v (h : Hdr) (f : FmtR) (s : State) : Out :=
  issue (.p2v h f) (fun e => .done e.s (wrD e false f.d fun l =>
    (maskOf fun n => rdP e.th e.s.time e.s.freeCtr n l) &&& src e 0 f.ka f.a l)) s

/-- V2P (15 R289). -/
def execV2p (h : Hdr) (f : FmtR) (s : State) : Out :=
  issue (.v2p h f) (fun e => .done e.s ((List.range 31).filterMap fun n =>
    let m := maskOf fun l => e.act.getLsbD l && (src e 0 f.kb f.b l).getLsbD n
    if m == 0 then none else some (.p n m (maskOf fun l => (src e 0 f.ka f.a l).getLsbD n)))) s

end Sys2Proof.Machine
end

