-- ==== Sys2Proof/Machine/Control.lean ====
section
/-! DEFINITION. Class 0x3: branches, calls, exit, the execution mask, yielding, waiting and continuations
(15 R290-R300, 08 R127-R131). -/
namespace Sys2Proof.Machine

/-! ### Branches -/

/-- A target of a branch: where, which lanes of EM, and whether it is a callee. -/
structure Dest where
  pc : Dword
  lanes : Word
  call : Bool
deriving DecidableEq, Repr

/-- Add a lane's target; a fragment that goes to a callee for one lane has called. -/
def addDest (ds : List Dest) (pc : Dword) (lanes : Word) (call : Bool) : List Dest :=
  match ds with
  | [] => [⟨pc, lanes, call⟩]
  | d :: r => if d.pc == pc then { d with lanes := d.lanes ||| lanes, call := d.call || call } :: r else d :: addDest r pc lanes call

/-- Insert by rising target. -/
def insDest (d : Dest) : List Dest → List Dest
  | [] => [d]
  | x :: r => if d.pc.toNat < x.pc.toNat then d :: x :: r else x :: insDest d r

/-- The distinct targets of the lanes of EM, in the order of R128: the not-taken child of `BRA` and `CALL` first, else by
rising target. -/
def destsOf (e : Env) (direct call : Bool) (tgt : Nat → Dword) : List Dest :=
  let fall := e.fr.pc + 12
  let ds := (lanesOf e.fr.em).foldl (fun ds l =>
    if e.act.getLsbD l then addDest ds (tgt l) (1 <<< l) call else addDest ds fall (1 <<< l) false) []
  let ds := ds.foldl (fun o d => insDest d o) []
  if direct then ds.filter (·.pc == fall) ++ ds.filter (·.pc != fall) else ds

/-- A computed target lies a multiple of 12 from CODE, or from CTRL on a control context (13 R235). -/
def codeOk (e : Env) (pc : Dword) : Bool :=
  ((pc.toNat : Int) - (if e.th.cc then e.grid.lrec.ctrl else e.grid.lrec.code : Nat)) % 12 == 0

/-- Granules of the spill area for a depth of the call stack (15 R293). -/
def spillGran (depth : Nat) : Nat := (depth - 16 + 255) / 256

/-- Room for `n` more entries: a trap past 1,024, a fault when the pool cannot back the spill area. -/
def growCalls (e : Env) (s : State) (n : Nat) : Except Act State :=
  let d := e.th.calls.length + n
  if d > 1024 then .error (.trap 1 0 e.act 0)
  else
    let need := spillGran d - e.th.spill
    let c := e.grid.ctx
    match tget s.ctxs c with
    | none => if need = 0 then .ok s else .error (.flt s [(.pool 1, 0)])
    | some cx =>
      if need > poolFree s c cx then .error (.flt s [(.pool 1, 0)])
      else .ok (modThread s e.tid fun th => { th with spill := th.spill + need })

/-- The entry that a callee pushes. -/
def retEntry (e : Env) (owner : Nat) : Call := { serial := false, pc := e.fr.pc + 12, owner := owner }

/-- One target: the fragment goes there. `sig`: its signature after the branch. -/
def goOne (e : Env) (d : Dest) (sig : Word) (th : Thread) : Thread :=
  { th with
    frags := tset th.frags e.fi (arrive th { e.fr with pc := d.pc, sig := sig })
    calls := if d.call then retEntry e (2 * e.fi) :: th.calls else th.calls }

/-- The split that a fragment becomes. -/
def newSplit (e : Env) (serial : Bool) : Split :=
  { addr := e.fr.rcv, dis := e.fr.m &&& ~~~e.fr.em, parent := e.fr.split, serial := serial, entry := e.fi, inCont := e.fr.inCont }

/-- A child of a split; the branch's YLD demotes it (06 R97). -/
def childFrag (e : Env) (th : Thread) (sid : Nat) (sig bmask : Word) (d : Dest) : Frag :=
  arrive th { pc := d.pc, m := d.lanes, em := d.lanes, split := sid, sig := sig, bmask := bmask, demoted := e.h.yld, busyAt := some e.s.time, fences := e.fr.fences }

/-- F splits into one fragment for each target (08 R128). -/
def goSplit (e : Env) (sid : Nat) (ds : List Dest) (sig : Word) (mask : Dest → Word) (th : Thread) : Thread :=
  let th := { th with
    splits := tset th.splits sid (newSplit e false)
    calls := passCalls th.calls (2 * e.fi) (2 * sid + 1) }
  (ds.zip (e.fi :: freeEntries th)).foldl (fun th x => { th with
    frags := tset th.frags x.2 (childFrag e th sid sig (mask x.1) x.1)
    calls := if x.1.call then retEntry e (2 * x.2) :: th.calls else th.calls }) th

/-- F runs in serial mode: the first target's lanes run, the others wait on the call stack (08 R130). -/
def goSerial (e : Env) (sid : Nat) (d : Dest) (ds : List Dest) (sig : Word) (mask : Dest → Word) (th : Thread) : Thread :=
  let wait := ds.map fun d => ({ serial := true, pc := d.pc, owner := 2 * sid + 1, lanes := d.lanes, sig := sig,
                                 ret := if d.call then some (e.fr.pc + 12) else none } : Call)
  let th := { th with
    splits := tset th.splits sid (newSplit e true)
    calls := wait ++ passCalls th.calls (2 * e.fi) (2 * sid + 1) }
  { th with
    frags := tset th.frags e.fi (childFrag e th sid sig (mask d) d)
    calls := if d.call then retEntry e (2 * e.fi) :: th.calls else th.calls }

/-- Trace records of a branch (10 R192): a taken branch, a split. -/
def traceBranch (e : Env) (s : State) (n : Nat) : State :=
  let sid := strandId e.s e.th e.fi
  let s := if e.act != 0 then lacewing s (stackOf e.blk.core) 1 0 sid e.act e.fr.pc else s
  if n > 1 then lacewing s (stackOf e.blk.core) 2 0 sid e.act e.fr.pc else s

/-- Split or continue (08 R128, R130, 15 R291-R294). A branch other than `CALL` folds a split record, and a child's block-entry
mask is its EM (10 R188). -/
def branchTo (i : Instr) (e : Env) (ds : List Dest) : Act :=
  let calls := (ds.filter (·.call)).length
  let isCall := opOf i == 0x0C2
  let sig := issueSig i e (if isCall then 0 else 1)
  let mask (d : Dest) : Word := if isCall then e.fr.bmask else d.lanes
  let serial := ds.length > 1 && (freeEntries e.th).length < ds.length - 1
  match growCalls e e.s (if serial then ds.length - 1 + ((ds.take 1).filter (·.call)).length else calls) with
  | .error (.trap c _ l a) => .trap c (opOf i) l a
  | .error a => a
  | .ok s =>
    let sid := s.nextId
    match ds with
    | [] => .ctl s
    | [d] => .ctl (traceBranch e (modThread s e.tid (goOne e d sig)) 1)
    | d :: r =>
      .ctl (traceBranch e (modThread (newId s) e.tid
        (if serial then goSerial e sid d r sig mask else goSplit e sid ds sig mask)) ds.length)

/-- A direct branch, BRA or CALL (15 R291, R292). -/
def branchDirect (i : Instr) (f : FmtB) (call : Bool) (e : Env) : Act :=
  let t := e.fr.pc + 12 * f.tgt.signExtend 64
  if e.fr.em == 0 then
    branchTo i e [if e.h.gp == 31 && !e.h.gn then ⟨t, 0, call⟩ else ⟨e.fr.pc + 12, 0, false⟩]
  else branchTo i e (destsOf e true call fun _ => t)

/-- A computed branch, BRX or CALLX. -/
def branchPair (i : Instr) (f : FmtB) (call : Bool) (e : Env) : Act :=
  let t (l : Nat) : Dword := pr e f.ka f.a l
  let bad := failing e fun l => !codeOk e (t l)
  if e.fr.em == 0 then branchTo i e [⟨e.fr.pc + 12, 0, false⟩]
  else if bad != 0 then .trap 1 (opOf i) bad 0
  else branchTo i e (destsOf e false call t)

/-- BRA (15 R292). -/
def execBra (h : Hdr) (f : FmtB) (s : State) : Out := issue (.bra h f) (branchDirect (.bra h f) f false) s
/-- BRX (15 R292). -/
def execBrx (h : Hdr) (f : FmtB) (s : State) : Out := issue (.brx h f) (branchPair (.brx h f) f false) s
/-- CALL (15 R294). -/
def execCall (h : Hdr) (f : FmtB) (s : State) : Out := issue (.call h f) (branchDirect (.call h f) f true) s
/-- CALLX (15 R294). -/
def execCallx (h : Hdr) (f : FmtB) (s : State) : Out := issue (.callx h f) (branchPair (.callx h f) f true) s

/-- The newest return entry of an owner, with the rest of the stack. -/
def popRet (cs : List Call) (o : Nat) : Option (Dword × List Call) :=
  match cs with
  | [] => none
  | c :: r => if !c.serial && c.owner = o then some (c.pc, r) else (popRet r o).map fun (p, r') => (p, c :: r')

/-- RET (15 R294). -/
def execRet (h : Hdr) (f : FmtB) (s : State) : Out :=
  issue (.ret h f) (fun e =>
    let guarded := !(e.h.gp == 31 && !e.h.gn)
    if e.act == 0 && (e.fr.em != 0 || guarded) then branchTo (.ret h f) e [⟨e.fr.pc + 12, e.fr.em, false⟩]
    else if e.act != e.fr.em then .trap 1 (opOf (.ret h f)) e.act 0
    else match popRet e.th.calls (2 * e.fi) with
      | none => .trap 1 (opOf (.ret h f)) e.act 0
      | some (pc, cs) =>
        if !codeOk e pc then .trap 1 (opOf (.ret h f)) e.act 0
        else
          let s := modThread e.s e.tid fun th =>
            { goOne e ⟨pc, e.fr.em, false⟩ (issueSig (.ret h f) e 1) th with calls := cs }
          .ctl (traceBranch e s 1)) s

/-- RCV (15 R295). -/
def execRcv (h : Hdr) (f : FmtB) (s : State) : Out :=
  issue (.rcv h f) (fun e =>
    let p := e.fr.pc + 12 * f.tgt.signExtend 64
    .done (modThread e.s e.tid fun th => { th with frags := tmod th.frags e.fi fun fr => { fr with rcv := some p } }) []) s

/-! ### Exit and the execution mask -/

/-- EXIT (15 R296). -/
def execExit (h : Hdr) (f : FmtB) (s : State) : Out :=
  issue (.exit h f) (fun e => .ctl (modThread e.s e.tid fun th => advance (.exit h f) e (endLanes th e.fi e.act))) s

/-- MASKR (15 R297). -/
def execMaskr (h : Hdr) (f : FmtB) (s : State) : Out :=
  issue (.maskr h f) (fun e => .done e.s (wrD e (f.ka == .k) f.a fun _ => e.fr.em)) s

/-- MASKW (15 R297, 08 R131); on a control context EM is always 1 (13 R237). -/
def execMaskw (h : Hdr) (f : FmtB) (s : State) : Out :=
  issue (.maskw h f) (fun e =>
    let em := if e.th.cc then e.fr.m else uniB e f &&& e.fr.m
    .ctl (modThread e.s e.tid fun th => { th with
      frags := tset th.frags e.fi (arrive th { e.fr with
        pc := e.fr.pc + 12, em := em, bmask := em, sig := issueSig (.maskw h f) e 0 }) })) s

/-! ### Yielding and waiting -/

/-- NOP (15 R298). -/
def execNop (h : Hdr) (f : FmtB) (s : State) : Out := issue (.nop h f) (fun e => .done e.s []) s

/-- A pre-emption point: the fragment stops while a request is pending; a cancel kills the block (10 R178, 11 R212). -/
def yieldPoint (e : Env) : Act :=
  if e.blk.preq.contains 5 then .ctl (cancelBlock e.s e.th.bid)
  else if e.blk.preq.isEmpty then .done e.s []
  else .defer e.s .stopped

/-- YIELD (15 R298). -/
def execYield (h : Hdr) (f : FmtB) (s : State) : Out := issue (.yield h f) yieldPoint s
/-- YIELD.req (15 R298). -/
def execYieldReq (h : Hdr) (f : FmtB) (s : State) : Out := issue (.yieldReq h f) yieldPoint s

/-- SLEEP (15 R299). -/
def execSleep (h : Hdr) (f : FmtB) (s : State) : Out :=
  issue (.sleep h f) (fun e =>
    let n := (uniB e f).toNat
    if n = 0 || preqOf e.blk != 0 then .done e.s []
    else .defer (atTime e.s (e.s.time + n) (.sleepExpiry e.tid e.fi)) (.sleep (e.s.time + n))) s

/-- SLEEP_EXPIRY: the fragment leaves SLEEP once its time has come (15 R299). -/
def execSleepExpiry (t fr : Nat) (s : State) : Out :=
  .next (modThread s t fun th => if staysParked th then th else rejoin { th with frags := tmod th.frags fr fun f =>
    match f.park with
    | .sleep till => if till ≤ s.time then { f with park := .run } else f
    | _ => f })

/-! ### Continuations -/

/-- CONT (15 R300). -/
def execCont (h : Hdr) (f : FmtB) (s : State) : Out :=
  issue (.cont h f) (fun e =>
    .done (modThread e.s e.tid fun th => { th with contAddr := some (e.fr.pc + 12 * f.tgt.signExtend 64) }) []) s

/-- CONT.off (15 R300). -/
def execContOff (h : Hdr) (f : FmtB) (s : State) : Out :=
  issue (.contOff h f) (fun e => .done (modThread e.s e.tid fun th => { th with contAddr := none }) []) s

/-- The faulted instruction's fragment as the frame has it (10 R176, R188). -/
def restoreFrame (fi : Nat) (fr : Frag) (w : Frame) (th : Thread) : Thread :=
  let em := w.em &&& fr.m
  { th with
    frame := none
    splits := tmap th.splits fun _ sp => { sp with inCont := false }
    frags := tset th.frags fi { fr with pc := w.pc, em := em, bmask := em, sig := w.sig, inCont := false, prog := [], snaps := [] } }

/-- CRET (15 R300, 10 R176). -/
def execCret (h : Hdr) (f : FmtB) (s : State) : Out :=
  issue (.cret h f) (fun e =>
    match e.th.frame with
    | none => .trap 1 (opOf (.cret h f)) e.act 0
    | some w =>
      if !e.fr.inCont then .trap 1 (opOf (.cret h f)) e.act 0
      else if !w.served then .hold e.s (.cret w.rcd)
      else if !codeOk e w.pc then .trap 1 (opOf (.cret h f)) e.act 0
      else .ctl (modThread e.s e.tid (restoreFrame e.fi e.fr w))) s

end Sys2Proof.Machine
end

