-- ==== Sys2Proof/Machine/Convert.lean ====
section
/-! DEFINITION. The conversions of class 0x5 (16 R312-R317). -/
namespace Sys2Proof.Machine

/-! ### Values -/

/-- An integer result: sign-extended for s types, zero-extended for n types, as 64 bits. -/
def extInt (t : Nat) (x : Int) : Dword :=
  let n := intBits t
  if signedTy t then BitVec.ofInt 64 (BitVec.ofInt n x).toInt else BitVec.ofNat 64 (BitVec.ofInt n x).toNat

/-- The integer that a source of a TYPE holds, from the low bits. -/
def srcInt (st : Nat) (x : Dword) : Int :=
  let n := intBits st
  if signedTy st then (x.setWidth n).toInt else (x.setWidth n).toNat

/-- CVT.dt.st (16 R312) on a 64-bit source. -/
def cvtVal (dt st rnd : Nat) (ftz sat : Bool) (x : Dword) : Dword :=
  if st ≤ 7 then
    let v := srcInt st x
    if dt ≤ 7 then extInt dt (if sat then clampInt (intBits dt) (signedTy dt) v else v)
    else BitVec.ofNat 64 (fround (fmtOf dt) rnd ftz (intVal v))
  else
    let m := fmtOf st
    let y := fdec m (flush m ftz (x.toNat % 2 ^ (m.eb + m.fb + 1)))
    if dt ≤ 7 then extInt dt (floatToInt dt rnd y)
    else BitVec.ofNat 64 (fround (fmtOf dt) rnd ftz y)

/-- PACK (16 R314). -/
def packVal (f : FmtR) (a b c : Word) : Word :=
  let t := f.ty.toNat
  let ftz := f.sub.getLsbD 4
  if packed t then
    let m := fmtOf t
    let g (x : Word) : Nat := fround m f.rnd.toNat ftz (fdec f32 (flush f32 ftz x.toNat))
    BitVec.ofNat 32 (g a + 65536 * g b)
  else
    let n := intBits t
    let g (x : Word) : Nat := (BitVec.ofInt n (clampInt n (signedTy t) x.toInt)).toNat
    if n = 16 then BitVec.ofNat 32 (g a + 65536 * g b)
    else BitVec.ofNat 32 (g a + 256 * g b + 65536 * (c.toNat % 65536))

/-- UNPK (16 R315): element 0 or the lower byte in the low word. -/
def unpkVal (f : FmtR) (a : Word) : Dword :=
  let t := f.ty.toNat
  if packed t then
    let m := fmtOf t
    let g (i : Nat) : Word := BitVec.ofNat 32 (fround f32 0 false (fdec m (opnd m a i false false (f.sub.getLsbD 4))))
    g 1 ++ g 0
  else
    let n := intBits t
    let at' := if n = 8 then 16 * (f.b.toNat % 2) else 0
    let g (i : Nat) : Word := (extInt t (a.toNat / 2 ^ (at' + n * i) : Nat)).setWidth 32
    g 1 ++ g 0

/-! ### Slots of the issuing grid -/

/-- Format slot `i` in effect (12 R222). -/
def slotOf (e : Env) (i : Nat) : Dword := e.grid.lrec.slots.getD i 0

/-- The kinds that a slot-indexed conversion accepts (16 R313). -/
def cvtKindOk (s : Dword) : Bool := slotA s == 1 || slotA s == 2 || isIntKind (slotA s)

/-! ### Instructions -/

/-- CVT, plain form (16 R312). -/
def execCvt (h : Hdr) (f : FmtR) (s : State) : Out :=
  issue (.cvt h f) (fun e =>
    let dt := f.ty.toNat
    let st := f.sub.toNat % 16
    let x (l : Nat) : Dword := if is64 st then pr e f.ka f.a l else (src e st f.ka f.a l).setWidth 64
    let y (l : Nat) : Dword := cvtVal dt st f.rnd.toNat (f.sub.getLsbD 4) f.sat (x l)
    .done e.s (if is64 dt then wrPair e f.kd f.d y else wrD e f.kd f.d fun l => lo32 (y l))) s

/-- CVT.q (16 R313). -/
def execCvtQ (h : Hdr) (f : FmtR) (s : State) : Out :=
  issue (.cvtQ h f) (fun e =>
    let sl := slotOf e f.b.toNat
    if !cvtKindOk sl then .trap 1 0x140 e.act 0
    else .done e.s (wrD e f.kd f.d fun l => cvtQVal sl (src e 9 f.ka f.a l))) s

/-- CVT.dq (16 R313). -/
def execCvtDq (h : Hdr) (f : FmtR) (s : State) : Out :=
  issue (.cvtDq h f) (fun e =>
    let sl := slotOf e f.b.toNat
    if !cvtKindOk sl then .trap 1 0x140 e.act 0
    else .done e.s (wrD e f.kd f.d fun l => cvtDqVal sl (src e 0 f.ka f.a l))) s

/-- PACK (16 R314): the float forms read f32, the others s32. -/
def execPack (h : Hdr) (f : FmtR) (s : State) : Out :=
  issue (.pack h f) (fun e =>
    let t := if packed f.ty.toNat then 9 else 0
    .done e.s (wrD e f.kd f.d fun l => packVal f (src e t f.ka f.a l) (src e t f.kb f.b l) (src e 0 f.kc f.c l))) s

/-- UNPK (16 R315). -/
def execUnpk (h : Hdr) (f : FmtR) (s : State) : Out :=
  issue (.unpk h f) (fun e => .done e.s (wrPair e f.kd f.d fun l => unpkVal f (src e f.ty.toNat f.ka f.a l))) s

/-- The byte index of BPNSPL and BPNJN. -/
def bpnByte (e : Env) (f : FmtR) : Nat := (src e 0 f.kb f.b 0).toNat % 4

/-- BPNSPL (16 R316): lane 8·b + j receives plane j; only active lanes are read and written. -/
def execBpnspl (h : Hdr) (f : FmtR) (s : State) : Out :=
  issue (.bpnspl h f) (fun e =>
    let b := bpnByte e f
    let plane (j : Nat) : Word := maskOf fun m => e.act.getLsbD m && (vreg e f.a.toNat m).getLsbD (8 * b + 7 - j)
    let ls := (List.range 8).filter fun j => e.act.getLsbD (8 * b + j)
    .done e.s (if ls.isEmpty then [] else [.v f.d.toNat (ls.map fun j => (8 * b + j, plane j))])) s

/-- BPNJN (16 R317). -/
def execBpnjn (h : Hdr) (f : FmtR) (s : State) : Out :=
  issue (.bpnjn h f) (fun e =>
    let b := bpnByte e f
    let p := f.c.toNat
    let w (j : Nat) : Word := if e.act.getLsbD (8 * b + j) then vreg e f.a.toNat (8 * b + j) else 0
    let y (l : Nat) : Nat := (List.range p).foldl (fun a j => if (w j).getLsbD l then a + 2 ^ (7 - j) else a) 0
    .done e.s (wrD e false f.d fun l => (BitVec.ofNat 8 (y l)).signExtend 32)) s

end Sys2Proof.Machine
end

