-- ==== Sys2Proof/Machine/FloatOps.lean ====
section
/-! DEFINITION. Class 0x4, floating point (16 R305-R311), and the function and requantisation instructions of class 0x5
(16 R318-R321). -/
namespace Sys2Proof.Machine

/-! ### Values -/

def faddVal (f : FmtR) (a b : Word) : Word :=
  let t := f.ty.toNat
  let m := fmtOf t
  elemwise t fun i => fround m f.rnd.toNat (f.sub.getLsbD 4) (fsum f.rnd.toNat [fdec m (opA f t a i), fdec m (opB f t b i)])

def fmulVal (f : FmtR) (a b : Word) : Word :=
  let t := f.ty.toNat
  let m := fmtOf t
  elemwise t fun i => fround m f.rnd.toNat (f.sub.getLsbD 4) (fmul (fdec m (opA f t a i)) (fdec m (opB f t b i)))

def ffmaVal (f : FmtR) (a b c : Word) : Word :=
  let t := f.ty.toNat
  let m := fmtOf t
  elemwise t fun i => fround m f.rnd.toNat (f.sub.getLsbD 4)
    (fsum f.rnd.toNat [fmul (fdec m (opA f t a i)) (fdec m (opB f t b i)), fdec m (opC f t c i)])

def fminmaxVal (f : FmtR) (mx : Bool) (a b : Word) : Word :=
  let t := f.ty.toNat
  elemwise t fun i => fminmax (fmtOf t) mx (opA f t a i) (opB f t b i)

def frndVal (f : FmtR) (a : Word) : Word :=
  let t := f.ty.toNat
  elemwise t fun i => flush (fmtOf t) (f.sub.getLsbD 4) (frndBits (fmtOf t) f.rnd.toNat (opA f t a i))

def fclassVal (f : FmtR) (a : Word) : Word :=
  let t := f.ty.toNat
  elemwise t fun i => fclassBits (fmtOf t) (opnd (fmtOf t) a i false false false)

def fdot2Val (f : FmtR) (a b c : Word) : Word :=
  let t := f.ty.toNat
  let m := fmtOf t
  let p (i : Nat) : FVal := fmul (fdec m (opA f t a i)) (fdec m (opB f t b i))
  BitVec.ofNat 32 (fround f32 f.rnd.toNat (f.sub.getLsbD 4)
    (fsum f.rnd.toNat [p 0, p 1, fdec f32 (opnd f32 c 0 false (f.sub.getLsbD 2) (f.sub.getLsbD 4))]))

/-- x · 2^n exactly (16 R310). Every n beyond ±1,000 rounds as ±1,000 does. -/
def scaleBy (n : Int) : FVal → FVal
  | .fin s m e => .fin s m (e + n)
  | x => x

def fscaleVal (f : FmtR) (a b : Word) : Word :=
  let t := f.ty.toNat
  let m := fmtOf t
  elemwise t fun i => fround m f.rnd.toNat (f.sub.getLsbD 4) (scaleBy (max (-1000) (min 1000 b.toInt)) (fdec m (opA f t a i)))

def fsqrtVal (f : FmtR) (a : Word) : Word :=
  BitVec.ofNat 32 (fsqrtBits f32 f.rnd.toNat (f.sub.getLsbD 4) (fdec f32 (opA f 9 a 0)))

def fdivVal (f : FmtR) (a b : Word) : Word :=
  BitVec.ofNat 32 (fdivBits f32 f.rnd.toNat (f.sub.getLsbD 4) (fdec f32 (opA f 9 a 0)) (fdec f32 (opB f 9 b 0)))

/-- The operand of a special function: modifiers, then subnormals read as zeros (16 R319). -/
def sfuIn (f : FmtR) (a : Word) : Nat := flush f32 true (opA f 9 a 0)
/-- A special function's free value, subnormal results written as zeros, never a signalling pattern of its own. -/
def sfuOut (x : Word) : Word := BitVec.ofNat 32 (flush f32 true x.toNat)
def nan32 : Word := 0x7FC00000
def inf32 (neg : Bool) : Word := if neg then 0xFF800000 else 0x7F800000
def zero32 (neg : Bool) : Word := if neg then 0x80000000 else 0
/-- ±2^n, for a normal exponent. -/
def twoTo (neg : Bool) (n : Int) : Word := BitVec.ofNat 32 (fround f32 0 false (.fin neg 1 n))

/-- ±2^n as its exponent. -/
def powExp (m : Nat) (e : Int) : Option Int := if m = 2 ^ m.log2 then some (e + m.log2) else none

/-- FRCP (16 R319): exact at powers of two, else one of the two neighbours of 1/x, within 1 ulp. -/
def frcpVal (x : Nat) : Word :=
  match fdec f32 x with
  | .nan => nan32
  | .inf s => zero32 s
  | .fin s m e =>
    if m = 0 then inf32 s
    else
      let up := (Config.frcp (BitVec.ofNat 32 x)).getLsbD 0
      let exact := powExp m e
      if exact.isSome then sfuOut (twoTo s (-(exact.getD 0)))
      else sfuOut (BitVec.ofNat 32 (roundRat f32 (if up then 3 else 2) false 1 m (-e) + (if s then f32.signBit else 0)))

/-- FRSQ: exact at powers of four, else a value within 2 ulp of 1/√x. -/
def frsqVal (x : Nat) : Word :=
  match fdec f32 x with
  | .nan => nan32
  | .inf s => if s then nan32 else 0
  | .fin s m e =>
    if m = 0 then inf32 s
    else if s then nan32
    else match powExp m e with
      | some n => if n % 2 = 0 then twoTo false (-(n / 2)) else frsqNear m e x
      | none => frsqNear m e x
where
  /-- One of the four neighbours of 1/√x, from ⌊·⌋ - 1 ulp to ⌈·⌉ + 1 ulp. -/
  frsqNear (m : Nat) (e : Int) (x : Nat) : Word :=
    let e' := e + 90 + (e + 90) % 2
    let (r, g) := sqrtSticky (2 ^ 160 * pow2 (e' - e) / m) (-160 - e')
    BitVec.ofNat 32 (roundRat f32 2 false r 1 g - 1 + (Config.frsq (BitVec.ofNat 32 x)).toNat % 4)

/-! ### The functions whose bounds are stated against exact values (16 R319)

Exact values are computed in units of 2^-400, with an error below 2^-150 (notes/assumptions/8.md). -/

def fxBits : Nat := 400
def fxOne : Nat := 2 ^ fxBits

/-- e^z. -/
def fxExp (z : Nat) : Nat :=
  ((List.range 250).foldl (fun (a : Nat × Nat) k => (a.1 + a.2, a.2 * z / fxOne / (k + 1))) (0, fxOne)).1

/-- ln 2. -/
def fxLn2 : Nat := (List.range 400).foldl (fun a k => a + fxOne / ((k + 1) * 2 ^ (k + 1))) 0

/-- arctan (1 / n). -/
def fxAtan (n : Nat) : Int :=
  (List.range 200).foldl (fun (a : Int) k =>
    let t : Int := (fxOne / ((2 * k + 1) * n ^ (2 * k + 1)) : Nat)
    if k % 2 = 0 then a + t else a - t) 0

/-- π, by Machin's formula. -/
def fxPi : Nat := (16 * fxAtan 5 - 4 * fxAtan 239).toNat

/-- The alternating series of sine (`odd` = 1, from r) and cosine (`odd` = 0, from 1). -/
def fxTrig (odd r : Nat) : Int :=
  ((List.range 100).foldl (fun (a : Int × Int) k =>
    (a.1 + a.2, -(a.2 * (r * r : Nat) / (fxOne * fxOne : Nat) / ((2 * k + 1 + odd) * (2 * k + 2 + odd) : Nat)))) (0, if odd = 1 then r else fxOne)).1

/-- log2 of a number in [1, 2), by its bits. -/
def fxLog2 (t : Nat) : Nat :=
  ((List.range 200).foldl (fun (a : Nat × Nat) _ =>
    let q := a.1 * a.1 / fxOne
    if q ≥ 2 * fxOne then (q / 2, 2 * a.2 + 1) else (q, 2 * a.2)) (t, 0)).2 * 2 ^ (fxBits - 200)

/-- m · 2^e. -/
def fxOf (m : Nat) (e : Int) : Nat := m * pow2 (e + fxBits)

/-- A free magnitude that lies within `d` of a value, as an encoding; a free one that does not gives way to the nearest. -/
def fxNear (free v d : Nat) : Nat :=
  let lo := if v ≤ d then 0 else roundRat f32 3 false (v - d) 1 (-fxBits)
  let hi := roundRat f32 1 false (v + d) 1 (-fxBits)
  if lo ≤ free && free ≤ hi then free else if v = 0 then 0 else roundRat f32 0 false v 1 (-fxBits)

/-- A free value within `d` of a signed one. -/
def fxSigned (free : Word) (v : Int) (d : Nat) : Word :=
  let y := fdec f32 free.toNat
  let ok : Bool := match y with
    | .fin s m e => (((if s then -(fxOf m e : Int) else fxOf m e) - v).natAbs ≤ d : Bool)
    | _ => false
  sfuOut (if ok then free else BitVec.ofNat 32 (fround f32 0 false (.fin (v < 0) v.natAbs (-fxBits))))

/-- The greatest of what a function gives at an encoding and at those on the way to it from another, `n` in number. -/
def runMax (g : Nat → Nat) (base : Nat) (up : Bool) : (n : Nat) → Nat
  | 0 => g base
  | n + 1 => max (runMax g base up n) (g (if up then base + (n + 1) else base - (n + 1)))

/-- 2^x within 2 ulp and between the powers of two at the integers `n` and n + 1 around x, as an encoding. -/
def fex2Raw (n : Int) (x : Nat) : Nat :=
  let f : Nat := match fdec f32 x with
    | .fin s m e => ((if s then -(fxOf m e : Int) else fxOf m e) - n * fxOne).toNat
    | _ => 0
  let w := fxExp (f * fxLn2 / fxOne)
  let v := if n < 0 then w / pow2 (-n) else w * pow2 n
  let y := fxNear (Config.fex2 (BitVec.ofNat 32 x)).toNat v (2 * fxOne * pow2 (max n (-126) + 126) / pow2 149)
  max (fround f32 0 false (.fin false 1 n)) (min (fround f32 0 false (.fin false 1 (n + 1))) y)

/-- FEX2 (16 R319): exact at integers from -126 to 127, elsewhere within 2 ulp and monotonic. -/
def fex2Val (x : Nat) : Word :=
  match fdec f32 x with
  | .nan => nan32
  | .inf s => if s then 0 else inf32 false
  | .fin s m e =>
    if m = 0 then 0x3F800000
    else
      let n := roundInt 2 s m e
      let base := fround f32 0 false (intVal n)
      if n < -127 then 0
      else if base == x && n ≤ 127 then (if n = -127 then 0 else twoTo false n)
      else if n ≤ 127 then sfuOut (BitVec.ofNat 32 (if s then runMax (fex2Raw n) base false (base - x) else runMax (fex2Raw n) base true (x - base)))
      else if base == x && n = 128 && (Config.fex2 (BitVec.ofNat 32 x)).toNat % 2 = 0 then 0x7F7FFFFF
      else inf32 false

/-- |log2 x| within its bound and between the integers around it, as an encoding; `n` = ⌊log2 x⌋. -/
def flg2Raw (n : Int) (x : Nat) : Nat :=
  let l := fxLog2 (fxOf (2 ^ 23 + x % 2 ^ 23) (-23))
  let v : Nat := (n * fxOne + l).natAbs
  let d := if v < fxOne then fxOne / 2 ^ 22 else 2 * 2 ^ v.log2 / 2 ^ 23
  let y := fxNear ((Config.flg2 (BitVec.ofNat 32 x)).toNat % f32.signBit) v d
  max (fround f32 0 false (intVal (min n.natAbs (n + 1).natAbs))) (min (fround f32 0 false (intVal (max n.natAbs (n + 1).natAbs))) y)

/-- FLG2 (16 R319): exact at powers of two; elsewhere within 2 ulp, or 2^-22 between 0.5 and 2, and monotonic. -/
def flg2Val (x : Nat) : Word :=
  match fdec f32 x with
  | .nan => nan32
  | .inf s => if s then nan32 else inf32 false
  | .fin s m e =>
    if m = 0 then inf32 true
    else if s then nan32
    else match powExp m e with
      | some n => BitVec.ofNat 32 (fround f32 0 false (intVal n))
      | none =>
        let n := e + m.log2
        let top := x / 2 ^ 23 * 2 ^ 23
        if n < 0 then sfuOut (BitVec.ofNat 32 (runMax (flg2Raw n) (top + 2 ^ 23 - 1) false (top + 2 ^ 23 - 1 - x) + f32.signBit))
        else sfuOut (BitVec.ofNat 32 (runMax (flg2Raw n) top true (x - top)))

/-- FSIN (16 R319): within 2^-21, the argument being reduced exactly. -/
def fsinVal (x : Nat) : Word :=
  match fdec f32 x with
  | .nan => nan32
  | .inf _ => nan32
  | .fin s m e =>
    if m = 0 then zero32 s
    else
      let v := fxTrig 1 (fxOf m e % (2 * fxPi))
      fxSigned (Config.fsin (BitVec.ofNat 32 x)) (if s then -v else v) (fxOne / 2 ^ 21)

/-- FCOS (16 R319). -/
def fcosVal (x : Nat) : Word :=
  match fdec f32 x with
  | .nan => nan32
  | .inf _ => nan32
  | .fin _ m e =>
    if m = 0 then 0x3F800000
    else fxSigned (Config.fcos (BitVec.ofNat 32 x)) (fxTrig 0 (fxOf m e % (2 * fxPi))) (fxOne / 2 ^ 21)

/-- FTANH (16 R319): exactly ±1 for |x| ≥ 9, else within 2^-21. -/
def ftanhVal (x : Nat) : Word :=
  match fdec f32 x with
  | .nan => nan32
  | .inf s => if s then 0xBF800000 else 0x3F800000
  | .fin s m e =>
    if m = 0 then zero32 s
    else if x % f32.signBit ≥ 0x41100000 then (if s then 0xBF800000 else 0x3F800000)
    else
      let w := fxExp (2 * fxOf m e)
      let v : Int := ((w - fxOne) * fxOne / (w + fxOne) : Nat)
      fxSigned (Config.ftanh (BitVec.ofNat 32 x)) (if s then -v else v) (fxOne / 2 ^ 21)

/-- QSHR (16 R320). Every shift above 64 gives 0, as 64 does. -/
def qshrVal (t : Nat) (a b c : Word) : Word :=
  let r := roundInt 4 (a.toInt < 0) a.toInt.natAbs (-((min b.toNat 64 : Nat) : Int)) + c.toInt
  BitVec.ofInt 32 (clampInt (intBits t) (signedTy t) r)

/-- QMUL (16 R321). -/
def qmulVal (a b : Word) : Word := fit 32 4 true ((a.toInt * b.toInt + 2 ^ 30) / 2 ^ 31)

/-! ### Instructions -/

/-- FADD (16 R305). -/
def execFadd (h : Hdr) (f : FmtR) (s : State) : Out :=
  issue (.fadd h f) (fun e => .done e.s (wrD e f.kd f.d fun l => faddVal f (src e f.ty.toNat f.ka f.a l) (src e f.ty.toNat f.kb f.b l))) s

/-- FMUL (16 R305). -/
def execFmul (h : Hdr) (f : FmtR) (s : State) : Out :=
  issue (.fmul h f) (fun e => .done e.s (wrD e f.kd f.d fun l => fmulVal f (src e f.ty.toNat f.ka f.a l) (src e f.ty.toNat f.kb f.b l))) s

/-- FFMA (16 R305): one rounding. -/
def execFfma (h : Hdr) (f : FmtR) (s : State) : Out :=
  issue (.ffma h f) (fun e => .done e.s (wrD e f.kd f.d fun l =>
    ffmaVal f (src e f.ty.toNat f.ka f.a l) (src e f.ty.toNat f.kb f.b l) (src e f.ty.toNat f.kc f.c l))) s

/-- FMIN (16 R306). -/
def execFmin (h : Hdr) (f : FmtR) (s : State) : Out :=
  issue (.fmin h f) (fun e => .done e.s (wrD e f.kd f.d fun l =>
    fminmaxVal f false (src e f.ty.toNat f.ka f.a l) (src e f.ty.toNat f.kb f.b l))) s

/-- FMAX (16 R306). -/
def execFmax (h : Hdr) (f : FmtR) (s : State) : Out :=
  issue (.fmax h f) (fun e => .done e.s (wrD e f.kd f.d fun l =>
    fminmaxVal f true (src e f.ty.toNat f.ka f.a l) (src e f.ty.toNat f.kb f.b l))) s

/-- FRND (16 R307). -/
def execFrnd (h : Hdr) (f : FmtR) (s : State) : Out :=
  issue (.frnd h f) (fun e => .done e.s (wrD e f.kd f.d fun l => frndVal f (src e f.ty.toNat f.ka f.a l))) s

/-- FCLASS (16 R308). -/
def execFclass (h : Hdr) (f : FmtR) (s : State) : Out :=
  issue (.fclass h f) (fun e => .done e.s (wrD e f.kd f.d fun l => fclassVal f (src e f.ty.toNat f.ka f.a l))) s

/-- FDOT2 (16 R309). -/
def execFdot2 (h : Hdr) (f : FmtR) (s : State) : Out :=
  issue (.fdot2 h f) (fun e => .done e.s (wrD e f.kd f.d fun l =>
    fdot2Val f (src e f.ty.toNat f.ka f.a l) (src e f.ty.toNat f.kb f.b l) (src e 9 f.kc f.c l))) s

/-- FSCALE (16 R310): B is an integer. -/
def execFscale (h : Hdr) (f : FmtR) (s : State) : Out :=
  issue (.fscale h f) (fun e => .done e.s (wrD e f.kd f.d fun l => fscaleVal f (src e f.ty.toNat f.ka f.a l) (src e 0 f.kb f.b l))) s

/-- FFREXP (16 R311). -/
def execFfrexp (h : Hdr) (f : FmtR) (s : State) : Out :=
  issue (.ffrexp h f) (fun e => .done e.s (wrPair e f.kd f.d fun l =>
    let r := frexpBits (opA f 9 (src e 9 f.ka f.a l) 0)
    BitVec.ofInt 32 r.2 ++ BitVec.ofNat 32 r.1)) s

/-- FRCP (16 R319). -/
def execFrcp (h : Hdr) (f : FmtR) (s : State) : Out :=
  issue (.frcp h f) (fun e => .done e.s (wrD e f.kd f.d fun l => frcpVal (sfuIn f (src e 9 f.ka f.a l)))) s

/-- FRSQ (16 R319). -/
def execFrsq (h : Hdr) (f : FmtR) (s : State) : Out :=
  issue (.frsq h f) (fun e => .done e.s (wrD e f.kd f.d fun l => frsqVal (sfuIn f (src e 9 f.ka f.a l)))) s

/-- FSQRT (16 R318). -/
def execFsqrt (h : Hdr) (f : FmtR) (s : State) : Out :=
  issue (.fsqrt h f) (fun e => .done e.s (wrD e f.kd f.d fun l => fsqrtVal f (src e 9 f.ka f.a l))) s

/-- FEX2 (16 R319). -/
def execFex2 (h : Hdr) (f : FmtR) (s : State) : Out :=
  issue (.fex2 h f) (fun e => .done e.s (wrD e f.kd f.d fun l => fex2Val (sfuIn f (src e 9 f.ka f.a l)))) s

/-- FLG2 (16 R319). -/
def execFlg2 (h : Hdr) (f : FmtR) (s : State) : Out :=
  issue (.flg2 h f) (fun e => .done e.s (wrD e f.kd f.d fun l => flg2Val (sfuIn f (src e 9 f.ka f.a l)))) s

/-- FSIN (16 R319). -/
def execFsin (h : Hdr) (f : FmtR) (s : State) : Out :=
  issue (.fsin h f) (fun e => .done e.s (wrD e f.kd f.d fun l => fsinVal (sfuIn f (src e 9 f.ka f.a l)))) s

/-- FCOS (16 R319). -/
def execFcos (h : Hdr) (f : FmtR) (s : State) : Out :=
  issue (.fcos h f) (fun e => .done e.s (wrD e f.kd f.d fun l => fcosVal (sfuIn f (src e 9 f.ka f.a l)))) s

/-- FTANH (16 R319). -/
def execFtanh (h : Hdr) (f : FmtR) (s : State) : Out :=
  issue (.ftanh h f) (fun e => .done e.s (wrD e f.kd f.d fun l => ftanhVal (sfuIn f (src e 9 f.ka f.a l)))) s

/-- FDIV (16 R318). -/
def execFdiv (h : Hdr) (f : FmtR) (s : State) : Out :=
  issue (.fdiv h f) (fun e => .done e.s (wrD e f.kd f.d fun l => fdivVal f (src e 9 f.ka f.a l) (src e 9 f.kb f.b l))) s

/-- QSHR (16 R320). -/
def execQshr (h : Hdr) (f : FmtR) (s : State) : Out :=
  issue (.qshr h f) (fun e => .done e.s (wrD e f.kd f.d fun l =>
    qshrVal f.ty.toNat (src e 0 f.ka f.a l) (src e 0 f.kb f.b l) (src e 0 f.kc f.c l))) s

/-- QMUL (16 R321). -/
def execQmul (h : Hdr) (f : FmtR) (s : State) : Out :=
  issue (.qmul h f) (fun e => .done e.s (wrD e f.kd f.d fun l => qmulVal (src e 0 f.ka f.a l) (src e 0 f.kb f.b l))) s

end Sys2Proof.Machine
end

