-- ==== Sys2Proof/Machine/System.lean ====
section
/-! DEFINITION. Class 0xD: traps, signatures, the machine-check record, time, markers, trap registers and assist returns
(19 R378-R386). -/
namespace Sys2Proof.Machine

/-- TRAP (19 R379). -/
def execTrap (h : Hdr) (f : FmtI) (s : State) : Out :=
  issue (.trap h f) (fun e => if e.act == 0 then .done e.s [] else .trap 13 f.imm.toNat e.act 0) s

/-- BKPT (19 R379). -/
def execBkpt (h : Hdr) (f : FmtR) (s : State) : Out :=
  issue (.bkpt h f) (fun e => if e.act == 0 then .done e.s [] else .trap 14 0 e.act 0) s

/-- Once its block has halted, the handler starts (10 R168); with no trap pending any more the block resumes (10 R167). -/
def execTrapHandlerEntry (b : Nat) (s : State) : Out :=
  match tget s.blocks b with
  | none => .next s
  | some x => .next (if !x.halted || x.trap.active then s else if (nextPending s b).isSome then enterHandler s b else resumeBlock s b)

/-- TRET.resume (19 R380, 10 R169). -/
def execTretResume (h : Hdr) (f : FmtR) (s : State) : Out :=
  issue (.tretResume h f) (fun e =>
    if codeOk e (e.blk.trap.tpch ++ e.blk.trap.tpcl) then .ctl (trapReturn e.s e.tid)
    else .trap 1 (opOf (.tretResume h f)) e.act 0) s

/-- TRET.kill (19 R380, 10 R169, R171). -/
def execTretKill (h : Hdr) (f : FmtR) (s : State) : Out :=
  issue (.tretKill h f) (fun e =>
    .ctl (killBlock e.s e.th.bid (e.blk.trap.tcause.toNat % 256) (strandId e.s e.th e.fi)
      (e.blk.trap.taddrh ++ e.blk.trap.taddrl).toNat)) s

/-- The fragment goes on with its signature reset and EM as its block-entry mask (10 R188). -/
def sigRestart (e : Env) : State :=
  modThread e.s e.tid fun th =>
    match tget th.frags e.fi with
    | none => th
    | some fr => { th with frags := tset th.frags e.fi (arrive th { fr with pc := fr.pc + 12, sig := sigReset, bmask := fr.em }) }

/-- SIGCHK (19 R382, 10 R188, R189). -/
def execSigchk (h : Hdr) (f : FmtI) (s : State) : Out :=
  issue (.sigchk h f) (fun e =>
    if e.fr.sig == f.imm then .ctl (sigRestart e)
    else .ctl (machineCheck e.s e.tid e.fi e.act
      (mcRecord e.s e.th 5 7 0 0x342 0 false e.fr.pc (f.imm.toNat * 2 ^ 32 + e.fr.sig.toNat)))) s

/-- SIGRST (19 R382). -/
def execSigrst (h : Hdr) (f : FmtR) (s : State) : Out := issue (.sigrst h f) (fun e => .ctl (sigRestart e)) s

/-- MCHKR (19 R383). -/
def execMchkr (h : Hdr) (f : FmtR) (s : State) : Out :=
  issue (.mchkr h f) (fun e => .done e.s (wrPair e f.kd f.d fun _ => e.blk.mc.getD f.a.toNat 0)) s

/-- CLOCK (19 R384). -/
def execClock (h : Hdr) (f : FmtR) (s : State) : Out :=
  issue (.clock h f) (fun e => .done e.s (wrPair e f.kd f.d fun _ => BitVec.ofNat 64 e.s.time)) s

/-- PMARK (19 R385). -/
def execPmark (h : Hdr) (f : FmtI) (s : State) : Out :=
  issue (.pmark h f) (fun e =>
    .done (if e.act == 0 then e.s
      else lacewing e.s (stackOf e.blk.core) 6 f.imm.toNat (strandId e.s e.th e.fi) e.act e.fr.pc) []) s

/-- GETFMT (19 R384). -/
def execGetfmt (h : Hdr) (f : FmtR) (s : State) : Out :=
  issue (.getfmt h f) (fun e => .done e.s (wrPair e f.kd f.d fun _ => slotOf e f.a.toNat)) s

/-- Bit i of a mask: strand lo + i of a block has a pending trap. -/
def pendMask (s : State) (bid lo : Nat) : Word :=
  maskOf fun i => ((tget s.threads (bid * 128 + lo + i)).bind (·.pendTrap)).isSome

/-- A trap register (10 R168); the stop record of a strand that does not exist keeps its reset value. -/
def trapReg (s : State) (bid : Nat) (t : TrapMode) (n : Nat) : Word :=
  match n with
  | 0 => t.tcause
  | 1 => t.tpcl
  | 2 => t.tpch
  | 3 => t.tem
  | 4 => t.tlanes
  | 5 => t.taddrl
  | 6 => t.taddrh
  | 7 => pendMask s bid 0
  | 8 => pendMask s bid 32
  | _ =>
    if n < 0x18 then sget t.tscr (n - 0x10)
    else match tget s.threads (bid * 128 + (n - 0x40)) with
      | some th => stopRecord s th
      | none => 0

/-- SYSR (19 R381). -/
def execSysr (h : Hdr) (f : FmtR) (s : State) : Out :=
  issue (.sysr h f) (fun e => .done e.s (wrD e f.kd f.d fun _ => trapReg e.s e.th.bid e.blk.trap f.a.toNat)) s

/-- A write of a trap register that is RW. -/
def setTrapReg (t : TrapMode) (n : Nat) (x : Word) : TrapMode :=
  match n with
  | 1 => { t with tpcl := x }
  | 2 => { t with tpch := x }
  | 3 => { t with tem := x }
  | _ => { t with tscr := sset t.tscr (n - 0x10) x }

/-- SYSW (19 R381). -/
def execSysw (h : Hdr) (f : FmtR) (s : State) : Out :=
  issue (.sysw h f) (fun e =>
    .done (if e.act == 0 then e.s
      else modBlock e.s e.th.bid fun b => { b with trap := setTrapReg b.trap f.a.toNat (src e 0 f.kb f.b (low e)) }) []) s

/-- The assist routine ends: the saved registers and the PC return (10 R190). -/
def assistReturn (th : Thread) (fi : Nat) (a : AssistSave) (sig : Word) : Thread :=
  match tget th.frags fi with
  | none => th
  | some fr => { th with
      assistSave := none
      v := (List.range 4).foldl (fun v j => sset v (32 * j) (a.v.getD j 0)) th.v
      w := sset (sset th.w 0 a.w0) 1 a.w1
      frags := tset th.frags fi { fr with pc := a.pc, sig := sig } }

/-- ASRET (19 R386, 10 R190). -/
def execAsret (h : Hdr) (f : FmtR) (s : State) : Out :=
  issue (.asret h f) (fun e =>
    match e.th.assistSave with
    | none => .trap 1 (opOf (.asret h f)) e.act 0
    | some a =>
      let s := modThread e.s e.tid fun th => assistReturn th e.fi a (issueSig (.asret h f) e 0)
      .ctl (if e.th.assists.isEmpty then s else after s (.assistEntry e.tid))) s

/-- At its next instruction boundary a flagged context enters its assist routine (10 R190); an instruction that holds before it is
performed, `MXWAIT` among them, issues again after `ASRET`. -/
def execAssistEntry (t : Nat) (s : State) : Out :=
  match tget s.threads t with
  | none => .next s
  | some th => match th.assists, th.frags, th.assistSave with
    | (acc, a, b, k, flags) :: rest, (fi, fr) :: _, none =>
      let between := match fr.park with
        | .run | .mxwait _ | .retry _ => true
        | _ => false
      if !between then .next (atTime (tick s) (s.time + 1 + Config.delay s.freeCtr) (.assistEntry t))
      else
      let g := ((gridOf s th).map (·.lrec.assist)).getD 0
      let save : AssistSave := { pc := fr.pc, v := (List.range 4).map fun j => sget th.v (32 * j), w0 := sget th.w 0, w1 := sget th.w 1 }
      .next (modThread s t fun th => { th with
        assistSave := some save
        assists := rest
        v := sset (sset (sset (sset th.v 0 (BitVec.ofNat 32 acc)) 32 (BitVec.ofNat 32 a)) 64 (BitVec.ofNat 32 b)) 96 (BitVec.ofNat 32 k)
        w := sset (sset th.w 0 (BitVec.ofNat 1024 flags)) 1 (BitVec.ofNat 1024 (flags / 2 ^ 1024))
        frags := tset th.frags fi { fr with pc := BitVec.ofNat 64 g, park := .run } })
    | _, _, _ => .next s

end Sys2Proof.Machine
end

