-- ==== Sys2Proof/Machine/Dispatch.lean ====
section
/-! DEFINITION. One arm for every instruction of the opcode table. -/
namespace Sys2Proof.Machine

def exec (i : Instr) (s : State) : Host.Outcome State Fault Refusal :=
  match i with
  | .iadd h f => Sys2Proof.Machine.execIadd h f s
  | .isub h f => Sys2Proof.Machine.execIsub h f s
  | .iadd3 h f => Sys2Proof.Machine.execIadd3 h f s
  | .iaddc h f => Sys2Proof.Machine.execIaddc h f s
  | .isubb h f => Sys2Proof.Machine.execIsubb h f s
  | .imul h f => Sys2Proof.Machine.execImul h f s
  | .imulhi h f => Sys2Proof.Machine.execImulhi h f s
  | .imad h f => Sys2Proof.Machine.execImad h f s
  | .imadw h f => Sys2Proof.Machine.execImadw h f s
  | .imin h f => Sys2Proof.Machine.execImin h f s
  | .imax h f => Sys2Proof.Machine.execImax h f s
  | .iabs h f => Sys2Proof.Machine.execIabs h f s
  | .idiv h f => Sys2Proof.Machine.execIdiv h f s
  | .irem h f => Sys2Proof.Machine.execIrem h f s
  | .iadd64 h f => Sys2Proof.Machine.execIadd64 h f s
  | .isub64 h f => Sys2Proof.Machine.execIsub64 h f s
  | .aadd h f => Sys2Proof.Machine.execAadd h f s
  | .idot4 h f => Sys2Proof.Machine.execIdot4 h f s
  | .lgc3 h f => Sys2Proof.Machine.execLgc3 h f s
  | .shl h f => Sys2Proof.Machine.execShl h f s
  | .shr h f => Sys2Proof.Machine.execShr h f s
  | .dsh h f => Sys2Proof.Machine.execDsh h f s
  | .rot h f => Sys2Proof.Machine.execRot h f s
  | .popc h f => Sys2Proof.Machine.execPopc h f s
  | .clz h f => Sys2Proof.Machine.execClz h f s
  | .brev h f => Sys2Proof.Machine.execBrev h f s
  | .bfe h f => Sys2Proof.Machine.execBfe h f s
  | .bfi h f => Sys2Proof.Machine.execBfi h f s
  | .bshuf h f => Sys2Proof.Machine.execBshuf h f s
  | .isetp h f => Sys2Proof.Machine.execIsetp h f s
  | .fsetp h f => Sys2Proof.Machine.execFsetp h f s
  | .psetp h f => Sys2Proof.Machine.execPsetp h f s
  | .sel h f => Sys2Proof.Machine.execSel h f s
  | .mov h f => Sys2Proof.Machine.execMov h f s
  | .movi h f => Sys2Proof.Machine.execMovi h f s
  | .readlane h f => Sys2Proof.Machine.execReadlane h f s
  | .bcast h f => Sys2Proof.Machine.execBcast h f s
  | .shfl h f => Sys2Proof.Machine.execShfl h f s
  | .vote h f => Sys2Proof.Machine.execVote h f s
  | .lmatch h f => Sys2Proof.Machine.execLmatch h f s
  | .getsr h f => Sys2Proof.Machine.execGetsr h f s
  | .setsr h f => Sys2Proof.Machine.execSetsr h f s
  | .p2v h f => Sys2Proof.Machine.execP2v h f s
  | .v2p h f => Sys2Proof.Machine.execV2p h f s
  | .redux h f => Sys2Proof.Machine.execRedux h f s
  | .bra h f => Sys2Proof.Machine.execBra h f s
  | .brx h f => Sys2Proof.Machine.execBrx h f s
  | .call h f => Sys2Proof.Machine.execCall h f s
  | .callx h f => Sys2Proof.Machine.execCallx h f s
  | .ret h f => Sys2Proof.Machine.execRet h f s
  | .rcv h f => Sys2Proof.Machine.execRcv h f s
  | .exit h f => Sys2Proof.Machine.execExit h f s
  | .maskr h f => Sys2Proof.Machine.execMaskr h f s
  | .maskw h f => Sys2Proof.Machine.execMaskw h f s
  | .nop h f => Sys2Proof.Machine.execNop h f s
  | .yield h f => Sys2Proof.Machine.execYield h f s
  | .yieldReq h f => Sys2Proof.Machine.execYieldReq h f s
  | .sleep h f => Sys2Proof.Machine.execSleep h f s
  | .sleepExpiry t fr => Sys2Proof.Machine.execSleepExpiry t fr s
  | .cont h f => Sys2Proof.Machine.execCont h f s
  | .contOff h f => Sys2Proof.Machine.execContOff h f s
  | .cret h f => Sys2Proof.Machine.execCret h f s
  | .fadd h f => Sys2Proof.Machine.execFadd h f s
  | .fmul h f => Sys2Proof.Machine.execFmul h f s
  | .ffma h f => Sys2Proof.Machine.execFfma h f s
  | .fmin h f => Sys2Proof.Machine.execFmin h f s
  | .fmax h f => Sys2Proof.Machine.execFmax h f s
  | .frnd h f => Sys2Proof.Machine.execFrnd h f s
  | .fclass h f => Sys2Proof.Machine.execFclass h f s
  | .fdot2 h f => Sys2Proof.Machine.execFdot2 h f s
  | .fscale h f => Sys2Proof.Machine.execFscale h f s
  | .ffrexp h f => Sys2Proof.Machine.execFfrexp h f s
  | .cvt h f => Sys2Proof.Machine.execCvt h f s
  | .cvtQ h f => Sys2Proof.Machine.execCvtQ h f s
  | .cvtDq h f => Sys2Proof.Machine.execCvtDq h f s
  | .pack h f => Sys2Proof.Machine.execPack h f s
  | .unpk h f => Sys2Proof.Machine.execUnpk h f s
  | .bpnspl h f => Sys2Proof.Machine.execBpnspl h f s
  | .bpnjn h f => Sys2Proof.Machine.execBpnjn h f s
  | .frcp h f => Sys2Proof.Machine.execFrcp h f s
  | .frsq h f => Sys2Proof.Machine.execFrsq h f s
  | .fsqrt h f => Sys2Proof.Machine.execFsqrt h f s
  | .fex2 h f => Sys2Proof.Machine.execFex2 h f s
  | .flg2 h f => Sys2Proof.Machine.execFlg2 h f s
  | .fsin h f => Sys2Proof.Machine.execFsin h f s
  | .fcos h f => Sys2Proof.Machine.execFcos h f s
  | .ftanh h f => Sys2Proof.Machine.execFtanh h f s
  | .fdiv h f => Sys2Proof.Machine.execFdiv h f s
  | .qshr h f => Sys2Proof.Machine.execQshr h f s
  | .qmul h f => Sys2Proof.Machine.execQmul h f s
  | .ld h f => Sys2Proof.Machine.execLd h f s
  | .st h f => Sys2Proof.Machine.execSt h f s
  | .lds h f => Sys2Proof.Machine.execLds h f s
  | .sts h f => Sys2Proof.Machine.execSts h f s
  | .tld h f => Sys2Proof.Machine.execTld h f s
  | .tst h f => Sys2Proof.Machine.execTst h f s
  | .ldk h f => Sys2Proof.Machine.execLdk h f s
  | .pref h f => Sys2Proof.Machine.execPref h f s
  | .feset h f => Sys2Proof.Machine.execFeset h f s
  | .feclr h f => Sys2Proof.Machine.execFeclr h f s
  | .atom h f => Sys2Proof.Machine.execAtom h f s
  | .atomcas h f => Sys2Proof.Machine.execAtomcas h f s
  | .atoms h f => Sys2Proof.Machine.execAtoms h f s
  | .atomscas h f => Sys2Proof.Machine.execAtomscas h f s
  | .red h f => Sys2Proof.Machine.execRed h f s
  | .fence h f => Sys2Proof.Machine.execFence h f s
  | .mwait h f => Sys2Proof.Machine.execMwait h f s
  | .mwaitWake t fr => Sys2Proof.Machine.execMwaitWake t fr s
  | .mwaitRemoteReread t fr => Sys2Proof.Machine.execMwaitRemoteReread t fr s
  | .bar h f => Sys2Proof.Machine.execBar h f s
  | .phreg h f => Sys2Proof.Machine.execPhreg h f s
  | .phdrop h f => Sys2Proof.Machine.execPhdrop h f s
  | .phsig h f => Sys2Proof.Machine.execPhsig h f s
  | .phwait h f => Sys2Proof.Machine.execPhwait h f s
  | .phsw h f => Sys2Proof.Machine.execPhsw h f s
  | .gsync h f => Sys2Proof.Machine.execGsync h f s
  | .abase h f => Sys2Proof.Machine.execAbase h f s
  | .abump h f => Sys2Proof.Machine.execAbump h f s
  | .aprom h f => Sys2Proof.Machine.execAprom h f s
  | .ahand h f => Sys2Proof.Machine.execAhand h f s
  | .aqry h f => Sys2Proof.Machine.execAqry h f s
  | .achk h f => Sys2Proof.Machine.execAchk h f s
  | .adrop h f => Sys2Proof.Machine.execAdrop h f s
  | .cpy h f => Sys2Proof.Machine.execCpy h f s
  | .cpyt h f => Sys2Proof.Machine.execCpyt h f s
  | .sortk h f => Sys2Proof.Machine.execSortk h f s
  | .npost h f => Sys2Proof.Machine.execNpost h f s
  | .erun h f => Sys2Proof.Machine.execErun h f s
  | .estat h f => Sys2Proof.Machine.execEstat h f s
  | .elink h f => Sys2Proof.Machine.execElink h f s
  | .launch h f => Sys2Proof.Machine.execLaunch h f s
  | .engineCommandStart c => Sys2Proof.Machine.execEngineCommandStart c s
  | .engineLineLanded c line => Sys2Proof.Machine.execEngineLineLanded c line s
  | .engineCommandFinish c code => Sys2Proof.Machine.execEngineCommandFinish c code s
  | .mma h f => Sys2Proof.Machine.execMma h f s
  | .mmasp h f => Sys2Proof.Machine.execMmasp h f s
  | .mmag h f => Sys2Proof.Machine.execMmag h f s
  | .mxz h f => Sys2Proof.Machine.execMxz h f s
  | .mxdr h f => Sys2Proof.Machine.execMxdr h f s
  | .mxbl h f => Sys2Proof.Machine.execMxbl h f s
  | .mxspec h f => Sys2Proof.Machine.execMxspec h f s
  | .mxcmt h f => Sys2Proof.Machine.execMxcmt h f s
  | .mxdsc h f => Sys2Proof.Machine.execMxdsc h f s
  | .mxwait h f => Sys2Proof.Machine.execMxwait h f s
  | .matrixCommandComplete core => Sys2Proof.Machine.execMatrixCommandComplete core s
  | .assistEntry t => Sys2Proof.Machine.execAssistEntry t s
  | .cfn h f => Sys2Proof.Machine.execCfn h f s
  | .ccor h f => Sys2Proof.Machine.execCcor h f s
  | .cseq h f => Sys2Proof.Machine.execCseq h f s
  | .cpar h f => Sys2Proof.Machine.execCpar h f s
  | .cpipe h f => Sys2Proof.Machine.execCpipe h f s
  | .cfarm h f => Sys2Proof.Machine.execCfarm h f s
  | .cloop h f => Sys2Proof.Machine.execCloop h f s
  | .apply h f => Sys2Proof.Machine.execApply h f s
  | .applyClaim n => Sys2Proof.Machine.execApplyClaim n s
  | .nodeComplete n k => Sys2Proof.Machine.execNodeComplete n k s
  | .awaitc h f => Sys2Proof.Machine.execAwaitc h f s
  | .cyld h f => Sys2Proof.Machine.execCyld h f s
  | .chput h f => Sys2Proof.Machine.execChput h f s
  | .chget h f => Sys2Proof.Machine.execChget h f s
  | .ftake h f => Sys2Proof.Machine.execFtake h f s
  | .cfree h f => Sys2Proof.Machine.execCfree h f s
  | .trap h f => Sys2Proof.Machine.execTrap h f s
  | .bkpt h f => Sys2Proof.Machine.execBkpt h f s
  | .trapHandlerEntry b => Sys2Proof.Machine.execTrapHandlerEntry b s
  | .tretResume h f => Sys2Proof.Machine.execTretResume h f s
  | .tretKill h f => Sys2Proof.Machine.execTretKill h f s
  | .sigchk h f => Sys2Proof.Machine.execSigchk h f s
  | .sigrst h f => Sys2Proof.Machine.execSigrst h f s
  | .mchkr h f => Sys2Proof.Machine.execMchkr h f s
  | .clock h f => Sys2Proof.Machine.execClock h f s
  | .pmark h f => Sys2Proof.Machine.execPmark h f s
  | .getfmt h f => Sys2Proof.Machine.execGetfmt h f s
  | .sysr h f => Sys2Proof.Machine.execSysr h f s
  | .sysw h f => Sys2Proof.Machine.execSysw h f s
  | .asret h f => Sys2Proof.Machine.execAsret h f s
  | .variableLatencyResult t k => Sys2Proof.Machine.execVariableLatencyResult t k s
  | .fragmentPromote t fr => Sys2Proof.Machine.execFragmentPromote t fr s
  | .blockPlace part => Sys2Proof.Machine.execBlockPlace part s
  | .gangReserve part => Sys2Proof.Machine.execGangReserve part s
  | .gangCommit part => Sys2Proof.Machine.execGangCommit part s
  | .gangBlockStart part => Sys2Proof.Machine.execGangBlockStart part s
  | .gangAbort part => Sys2Proof.Machine.execGangAbort part s
  | .priorityPreemption part => Sys2Proof.Machine.execPriorityPreemption part s
  | .blockSave b => Sys2Proof.Machine.execBlockSave b s
  | .forcedSave b => Sys2Proof.Machine.execForcedSave b s
  | .handlerDeadlineExpiry b => Sys2Proof.Machine.execHandlerDeadlineExpiry b s
  | .blockRestore b => Sys2Proof.Machine.execBlockRestore b s
  | .coopResume g => Sys2Proof.Machine.execCoopResume g s
  | .blockEnd b => Sys2Proof.Machine.execBlockEnd b s
  | .gridEnd g => Sys2Proof.Machine.execGridEnd g s
  | .sliceEnd part => Sys2Proof.Machine.execSliceEnd part s
  | .thermalMigration core cool => Sys2Proof.Machine.execThermalMigration core cool s
  | .stackClockHalve st => Sys2Proof.Machine.execStackClockHalve st s
  | .stackClockRestore st => Sys2Proof.Machine.execStackClockRestore st s
  | .moduleTrip => Sys2Proof.Machine.execModuleTrip s
  | .supplyDroop st n => Sys2Proof.Machine.execSupplyDroop st n s
  | .clusterSwap cl => Sys2Proof.Machine.execClusterSwap cl s
  | .sramRowSpare arr row => Sys2Proof.Machine.execSramRowSpare arr row s
  | .lmlLaneSpare link => Sys2Proof.Machine.execLmlLaneSpare link s
  | .farPinPairSpare ch => Sys2Proof.Machine.execFarPinPairSpare ch s
  | .scarabScrub core => Sys2Proof.Machine.execScarabScrub core s
  | .counterCommit => Sys2Proof.Machine.execCounterCommit s
  | .powerLoss => Sys2Proof.Machine.execPowerLoss s
  | .moduleReset => Sys2Proof.Machine.execModuleReset s
  | .shawmWatchdog => Sys2Proof.Machine.execShawmWatchdog s
  | .flrVf fn => Sys2Proof.Machine.execFlrVf fn s
  | .flrPf => Sys2Proof.Machine.execFlrPf s
  | .lmlLinkUp link lanes spares peer => Sys2Proof.Machine.execLmlLinkUp link lanes spares peer s
  | .lmlLinkDown link => Sys2Proof.Machine.execLmlLinkDown link s
  | .ethPortUp port => Sys2Proof.Machine.execEthPortUp port s
  | .ethPortDown port lf rf => Sys2Proof.Machine.execEthPortDown port lf rf s
  | .farChannelTrained ch => Sys2Proof.Machine.execFarChannelTrained ch s
  | .lmlReadRequest pk => Sys2Proof.Machine.execLmlReadRequest pk s
  | .lmlReadResponse pk => Sys2Proof.Machine.execLmlReadResponse pk s
  | .lmlWrite pk => Sys2Proof.Machine.execLmlWrite pk s
  | .lmlAtomic pk => Sys2Proof.Machine.execLmlAtomic pk s
  | .lmlAtomicResponse pk => Sys2Proof.Machine.execLmlAtomicResponse pk s
  | .lmlAck pk => Sys2Proof.Machine.execLmlAck pk s
  | .lmlRelease pk => Sys2Proof.Machine.execLmlRelease pk s
  | .lmlTimeSync link err hops => Sys2Proof.Machine.execLmlTimeSync link err hops s
  | .timeSyncExchange => Sys2Proof.Machine.execTimeSyncExchange s
  | .tlockLoss link => Sys2Proof.Machine.execTlockLoss link s
  | .uePacketTransmit m => Sys2Proof.Machine.execUePacketTransmit m s
  | .uePacketReceive pk => Sys2Proof.Machine.execUePacketReceive pk s
  | .ueAckReceive pdc cum bits => Sys2Proof.Machine.execUeAckReceive pdc cum bits s
  | .ueNakReceive m => Sys2Proof.Machine.execUeNakReceive m s
  | .ueNotReadyRetry m => Sys2Proof.Machine.execUeNotReadyRetry m s
  | .retransmitTimeout pdc psn => Sys2Proof.Machine.execRetransmitTimeout pdc psn s
  | .skipNotice pk => Sys2Proof.Machine.execSkipNotice pk s
  | .pdcIdleClose pdc => Sys2Proof.Machine.execPdcIdleClose pdc s
  | .purgeMarker src qtag => Sys2Proof.Machine.execPurgeMarker src qtag s
  | .launchPacket q => Sys2Proof.Machine.execLaunchPacket q s
  | .applyPacket q => Sys2Proof.Machine.execApplyPacket q s
  | .copy q => Sys2Proof.Machine.execCopy q s
  | .signal q => Sys2Proof.Machine.execSignal q s
  | .waitsig q => Sys2Proof.Machine.execWaitsig q s
  | .waitsigReread q => Sys2Proof.Machine.execWaitsigReread q s
  | .linkRelease q => Sys2Proof.Machine.execLinkRelease q s
  | .linkWait q => Sys2Proof.Machine.execLinkWait q s
  | .hostflush q => Sys2Proof.Machine.execHostflush q s
  | .marker q => Sys2Proof.Machine.execMarker q s
  | .resetq q => Sys2Proof.Machine.execResetq q s
  | .packetComplete q idx status => Sys2Proof.Machine.execPacketComplete q idx status s
  | .wake fn qid val => Sys2Proof.Machine.execWake fn qid val s
  | .wakeTokenRefill fn => Sys2Proof.Machine.execWakeTokenRefill fn s
  | .queueMap q => Sys2Proof.Machine.execQueueMap q s
  | .qctlReset fn qid => Sys2Proof.Machine.execQctlReset fn qid s
  | .queueResetDone q => Sys2Proof.Machine.execQueueResetDone q s
  | .fservRetry fn seq => Sys2Proof.Machine.execFservRetry fn seq s
  | .fservKill fn seq => Sys2Proof.Machine.execFservKill fn seq s
  | .faultRecordRetry ctx => Sys2Proof.Machine.execFaultRecordRetry ctx s
  | .cicadaTick => Sys2Proof.Machine.execCicadaTick s
  | .registerWrite fn off width val => Sys2Proof.Machine.execRegisterWrite fn off width val s
  | .readCtrs fn => Sys2Proof.Machine.execReadCtrs fn s
  | .setThresh fn => Sys2Proof.Machine.execSetThresh fn s
  | .attest fn => Sys2Proof.Machine.execAttest fn s
  | .getCert fn => Sys2Proof.Machine.execGetCert fn s
  | .keyInstall fn => Sys2Proof.Machine.execKeyInstall fn s
  | .fwStage fn => Sys2Proof.Machine.execFwStage fn s
  | .restart fn => Sys2Proof.Machine.execRestart fn s
  | .ctxCreate fn => Sys2Proof.Machine.execCtxCreate fn s
  | .ctxRoot fn => Sys2Proof.Machine.execCtxRoot fn s
  | .ctxDestroy fn => Sys2Proof.Machine.execCtxDestroy fn s
  | .queueCreate fn => Sys2Proof.Machine.execQueueCreate fn s
  | .queueDestroy fn => Sys2Proof.Machine.execQueueDestroy fn s
  | .linkCreate fn => Sys2Proof.Machine.execLinkCreate fn s
  | .linkDestroy fn => Sys2Proof.Machine.execLinkDestroy fn s
  | .partSet fn => Sys2Proof.Machine.execPartSet fn s
  | .partQuery fn => Sys2Proof.Machine.execPartQuery fn s
  | .sliceSet fn => Sys2Proof.Machine.execSliceSet fn s
  | .lease fn => Sys2Proof.Machine.execLease fn s
  | .leaseEnd fn => Sys2Proof.Machine.execLeaseEnd fn s
  | .cicadaSet fn => Sys2Proof.Machine.execCicadaSet fn s
  | .migrateKey fn => Sys2Proof.Machine.execMigrateKey fn s
  | .migrateOut fn => Sys2Proof.Machine.execMigrateOut fn s
  | .migrateIn fn => Sys2Proof.Machine.execMigrateIn fn s
  | .laceSet fn => Sys2Proof.Machine.execLaceSet fn s
  | .tlbInv fn => Sys2Proof.Machine.execTlbInv fn s
  | .arenaConfig fn => Sys2Proof.Machine.execArenaConfig fn s
  | .arenaRelease fn => Sys2Proof.Machine.execArenaRelease fn s
  | .ctxEvents fn => Sys2Proof.Machine.execCtxEvents fn s
  | .dbgStop fn => Sys2Proof.Machine.execDbgStop fn s
  | .dbgResume fn => Sys2Proof.Machine.execDbgResume fn s
  | .calltabSet fn => Sys2Proof.Machine.execCalltabSet fn s
  | .pkgSet fn => Sys2Proof.Machine.execPkgSet fn s
  | .routeSet fn => Sys2Proof.Machine.execRouteSet fn s
  | .flowCreate fn => Sys2Proof.Machine.execFlowCreate fn s
  | .flowAccept fn => Sys2Proof.Machine.execFlowAccept fn s
  | .flowDestroy fn => Sys2Proof.Machine.execFlowDestroy fn s
  | .netConfig fn => Sys2Proof.Machine.execNetConfig fn s
  | .addrSet fn => Sys2Proof.Machine.execAddrSet fn s
  | .saSet fn => Sys2Proof.Machine.execSaSet fn s
  | .hostCompletionRingSpace ctx => Sys2Proof.Machine.execHostCompletionRingSpace ctx s
  | .orderlyShutdown => Sys2Proof.Machine.execOrderlyShutdown s
  | .memoryTierTrained st => Sys2Proof.Machine.execMemoryTierTrained st s
  | .patrolScrub addr bits => Sys2Proof.Machine.execPatrolScrub addr bits s
  | .flitCrcReplay link lane => Sys2Proof.Machine.execFlitCrcReplay link lane s
  | .lmlPacketDiscard link => Sys2Proof.Machine.execLmlPacketDiscard link s

end Sys2Proof.Machine
end

