-- ==== Sys2Proof/Machine/Upset.lean ====
section
/-! DEFINITION. Errors of the hardware that residue, parity and SECDED checks find (10 R182-R187): what is corrected, and what is a
machine check. An error is found before the instruction writes anything (notes/assumptions/9.md). -/
namespace Sys2Proof.Machine

/-! ### What is checked (10 R182) -/

/-- The datapath of a unit is checked for an opcode: by residue, by dual-rail parity, and registers and arrays by their own codes.
The matrix array is checked for commands (`mxUpset`). -/
def checked (kind unit op : Nat) : Bool :=
  let cls := op / 64
  match kind with
  | 1 => match unit with
    | 0 => [0x001, 0x002, 0x003, 0x004, 0x005, 0x00C, 0x00F, 0x010, 0x14E].contains op
    | 1 => [0x006, 0x007, 0x008, 0x009, 0x012, 0x14F].contains op
    | 2 => [0x00D, 0x00E].contains op
    | 3 => cls == 6 || cls == 7 || cls == 10 || [0x011, 0x207].contains op
    | 4 => [0x041, 0x042, 0x043, 0x044, 0x14E].contains op
    | 5 => [0x100, 0x101, 0x102, 0x107].contains op
    | _ => false
  | 2 => match unit with
    | 2 => [0x00D, 0x00E].contains op
    | 5 => cls == 4 || [0x140, 0x141, 0x142].contains op
    | 7 => cls == 2 || [0x00A, 0x00B, 0x040, 0x045, 0x046, 0x047, 0x048, 0x049, 0x04A, 0x143, 0x144].contains op
    | 8 => 0x145 ≤ op && op ≤ 0x14D
    | _ => false
  | 3 => unit == 9
  | 4 => 10 ≤ unit && unit ≤ 15
  | _ => false

/-- A sum of 32 bits with a carry in, as the adder predicts it. -/
def sum32 (a b cin : Nat) : Nat := (expectAdd32 a b ((a + b + cin) / 2 ^ 32) + cin) % 7
def sum64 (a b cin : Nat) : Nat := (expectAdd64 a b ((a + b + cin) / 2 ^ 64) + cin) % 7

/-- The residue that the datapath predicts in a lane, from the operands, where 10 R182 gives the formula or the result alone fixes
it: a difference is the sum with the complement and a carry in. None: of a sum of products, of a significand, of the address of a
descriptor, where the spec gives no formula (notes/assumptions/9.md). -/
def expect (e : Env) (i : Instr) (l : Nat) : Option Nat :=
  let A (f : FmtR) : Nat := (src e 0 f.ka f.a l).toNat
  let B (f : FmtR) : Nat := (src e 0 f.kb f.b l).toNat
  let nB (f : FmtR) : Nat := (~~~src e 0 f.kb f.b l).toNat
  let A64 (f : FmtR) : Nat := (pr e f.ka f.a l).toNat
  let off (x : Int) : Nat := (BitVec.ofInt 64 x).toNat
  match i with
  | .iadd _ f => some (sum32 (A f) (B f) 0)
  | .isub _ f => some (sum32 (A f) (nB f) 1)
  | .iadd3 _ f => some (res7 (iadd3Val f.sub (src e 0 f.ka f.a l) (src e 0 f.kb f.b l) (src e 0 f.kc f.c l)).toNat)
  | .iaddc _ f => some (sum32 (A f) (B f) (carryIn e f l).toNat)
  | .isubb _ f => some (sum32 (A f) (nB f) (!carryIn e f l).toNat)
  | .iabs _ f => some (res7 (iabsVal false (src e 0 f.ka f.a l)).toNat)
  | .iadd64 _ f => some (sum64 (A64 f) (pr e f.kb f.b l).toNat 0)
  | .isub64 _ f => some (sum64 (A64 f) (~~~pr e f.kb f.b l).toNat 1)
  | .imul _ f | .imulhi _ f | .imad _ f | .imadw _ f | .qmul _ f => some (expectMul (A f) (B f))
  | .idiv _ f | .irem _ f => some (expectDiv (A f))
  | .aadd _ f => some (sum64 (A64 f) ((src e 0 f.kb f.b l).signExtend 64).toNat 0)
  | .shl _ f => some (expectShl (A f) (B f))
  | .shr _ f => some (res7 (shrVal f.ty.toNat (src e 0 f.ka f.a l) (src e 0 f.kb f.b l)).toNat)
  | .dsh _ f => some (res7 (dshVal (f.sub.getLsbD 0) (src e 0 f.ka f.a l) (src e 0 f.kb f.b l) (src e 0 f.kc f.c l)).toNat)
  | .rot _ f => some (res7 (rotVal (f.sub.getLsbD 0) (src e 0 f.ka f.a l) (src e 0 f.kb f.b l)).toNat)
  | .ld _ f | .st _ f | .ldk _ f | .pref _ f => some (sum64 (baseM e f l).toNat (off f.off.toInt) 0)
  | .lds _ f | .sts _ f | .tld _ f | .tst _ f | .feset _ f | .feclr _ f =>
    some (sum64 (src e 0 (if f.ka then .k else .v) f.a l).toNat (off f.off.toInt) 0)
  | .atom _ f | .atomcas _ f | .red _ f | .mwait _ f => some (sum64 (vpair e f.a.toNat l).toNat (off f.off.toInt) 0)
  | .atoms _ f | .atomscas _ f => some (sum64 (vreg e f.a.toNat l).toNat (off f.off.toInt) 0)
  | _ => none

/-- A division that does not pass through the divider: its lanes are covered by parity (14 R263). -/
def divSpecial (e : Env) (i : Instr) (l : Nat) : Bool :=
  match i with
  | .idiv _ f | .irem _ f =>
    let b := src e 0 f.kb f.b l
    b == 0 || (f.ty == 4 && src e 0 f.ka f.a l == 0x80000000 && b == 0xFFFFFFFF)
  | _ => false

/-- The error that a check finds in the instruction which a fragment would issue: its opcode, one of its active lanes, the predicted
residue and another that was observed, a register that it reads. -/
def upsetOk (e : Env) (i : Instr) (u : Upset) : Bool :=
  checked u.kind u.unit u.op && u.op == opOf i && u.lane < 32 && e.act.getLsbD u.lane
    && (u.kind != 1 || (u.obs < 7 && u.obs != ((expect e i u.lane).getD u.exp) && ((expect e i u.lane).getD u.exp) < 7))
    && (u.unit != 2 || 2 < u.kind || divSpecial e i u.lane == (u.kind == 2))
    && (u.kind != 3 || (reads i).any fun r => r.num == u.detail)

/-- It is corrected: the retry agrees (10 R183), the mirror is good (10 R187), or one bit of a word is wrong. -/
def corrects (s : State) (th : Thread) (u : Upset) : Bool :=
  !u.bad && (u.kind != 3 || (!th.cc && ((tget s.blocks th.bid).map (·.mirrored)).getD false))

/-- The record of an error (10 R185). -/
def upsetRecord (s : State) (th : Thread) (pc : Dword) (u : Upset) (corr : Bool) : List Dword :=
  let res := if u.kind = 1 then u.exp * 2 ^ 13 + u.obs * 2 ^ 10 else 0
  let detail := if u.kind = 3 then u.detail % 2 ^ 11 else if u.kind = 4 then u.detail else 0
  match mcRecord s th u.kind u.unit (if u.kind ≤ 2 then 1 else 0) u.op u.lane corr pc detail with
  | w :: ws => (w + BitVec.ofNat 64 res) :: ws
  | [] => []

/-- A corrected error posts a record of kind 5 (10 R173, R183, R187). -/
def postCorrected (s : State) (fi : Nat) (th : Thread) (rcd : List Dword) : State :=
  postRec (modBlock s th.bid fun b => { b with mc := rcd }) (ctxOf s th)
    { kind := 5, code := 0, flags := 0, strand := strandId s th fi, addr := 0, time := s.time
      body := rcd.flatMap fun w => leBytes w.toNat 8, ev := (gridOf s th).map (·.evNo) }

/-- The counters of a mismatch of a datapath (01 R21), on which firmware decides (01 R20). -/
def countMismatch (s : State) (cl : Nat) (ok : Bool) : State := noteError (addLife s 1 cl (if ok then 0 else 1) 1) (if ok then 1 else 0) cl

/-- The counter of an ECC error of an array, on which firmware decides for the row (01 R20, R21). -/
def countEcc (s : State) (arr addr : Nat) (ok : Bool) : State :=
  noteError (if ok then addLife s 2 arr 0 1 else s) (if ok then 2 else 3) (arr * 2 ^ 32 + Config.rowAt arr addr % 2 ^ 32)

/-- An error found in the instruction that a fragment would issue now: its results are discarded, and it issues once more. -/
def takeUpset (tid fi : Nat) (u : Upset) (s : State) : Out :=
  match (bareEnv s tid fi).map fetchCode with
  | some (s, .bytes bs) =>
    match decode (codeWord bs), mkEnv (decodeHdr (codeWord bs)) { s with cur := tid, curFrag := fi } with
    | .ok i, some e =>
      if !(canIssue e && upsetOk e i u) then .next s
      else
        let u := { u with exp := (expect e i u.lane).getD u.exp }
        let ok := corrects s e.th u
        let rcd := upsetRecord s e.th e.fr.pc u ok
        let cl := clusterOf s e.th
        let s := if u.kind ≤ 2 then countMismatch s cl ok else if u.kind = 4 then countEcc s u.array u.detail ok else s
        if !ok then .next (machineCheck s tid fi e.act rcd)
        else if u.kind = 4 then .next s
        else .next (postCorrected (if u.kind ≤ 2 then count s cl 13 1 else s) fi e.th rcd)
    | _, _ => .next s
  | _ => .next s

/-! ### The matrix array (10 R182, R183) -/

/-- The command at the head of a queue goes without completing. -/
def dropHead (s : State) (core : Nat) (c : MxCmd) : State :=
  let q := (mxQueue s core).drop 1
  let s := { s with mxq := if q.isEmpty then tdel s.mxq core else tset s.mxq core q }
  let s := modThread s c.tid fun th => landTok th c.tok
  let s := wakeMxwait (wakeRetry s fun _ w => w == .queue) c.tid
  let s := if q.isEmpty then s else after s (.matrixCommandComplete core)
  if blockDone s (c.tid / 128) then after s (.blockEnd (c.tid / 128)) else s

/-- A column's sum of a k-group of the command at the head of a core's queue has a wrong residue: the command runs again from its
loaded accumulator, or its control context takes a machine check, also once that context has ended. -/
def mxUpset (core col exp obs : Nat) (bad : Bool) (s : State) : Out :=
  match mxQueue s core with
  | [] => .next s
  | c :: _ => match tget s.threads c.tid with
    | none => .next s
    | some th =>
      if c.op > 0x2C2 || col ≥ 64 || exp ≥ 7 || obs ≥ 7 || exp == obs then .next s
      else
        let u : Upset := { kind := 1, unit := 6, op := c.op, lane := col, exp := exp, obs := obs, detail := 0, array := 0, bad := bad }
        let rcd := upsetRecord s th c.pc u (!bad)
        let s := countMismatch s (core / 8) (!bad)
        if bad then .next (dropHead (machineCheck s c.tid 0 1 rcd) core c)
        else .next (postCorrected (count s (core / 8) 13 1) 0 th rcd)

end Sys2Proof.Machine
end

