-- ==== Sys2Proof/Machine/Step.lean ====
section
/-! DEFINITION. One step of the machine (notes/assumptions/1.md). -/
namespace Sys2Proof.Machine

/-- A fragment's turn: it fetches, and the decoded instruction is executed as its own. -/
def issueTurn (tid fi : Nat) (s : State) : Host.Outcome State Fault Refusal :=
  match fetchTurn s tid fi with
  | .error s => .next s
  | .ok (s, i) => exec i { s with cur := tid, curFrag := fi }

/-- Carry out one turn. -/
def runTurn (t : Turn) (s : State) : Host.Outcome State Fault Refusal :=
  match t with
  | .event i => exec i s
  | .issue tid fi => issueTurn tid fi s
  | .poke key bytes => if pokeOk s key bytes.length then .next (pokeMem s key bytes) else .fault .noSuchAddress
  | .upset tid fi u => takeUpset tid fi u s
  | .mxUpset core col exp obs bad => mxUpset core col exp obs bad s
  | .pinRetry ch pair => pinRetry ch pair s
  | .mbox fn => serveMailbox fn s

/-- What stands on the agenda is next; then what is due by device time; then a fragment that parks at its fetch; then the fragment that
issues; and when there is none, a cycle of device time passes. -/
def step (s : State) : Host.Outcome State Fault Refusal :=
  match s.agenda with
  | t :: rest => runTurn t { s with agenda := rest }
  | [] => match dueTurn s with
    | some (t, s) => runTurn t s
    | none => match firstPark s with
      | some p => issueTurn p.1 p.2 s
      | none => match firstPick s with
        | some p => issueTurn p.tid p.fi (markIssue s p)
        | none => .next (cycle s)

/-- The instruction of the low `nbits` bits of `w` stored where the next step fetches, by the fragment that issues next. -/
def State.withFetchWord (s : State) (nbits w : Nat) : State :=
  let t := placeWord s (w % 2 ^ nbits)
  { t with agenda := .issue (placeTid s (w % 2 ^ nbits)) 0 :: t.agenda }

end Sys2Proof.Machine
end

