-- ==== Sys2Proof/Safety.lean ====
section
/-! DEFINITION. The terms in which claims speak of runs: the invariant, what software sees of registers and memory, and the
conditions under which an instruction issues and is performed. -/
namespace Sys2Proof.Machine

/-- The invariant: memory is in its one canonical form, so that equal memories are equal data. -/
def State.Inv (s : State) : Prop := Memory.wf s.mem = true

/-! ### Registers of a thread, once every result has landed (13 R232) -/

/-- Lane `l` of v register `r`. -/
def vAt (s : State) (tid r l : Nat) : Word := ((tget s.threads tid).map fun th => sget th.v (32 * r + l)).getD 0
/-- k register `r`. -/
def kAt (s : State) (tid r : Nat) : Word := ((tget s.threads tid).map fun th => sget th.k r).getD 0
/-- Lane `l` of predicate `r`. -/
def pAt (s : State) (tid r l : Nat) : Bool := ((tget s.threads tid).map fun th => (sget th.p r).getLsbD l).getD false
/-- The PC of a fragment. -/
def pcAt (s : State) (tid fi : Nat) : Option Dword := ((tget s.threads tid).bind fun th => tget th.frags fi).map (·.pc)

/-- What a thread holds, but for where its fragments stand (fragments, splits, the call stack, the lanes that have left, the
continuation frame) and what issue keeps (scoreboard, results on their way, stall, time of issue, skid). -/
def Thread.held (th : Thread) : Thread :=
  { th with
    frags := []
    splits := []
    calls := []
    exited := 0
    frame := none
    sb := []
    flights := []
    pend := []
    stallTill := 0
    issuedAt := none
    skidLeft := none
    skid := 0 }

/-- The same, its registers left out too. -/
def Thread.aside (th : Thread) : Thread := { th.held with v := [], k := [], p := [] }

/-! ### Operands, every result having landed (13 R239, 14 R256) -/

/-- A predicate of a lane; p31 reads 1. -/
def prAt (e : Env) (f : BitVec 11) (l : Nat) : Bool := f.toNat == 31 || pAt e.s e.tid f.toNat l

/-- The value that lane `l` of the issuing thread reads from a source field. -/
def opAt (e : Env) (ty : Nat) (k : Kind) (f : BitVec 11) (l : Nat) : Word :=
  match k with
  | .v => vAt e.s e.tid f.toNat l
  | .k => kAt e.s e.tid f.toNat
  | .p => if prAt e f l then 1 else 0
  | .imm => immVal ty f

/-- The 64-bit value of a pair operand. -/
def op64At (e : Env) (k : Kind) (f : BitVec 11) (l : Nat) : Dword :=
  match k with
  | .v => vAt e.s e.tid (f.toNat + 1) l ++ vAt e.s e.tid f.toNat l
  | .k => kAt e.s e.tid (f.toNat + 1) ++ kAt e.s e.tid f.toNat
  | _ => f.signExtend 64

/-! ### Issue -/

/-- Instruction `i` issues in state `s` and raises nothing by itself: `e` is the issuing fragment with its surroundings, it may
issue now (13 R242, R243), `i` breaks no rule of 13 R246, no result of the strand is on its way (13 R244), and no fence of the fragment holds it
(17 R335). -/
structure Issues (i : Instr) (s : State) (e : Env) : Prop where
  env : (hdr? i).bind (fun h => mkEnv h s) = some e
  can : canIssue e = true
  legal : ctxLegal i e = true
  clean : e.th.pend = []
  order : e.fr.fences = [] ∨ ordered (opOf i) = false

/-- Everything that an instruction on registers alone leaves as it was: memory and every other piece of state but the
threads, the free-value and number counters, the events to come, the counter banks and the trace units. -/
structure Undisturbed (s t : State) : Prop where
  mem : t.mem = s.mem
  time : t.time = s.time
  l1 : t.l1 = s.l1
  l0 : t.l0 = s.l0
  tlb : t.tlb = s.tlb
  locks : t.locks = s.locks
  blocks : t.blocks = s.blocks
  grids : t.grids = s.grids
  cmds : t.cmds = s.cmds
  mxq : t.mxq = s.mxq
  nests : t.nests = s.nests
  ctxs : t.ctxs = s.ctxs
  queues : t.queues = s.queues
  qlinks : t.qlinks = s.qlinks
  intervals : t.intervals = s.intervals
  slots : t.slots = s.slots
  parts : t.parts = s.parts
  leases : t.leases = s.leases
  granules : t.granules = s.granules
  scrubQ : t.scrubQ = s.scrubQ
  quarters : t.quarters = s.quarters
  cicadaK : t.cicadaK = s.cicadaK
  fns : t.fns = s.fns
  msix : t.msix = s.msix
  vecs : t.vecs = s.vecs
  pkg : t.pkg = s.pkg
  lnk : t.lnk = s.lnk
  net : t.net = s.net
  images : t.images = s.images

/-- A fragment with what a parked MWAIT has already seen left out (09 R157). -/
def Frag.unwatched (f : Frag) : Frag :=
  match f.park with
  | .mwait d w ws sys st tmo tok => { f with park := .mwait d w (ws.map fun x => { x with got := none }) sys st tmo tok }
  | _ => f

/-- Thread `j` is in `t` as in `s`, but for what its parked MWAITs have already seen. -/
def Watches (s t : State) (j : Nat) : Prop :=
  (tget t.threads j).map (fun th => { th with frags := [] }) = (tget s.threads j).map (fun th => { th with frags := [] }) ∧
  ∀ fi, ((tget t.threads j).bind fun th => tget th.frags fi).map Frag.unwatched =
    ((tget s.threads j).bind fun th => tget th.frags fi).map Frag.unwatched

/-- The registers of a thread after an instruction: `V`, `K`, `P` say what was written, by register and lane; every other
register, and every lane that is not named, is as it was. -/
structure Regs (s t : State) (tid : Nat) (V : Nat → Nat → Option Word) (K : Nat → Option Word) (P : Nat → Nat → Option Bool) :
    Prop where
  v : ∀ r l, l < 32 → vAt t tid r l = (V r l).getD (vAt s tid r l)
  k : ∀ r, kAt t tid r = (K r).getD (kAt s tid r)
  p : ∀ r l, l < 32 → pAt t tid r l = (P r l).getD (pAt s tid r l)

/-- An instruction has only computed registers: the fragment goes on, and nothing else has changed; with tracing on, the trace's own
stores happen and a parked MWAIT that watches them sees them (10 R192). -/
structure Computed (e : Env) (t : State) (V : Nat → Nat → Option Word) (K : Nat → Option Word) (P : Nat → Nat → Option Bool) :
    Prop where
  regs : Regs e.s t e.tid V K P
  aside : (tget t.threads e.tid).map Thread.aside = some e.th.aside
  pc : e.th.splits = [] → pcAt t e.tid e.fi = some (e.fr.pc + 12)
  others : ∀ j, j ≠ e.tid → Watches e.s t j
  quiet : e.s.lace = [] → ∀ j, j ≠ e.tid → tget t.threads j = tget e.s.threads j
  rest : e.s.lace = [] → Undisturbed e.s t

/-- A v register of the active lanes (13 R240). -/
def vTo (e : Env) (d : BitVec 11) (x : Nat → Word) (r l : Nat) : Option Word :=
  if r = d.toNat ∧ e.act.getLsbD l then some (x l) else none

/-- A k register, from the lowest active lane; nothing with an empty active set (13 R237, R240). -/
def kTo (e : Env) (d : BitVec 11) (x : Nat → Word) (r : Nat) : Option Word :=
  if r = d.toNat ∧ e.act ≠ 0 then some (x (low e)) else none

/-- A predicate of the active lanes; p31 discards writes. -/
def pTo (e : Env) (d : BitVec 11) (x : Nat → Bool) (r l : Nat) : Option Bool :=
  if r = d.toNat ∧ r ≠ 31 ∧ e.act.getLsbD l then some (x l) else none

def noV (_ _ : Nat) : Option Word := none
def noK (_ : Nat) : Option Word := none
def noP (_ _ : Nat) : Option Bool := none

/-- Instruction `i` always completes, and writes `x` to its destination D of kind `kd` (true: a k register) and to nothing else. -/
def ToD (i : Instr) (kd : Bool) (d : BitVec 11) (x : Env → Nat → Word) : Prop :=
  ∀ s e, Issues i s e → ∃ t, exec i s = .next t ∧
    Computed e t (if kd then noV else vTo e d (x e)) (if kd then kTo e d (x e) else noK) noP

/-- The same for a pair: bits 31:0 to D, 63:32 to D + 1 (14 R256). -/
def ToPair (i : Instr) (kd : Bool) (d : BitVec 11) (x : Env → Nat → Dword) : Prop :=
  ∀ s e, Issues i s e → ∃ t, exec i s = .next t ∧
    Computed e t
      (if kd then noV else fun r l => vTo e d (fun l => lo32 (x e l)) r l <|> vTo e (d + 1) (fun l => hi32 (x e l)) r l)
      (if kd then fun r => kTo e d (fun l => lo32 (x e l)) r <|> kTo e (d + 1) (fun l => hi32 (x e l)) r else noK)
      noP

/-- The same for a predicate. -/
def ToP (i : Instr) (d : BitVec 11) (x : Env → Nat → Bool) : Prop :=
  ∀ s e, Issues i s e → ∃ t, exec i s = .next t ∧ Computed e t noV noK (pTo e d (x e))

/-- The call stack has room for `n` more entries: at most 1,024, and the spill area, or what the arena pool can add to it,
backs them (15 R293). -/
def StackRoom (e : Env) (n : Nat) : Prop :=
  e.th.calls.length + n ≤ 1024 ∧
  (spillGran (e.th.calls.length + n) ≤ e.th.spill ∨
    ∃ cx, tget e.s.ctxs e.grid.ctx = some cx ∧ spillGran (e.th.calls.length + n) - e.th.spill ≤ poolFree e.s e.grid.ctx cx)

/-- A thread of a state, and a fragment of it. -/
def thAt (s : State) (tid : Nat) (p : Thread → Prop) : Prop := ∃ th, tget s.threads tid = some th ∧ p th
def frAt (s : State) (tid fi : Nat) (p : Frag → Prop) : Prop := ∃ th fr, tget s.threads tid = some th ∧ tget th.frags fi = some fr ∧ p fr
/-- Entry `fi` of a thread's split table is free. -/
def freeAt (s : State) (tid fi : Nat) : Prop := ∃ th, tget s.threads tid = some th ∧ tget th.frags fi = none

def blAt (s : State) (bid : Nat) (p : Block → Prop) : Prop := ∃ b, tget s.blocks bid = some b ∧ p b
def grAt (s : State) (gid : Nat) (p : Grid → Prop) : Prop := ∃ g, tget s.grids gid = some g ∧ p g
def cxAt (s : State) (c : Nat) (p : Ctx → Prop) : Prop := ∃ x, tget s.ctxs c = some x ∧ p x
def cmAt (s : State) (c : Nat) (p : Cmd → Prop) : Prop := ∃ x, tget s.cmds c = some x ∧ p x

/-- The address of lane `l`'s memory access: its 64-bit base and the offset, modulo 2^64 (17 R324). -/
def memEa (e : Env) (f : FmtM) (l : Nat) : Nat := (op64At e (if f.ka then .k else .v) f.a l + BitVec.ofInt 64 f.off.toInt).toNat
/-- The offset of lane `l`'s scratchpad or tile-store access: its 32-bit base and the offset, exactly (17 R324). -/
def spOff (e : Env) (f : FmtM) (l : Nat) : Int := (opAt e 0 (if f.ka then .k else .v) f.a l).toNat + f.off.toInt

/-- An address reaches byte `k` of this package (17 R324 step 6): it names a backed granule of an arena or of the export range that passes the
checks of 08 R138; or its page is mapped, the walk from the root ending in the entry at `leaf`, which allows the access, and what the
requester's TLBs hold for the page is that entry (07 R118, R119, R122). The channels of its `n` bytes are trained. -/
def Maps (s : State) (e : Env) (va n : Nat) (wr : Bool) (k : Nat) (pcie : Bool) (leaf : Option Nat) : Prop :=
  keyStalls s k = false ∧ spanStalls s k n = false ∧
  (leaf = none ∧ pcie = false ∧ backedKey e s va = some k ∨
    ∃ cx pte lvl key, tget s.ctxs e.grid.ctx = some cx ∧ isPaged cx e.unit va = true ∧
      walk s va [3, 2, 1, 0] (tableKey cx.root) = .ok (pte, lvl, key) ∧ leaf = some key ∧ (wr = true → pte.testBit 4 = true) ∧
      leafTgt pte (levelShift lvl) va = .key k pcie ∧
      ∀ x ∈ s.tlb, x.ctx = e.grid.ctx → x.unit ∈ tlbUnits e.unit → va / 2 ^ x.shift = x.page →
        x.shift = levelShift lvl ∧ x.pte ||| 192 = pte ||| 192)

/-- Every active lane's access executes normally (17 R324): it is aligned, overlaps no entry of the range-lock table, and reaches this package's
memory. A control context's address is none of the cluster window. -/
structure PlainAccess (s : State) (e : Env) (f : FmtM) (wr : Bool) : Prop where
  cc : e.th.cc = true → memEa e f 0 / 2 ^ 32 ≠ 0xC5000000
  aligned : ∀ l ∈ lanesOf e.act, memEa e f l % widthBytes f.width.toNat = 0
  locks : ∀ l ∈ lanesOf e.act, lockHit s (e.blk.core / 8) e.grid.ctx (memEa e f l) (widthBytes f.width.toNat) wr = false
  mapped : ∀ l ∈ lanesOf e.act, ∃ k x leaf, Maps s e (memEa e f l) (widthBytes f.width.toNat) wr k x leaf

/-- A byte lies in none of the page-table entries through which the active lanes' addresses go, whose A and D translation sets (07 R118). -/
def OffLeaves (s : State) (e : Env) (f : FmtM) (wr : Bool) (a : Nat) : Prop :=
  ∀ l ∈ lanesOf e.act, ∀ k x leaf, Maps s e (memEa e f l) (widthBytes f.width.toNat) wr k x (some leaf) → a < leaf ∨ leaf + 8 ≤ a

/-- No 64-bit half that the active lanes store may not be stored there (17 R324 step 4, 08 R140). -/
abbrev NoEscape (e : Env) (f : FmtM) (home : Nat → Home) : Prop :=
  ∀ l ∈ lanesOf e.act, ∀ v ∈ storeHalves e f.d.toNat f.width.toNat f.raw l, escapeInfo e (home l) v = none

/-- A release at a scope has nothing to wait for: the strand's accesses to other packages are performed there (09 R151), and for one at
system scope every write is acknowledged, no flow used since the last release, and no message under way (02 R30, R31). -/
abbrev Released (s : State) (e : Env) (scope : Nat) : Prop :=
  relOut s e.tid scope none = false ∧ (scope < 4 ∨ lostWrite s e.tid = false ∧ netOut s e.tid = false ∧ e.th.flowUse = [])

/-- The same of an access that is a release only with its ORD. -/
abbrev ReleaseFree (s : State) (e : Env) (f : FmtM) : Prop := f.ord.toNat = 3 → Released s e f.scope.toNat

/-- Every active lane's offset of an `n`-byte access is aligned and inside the limit. -/
abbrev InBlock (e : Env) (f : FmtM) (limit : Nat) : Prop :=
  ∀ l ∈ lanesOf e.act, spOff e f l % (widthBytes f.width.toNat : Int) = 0 ∧ 0 ≤ spOff e f l ∧ spOff e f l + widthBytes f.width.toNat ≤ limit

/-- No scratchpad line that an active lane touches makes a load wait: each is full, or the fragment has waited on it (07 R108). -/
abbrev LinesFull (e : Env) (f : FmtM) : Prop :=
  ∀ l ∈ lanesOf e.act, ∀ x ∈ linesOf (spOff e f l).toNat (widthBytes f.width.toNat), lineWaits e e.th.bid e.blk x = false

/-- An engine is filling none of them. -/
abbrev LinesStill (s : State) (e : Env) (f : FmtM) : Prop :=
  ∀ l ∈ lanesOf e.act, ∀ x ∈ linesOf (spOff e f l).toNat (widthBytes f.width.toNat), lineFilling s e.th.bid e.blk x = false

/-- The tile-store bytes that the active lanes touch meet no footprint of a queued matrix command, for a load no written one (07 R110). -/
abbrev OffFootprints (s : State) (e : Env) (f : FmtM) (ld : Bool) : Prop :=
  ∀ l ∈ lanesOf e.act, footHit s e.th.bid (spOff e f l).toNat (widthBytes f.width.toNat) ld = false

/-- An aligned cluster-window address of a control context that overlaps no range lock: it names one running block of the context, and a place
inside its scratchpad (07 R114). -/
structure InWindow (s : State) (e : Env) (f : FmtM) (wr : Bool) (bid : Nat) (b : Block) : Prop where
  cc : e.th.cc = true
  window : memEa e f 0 / 2 ^ 32 = 0xC5000000
  aligned : memEa e f 0 % widthBytes f.width.toNat = 0
  zero : bitsOf (memEa e f 0) 22 21 = 0
  block : tget s.blocks bid = some b
  core : b.core = e.blk.core / 8 * 8 + bitsOf (memEa e f 0) 31 29
  slot : b.bslot = bitsOf (memEa e f 0) 28 23
  stage : b.stage = .running
  only : ∀ x ∈ s.blocks, x.2.core = b.core → x.2.bslot = b.bslot → x = (bid, b)
  room : ∃ g, tget s.grids b.gid = some g ∧ g.ctx = e.grid.ctx ∧ bitsOf (memEa e f 0) 20 0 + widthBytes f.width.toNat ≤ spLimit g.lrec
  locks : lockHit s (e.blk.core / 8) e.grid.ctx (memEa e f 0) (widthBytes f.width.toNat) wr = false

/-- Every lane's target lies in this package. -/
def allHere (ts : List (Nat × Tgt)) : Prop := ∀ x ∈ ts, ∃ k pc, x.2 = .key k pc

/-- Consecutive v registers of the lanes that `w` names: register D + j of lane l receives the j-th word of what `w l` gives. -/
def regsTo (d : BitVec 11) (n : Nat) (w : Nat → Option (List Word)) (r l : Nat) : Option Word :=
  if d.toNat ≤ r ∧ r < d.toNat + n then (w l).map fun ws => ws.getD (r - d.toNat) 0 else none

/-- Lanes perform an atomic one after another on memory of `n`-byte words (17 R333): the memory after them, and of each lane the
old value and what it wrote, if it wrote. -/
def atomSeq (new : Nat → Nat → Option Nat) (n : Nat) : Memory → List (Nat × Nat) → Memory × List (Nat × Nat × Option Nat)
  | m, [] => (m, [])
  | m, (l, k) :: r =>
    let o := leNat (m.readN k n)
    let m' := match new l o with
      | some y => m.writeN k (leBytes y n)
      | none => m
    ((atomSeq new n m' r).1, (l, o, new l o) :: (atomSeq new n m' r).2)

/-- The lanes whose address lies in this package, with the key of their byte. -/
def keysOf (ts : List (Nat × Tgt)) : List (Nat × Nat) :=
  ts.filterMap fun x => match x.2 with
    | .key k _ => some (x.1, k)
    | .remote .. => none

/-- The 64-bit values that lane `l` wrote, for the escape rule. -/
def atomHalves (n : Nat) (rows : List (Nat × Nat × Option Nat)) (l : Nat) : List Dword :=
  if n = 4 then [] else rows.filterMap fun x => if x.1 = l then x.2.2.map (BitVec.ofNat 64) else none

/-- The old values, as register words of each lane. -/
def atomOld (n : Nat) (rows : List (Nat × Nat × Option Nat)) (l : Nat) : Option (List Word) :=
  (rows.find? fun x => x.1 == l).map fun x => wordsOf (leBytes x.2.1 n)

/-- The slots that hold a phaser exist. -/
def phHeld (s : State) : PhLoc → Prop
  | .core b _ => (tget s.blocks b).isSome = true
  | .cluster g r _ => ((tget s.grids g).bind fun g => tget g.groups r).isSome = true

/-- A pair result in v registers, or in k registers. -/
def vPair (e : Env) (kd : Bool) (d : BitVec 11) (x : Nat → Dword) (r l : Nat) : Option Word :=
  if kd then none else vTo e d (fun l => lo32 (x l)) r l <|> vTo e (d + 1) (fun l => hi32 (x l)) r l
def kPair (e : Env) (kd : Bool) (d : BitVec 11) (x : Nat → Dword) (r : Nat) : Option Word :=
  if kd then kTo e d (fun l => lo32 (x l)) r <|> kTo e (d + 1) (fun l => hi32 (x l)) r else none

/-- Requests to a bump pointer one after another (17 R344): where each lane's bytes begin, none where they do not fit, and the
bump pointer after them. -/
def bumpSeq (reserve : Nat) : Nat → List (Nat × Nat) → Nat × List (Nat × Option Nat)
  | b, [] => (b, [])
  | b, (l, n) :: r =>
    let p := (b + 15) / 16 * 16
    let q := p + (n + 15) / 16 * 16
    if q ≤ reserve then ((bumpSeq reserve q r).1, (l, some p) :: (bumpSeq reserve q r).2)
    else ((bumpSeq reserve b r).1, (l, none) :: (bumpSeq reserve b r).2)

/-- The address that a lane gets from `bumpSeq`, 0 for none. -/
def bumpAddr (base : Nat) (q : List (Nat × Option Nat)) (l : Nat) : Dword :=
  BitVec.ofNat 64 (((q.find? fun x => x.1 == l).bind fun x => x.2.map (base + ·)).getD 0)

/-- The operands of a multiply are aligned and lie inside the block's scratchpad and tile store; SOFF is where its scales begin. -/
def mmaSoff (c : MxCmd) : Nat := if c.op = 0x2C2 then c.soff else up128 (c.a + aBytes c.slot (c.op == 0x2C1) c.k)
def mmaFits (r : LRec) (c : MxCmd) : Prop :=
  c.acc % 256 = 0 ∧ c.b % 256 = 0 ∧ c.a % 128 = 0 ∧ c.a + aBytes c.slot (c.op == 0x2C1) c.k ≤ spLimit r ∧
  (slotScale c.slot = 2 → mmaSoff c % 128 = 0 ∧ mmaSoff c + c.k / 8 ≤ spLimit r) ∧
  c.b + 256 * bRows c.slot c.k ≤ tsLimit r ∧ c.acc + 8192 ≤ tsLimit r

/-! ### Fetch -/

/-- A fragment fetches: it is not parked, frozen or stopped, and its block runs. -/
structure Fetches (s : State) (tid fi : Nat) (e : Env) : Prop where
  env : bareEnv s tid fi = some e
  park : e.fr.park = .run
  frozen : e.fr.frozen = false
  stopped : e.th.stopped = false
  stage : e.blk.stage = .running

/-- `n` bytes of code at an address lie in one page of context memory, whose leaf, found in state `s` and leaving `s'`, maps them to byte `k` of this
package (07 R118, R119). -/
def CodePage (e : Env) (s : State) (va n : Nat) (s' : State) (k : Nat) : Prop :=
  va % 4096 + n ≤ 4096 ∧ ∃ cx l x, tget s.ctxs e.grid.ctx = some cx ∧ isPaged cx e.unit va = true ∧
    pageOf s e.grid.ctx va .fetch e.unit = (s', .ok l) ∧ pageTgt s' l.pte l.shift va = .ok (.key k x) ∧ spanStalls s' k n = false

/-! ### Flows, delivery contexts, queues and requests -/

/-- No completion record is held, and no fence waits: an answer to a packet ends nothing but what it answers. -/
structure NothingWaits (s : State) : Prop where
  jobs : ∀ c ∈ s.ctxs, c.2.jobs = []
  fences : ∀ th ∈ s.threads, ∀ f ∈ th.2.frags, f.2.fences = []

/-- The packets of requests at a destination: their event, and their TYPE (02 R27). -/
def LmlRequest (go : LmlPkt → Instr) (ty : Nat) : Prop :=
  go = .lmlReadRequest ∧ ty = 0 ∨ go = .lmlWrite ∧ ty = 2 ∨ go = .lmlAtomic ∧ ty = 3 ∨ go = .lmlRelease ∧ ty = 6

/-- A packet's turn has come at its destination `f`: no bit of it is reserved, the flow is this package's, no earlier packet is missing, and its tag is not purged. -/
structure Arrives (s : State) (pk : LmlPkt) (f : DstFlow) : Prop where
  clean : reservedPkt { pk with ty := 0 } = false
  here : pk.dpkg = s.lnk.pkgNum
  flow : tget s.lnk.dst (dstKey pk) = some f
  turn : pk.seq = f.next
  held : f.held = []
  done : f.done = []
  faults : f.faults = []
  tag : f.purged.contains pk.qtag = false

/-- The answer to a packet (02 R27, R28). -/
def answerTo (s : State) (pk : LmlPkt) (ty : Nat) (data : List Byte) : LmlPkt :=
  { pk with spkg := s.lnk.pkgNum, dpkg := pk.spkg, rel := false, ty := ty, va := 0, data := data }

/-- A message is over: it is gone, and its command has finished with a status (02 R45). -/
def msgOver (t : State) (m cid code : Nat) : Prop := tget t.net.msgs m = none ∧ cmAt t cid fun c => c.st = 3 ∧ c.code = code

def pdAt (s : State) (p : Nat) (q : Pdc → Prop) : Prop := ∃ d, tget s.net.pdcs p = some d ∧ q d
def rpAt (s : State) (p : Nat) (q : RPdc → Prop) : Prop := ∃ d, tget s.net.rpdcs p = some d ∧ q d
def quAt (s : State) (q : Nat) (p : Queue → Prop) : Prop := ∃ x, tget s.queues q = some x ∧ p x

/-- A packet of a type stands at the head of a queue and may be dispatched (04 R61, R62, R64, R69). -/
structure AtHead (s : State) (q ty : Nat) (x : Queue) (bs : List Byte) : Prop where
  queue : tget s.queues q = some x
  run : running s q x = true
  head : x.head = some bs
  type : fld bs 0 1 = ty
  barrier : (fld bs 1 1).testBit 0 = true → x.read ≤ x.done ∧ jobsHeld s q x = false
  clear : hazard s q x.read = false
  room : tableRoom s q x.read = true

/-- Nothing of a queue's work is left but its packets. -/
structure QueueIdle (s : State) (q : Nat) : Prop where
  grids : ∀ e ∈ s.grids, e.2.queue ≠ q
  nests : ∀ e ∈ s.nests, e.2.queue ≠ q
  cmds : queueCmds s q = []

/-- Request CODE of a function is outstanding, it is the function's turn (or Shawm does not run, and it is RESTART), and every reserved byte of
it and every argument byte past `n` is 0 (03 R55). -/
structure Asks (s : State) (fn code n : Nat) : Prop where
  busy : (fnOf s fn).busy = true
  kind : fld (reqBytes s fn) 0 2 = code
  turn : fnTurn s fn code = true
  low : zeros (reqBytes s fn) 2 4 = true
  mid : zeros (reqBytes s fn) 8 16 = true
  rest : zeros (reqBytes s fn) (32 + n) 64 = true

/-- Shawm has taken a request of the function. -/
def served (s : State) (fn : Nat) : State := modPkg s fun p => { p with lastFn := fn, shawmAt := s.time }

/-- An argument of the outstanding request; its output buffer and that buffer's length. -/
def argOf (s : State) (fn lo n : Nat) : Nat := fld ((reqBytes s fn).drop 32) lo n
def outOf (s : State) (fn : Nat) : Nat := hostKey (fld (reqBytes s fn) 24 8)
def outLen (s : State) (fn : Nat) : Nat := fld (reqBytes s fn) 16 8

/-- The request finishes with a status, what it did being seen before Shawm writes STATUS. -/
def Finishes (i : Instr) (s : State) (fn st : Nat) (eff : State → Prop) : Prop :=
  ∃ u, exec i s = .next (finishReq u fn st) ∧ eff u

/-- It does not finish yet: Shawm looks again. -/
def Pends (i : Instr) (s : State) (fn : Nat) (eff : State → Prop) : Prop :=
  ∃ u, exec i s = .next (pollReq u fn) ∧ eff u

end Sys2Proof.Machine
end

