-- ==== Sys2Proof/Certificates/Slice0/Obligations.lean ====
section
/-! DEFINITION. The statements about the machine, from the spec's rules. -/
open Sys2Proof Sys2Proof.Machine

/-! ### Encoding (13 R235-R246) -/

/-- The two words that 13 works out field by field, and words of other families written out from their tables. -/
def Obligations.DecodeWords : Prop :=
  decode 0x005F3000_00801000_80018800 = .ok (.iadd { bareHdr with stall := 3 }
    { d := 4, a := 4, b := 1, c := 0, kd := false, ka := .v, kb := .imm, kc := .v, ty := 4, rnd := 0, sat := false, sub := 0 }) ∧
  decode 0x60220200_01002800_01019300 = .ok (.ld { bareHdr with gn := true, gp := 2, sbset := 1 }
    { d := 8, a := 10, off := 0x40, width := 6, ord := 2, scope := 3, cache := 0, ka := false, raw := false, sub := 0 }) ∧
  decode 0x301F0000_FFFFFFFE_00000000 = .ok (.bra bareHdr { tgt := 0xFFFFFFFE, a := 0, ka := .v, sub := 0, rsv := 0 }) ∧
  decode 0x325F0000_00000000_00000000 = .ok (.nop bareHdr { tgt := 0, a := 0, ka := .v, sub := 0, rsv := 0 }) ∧
  decode 0x215F0000_00600000_00155600 = .ok (.movi bareHdr
    { d := 3, a := 0, imm := 0x555, kd := true, ka := .v, ty := 0, sub := 0 }) ∧
  decode 0 = .error (.unassigned 0) ∧
  decode 0x325F0001_00000000_00000000 = .error (.reservedBit 0xC9)

/-- DECODE AND ENCODE AGREE: every well-formed instruction, with every operand at every value, is read back from its word. -/
def Obligations.EncodingRoundTrip : Prop :=
  ∀ i w, WellFormed i = true → encode i = some w → decode w = .ok i

/-- No bit of a word is lost: what decodes is well formed, and encodes as that word. -/
def Sys2Proof.Part.DecodingRoundTrip : Prop :=
  ∀ w i, decode w = .ok i → WellFormed i = true ∧ encode i = some w

/-- OP 0, classes 0xE and 0xF, and a set header bit 64 are no instructions (13 R246). -/
def Sys2Proof.Part.UnassignedRefused : Prop :=
  ∀ w : IWord, (opField w = 0 ∨ 0x380 ≤ opField w ∨ w.getLsbD 64 = true) → ∃ x, decode w = .error x

/-! ### The step -/

/-- What a step does: the turn on the agenda; else what is due; else a fragment whose fetch faults or calls for another package parks;
else the fragment that is first in the order of R97 issues; else a cycle of device time passes. An issue executes what its fetch decodes,
as the instruction of that fragment: a control context's from the slice, a strand's from the line of its core's L0, which a miss fills,
and which the L0 may have lost (07 R102).
That one turn runs at a time, from the agenda first, is the model's choice (notes/assumptions/1.md). -/
def Obligations.StepRunsDecoded : Prop :=
  (∀ s i r, s.agenda = .event i :: r → step s = exec i { s with agenda := r }) ∧
  (∀ s tid fi r s' i, s.agenda = .issue tid fi :: r → fetchTurn { s with agenda := r } tid fi = .ok (s', i) →
    step s = exec i { s' with cur := tid, curFrag := fi }) ∧
  (∀ s i s', s.agenda = [] → dueTurn s = some (.event i, s') → step s = exec i s') ∧
  (∀ s p, s.agenda = [] → dueTurn s = none → firstPark s = some p → step s = issueTurn p.1 p.2 s) ∧
  (∀ s p s' i, s.agenda = [] → dueTurn s = none → firstPark s = none → firstPick s = some p → fetchTurn (markIssue s p) p.tid p.fi = .ok (s', i) →
    step s = exec i { s' with cur := p.tid, curFrag := p.fi }) ∧
  (∀ s, s.agenda = [] → dueTurn s = none → firstPark s = none → firstPick s = none → step s = .next (cycle s)) ∧
  (∀ s tid fi e s' k i, Fetches s tid fi e → e.th.cc = true → CodePage e e.s e.fr.pc.toNat 12 s' k →
    decodeBytes (rdN s' k 12) = .ok i → ∃ t, fetchTurn s tid fi = .ok (t, i)) ∧
  (∀ s tid fi e s' k i, Fetches s tid fi e → e.th.cc = false → e.fr.pc.toNat % 96 + 12 ≤ 96 →
    heldL0 e e.s (e.fr.pc.toNat / 96 * 96) = [] → CodePage e (tick e.s) (e.fr.pc.toNat / 96 * 96) 96 s' k →
    decodeBytes (rdN s' (k + e.fr.pc.toNat % 96) 12) = .ok i →
    ∃ t, fetchTurn s tid fi = .ok (t, i) ∧ (e.blk.core, e.grid.ctx, e.fr.pc.toNat / 96 * 96, rdN s' k 96) ∈ t.l0) ∧
  (∀ s tid fi e s' k i j bs, Fetches s tid fi e → e.th.cc = false → e.fr.pc.toNat % 96 + 12 ≤ 96 →
    (e.s.l0.filter fun y => y.1 == e.blk.core && y.2.1 == e.grid.ctx && y.2.2.1 / 96 * 96 == e.fr.pc.toNat / 96 * 96) =
      [(e.blk.core, e.grid.ctx, e.fr.pc.toNat / 96 * 96, bs)] → bs.length = 96 →
    decodeBytes ((bs.drop (e.fr.pc.toNat % 96)).take 12) = .ok i → CodePage e (tick e.s) (e.fr.pc.toNat / 96 * 96) 96 s' k →
    decodeBytes (rdN s' (k + e.fr.pc.toNat % 96) 12) = .ok j →
    ∃ t, fetchTurn s tid fi = .ok (t, i) ∨ fetchTurn s tid fi = .ok (t, j))

/-- No ordinary data end a run: every instruction answers a next state, except an instruction of the ISA in a state that has no fragment
whose turn it is; and a step stops for nothing else but a write from outside to an address that does not exist. -/
def Obligations.InstructionsComplete : Prop :=
  (∀ i s, hdr? i = none → ∃ t, exec i s = .next t) ∧
  (∀ i h s e, hdr? i = some h → mkEnv h s = some e → ∃ t, exec i s = .next t) ∧
  (∀ i h s, hdr? i = some h → mkEnv h s = none → exec i s = .refused .noIssuer) ∧
  (∀ s f, step s = .fault f → f = .noSuchAddress ∧ ∃ key bs, (∃ r, s.agenda = .poke key bs :: r) ∨ ∃ d, (d, .poke key bs) ∈ s.timers)

/-- The invariant that every step keeps: memory stays in its canonical form. -/
def Obligations.StepKeepsMemoryCanonical : Prop :=
  ∀ s t, s.Inv → step s = .next t → t.Inv

/-- Reset: memory is in canonical form with nothing listed, no context, queue, grid, block or strand exists, device time is 0.
Device time 0 is the model's choice (notes/assumptions/4.md). -/
def Obligations.ResetState : Prop :=
  State.reset.Inv ∧ State.reset.mem = [] ∧ State.reset.ctxs = [] ∧ State.reset.queues = [] ∧ State.reset.grids = [] ∧
  State.reset.blocks = [] ∧ State.reset.threads = [] ∧ State.reset.time = 0

/-- Stores (00 R3, 07 R117): after bytes are stored they read back, every byte outside them is as it was, the canonical form is kept, and
nothing else changes but what is due, and what an MWAIT that watches the bytes has noted of them (09 R157); and two memories in canonical form that read alike are one memory. What an unwritten byte reads as
is the model's choice (notes/assumptions/3.md); the statement does not rest on it. -/
def Obligations.MemoryReadAfterWrite : Prop :=
  (∀ s a bs, let t := storeKey s a bs
    t.mem.readN a bs.length = bs ∧ (∀ k, k < a ∨ a + bs.length ≤ k → t.mem.read k = s.mem.read k) ∧ (s.Inv → t.Inv) ∧
    (watchers s a bs.length = [] → t.threads = s.threads) ∧
    (∀ j, Watches s t j) ∧
    t.blocks = s.blocks ∧ t.grids = s.grids ∧ t.ctxs = s.ctxs ∧ t.queues = s.queues ∧ t.time = s.time) ∧
  (∀ m m' : Memory, Memory.wf m = true → Memory.wf m' = true → (∀ a, m.read a = m'.read a) → m = m')

/-! ### Issue -/

/-- 13 R237: the active set is EM ∧ guard. Unguarded, it is EM; `GP = 31` with `GN = 1` gives the empty set; otherwise a lane passes
when its predicate differs from GN. With an empty active set the instruction still issues, and writes nothing. -/
def Sys2Proof.Part.GuardSelectsLanes : Prop :=
  ∀ h s e, mkEnv h s = some e → e.th.pend = [] → ∀ l, l < 32 →
    e.act.getLsbD l = (e.fr.em.getLsbD l &&
      (if h.gp = 31 then !h.gn else pAt s e.tid h.gp.toNat l != h.gn))

/-- 13 R242: after an instruction issues at time t, no fragment of its strand issues before t + 1 + STALL cycles of its core's
clock. -/
def Sys2Proof.Part.StallHoldsTheStrand : Prop :=
  ∀ h f s e, Issues (.nop h f) s e → ∃ t, exec (.nop h f) s = .next t ∧
    (tget t.threads e.tid).map (·.stallTill) = some (s.time + (1 + h.stall.toNat) * clkDiv s e.blk.core) ∧
    ∀ h' fi' (t' : State) e', t'.threads = t.threads → mkEnv h' { t' with cur := e.tid, curFrag := fi' } = some e' →
      t'.time < s.time + (1 + h.stall.toNat) * clkDiv s e.blk.core → canIssue e' = false

/-- 13 R244 (checking on): an instruction with a non-empty active set that reads or writes a register with a result pending raises STALL_SHORT,
code 12, and writes nothing: in the classes 0, 1 and 4 whenever the result is pending in an active lane; in any class whenever it is pending in a lane in
which the instruction reads or writes the register, unless it raises ILLEGAL, which comes first (R247). -/
def Sys2Proof.Part.StallShortTraps : Prop :=
  ∀ i h s e, hdr? i = some h → mkEnv h s = some e → canIssue e = true → e.fr.fences = [] ∨ ordered (opOf i) = false →
    ctxLegal i e = true → e.th.chk = true → e.act ≠ 0 →
    (∀ p ∈ e.th.pend, opOf i < 0x80 ∨ opOf i / 64 = 4 → stillPend s.time p = true → p.file ≠ 1 → p.mask &&& e.act ≠ 0 →
      (⟨p.file, p.num⟩ : RegRef) ∈ reads i ++ writes i →
      ∃ r : RegRef, r ∈ reads i ++ writes i ∧ ∃ m, m ≠ 0 ∧ exec i s = .next (takeTrap (tick s) e.tid e.fi 12 (r.num + 2048 * r.file) m 0 e.act)) ∧
    (∀ x ∈ (reads i).map (false, ·) ++ (writes i).map (true, ·), pendLanes i e x.1 x.2 ≠ 0 →
      (∃ y ∈ (reads i).map (false, ·) ++ (writes i).map (true, ·), pendLanes i e y.1 y.2 ≠ 0 ∧
        exec i s = .next (takeTrap (tick s) e.tid e.fi 12 (y.2.num + 2048 * y.2.file) (pendLanes i e y.1 y.2) 0 e.act)) ∨
      ∃ info m va, exec i s = .next (takeTrap (tick (countIssue e).s) e.tid e.fi 1 info m va e.act))

/-- 13 R246, R247: an instruction that the issuing agent may not execute raises ILLEGAL, code 1, whatever its guard. -/
def Sys2Proof.Part.IllegalTraps : Prop :=
  ∀ i h s e, hdr? i = some h → mkEnv h s = some e → canIssue e = true → e.fr.fences = [] ∨ ordered (opOf i) = false → ctxLegal i e = false →
    exec i s = .next (takeTrap (tick s) e.tid e.fi 1 (opOf i) e.act 0 e.act)

/-- Decoding is exact (13 R235, R246): no bit of a word is lost, and words that are no instruction are refused. -/
def Obligations.DecodingIsExact : Prop :=
  Part.DecodingRoundTrip ∧ Part.UnassignedRefused

/-- Issue (13 R237, R242, R244, R246, R247): the guard selects the lanes, the stall holds the strand, a short stall and an instruction that the agent may not execute trap. -/
def Obligations.IssueRules : Prop :=
  Part.GuardSelectsLanes ∧ Part.StallHoldsTheStrand ∧ Part.StallShortTraps ∧ Part.IllegalTraps

/-! ### Integer and address arithmetic (14 R254-R267) -/

/-- The 32-bit integer instructions: each completes and writes its value, and nothing else. -/
def Sys2Proof.Part.IntegerArithmetic : Prop := ∀ h f,
  ToD (.iadd h f) f.kd f.d (fun e l => iaddVal f.ty.toNat f.sat (opAt e 0 f.ka f.a l) (opAt e 0 f.kb f.b l)) ∧
  ToD (.isub h f) f.kd f.d (fun e l => isubVal f.ty.toNat f.sat (opAt e 0 f.ka f.a l) (opAt e 0 f.kb f.b l)) ∧
  ToD (.iadd3 h f) f.kd f.d (fun e l =>
    iadd3Val f.sub (opAt e 0 f.ka f.a l) (opAt e 0 f.kb f.b l) (opAt e 0 f.kc f.c l)) ∧
  ToD (.imul h f) f.kd f.d (fun e l => imulVal f.ty.toNat f.sat (opAt e 0 f.ka f.a l) (opAt e 0 f.kb f.b l)) ∧
  ToD (.imulhi h f) f.kd f.d (fun e l => imulhiVal f.ty.toNat (opAt e 0 f.ka f.a l) (opAt e 0 f.kb f.b l)) ∧
  ToD (.imad h f) f.kd f.d (fun e l =>
    imadVal f.ty.toNat f.sat (f.sub.getLsbD 2) (opAt e 0 f.ka f.a l) (opAt e 0 f.kb f.b l) (opAt e 0 f.kc f.c l)) ∧
  ToD (.imin h f) f.kd f.d (fun e l => iminVal f.ty.toNat (opAt e 0 f.ka f.a l) (opAt e 0 f.kb f.b l)) ∧
  ToD (.imax h f) f.kd f.d (fun e l => imaxVal f.ty.toNat (opAt e 0 f.ka f.a l) (opAt e 0 f.kb f.b l)) ∧
  ToD (.iabs h f) f.kd f.d (fun e l => iabsVal f.sat (opAt e 0 f.ka f.a l)) ∧
  ToD (.idiv h f) f.kd f.d (fun e l => (divVal f.ty.toNat (opAt e 0 f.ka f.a l) (opAt e 0 f.kb f.b l)).1) ∧
  ToD (.irem h f) f.kd f.d (fun e l => (divVal f.ty.toNat (opAt e 0 f.ka f.a l) (opAt e 0 f.kb f.b l)).2) ∧
  ToD (.idot4 h f) f.kd f.d (fun e l =>
    idot4Val f.ty.toNat (if f.sub.getLsbD 0 then 1 - f.ty.toNat else f.ty.toNat) f.sat (opAt e 0 f.ka f.a l) (opAt e 0 f.kb f.b l)
      (opAt e 0 f.kc f.c l))

/-- What those values are: a sum, difference or product is the low 32 bits of the exact result whatever the signedness, or with
`.sat` the exact result clamped to the TYPE's range; quotient and remainder satisfy n = q · d + r, q truncated, r with the sign of
the dividend, and the three special cases of R263. -/
def Sys2Proof.Part.IntegerValues : Prop :=
  (∀ t (a b : Word), iaddVal t false a b = a + b ∧ isubVal t false a b = a - b ∧ imulVal t false a b = a * b) ∧
  (∀ (a b : Word), (iaddVal 4 true a b).toInt = max (-2147483648) (min 2147483647 (a.toInt + b.toInt))) ∧
  (∀ (a b : Word), (isubVal 5 true a b).toNat = a.toNat - b.toNat) ∧
  (∀ (a b : Word), (imulhiVal 5 a b).toNat = a.toNat * b.toNat / 2 ^ 32) ∧
  (∀ t (a b : Word), (t = 4 ∨ t = 5) → ival b t ≠ 0 → ¬(t = 4 ∧ a = 0x80000000 ∧ b = 0xFFFFFFFF) →
    ival (divVal t a b).1 t * ival b t + ival (divVal t a b).2 t = ival a t ∧
    (ival (divVal t a b).2 t).natAbs < (ival b t).natAbs ∧
    (ival (divVal t a b).2 t ≠ 0 → (ival (divVal t a b).2 t < 0 ↔ ival a t < 0))) ∧
  (∀ t (a : Word), divVal t a 0 = (0xFFFFFFFF, a)) ∧
  divVal 4 0x80000000 0xFFFFFFFF = (0x80000000, 0)

/-- IADDC and ISUBB: the sum or difference with the carry or borrow that pC brings in (none with `.cz`), and pC receives the carry
or borrow of the exact result; nothing else is written. -/
def Sys2Proof.Part.CarryAndBorrow : Prop := ∀ h f,
  (∀ s e, Issues (.iaddc h f) s e → ∃ t, exec (.iaddc h f) s = .next t ∧
    let a := opAt e 0 f.ka f.a
    let b := opAt e 0 f.kb f.b
    let c := fun l => !f.sub.getLsbD 0 && prAt e f.c l
    Computed e t (vTo e f.d fun l => a l + b l + (if c l then 1 else 0)) noK
      (pTo e f.c fun l => decide ((a l).toNat + (b l).toNat + (c l).toNat ≥ 2 ^ 32))) ∧
  (∀ s e, Issues (.isubb h f) s e → ∃ t, exec (.isubb h f) s = .next t ∧
    let a := opAt e 0 f.ka f.a
    let b := opAt e 0 f.kb f.b
    let c := fun l => !f.sub.getLsbD 0 && prAt e f.c l
    Computed e t (vTo e f.d fun l => a l - b l - (if c l then 1 else 0)) noK
      (pTo e f.c fun l => decide ((a l).toNat < (b l).toNat + (c l).toNat)))

/-- The 64-bit instructions write their pair, and nothing else: no arena check is made (R264). -/
def Sys2Proof.Part.PairArithmetic : Prop := ∀ h f,
  ToPair (.imadw h f) f.kd f.d (fun e l =>
    imadwVal f.ty.toNat f.sat (opAt e 0 f.ka f.a l) (opAt e 0 f.kb f.b l) (op64At e f.kc f.c l)) ∧
  ToPair (.iadd64 h f) f.kd f.d (fun e l =>
    fit 64 f.ty.toNat f.sat (ival (op64At e f.ka f.a l) f.ty.toNat + ival (op64At e f.kb f.b l) f.ty.toNat)) ∧
  ToPair (.isub64 h f) f.kd f.d (fun e l =>
    fit 64 f.ty.toNat f.sat (ival (op64At e f.ka f.a l) f.ty.toNat - ival (op64At e f.kb f.b l) f.ty.toNat))

/-- Lane `l` of AADD: the pointer, the sum, and whether the sum stays within the pointer's arena name (14 R265, R266). -/
def Sys2Proof.aaddKeeps (p x : Dword) : Bool :=
  !isArena p.toNat || (bitsOf p.toNat 55 53 ≤ 3 &&
    x.toNat / 2 ^ offWidth (bitsOf p.toNat 55 53) == p.toNat / 2 ^ offWidth (bitsOf p.toNat 55 53))

/-- AADD: if every active lane's sum stays within its pointer's arena name, the pair is written; else it traps, ARENA_LEVEL (9)
when an active lane's pointer has a level above 3, otherwise ARENA_BOUNDS (8), with the failing lanes, and writes nothing. -/
def Sys2Proof.Part.PointerAddChecks : Prop := ∀ h f s e, Issues (.aadd h f) s e →
  let p := fun l => op64At e f.ka f.a l
  let x := fun l => p l + (opAt e 0 f.kb f.b l).signExtend 64
  ((∀ l, l < 32 → e.act.getLsbD l = true → aaddKeeps (p l) (x l) = true) → ∃ t, exec (.aadd h f) s = .next t ∧
    Computed e t
      (if f.kd then noV else fun r l => vTo e f.d (fun l => lo32 (x l)) r l <|> vTo e (f.d + 1) (fun l => hi32 (x l)) r l)
      (if f.kd then fun r => kTo e f.d (fun l => lo32 (x l)) r <|> kTo e (f.d + 1) (fun l => hi32 (x l)) r else noK) noP) ∧
  (∀ l, l < 32 → e.act.getLsbD l = true → aaddKeeps (p l) (x l) = false →
    ∃ code info lanes, (code = 8 ∨ code = 9) ∧ lanes ≠ 0 ∧ lanes &&& ~~~e.act = 0 ∧
      exec (.aadd h f) s = .next (takeTrap (tick (countIssue e).s) e.tid e.fi code info lanes 0 e.act))

/-! ### Bit instructions (14 R268-R276) -/

/-- The bit instructions: each completes and writes its value, and nothing else. -/
def Sys2Proof.Part.BitInstructions : Prop := ∀ h f,
  ToD (.lgc3 h f) f.kd f.d (fun e l =>
    lgc3Val (f.ty ++ f.rnd ++ flagBit f.sat) (opAt e 0 f.ka f.a l) (opAt e 0 f.kb f.b l) (opAt e 0 f.kc f.c l)) ∧
  ToD (.dsh h f) f.kd f.d (fun e l =>
    dshVal (f.sub.getLsbD 0) (opAt e 0 f.ka f.a l) (opAt e 0 f.kb f.b l) (opAt e 0 f.kc f.c l)) ∧
  ToD (.popc h f) f.kd f.d (fun e l => popcVal (opAt e 0 f.ka f.a l)) ∧
  ToD (.clz h f) f.kd f.d (fun e l => clzVal (opAt e 0 f.ka f.a l)) ∧
  ToD (.brev h f) f.kd f.d (fun e l => brevVal (opAt e 0 f.ka f.a l)) ∧
  ToD (.bfi h f) f.kd f.d (fun e l =>
    bfiVal (opAt e 0 f.ka f.a l) (opAt e 0 f.kb f.b l) (opAt e 0 f.kc f.c l)) ∧
  ToD (.bshuf h f) f.kd f.d (fun e l =>
    bshufVal (opAt e 0 f.ka f.a l) (opAt e 0 f.kb f.b l) (opAt e 0 f.kc f.c l))

/-- What those values are, bit by bit. -/
def Sys2Proof.Part.BitValues : Prop :=
  (∀ t (a b c : Word) i, i < 32 →
    (lgc3Val t a b c).getLsbD i = t.getLsbD (4 * (a.getLsbD i).toNat + 2 * (b.getLsbD i).toNat + (c.getLsbD i).toNat)) ∧
  (∀ (a : Word) i, i < 32 → (brevVal a).getLsbD (31 - i) = a.getLsbD i) ∧
  (∀ (a : Word) n, (clzVal a).toNat = n → (n = 32 ∧ a = 0) ∨ (n < 32 ∧ a.toNat < 2 ^ (32 - n) ∧ 2 ^ (31 - n) ≤ a.toNat)) ∧
  (∀ (a b c : Word) i, i < 32 → (bfiVal a b c).getLsbD i =
    if c.toNat % 256 ≤ i ∧ i < c.toNat % 256 + min (c.toNat / 256 % 256) 32 then a.getLsbD (i - c.toNat % 256) else b.getLsbD i) ∧
  (∀ (a b c : Word), dshVal false a b c = hi32 ((b ++ a : Dword) <<< min c.toNat 64)) ∧
  (∀ (a : Word) i, i < 32 → a.getLsbD i = false → popcVal (a ||| 1 <<< i) = popcVal a + 1) ∧ popcVal 0 = 0

/-- 14 R272: SUB bit 0 selects a rotate right; the amount is b mod 32, and a rotate by 0 or by 32 returns a. -/
def Obligations.RotateRotates : Prop :=
  (∀ h f, ToD (.rot h f) f.kd f.d fun e l =>
    let n := (opAt e 0 f.kb f.b l).toNat % 32
    BitVec.ofNat 32 (if f.sub.getLsbD 0
      then (opAt e 0 f.ka f.a l).toNat / 2 ^ n + (opAt e 0 f.ka f.a l).toNat * 2 ^ (32 - n)
      else (opAt e 0 f.ka f.a l).toNat * 2 ^ n + (opAt e 0 f.ka f.a l).toNat / 2 ^ (32 - n))) ∧
  (∀ r (a b : Word), (b = 0 ∨ b = 32) → rotVal r a b = a)

/-- 14 R270: the amount is the whole of b, not masked; from 32 on the result is 0, or with SHR.s32 copies of bit 31. -/
def Obligations.ShiftsShift : Prop := ∀ h f,
  (ToD (.shl h f) f.kd f.d fun e l =>
    let n := (opAt e 0 f.kb f.b l).toNat
    if n ≥ 32 then 0 else BitVec.ofNat 32 ((opAt e 0 f.ka f.a l).toNat * 2 ^ n)) ∧
  (ToD (.shr h f) f.kd f.d fun e l =>
    let n := (opAt e 0 f.kb f.b l).toNat
    let a := opAt e 0 f.ka f.a l
    if f.ty = 4 then (if n ≥ 32 then (if a.getLsbD 31 then 0xFFFFFFFF else 0) else BitVec.ofInt 32 (a.toInt / 2 ^ n))
    else if n ≥ 32 then 0 else BitVec.ofNat 32 (a.toNat / 2 ^ n))

/-- 14 R274: the field of a from bit p = b[7:0] on, n = min(c[7:0], 32) bits, extended; bits beyond 31 read 0, or with BFE.s32
copies of bit 31. -/
def Obligations.FieldExtract : Prop :=
  (∀ h f, ToD (.bfe h f) f.kd f.d fun e l =>
    bfeVal f.ty.toNat (opAt e 0 f.ka f.a l) (opAt e 0 f.kb f.b l) (opAt e 0 f.kc f.c l)) ∧
  (∀ t (a b c : Word) i, i < 32 →
    let p := b.toNat % 256
    let n := min (c.toNat % 256) 32
    let bitAt := fun j => if j ≤ 31 then a.getLsbD j else t == 4 && a.getLsbD 31
    (bfeVal t a b c).getLsbD i = if n = 0 then false else if i < n then bitAt (p + i) else t == 4 && bitAt (p + (n - 1))) ∧
  bfeVal 4 0xB5 4 4 = 0xFFFFFFFB ∧ bfeVal 5 0xB5 4 4 = 0xB

/-- Integer arithmetic (14): which instruction writes what to D, and the values of the operations. -/
def Obligations.IntegerInstructions : Prop :=
  Part.IntegerArithmetic ∧ Part.IntegerValues

/-- Carries, pairs and pointers (14). -/
def Obligations.PairsAndCarry : Prop :=
  Part.CarryAndBorrow ∧ Part.PairArithmetic ∧ Part.PointerAddChecks

/-- Bit operations (14): which instruction writes what to D, and the values of the operations. -/
def Obligations.BitOperations : Prop :=
  Part.BitInstructions ∧ Part.BitValues

/-! ### Compare, move and lane instructions (15 R277-R289) -/

/-- The comparisons write the active lanes of pD, and nothing else. -/
def Obligations.Comparisons : Prop := ∀ h f,
  ToP (.isetp h f) f.d (fun e l =>
    comb f.rnd.toNat (icmp f.sub.toNat
      (if is64 f.ty.toNat then ival (op64At e f.ka f.a l) f.ty.toNat else ival (opAt e 0 f.ka f.a l) f.ty.toNat)
      (if is64 f.ty.toNat then ival (op64At e f.kb f.b l) f.ty.toNat else ival (opAt e 0 f.kb f.b l) f.ty.toNat))
      (prAt e f.c l)) ∧
  ToP (.fsetp h f) f.d (fun e l =>
    let x := fun k r => fdec (fmtOf f.ty.toNat) (opnd (fmtOf f.ty.toNat) (opAt e f.ty.toNat k r l) 0 false false (f.sub.getLsbD 4))
    comb f.rnd.toNat (fcmp (f.sub.toNat % 16) (ford (x f.ka f.a) (x f.kb f.b))) (prAt e f.c l))

/-- 15 R281: PSETP looks the three predicates up in the table of MOD 12:5; MOD 4:0 is 0. -/
def Obligations.PredicateLogic : Prop := ∀ h f,
  (ToP (.psetp h f) f.d fun e l =>
    (f.ty ++ f.rnd ++ flagBit f.sat).getLsbD
      (4 * (prAt e f.a l).toNat + 2 * (prAt e f.b l).toNat + (prAt e f.c l).toNat)) ∧
  (WellFormed (.psetp h f) = true → f.sub = 0)

/-- The moves between registers and lanes write their destination, and nothing else. A lane that is not active is never read by
SHFL, READLANE, MATCH, VOTE or REDUX. -/
def Sys2Proof.Part.MovesAndLanes : Prop := ∀ h f fi,
  ToD (.sel h f) f.kd f.d (fun e l => if prAt e f.c l then opAt e 0 f.ka f.a l else opAt e 0 f.kb f.b l) ∧
  ToD (.mov h f) f.kd f.d (fun e l => opAt e 0 f.ka f.a l) ∧
  ToD (.movi h fi) fi.kd fi.d (fun _ _ => fi.imm) ∧
  ToD (.bcast h f) false f.d (fun e _ => kAt e.s e.tid f.a.toNat) ∧
  ToD (.readlane h f) true f.d (fun e _ =>
    let j := (opAt e 0 f.kb f.b 0).toNat % 32
    if e.act.getLsbD j then vAt e.s e.tid f.a.toNat j else 0) ∧
  ToD (.shfl h f) false f.d (fun e l => match shflLane (f.sub.toNat % 4) f.c.toNat l (opAt e 0 f.kb f.b l).toNat with
    | some j => if e.act.getLsbD j then vAt e.s e.tid f.a.toNat j else vAt e.s e.tid f.a.toNat l
    | none => vAt e.s e.tid f.a.toNat l) ∧
  ToD (.redux h f) f.kd f.d (fun e _ => match (lanesOf e.act).map fun l => opAt e 0 f.ka f.a l with
    | [] => 0
    | x :: r => r.foldl (reduxOp f.sub.toNat f.ty.toNat) x) ∧
  (∀ s e, Issues (.vote h f) s e → ∃ t, exec (.vote h f) s = .next t ∧
    let m := maskOf fun l => e.act.getLsbD l && prAt e f.a l
    Computed e t (if f.sub.toNat < 2 ∨ f.kd = true then noV else vTo e f.d fun _ => m)
      (if f.sub.toNat < 2 ∨ f.kd = false then noK else kTo e f.d fun _ => m)
      (if f.sub.toNat = 0 then pTo e f.d fun _ => m == e.act else if f.sub.toNat = 1 then pTo e f.d fun _ => m != 0 else noP))

/-- 15 R286: MATCH writes, per lane, the active lanes that hold the same value, or with `.all` every active lane if all do and 0
otherwise. Its result is per lane, so KD = 1 raises ILLEGAL. -/
def Obligations.MatchLanes : Prop := ∀ h f,
  ToD (.lmatch h f) false f.d (fun e l =>
    let eq := maskOf fun m => e.act.getLsbD m && opAt e 0 f.ka f.a m == opAt e 0 f.ka f.a l
    if f.sub.getLsbD 0 then (if eq = e.act then e.act else 0) else eq) ∧
  (f.kd = true → ∀ s e, mkEnv h s = some e → canIssue e = true →
    exec (.lmatch h f) s = .next (takeTrap (tick s) e.tid e.fi 1 (opOf (.lmatch h f)) e.act 0 e.act))

/-- 15 R289: P2V packs the predicates of a lane under a mask, p31 reading 1; V2P writes the predicates p0-p30 that b selects, and
never p31. P2V with KD = 1 raises ILLEGAL. -/
def Obligations.PredicateTransfers : Prop := ∀ h f,
  ToD (.p2v h f) false f.d (fun e l => maskOf (fun n => n == 31 || pAt e.s e.tid n l) &&& opAt e 0 f.ka f.a l) ∧
  (∀ s e, Issues (.v2p h f) s e → ∃ t, exec (.v2p h f) s = .next t ∧
    Computed e t noV noK fun n l =>
      if n < 31 ∧ e.act.getLsbD l ∧ (opAt e 0 f.kb f.b l).getLsbD n then some ((opAt e 0 f.ka f.a l).getLsbD n) else none) ∧
  (f.kd = true → ∀ s e, mkEnv h s = some e → canIssue e = true →
    exec (.p2v h f) s = .next (takeTrap (tick s) e.tid e.fi 1 (opOf (.p2v h f)) e.act 0 e.act))

/-- GETSR reads a special register into D. SETSR writes `%sppass` (of a strand) or `%mxstat` bit 0 (of a control context) from a
uniform source or the lowest active lane, changes no register, and with an empty active set changes nothing (15 R288). -/
def Sys2Proof.Part.SpecialRegisters : Prop := ∀ h f,
  ToD (.getsr h f) f.kd f.d (fun e l => special e f.a.toNat l) ∧
  (∀ e l, special e 0x0C l = BitVec.ofNat 32 e.s.time ∧ special e 0x09 l = BitVec.ofNat 32 e.blk.core ∧
    (e.th.cc = false → special e 0x00 l = BitVec.ofNat 32 l ∧ special e 0x01 l = BitVec.ofNat 32 e.th.idx ∧
      special e 0x0F l = e.th.sppass)) ∧
  (∀ s e, Issues (.setsr h f) s e → ∃ t, exec (.setsr h f) s = .next t ∧ Regs s t e.tid noV noK noP ∧
    (e.act = 0 → (tget t.threads e.tid).map Thread.aside = some e.th.aside) ∧
    (e.act ≠ 0 → f.a = 0x0F → e.th.cc = false → (tget t.threads e.tid).map (·.sppass) = some (opAt e 0 f.kb f.b (low e))) ∧
    (e.act ≠ 0 → f.a = 0x11 → e.th.cc = true →
      (tget t.threads e.tid).map (·.mxstat) = some ((opAt e 0 f.kb f.b (low e)).getLsbD 0)))

/-! ### Floating point and conversion (16) -/

/-- The floating-point instructions of class 0x4, the requantisations and the two correctly rounded functions: each completes and
writes its value, and nothing else. -/
def Sys2Proof.Part.FloatingPoint : Prop := ∀ h f,
  let t9 := f.ty.toNat
  ToD (.fadd h f) f.kd f.d (fun e l => faddVal f (opAt e t9 f.ka f.a l) (opAt e t9 f.kb f.b l)) ∧
  ToD (.fmul h f) f.kd f.d (fun e l => fmulVal f (opAt e t9 f.ka f.a l) (opAt e t9 f.kb f.b l)) ∧
  ToD (.ffma h f) f.kd f.d (fun e l => ffmaVal f (opAt e t9 f.ka f.a l) (opAt e t9 f.kb f.b l) (opAt e t9 f.kc f.c l)) ∧
  ToD (.fmin h f) f.kd f.d (fun e l => fminmaxVal f false (opAt e t9 f.ka f.a l) (opAt e t9 f.kb f.b l)) ∧
  ToD (.fmax h f) f.kd f.d (fun e l => fminmaxVal f true (opAt e t9 f.ka f.a l) (opAt e t9 f.kb f.b l)) ∧
  ToD (.frnd h f) f.kd f.d (fun e l => frndVal f (opAt e t9 f.ka f.a l)) ∧
  ToD (.fclass h f) f.kd f.d (fun e l => fclassVal f (opAt e t9 f.ka f.a l)) ∧
  ToD (.fdot2 h f) f.kd f.d (fun e l => fdot2Val f (opAt e t9 f.ka f.a l) (opAt e t9 f.kb f.b l) (opAt e 9 f.kc f.c l)) ∧
  ToD (.fscale h f) f.kd f.d (fun e l => fscaleVal f (opAt e t9 f.ka f.a l) (opAt e 0 f.kb f.b l)) ∧
  ToPair (.ffrexp h f) f.kd f.d (fun e l =>
    BitVec.ofInt 32 (frexpBits (opA f 9 (opAt e 9 f.ka f.a l) 0)).2 ++ BitVec.ofNat 32 (frexpBits (opA f 9 (opAt e 9 f.ka f.a l) 0)).1) ∧
  ToD (.fsqrt h f) f.kd f.d (fun e l => fsqrtVal f (opAt e 9 f.ka f.a l)) ∧
  ToD (.fdiv h f) f.kd f.d (fun e l => fdivVal f (opAt e 9 f.ka f.a l) (opAt e 9 f.kb f.b l)) ∧
  ToD (.qshr h f) f.kd f.d (fun e l =>
    qshrVal t9 (opAt e 0 f.ka f.a l) (opAt e 0 f.kb f.b l) (opAt e 0 f.kc f.c l)) ∧
  ToD (.qmul h f) f.kd f.d (fun e l => qmulVal (opAt e 0 f.ka f.a l) (opAt e 0 f.kb f.b l))

/-- The special functions of R319 complete on every input and write D alone; where the spec gives the value it is that value,
whatever the device's approximation: NaN, the infinities, zeros, and the exact points.
Elsewhere the result is a free value (notes/assumptions/8.md). -/
def Sys2Proof.Part.SpecialFunctions : Prop :=
  (∀ h f,
    ToD (.frcp h f) f.kd f.d (fun e l => frcpVal (sfuIn f (opAt e 9 f.ka f.a l))) ∧
    ToD (.frsq h f) f.kd f.d (fun e l => frsqVal (sfuIn f (opAt e 9 f.ka f.a l))) ∧
    ToD (.fex2 h f) f.kd f.d (fun e l => fex2Val (sfuIn f (opAt e 9 f.ka f.a l))) ∧
    ToD (.flg2 h f) f.kd f.d (fun e l => flg2Val (sfuIn f (opAt e 9 f.ka f.a l))) ∧
    ToD (.fsin h f) f.kd f.d (fun e l => fsinVal (sfuIn f (opAt e 9 f.ka f.a l))) ∧
    ToD (.fcos h f) f.kd f.d (fun e l => fcosVal (sfuIn f (opAt e 9 f.ka f.a l))) ∧
    ToD (.ftanh h f) f.kd f.d (fun e l => ftanhVal (sfuIn f (opAt e 9 f.ka f.a l)))) ∧
  [frcpVal 0x7F800000, frcpVal 0, frcpVal 0x80000000, frcpVal 0x40000000] = [0, 0x7F800000, 0xFF800000, 0x3F000000] ∧
  [frsqVal 0x40800000, frsqVal 0xBF800000, frsqVal 0] = [0x3F000000, 0x7FC00000, 0x7F800000] ∧
  [fex2Val 0, fex2Val 0xFF800000, fex2Val 0x40400000] = [0x3F800000, 0, 0x41000000] ∧
  [flg2Val 0x41000000, flg2Val 0, flg2Val 0xBF800000] = [0x40400000, 0xFF800000, 0x7FC00000] ∧
  [fsinVal 0x80000000, fsinVal 0x7F800000, fcosVal 0, fcosVal 0xFF800000] = [0x80000000, 0x7FC00000, 0x3F800000, 0x7FC00000] ∧
  (∀ x : Nat, 0x41100000 ≤ x → x ≤ 0x7F800000 → ftanhVal x = 0x3F800000)

/-- The conversions: each completes and writes its value, and nothing else. The slot-indexed forms read a format slot of the grid,
and trap ILLEGAL when its kind of A is one that R313 excludes. -/
def Sys2Proof.Part.Conversions : Prop := ∀ h f,
  (∀ s e, Issues (.cvt h f) s e → ∃ t, exec (.cvt h f) s = .next t ∧
    let st := f.sub.toNat % 16
    let y := fun l => cvtVal f.ty.toNat st f.rnd.toNat (f.sub.getLsbD 4) f.sat
      (if is64 st then op64At e f.ka f.a l else (opAt e st f.ka f.a l).setWidth 64)
    let hiV := fun r l => if is64 f.ty.toNat then vTo e (f.d + 1) (fun l => hi32 (y l)) r l else none
    let hiK := fun r => if is64 f.ty.toNat then kTo e (f.d + 1) (fun l => hi32 (y l)) r else none
    Computed e t (if f.kd then noV else fun r l => vTo e f.d (fun l => lo32 (y l)) r l <|> hiV r l)
      (if f.kd then fun r => kTo e f.d (fun l => lo32 (y l)) r <|> hiK r else noK) noP) ∧
  (∀ s e, Issues (.cvtQ h f) s e → cvtKindOk (slotOf e f.b.toNat) = true → ∃ t, exec (.cvtQ h f) s = .next t ∧
    let y := fun l => cvtQVal (slotOf e f.b.toNat) (opAt e 9 f.ka f.a l)
    Computed e t (if f.kd then noV else vTo e f.d y) (if f.kd then kTo e f.d y else noK) noP) ∧
  (∀ s e, Issues (.cvtDq h f) s e → cvtKindOk (slotOf e f.b.toNat) = true → ∃ t, exec (.cvtDq h f) s = .next t ∧
    let y := fun l => cvtDqVal (slotOf e f.b.toNat) (opAt e 0 f.ka f.a l)
    Computed e t (if f.kd then noV else vTo e f.d y) (if f.kd then kTo e f.d y else noK) noP) ∧
  (∀ s e, Issues (.cvtQ h f) s e → cvtKindOk (slotOf e f.b.toNat) = false →
    exec (.cvtQ h f) s = .next (takeTrap (tick (countIssue e).s) e.tid e.fi 1 0x140 e.act 0 e.act)) ∧
  ToD (.pack h f) f.kd f.d (fun e l =>
    let ty := if packed f.ty.toNat then 9 else 0
    packVal f (opAt e ty f.ka f.a l) (opAt e ty f.kb f.b l) (opAt e 0 f.kc f.c l)) ∧
  ToPair (.unpk h f) f.kd f.d (fun e l => unpkVal f (opAt e f.ty.toNat f.ka f.a l)) ∧
  (∀ s e, Issues (.bpnspl h f) s e → ∃ t, exec (.bpnspl h f) s = .next t ∧
    let b := (opAt e 0 f.kb f.b 0).toNat % 4
    Computed e t (fun r l => if r = f.d.toNat ∧ e.act.getLsbD l ∧ l / 8 = b
      then some (maskOf fun m => e.act.getLsbD m && (vAt s e.tid f.a.toNat m).getLsbD (8 * b + 7 - l % 8)) else none) noK noP) ∧
  ToD (.bpnjn h f) false f.d (fun e l =>
    let b := (opAt e 0 f.kb f.b 0).toNat % 4
    let w := fun j => if e.act.getLsbD (8 * b + j) then vAt e.s e.tid f.a.toNat (8 * b + j) else 0
    (BitVec.ofNat 8 ((List.range f.c.toNat).foldl (fun a j => if (w j).getLsbD l then a + 2 ^ (7 - j) else a) 0)).signExtend 32)

/-- Moves, lane exchange and special registers (14, 15). -/
def Obligations.MovesAndRegisters : Prop :=
  Part.MovesAndLanes ∧ Part.SpecialRegisters

/-- Floating point, special functions and conversions (16). -/
def Obligations.FloatInstructions : Prop :=
  Part.FloatingPoint ∧ Part.SpecialFunctions ∧ Part.Conversions

/-! ### Control (15 R290-R300, 08 R127-R131) -/

/-- A branch that every enabled lane takes, or that none takes, moves the fragment: to its target, or to the next instruction.
CALL and CALLX push the address of the next instruction, owned by the fragment; RET goes to the newest entry that the fragment owns,
and removes it. No register changes. -/
def Obligations.UniformBranches : Prop := ∀ h f s e,
  e.fr.em ≠ 0 → e.th.splits = [] →
  let next := e.fr.pc + 12
  let tgt := e.fr.pc + 12 * f.tgt.signExtend 64
  let entry : Call := { serial := false, pc := next, owner := 2 * e.fi }
  (Issues (.bra h f) s e → StackRoom e 0 → (e.act = e.fr.em ∨ e.act = 0) → ∃ t, exec (.bra h f) s = .next t ∧
    Regs s t e.tid noV noK noP ∧ pcAt t e.tid e.fi = some (if e.act = 0 then next else tgt) ∧ thAt t e.tid (·.calls = e.th.calls)) ∧
  (Issues (.call h f) s e → StackRoom e 1 → e.act = e.fr.em → ∃ t, exec (.call h f) s = .next t ∧
    Regs s t e.tid noV noK noP ∧ pcAt t e.tid e.fi = some tgt ∧ thAt t e.tid (·.calls = entry :: e.th.calls)) ∧
  (∀ a, Issues (.brx h f) s e → StackRoom e 0 → e.act = e.fr.em → codeOk e a = true →
    (∀ l, l < 32 → e.act.getLsbD l = true → op64At e f.ka f.a l = a) → ∃ t, exec (.brx h f) s = .next t ∧
    Regs s t e.tid noV noK noP ∧ pcAt t e.tid e.fi = some a ∧ thAt t e.tid (·.calls = e.th.calls)) ∧
  (∀ a, Issues (.callx h f) s e → StackRoom e 1 → e.act = e.fr.em → codeOk e a = true →
    (∀ l, l < 32 → e.act.getLsbD l = true → op64At e f.ka f.a l = a) → ∃ t, exec (.callx h f) s = .next t ∧
    Regs s t e.tid noV noK noP ∧ pcAt t e.tid e.fi = some a ∧ thAt t e.tid (·.calls = entry :: e.th.calls)) ∧
  (∀ a cs, Issues (.ret h f) s e → e.act = e.fr.em → popRet e.th.calls (2 * e.fi) = some (a, cs) → codeOk e a = true →
    ∃ t, exec (.ret h f) s = .next t ∧ Regs s t e.tid noV noK noP ∧ pcAt t e.tid e.fi = some a ∧ thAt t e.tid (·.calls = cs))

/-- A branch that some enabled lanes take and others do not splits the fragment (08 R128): the lanes that do not take it go on in
its entry, those that do in a free entry at the target, and both belong to a new split that keeps the pending reconvergence
address, the disabled lanes and the parent. -/
def Sys2Proof.Part.DivergentBranchSplits : Prop := ∀ h f s e j,
  Issues (.bra h f) s e → e.th.splits = [] → StackRoom e 0 → e.act ≠ 0 → e.act ≠ e.fr.em → (freeEntries e.th).head? = some j →
  let tgt := e.fr.pc + 12 * f.tgt.signExtend 64
  tgt ≠ e.fr.pc + 12 → e.fr.rcv ≠ some tgt → e.fr.rcv ≠ some (e.fr.pc + 12) →
  ∃ t, exec (.bra h f) s = .next t ∧ Regs s t e.tid noV noK noP ∧
    frAt t e.tid e.fi (fun r => r.pc = e.fr.pc + 12 ∧ r.em = e.fr.em &&& ~~~e.act ∧ r.m = r.em ∧ r.split = s.nextId) ∧
    frAt t e.tid j (fun r => r.pc = tgt ∧ r.em = e.act ∧ r.m = r.em ∧ r.split = s.nextId) ∧
    thAt t e.tid (fun th => tget th.splits s.nextId = some
      { addr := e.fr.rcv, dis := e.fr.m &&& ~~~e.fr.em, parent := e.fr.split, entry := e.fi, inCont := e.fr.inCont })

/-- Fragments of a split that have all arrived at its address fuse into one there, with the union of their lanes, the disabled lanes
as members, and a signature that starts anew (08 R129, 10 R188). -/
def Sys2Proof.Part.ArrivedFragmentsFuse : Prop := ∀ th sid sp a i j (f g : Frag),
  th.splits = [(sid, sp)] → sp.addr = some a → sp.serial = false → sp.parent ≠ sid → th.frags = [(i, f), (j, g)] → i < j →
  f.split = sid → g.split = sid → f.park = .join → g.park = .join → th.hand = none → th.exited &&& (f.m ||| g.m ||| sp.dis) = 0 →
  f.m ||| g.m ||| sp.dis ≠ 0 →
  ∃ r, (settle 40 th).frags = [(i, r)] ∧ (settle 40 th).splits = [] ∧ r.pc = a ∧ r.m = f.m ||| g.m ||| sp.dis ∧
    r.em = (f.em ||| g.em) &&& r.m ∧ r.split = sp.parent ∧ r.sig = fuseSig 0

/-- The other control instructions do what their entries say, and go on to the next instruction; no register changes but the
destination of MASKR. -/
def Sys2Proof.Part.ControlInstructions : Prop := ∀ h f,
  ToD (.maskr h f) (f.ka == .k) f.a (fun e _ => e.fr.em) ∧
  (∀ s e, Issues (.nop h f) s e → ∃ t, exec (.nop h f) s = .next t ∧ Computed e t noV noK noP) ∧
  (∀ s e, Issues (.rcv h f) s e → e.th.splits = [] → ∃ t, exec (.rcv h f) s = .next t ∧ Regs s t e.tid noV noK noP ∧
    frAt t e.tid e.fi fun r => r.pc = e.fr.pc + 12 ∧ r.rcv = some (e.fr.pc + 12 * f.tgt.signExtend 64)) ∧
  (∀ s e, Issues (.maskw h f) s e → e.th.splits = [] → ∃ t, exec (.maskw h f) s = .next t ∧ Regs s t e.tid noV noK noP ∧
    frAt t e.tid e.fi fun r => r.pc = e.fr.pc + 12 ∧ r.m = e.fr.m ∧
      r.em = (if f.ka = .imm then f.tgt else opAt e 0 f.ka f.a ((lowest e.fr.m).getD 0)) &&& e.fr.m) ∧
  (∀ s e, Issues (.exit h f) s e → e.th.splits = [] → ∃ t, exec (.exit h f) s = .next t ∧
    thAt t e.tid (fun th => th.exited = e.th.exited ||| e.act ∧
      (e.fr.m &&& ~~~e.act = 0 → tget th.frags e.fi = none) ∧
      (e.fr.m &&& ~~~e.act ≠ 0 → ∃ r, tget th.frags e.fi = some r ∧ r.pc = e.fr.pc + 12 ∧ r.m = e.fr.m &&& ~~~e.act ∧
        r.em = e.fr.em &&& ~~~e.act))) ∧
  (∀ s e, Issues (.cont h f) s e → ∃ t, exec (.cont h f) s = .next t ∧ Regs s t e.tid noV noK noP ∧
    thAt t e.tid (·.contAddr = some (e.fr.pc + 12 * f.tgt.signExtend 64))) ∧
  (∀ s e, Issues (.contOff h f) s e → ∃ t, exec (.contOff h f) s = .next t ∧ Regs s t e.tid noV noK noP ∧
    thAt t e.tid (·.contAddr = none)) ∧
  (∀ s e w, Issues (.cret h f) s e → e.th.splits = [] → e.th.frame = some w → e.fr.inCont = true → w.served = true →
    codeOk e w.pc = true → ∃ t, exec (.cret h f) s = .next t ∧ Regs s t e.tid noV noK noP ∧
    thAt t e.tid (fun th => th.frame = none ∧ ∃ r, tget th.frags e.fi = some r ∧ r.pc = w.pc ∧ r.em = w.em &&& e.fr.m ∧ r.sig = w.sig))

/-- YIELD, YIELD.req and SLEEP (15 R298, R299). With no pre-emption pending, YIELD demotes its fragment and goes on, and YIELD.req is
a NOP; with one pending, each stops after itself. SLEEP parks until its count has elapsed, and a count of 0 or a pending request
ends it at once. -/
def Sys2Proof.Part.YieldAndSleep : Prop := ∀ h f,
  (∀ s e, Issues (.yield h f) s e → e.blk.preq = [] → ∃ t, exec (.yield h f) s = .next t ∧ Computed e t noV noK noP ∧
    (e.th.splits = [] → frAt t e.tid e.fi fun r => r.demoted = true)) ∧
  (∀ s e, Issues (.yieldReq h f) s e → e.blk.preq = [] → e.blk.late = [] → ∃ t, exec (.yieldReq h f) s = .next t ∧ Computed e t noV noK noP ∧
    (e.th.splits = [] → frAt t e.tid e.fi fun r => r.demoted = h.yld)) ∧
  (∀ i s e, (i = .yield h f ∨ i = .yieldReq h f) → Issues i s e → e.blk.preq ≠ [] → 5 ∉ e.blk.preq → e.th.splits = [] →
    ∃ t, exec i s = .next t ∧ Regs s t e.tid noV noK noP ∧ frAt t e.tid e.fi fun r => r.park = .stopped ∧ r.pc = e.fr.pc + 12) ∧
  (∀ s e, Issues (.sleep h f) s e →
    let n := (if f.ka = .imm then f.tgt else opAt e 0 f.ka f.a ((lowest e.fr.m).getD 0)).toNat
    (n = 0 ∨ preqOf e.blk ≠ 0 → ∃ t, exec (.sleep h f) s = .next t ∧ Computed e t noV noK noP) ∧
    (n ≠ 0 → preqOf e.blk = 0 → e.th.splits = [] → ∃ t, exec (.sleep h f) s = .next t ∧ Regs s t e.tid noV noK noP ∧
      (s.time + n, Turn.event (.sleepExpiry e.tid e.fi)) ∈ t.timers ∧
      frAt t e.tid e.fi fun r => r.park = .sleep (s.time + n) ∧ r.pc = e.fr.pc + 12)) ∧
  (∀ s tid fi till, frAt s tid fi (·.park = .sleep till) → thAt s tid (·.splits = []) → ∃ t, exec (.sleepExpiry tid fi) s = .next t ∧
    (till ≤ s.time → frAt t tid fi (·.park = .run)) ∧ (s.time < till → frAt t tid fi (·.park = .sleep till)))

/-- Fragments part at a divergent branch and fuse where they arrive (08, 15). -/
def Obligations.DivergenceAndFusion : Prop :=
  Part.DivergentBranchSplits ∧ Part.ArrivedFragmentsFuse

/-- Other control instructions (15). -/
def Obligations.ControlTransfers : Prop :=
  Part.ControlInstructions ∧ Part.YieldAndSleep

/-! ### Memory (17 R322-R331, 07 R117-R121) -/

/-- Translation of a context address through the page tables: what a TLB serves changes no memory; otherwise every byte of memory but the eight of one leaf entry is unchanged, of
that entry only bits 6 (A) and 7 (D) may become set, and a write to a page whose W is 0, a fetch from one whose X is 0, and an
address that is not canonical fault with their causes (07 R118-R121). -/
def Sys2Proof.Part.TranslationEffects : Prop :=
  (∀ s c va u n s' r, transPage s c va u n = (s', r) → tlbFind s c va u (tlbUnits n) = none ∨ s'.mem = s.mem) ∧
  (∀ s c va u n s' r, transPage s c va u n = (s', r) →
    ∃ key e', ∀ a, s'.mem.read a = s.mem.read a ∨ (key ≤ a ∧ a < key + 8 ∧
      e' = rdNat s key 8 ||| 64 ||| (if u = .write then 128 else 0) ∧ s'.mem.readN key 8 = leBytes e' 8)) ∧
  (∀ s c cx va u n, tget s.ctxs c = some cx → isArena va = false → 2 ^ 57 ≤ va → (va / 2 ^ 32 ≠ 0xC5000000 ∨ n < 2048 ∨ 3072 ≤ n) →
    translate s c va u n = (s, .error (.cause 5))) ∧
  (∀ s c s' va n k x, transPage s c va .write n = (s', .ok (.key k x)) →
    ∃ e, bitsOf e 4 4 = 1 ∧ ∃ sh, leafTgt e sh va = .key k x)

/-- LD (17 R326) of this package's memory: with every active lane aligned, allowed and translated, each active lane's D receives the
bytes that memory holds there, extended by the WIDTH, and no other register and no byte of memory changes. This is the load that
reads the slice (scope cluster or wider, an acquire, host memory, or a control context), or a single lane's load of a line that
its core's L1 does not hold. -/
def Sys2Proof.Part.LoadReadsMemory : Prop := ∀ h f s e s' ts,
  Issues (.ld h f) s e → e.act ≠ 0 → s.lace = [] →
  let e' := countIssue e
  let w := f.width.toNat
  let ea := eaMem e' f
  isWindow e' (ea 0) = false → checkMem e' w false (fun _ => []) ea = none →
  xlate e' e'.s 0x180 .read true ea = .ok (s', ts) → allHere ts →
  ∃ t V, exec (.ld h f) s = .next t ∧ Regs s t e.tid (regsTo f.d (widthRegs w) V) noK noP ∧ t.mem = s'.mem ∧
    (∀ l, (V l).isSome = true ↔ e.act.getLsbD l = true) ∧
    (∀ l k x, (l, Tgt.key k x) ∈ ts →
      (x = true ∨ e.th.cc = true ∨ 1 < f.scope.toNat ∨ 1 < f.ord.toNat ∨ (lanesOf e.act = [l] ∧ l1Line s' e.blk.core k = none)) →
      V l = some (extendLoad w (rdN s' k (widthBytes w))))

/-- ST (17 R326) to this package's memory: with every active lane aligned, allowed and translated, and the release part done, the
bytes from each lane's translated address on are stored, the highest lane last; every byte outside them is as translation and the
release left it, and no register changes. -/
def Sys2Proof.Part.StoreWritesMemory : Prop := ∀ h f s e s1 s2 ts,
  Issues (.st h f) s e → e.act ≠ 0 → s.lace = [] →
  let e' := countIssue e
  let w := f.width.toNat
  let ea := eaMem e' f
  isWindow e' (ea 0) = false → checkMem e' w true (storeHalves e' f.d.toNat w f.raw) ea = none →
  xlate e' e'.s 0x181 .write false ea = .ok (s1, ts) → allHere ts →
  release e' s1 0x181 f.scope.toNat (f.ord == 3) (ownPkg ts) = .ok s2 →
  ∃ t, exec (.st h f) s = .next t ∧ Regs s t e.tid noV noK noP ∧
    (∀ a, (∀ l k x, (l, Tgt.key k x) ∈ ts → a < k ∨ k + widthBytes w ≤ a) → t.mem.read a = s2.mem.read a) ∧
    (∀ l k x, ts.getLast? = some (l, Tgt.key k x) → t.mem.readN k (widthBytes w) = dataBytes e' f.d.toNat w l)

/-- Scratchpad and tile store (17 R327, R328): LDS and TLD load each active lane's D from the block's bytes at its offset, extended
by the WIDTH, LDS once no line that it touches is empty, of a line that it has waited on as it stood when it became full (09 R159); LDS adds its passes to `%sppass`. Memory does not change. -/
def Sys2Proof.Part.BlockLoads : Prop := ∀ h f s e,
  e.act ≠ 0 → s.lace = [] →
  let e' := countIssue e
  let w := f.width.toNat
  let n := widthBytes w
  let o := offsNat (eaSp e' f)
  let got := fun (rd : Nat → List Byte) (l : Nat) => if e.act.getLsbD l then some (extendLoad w (rd (o l))) else none
  (Issues (.lds h f) s e → checkSp e' w n (spLimit e.grid.lrec) 3 (eaSp e' f) = none →
    (∀ l ∈ lanesOf e.act, ∀ x ∈ linesOf (o l) n, x ∉ e.blk.empty) →
    ∃ t, exec (.lds h f) s = .next t ∧ t.mem = s.mem ∧ t.blocks = s.blocks ∧
      Regs s t e.tid (regsTo f.d (widthRegs w) (got fun o => spSee e e.th.bid e.blk o n)) noK noP ∧
      thAt t e.tid (·.sppass = e.th.sppass + BitVec.ofNat 32 (passes e.act n false o))) ∧
  (Issues (.tld h f) s e →
    (checkSp e' w n (tsLimit e.grid.lrec) 4 (eaSp e' f) <|> pickTrap e' 10 (fun _ => 2) (fun l => footHit e'.s e.th.bid (o l) n true) o) = none →
    ∃ t, exec (.tld h f) s = .next t ∧ t.mem = s.mem ∧ t.blocks = s.blocks ∧
      Regs s t e.tid (regsTo f.d (widthRegs w) (got fun o => tsRead e.blk o n)) noK noP)

/-- STS and TST store each active lane's data at its offset in the block's scratchpad or tile store, the highest lane last; every
byte outside the stored ones is unchanged, as are memory and every register; STS with `.full` sets the lines that it touches full. -/
def Sys2Proof.Part.BlockStores : Prop := ∀ h f s e s2,
  e.act ≠ 0 → s.lace = [] →
  let e' := countIssue e
  let w := f.width.toNat
  let n := widthBytes w
  let o := offsNat (eaSp e' f)
  let outside := fun a => ∀ l, e.act.getLsbD l = true → a < o l ∨ o l + n ≤ a
  let last := fun l => (lanesOf e.act).getLast? = some l
  (Issues (.sts h f) s e →
    (checkSp e' w n (spLimit e.grid.lrec) 3 (eaSp e' f) <|> escapeTrap e' (fun _ => .block) (storeHalves e' f.d.toNat w f.raw) o
      <|> pickTrap e' 10 (fun _ => 1) (fun l => (linesOf (o l) n).any (lineFilling e'.s e.th.bid e.blk)) o) = none →
    release e' e'.s 0x183 (max f.scope.toNat (if f.sub.getLsbD 0 then 1 else 0)) (f.ord == 3 || f.sub.getLsbD 0) none = .ok s2 →
    ∃ t, exec (.sts h f) s = .next t ∧ t.mem = s.mem ∧ Regs s t e.tid noV noK noP ∧
      blAt t e.th.bid fun b => (∀ a, outside a → sget b.sp a = sget e.blk.sp a) ∧
        (∀ l, last l → spRead b (o l) n = dataBytes e' f.d.toNat w l) ∧ b.ts = e.blk.ts ∧
        (f.sub.getLsbD 0 = true → ∀ l ∈ lanesOf e.act, ∀ x ∈ linesOf (o l) n, x ∉ b.empty)) ∧
  (Issues (.tst h f) s e →
    (checkSp e' w n (tsLimit e.grid.lrec) 4 (eaSp e' f) <|> escapeTrap e' (fun _ => .block) (storeHalves e' f.d.toNat w f.raw) o
      <|> pickTrap e' 10 (fun _ => 2) (fun l => footHit e'.s e.th.bid (o l) n false) o) = none →
    ∃ t, exec (.tst h f) s = .next t ∧ t.mem = s.mem ∧ Regs s t e.tid noV noK noP ∧
      blAt t e.th.bid fun b => (∀ a, outside a → sget b.ts a = sget e.blk.ts a) ∧
        (∀ l, last l → tsRead b (o l) n = dataBytes e' f.d.toNat w l) ∧ b.sp = e.blk.sp)

/-- LD AND ST COMPLETE (17 R324, R326, 07 R114, R117-R121): with every active lane's access passing its checks and reaching this package's
memory, or naming a place of the cluster window, LD answers a next state whose D registers hold in each active lane the loaded bytes, extended by the WIDTH, and ST one in
which each place that it stores to holds the data of the highest lane that stores there. No other register and no other byte changes, but for A and D of the pages'
entries. What LD gives from a line that the core's L1 holds is left to `LoadReadsMemory`. -/
def Sys2Proof.Part.MemoryAccessesComplete : Prop := ∀ h f s e,
  s.lace = [] →
  let w := f.width.toNat
  let n := widthBytes w
  let D := fun V t => Regs s t e.tid (regsTo f.d (widthRegs w) V) noK noP
  let off := fun a wr => OffLeaves s e f wr a
  let o := bitsOf (memEa e f 0) 20 0
  (Issues (.ld h f) s e → PlainAccess s e f false → ∃ t V, exec (.ld h f) s = .next t ∧ D V t ∧ (∀ l, (V l).isSome = true ↔ e.act.getLsbD l = true) ∧
    (∀ a, off a false → t.mem.read a = s.mem.read a) ∧
    ∀ l ∈ lanesOf e.act, ∀ k x leaf, Maps s e (memEa e f l) n false k x leaf → (∀ j, j < n → off (k + j) false) →
      (x = true ∨ e.th.cc = true ∨ 1 < f.scope.toNat ∨ 1 < f.ord.toNat ∨ l1Line s e.blk.core k = none) →
      V l = some (extendLoad w (rdN s k n))) ∧
  (Issues (.st h f) s e → PlainAccess s e f true → NoEscape e f (fun l => .mem (memEa e f l)) → ReleaseFree s e f →
    ∃ t, exec (.st h f) s = .next t ∧ Regs s t e.tid noV noK noP ∧
      (∀ a, off a true → (∀ l ∈ lanesOf e.act, ∀ k x leaf, Maps s e (memEa e f l) n true k x leaf → a < k ∨ k + n ≤ a) → t.mem.read a = s.mem.read a) ∧
      ∀ l ∈ lanesOf e.act, ∀ k x leaf, Maps s e (memEa e f l) n true k x leaf →
        (∀ j ∈ lanesOf e.act, l < j → ∀ k' x' leaf', Maps s e (memEa e f j) n true k' x' leaf' → k' ≠ k) →
        t.mem.readN k n = dataBytes e f.d.toNat w l) ∧
  (∀ bid b, Issues (.ld h f) s e → e.act ≠ 0 → InWindow s e f false bid b → (∀ x ∈ linesOf o n, lineWaits e bid b x = false) →
    ∃ t, exec (.ld h f) s = .next t ∧ t.mem = s.mem ∧ t.blocks = s.blocks ∧
      D (fun l => if l = 0 then some (extendLoad w (spSee e bid b o n)) else none) t) ∧
  (∀ bid b, Issues (.st h f) s e → e.act ≠ 0 → InWindow s e f true bid b → (∀ x ∈ linesOf o n, lineFilling s bid b x = false) →
    NoEscape e f (fun _ => .block) → ReleaseFree s e f → ∃ t, exec (.st h f) s = .next t ∧ t.mem = s.mem ∧
      Regs s t e.tid noV noK noP ∧ blAt t bid fun b' => b'.ts = b.ts ∧ spRead b' o n = dataBytes e f.d.toNat w 0 ∧
        ∀ a, a < o ∨ o + n ≤ a → sget b'.sp a = sget b.sp a)

/-- LDS, STS, TLD AND TST COMPLETE (17 R324, R327, R328): with every active lane's offset aligned and inside the scratchpad or tile store, no
empty line in the way of LDS, none that an engine fills in that of STS, and no footprint in that of TLD or TST, each answers a next state: LDS and TLD write
D in each active lane with the bytes at its offset, extended by the WIDTH, and STS and TST store each active lane's data, the highest lane's where two meet. No
other register, no other byte of the block and no byte of memory changes. -/
def Sys2Proof.Part.BlockAccessesComplete : Prop := ∀ h f s e,
  s.lace = [] →
  let w := f.width.toNat
  let n := widthBytes w
  let D := fun V t => Regs s t e.tid (regsTo f.d (widthRegs w) V) noK noP
  let o := fun l => (spOff e f l).toNat
  let got := fun (rd : Nat → List Byte) (l : Nat) => if e.act.getLsbD l then some (extendLoad w (rd (o l))) else none
  let outside := fun a => ∀ l, e.act.getLsbD l = true → a < o l ∨ o l + n ≤ a
  let top := fun l => l ∈ lanesOf e.act ∧ ∀ j ∈ lanesOf e.act, l < j → o j ≠ o l
  (Issues (.lds h f) s e → InBlock e f (spLimit e.grid.lrec) → LinesFull e f →
    ∃ t, exec (.lds h f) s = .next t ∧ D (got fun o => spSee e e.th.bid e.blk o n) t ∧ t.mem = s.mem ∧ t.blocks = s.blocks) ∧
  (Issues (.sts h f) s e → InBlock e f (spLimit e.grid.lrec) → LinesStill s e f → NoEscape e f (fun _ => .block) → ReleaseFree s e f →
    (f.sub.getLsbD 0 = true → Released s e (max f.scope.toNat 1)) →
    ∃ t, exec (.sts h f) s = .next t ∧ Regs s t e.tid noV noK noP ∧ t.mem = s.mem ∧ blAt t e.th.bid fun b => b.ts = e.blk.ts ∧
      (∀ a, outside a → sget b.sp a = sget e.blk.sp a) ∧ (∀ l, top l → spRead b (o l) n = dataBytes e f.d.toNat w l) ∧
      (f.sub.getLsbD 0 = true → ∀ l ∈ lanesOf e.act, ∀ x ∈ linesOf (o l) n, x ∉ b.empty)) ∧
  (Issues (.tld h f) s e → InBlock e f (tsLimit e.grid.lrec) → OffFootprints s e f true →
    ∃ t, exec (.tld h f) s = .next t ∧ D (got fun o => tsRead e.blk o n) t ∧ t.mem = s.mem ∧ t.blocks = s.blocks) ∧
  (Issues (.tst h f) s e → InBlock e f (tsLimit e.grid.lrec) → OffFootprints s e f false → NoEscape e f (fun _ => .block) →
    ∃ t, exec (.tst h f) s = .next t ∧ Regs s t e.tid noV noK noP ∧ t.mem = s.mem ∧ blAt t e.th.bid fun b => b.sp = e.blk.sp ∧
      (∀ a, outside a → sget b.ts a = sget e.blk.ts a) ∧ ∀ l, top l → tsRead b (o l) n = dataBytes e f.d.toNat w l)

/-- LDK of the record and the format slots, PREF, FESET and FECLR complete as their entries say: LDK writes the same bytes to
every active lane; PREF writes no register; FESET sets its lines full, FECLR sets them empty. -/
def Obligations.RecordAndLines : Prop := ∀ h f s e,
  e.act ≠ 0 → s.lace = [] →
  let e' := countIssue e
  let n := widthBytes f.width.toNat
  let o := f.off.toInt
  let a : Int := ((opAt e 0 (if f.ka then .k else .v) f.a (low e)).toNat : Int) + o
  let lines := linesOf a.toNat (128 * (f.d.toNat + 1))
  (Issues (.ldk h f) s e → o % (n : Int) = 0 → o + n ≤ 0x10000 →
    ∃ t, exec (.ldk h f) s = .next t ∧ Computed e t (regsTo f.d (widthRegs f.width.toNat) fun l => if e.act.getLsbD l then
      some (extendLoad f.width.toNat ((List.range n).map fun j => if 0 ≤ o then ldkByte e (o.toNat + j) else 0)) else none) noK noP) ∧
  (Issues (.pref h f) s e → ∃ t, exec (.pref h f) s = .next t ∧ Regs s t e.tid noV noK noP) ∧
  (∀ i, (i = .feset h f ∨ i = .feclr h f) → Issues i s e → a % 128 = 0 → 0 ≤ a → a + 128 * (f.d.toNat + 1 : Nat) ≤ spLimit e.grid.lrec →
    lines.any (lineFilling e'.s e.th.bid e.blk) = false → (i = .feset h f → Released s e 1) →
    ∃ t, exec i s = .next t ∧ t.mem = s.mem ∧ Regs s t e.tid noV noK noP ∧
      blAt t e.th.bid fun b => b.sp = e.blk.sp ∧ (∀ x, x ∉ lines → (x ∈ b.empty ↔ x ∈ e.blk.empty)) ∧
        (i = .feset h f → ∀ x ∈ lines, x ∉ b.empty) ∧ (i = .feclr h f → ∀ x ∈ lines, x ∈ b.empty))

/-- The checks of an access trap in their order and the instruction writes nothing: a misaligned lane, MISALIGNED (2); for the
scratchpad and the tile store an offset beyond the limit, SP_BOUNDS (3) and TS_BOUNDS (4); the lanes are the failing ones, the
address is the lowest one's (17 R324, 10 R165). -/
def Sys2Proof.Part.AccessChecksTrap : Prop := ∀ h f s e l,
  e.act.getLsbD l = true → l < 32 →
  let e' := countIssue e
  let w := f.width.toNat
  let n := widthBytes w
  let ea := eaMem e' f
  let mis := failing e fun l => ea l % n != 0
  let off := failing e fun l => eaSp e' f l < 0 || eaSp e' f l + n > spLimit e.grid.lrec
  let bits := fun l => (BitVec.ofInt 64 (eaSp e' f l)).toNat
  (∀ i, (i = .ld h f ∨ i = .st h f) → Issues i s e → isWindow e' (ea 0) = false → ea l % n ≠ 0 →
    exec i s = .next (takeTrap (tick e'.s) e.tid e.fi 2 w mis (ea ((lowest mis).getD 0)) e.act)) ∧
  (Issues (.lds h f) s e → (∀ j, e.act.getLsbD j = true → eaSp e' f j % (n : Int) = 0) →
    (eaSp e' f l < 0 ∨ eaSp e' f l + n > spLimit e.grid.lrec) →
    exec (.lds h f) s = .next (takeTrap (tick e'.s) e.tid e.fi 3 0 off (bits ((lowest off).getD 0)) e.act))

/-- Translation and the checks of an access (07 R117-R121, 08 R138, 17). -/
def Obligations.AccessChecks : Prop :=
  Part.TranslationEffects ∧ Part.AccessChecksTrap

/-- Loads and stores of memory (17 R326): LD and ST COMPLETE in every state and with every operand for which the checks of R324 pass, and of
arena, export-range and first-touched pages too once they are translated. -/
def Obligations.LoadsAndStores : Prop :=
  Part.MemoryAccessesComplete ∧ Part.LoadReadsMemory ∧ Part.StoreWritesMemory

/-- Loads and stores of the block's scratchpad and tile store (17 R327, R328): LDS, STS, TLD and TST COMPLETE in every state and with every
operand for which the checks of R324 pass. -/
def Obligations.BlockTransfers : Prop :=
  Part.BlockAccessesComplete ∧ Part.BlockLoads ∧ Part.BlockStores

/-! ### Atomics (17 R332-R334) -/

/-- ATOM, ATOMCAS and RED on this package's memory: with every active lane aligned, allowed and translated, the lanes perform
their operations one after another in ascending order, each reading what the lanes before it left; memory changes by nothing else,
and without NORET each active lane's D receives the old value. -/
def Sys2Proof.Part.AtomicsOnMemory : Prop := ∀ h f s e s1 s2 ts i a op,
  (i, a, op) ∈ [(Instr.atom h f, AOp.op f.c.toNat, 0x1C0), (Instr.atomcas h f, AOp.cas, 0x1C1), (Instr.red h f, AOp.op f.c.toNat, 0x1C4)] →
  Issues i s e → e.act ≠ 0 → s.lace = [] →
  let e' := countIssue e
  let n := atomBytes f
  let ea := fun l => ea64 (vpair e' f.a.toNat l) f.off.toInt
  let new := fun l o => atomNew a (8 * n) o (atomOpnd e' f f.b l) (atomOpnd e' f f.c l)
  let q := atomSeq new n s1.mem (keysOf ts)
  checkMem e' (6 + f.width.toNat) true (fun _ => []) ea = none →
  xlate e' e'.s op .write (!f.noret) ea = .ok (s1, ts) → allHere ts →
  escapeTrap e' (fun l => .mem (ea l)) (atomHalves n q.2) ea = none →
  release e' s1 op f.scope.toNat (isRel (ordA f)) (ownPkg ts) = .ok s2 →
  ∃ t, exec i s = .next t ∧ t.mem = q.1 ∧
    Regs s t e.tid (if f.noret then noV else regsTo f.d (n / 4) (atomOld n q.2)) noK noP

/-- ATOMS and ATOMSCAS on the block's scratchpad: the lanes perform one after another in ascending order, the scratchpad changes by
nothing else, `%sppass` counts the passes, and neither memory nor the tile store changes. -/
def Sys2Proof.Part.AtomicsOnScratchpad : Prop := ∀ h f s e s2 i a op,
  (i, a, op) ∈ [(Instr.atoms h f, AOp.op f.c.toNat, 0x1C2), (Instr.atomscas h f, AOp.cas, 0x1C3)] →
  Issues i s e → e.act ≠ 0 → s.lace = [] →
  let e' := countIssue e
  let n := atomBytes f
  let ea := fun l => ((vreg e' f.a.toNat l).toNat : Int) + f.off.toInt
  let o := offsNat ea
  let new := fun l x => atomNew a (8 * n) x (atomOpnd e' f f.b l) (atomOpnd e' f f.c l)
  let q := atomSeq new n e.blk.sp ((lanesOf e.act).map fun l => (l, o l))
  checkSp e' (6 + f.width.toNat) n (spLimit e.grid.lrec) 3 ea = none →
  escapeTrap e' (fun _ => .block) (atomHalves n q.2) o = none →
  (∀ l ∈ lanesOf e.act, (linesOf (o l) n).any (lineFilling e'.s e.th.bid e.blk) = false) →
  release e' e'.s op f.scope.toNat (isRel (ordA f)) none = .ok s2 →
  ∃ t, exec i s = .next t ∧ t.mem = s.mem ∧ blAt t e.th.bid (fun b => b.sp = q.1 ∧ b.ts = e.blk.ts) ∧
    thAt t e.tid (·.sppass = e.th.sppass + BitVec.ofNat 32 (passes e.act n true o)) ∧
    Regs s t e.tid (if f.noret then noV else regsTo f.d (n / 4) (atomOld n q.2)) noK noP

/-! ### Fences, waits, barriers and phasers (17 R335-R341) -/

/-- FENCE completes once its release part is done and what the strand's earlier loads and atomics return has come, and its acquire part at cluster scope or wider drops its core's L1;
until then it is held, and the fragment goes on to the next instruction. MWAIT
reads its words at once where the timeout is 0 or a word differs from what it expects, and parks otherwise; a parked one goes on,
with the words in D, at the first look that finds a word changed or the timeout elapsed, and stays parked until then; a value that a store
left in between is kept for that look. -/
def Obligations.FencesAndWaits : Prop :=
  (∀ h f s e s2, Issues (.fence h f) s e → s.lace = [] →
    release (countIssue e) (countIssue e).s 0x200 (immBits f 6 4) (immBits f 2 0 != 2) none = .ok s2 →
    (immBits f 2 0 = 3 ∨ loadsOut s2 e.tid = false) → ∃ t, exec (.fence h f) s = .next t ∧ t.mem = s.mem ∧ Regs s t e.tid noV noK noP ∧
      (e.th.splits = [] → pcAt t e.tid e.fi = some (e.fr.pc + 12)) ∧
      (immBits f 2 0 ≠ 3 → 2 ≤ immBits f 6 4 → tget t.l1 e.blk.core = none)) ∧
  (∀ h f s e, Issues (.fence h f) s e → s.lace = [] → e.th.splits = [] →
    let x : Fence := { tok := e.tok, scope := immBits f 6 4, ord := immBits f 2 0, pc := e.fr.pc }
    x.scope < 4 → fenceMet s e.tid x = false → ∃ t, exec (.fence h f) s = .next t ∧ t.mem = s.mem ∧ Regs s t e.tid noV noK noP ∧
      frAt t e.tid e.fi fun r => r.pc = e.fr.pc + 12 ∧ r.park = .run ∧ r.fences = e.fr.fences ++ [x]) ∧
  (∀ h f s e s1 ts, Issues (.mwait h f) s e → e.act ≠ 0 → s.lace = [] →
    let e' := countIssue e
    let n := atomBytes f
    let ea := fun l => ea64 (vpair e' f.a.toNat l) f.off.toInt
    let tmo := (opAt e 0 .v f.c (low e)).toNat
    let changed := ∃ l k x, (l, Tgt.key k x) ∈ ts ∧ rdNat s1 k n ≠ atomOpnd e' f f.b l
    let ws := (keysOf ts).map fun x => ({ lane := x.1, key := x.2, va := ea x.1, want := atomOpnd e' f f.b x.1 } : Watch)
    checkMem e' (6 + f.width.toNat) false (fun _ => []) ea = none →
    xlate e' e'.s 0x207 .read true ea = .ok (s1, ts) → allHere ts →
    (tmo = 0 ∨ changed → ∃ t, exec (.mwait h f) s = .next t ∧ t.mem = s1.mem ∧
      Regs s t e.tid (regsTo f.d (n / 4) fun l => ((keysOf ts).find? fun x => x.1 == l).map fun x => wordsOf (rdN s1 x.2 n)) noK noP) ∧
    (tmo ≠ 0 → ¬ changed → e.th.splits = [] → ∃ t, exec (.mwait h f) s = .next t ∧ t.mem = s1.mem ∧ Regs s t e.tid noV noK noP ∧
      (s.time + tmo, Turn.event (.mwaitWake e.tid e.fi)) ∈ t.timers ∧
      frAt t e.tid e.fi fun r => r.pc = e.fr.pc + 12 ∧ r.park = .mwait f.d.toNat n ws (f.scope == 4) s.time tmo e.tok)) ∧
  (∀ s tid fi d w ws sys start tmo tok i, (i = .mwaitWake tid fi ∨ i = .mwaitRemoteReread tid fi) →
    frAt s tid fi (·.park = .mwait d w ws sys start tmo tok) → thAt s tid (fun th => th.splits = [] ∧ staysParked th = false) → (∀ x ∈ ws, x.pkg = none) →
    let now := fun x : Watch => x.got.getD (rdNat s x.key w)
    let due := tmo = 0 ∨ tmo ≤ s.time - start ∨ ∃ x ∈ ws, now x ≠ x.want
    ∃ t, exec i s = .next t ∧ t.mem = s.mem ∧
      (due → frAt t tid fi (·.park = .run) ∧
        (w = 4 → ∀ x, ws = [x] → x.lane < 32 → vAt t tid d x.lane = BitVec.ofNat 32 (now x))) ∧
      (¬ due → frAt t tid fi (·.park = .mwait d w ws sys start tmo tok)))

/-- BAR and GSYNC: an arrival, once the strand's accesses to other packages are performed at its scope, that completes the phase ends it, and the strand goes on with pD telling whether the phase is
abandoned; any other arrival is counted and the strand parks. What 17 R338, R339 and R341 forbid traps. -/
def Sys2Proof.Part.BarrierPhases : Prop :=
  (∀ h f s e l, Issues (.bar h f) s e →
    let e' := countIssue e
    let id := immBits f 6 0
    let n := immBits f 18 8
    let p := phAt e'.s l
    let q := { p with mode := 1, count := n, arrived := p.arrived ++ [e.tid] }
    let bad := notWhole e = true ∨ p.mode = 2 ∨ sharers e l < n ∨ (p.mode = 1 ∧ p.count ≠ n)
    let free := Released s e (if isCluster l then 2 else 1)
    phLoc e.grid e.blk e.th.bid id = some l → phHeld s l → s.lace = [] →
    (bad → exec (.bar h f) s = .next (takeTrap (tick e'.s) e.tid e.fi 11 id e.act 0 e.act)) ∧
    (¬ bad → free → phComplete e'.s l q = true → ∃ t, exec (.bar h f) s = .next t ∧ t.mem = s.mem ∧
      Regs s t e.tid noV noK (pTo e f.d fun _ => p.abandoned.contains p.phase) ∧
      (phAt t l).phase = p.phase + 1 ∧ (phAt t l).mode = 0 ∧ (phAt t l).arrived = []) ∧
    (¬ bad → free → phComplete e'.s l q = false → e.th.splits = [] → ∃ t, exec (.bar h f) s = .next t ∧ t.mem = s.mem ∧
      Regs s t e.tid noV noK noP ∧ phAt t l = q ∧
      frAt t e.tid e.fi fun r => r.pc = e.fr.pc + 12 ∧ r.park = .phase (isCluster l) id p.phase f.d.toNat e.act e.tok)) ∧
  (∀ h f s e, Issues (.gsync h f) s e → e.grid.lrec.coop = true → e.grid.nest = none → s.lace = [] →
    let e' := countIssue e
    let arrived := e.grid.gsArrived ++ [e.tid]
    let all := allStarted e'.s (e.grid.lrec.gx * e.grid.lrec.gy * e.grid.lrec.gz - e.grid.ended) (·.gid == e.blk.gid) &&
      (gridStrands e'.s e.blk.gid).all fun x => !alive x.2 || arrived.contains x.1
    (notWhole e = true → exec (.gsync h f) s = .next (takeTrap (tick e'.s) e.tid e.fi 11 0x7F e.act 0 e.act)) ∧
    (notWhole e = false → Released s e 3 → all = true → ∃ t, exec (.gsync h f) s = .next t ∧ t.mem = s.mem ∧
      Regs s t e.tid noV noK (pTo e f.d fun _ => e.grid.gsAbandoned.contains e.grid.gsPhase) ∧
      grAt t e.blk.gid fun g => g.gsPhase = e.grid.gsPhase + 1 ∧ g.gsArrived = []) ∧
    (notWhole e = false → Released s e 3 → all = false → e.th.splits = [] → ∃ t, exec (.gsync h f) s = .next t ∧ t.mem = s.mem ∧
      Regs s t e.tid noV noK noP ∧ grAt t e.blk.gid (fun g => g.gsPhase = e.grid.gsPhase ∧ g.gsArrived = arrived) ∧
      frAt t e.tid e.fi fun r => r.pc = e.fr.pc + 12 ∧ r.park = .gsync e.grid.gsPhase f.d.toNat e.act e.tok))

/-- PHREG, PHDROP, PHSIG, PHWAIT and PHSW (17 R340) on a phaser that the strand may use in its mode: registration adds the strand
as a member, dropping takes it out, a signal is counted and ends the phase that it completes, a wait for a phase that has ended
goes on with pD, and a wait for one that has not parks. With an empty active set nothing happens. -/
def Sys2Proof.Part.PhaserOperations : Prop := ∀ h f s e l,
  let e' := countIssue e
  let id := immBits f 6 0
  let p := phAt e'.s l
  let free := Released s e (if isCluster l then 2 else 1)
  let none' := fun (t : State) => t.mem = s.mem ∧ Regs s t e.tid noV noK noP
  let parks := fun (t : State) ph => frAt t e.tid e.fi fun r => r.pc = e.fr.pc + 12 ∧ r.park = .phase (isCluster l) id ph f.d.toNat e.act e.tok
  phLoc e.grid e.blk e.th.bid id = some l → phHeld s l → s.lace = [] →
  (∀ i, i ∈ [Instr.phreg h f, .phdrop h f, .phsig h f, .phwait h f, .phsw h f] → Issues i s e → e.act = 0 →
    ∃ t, exec i s = .next t ∧ Computed e t noV noK noP) ∧
  (Issues (.phreg h f) s e → e.act ≠ 0 → p.mode ≠ 1 → (∀ m ∈ p.members, m.tid ≠ e.tid) → ∃ t, exec (.phreg h f) s = .next t ∧ none' t ∧
    phAt t l = { p with mode := 2, members := p.members ++ [{ tid := e.tid, mode := immBits f 9 8 }] }) ∧
  (Issues (.phdrop h f) s e → e.act ≠ 0 → p.mode ≠ 1 → (∃ m ∈ p.members, m.tid = e.tid) →
    ∃ t, exec (.phdrop h f) s = .next t ∧ t.mem = s.mem ∧ (phAt t l).members = p.members.filter (·.tid != e.tid) ∧
      (e.th.frags = [(e.fi, e.fr)] → Regs s t e.tid noV noK noP)) ∧
  (∀ m, Issues (.phsig h f) s e → free → e.act ≠ 0 → phMember e p = some m → notWhole e = false → m.mode ≠ 2 → e.tid ∉ p.signalled →
    ∃ t, exec (.phsig h f) s = .next t ∧ none' t ∧
      (phAt t l).phase = (if phComplete e'.s l (phSignal p m) then p.phase + 1 else p.phase) ∧
      (phComplete e'.s l (phSignal p m) = false → e.tid ∈ (phAt t l).signalled)) ∧
  (∀ m, Issues (.phwait h f) s e → e.act ≠ 0 → phMember e p = some m → m.mode ≠ 1 →
    let ph := waitPhase p m
    (ph < p.phase → ∃ t, exec (.phwait h f) s = .next t ∧ t.mem = s.mem ∧
      Regs s t e.tid noV noK (pTo e f.d fun _ => p.abandoned.contains ph)) ∧
    (p.phase ≤ ph → e.th.splits = [] → ∃ t, exec (.phwait h f) s = .next t ∧ none' t ∧ parks t ph)) ∧
  (∀ m, Issues (.phsw h f) s e → free → e.act ≠ 0 → phMember e p = some m → notWhole e = false → m.mode = 3 → e.tid ∉ p.signalled →
    let done := phComplete e'.s l (phSignal p { m with lastWait := some p.phase })
    (done = true → ∃ t, exec (.phsw h f) s = .next t ∧ t.mem = s.mem ∧ (phAt t l).phase = p.phase + 1 ∧
      Regs s t e.tid noV noK (pTo e f.d fun _ => p.abandoned.contains p.phase)) ∧
    (done = false → e.th.splits = [] → ∃ t, exec (.phsw h f) s = .next t ∧ none' t ∧ (phAt t l).phase = p.phase ∧ parks t p.phase))

/-- Atomics (17). -/
def Obligations.Atomics : Prop :=
  Part.AtomicsOnMemory ∧ Part.AtomicsOnScratchpad

/-- Barriers, grid barriers and phasers (17). -/
def Obligations.BarriersAndPhasers : Prop :=
  Part.BarrierPhases ∧ Part.PhaserOperations

/-! ### Arenas (17 R342-R347, 08 R133-R144) -/

/-- ABASE, ABUMP, AQRY and ACHK. ABASE gives each lane the address of offset 0 of its arena at the level. ABUMP serves the lanes
in ascending order: bytes and the bump pointer are rounded up to 16, and a request that does not fit gives 0 and changes nothing.
AQRY gives its word; ACHK is true exactly where an access passes checks 1-4 of 08 R138. A level that the launch does not have
traps with `ARENA_LEVEL`. -/
def Sys2Proof.Part.ArenaQueries : Prop := ∀ h f,
  let lv := levelOf f.a
  (∀ s e, Issues (.abase h f) s e → levelTrap e lv = none → ∃ t, exec (.abase h f) s = .next t ∧
    let x := fun l => BitVec.ofNat 64 (ownArena e lv.toNat l)
    Computed e t (vPair e f.kd f.d x) (kPair e f.kd f.d x) noP) ∧
  (∀ i s e, (i = .abase h f ∨ i = .abump h f) → Issues i s e → e.act ≠ 0 → (3 < lv ∨ lv = 2 ∧ hasGroups e.grid.lrec = false) →
    exec i s = .next (takeTrap (tick (countIssue e).s) e.tid e.fi 9 lv.toNat e.act 0 e.act)) ∧
  (∀ s e, Issues (.abump h f) s e → s.lace = [] → e.act ≠ 0 → levelTrap e lv = none → e.th.splits = [] →
    let n := fun l => (opAt e f.ty.toNat f.kb f.b l).toNat
    (0 < lv → ∀ x, arenaOf s e.grid.ctx (ownArena e lv.toNat 0) = some x →
      let q := bumpSeq x.reserve x.bump ((lanesOf e.act).map fun l => (l, n l))
      ∃ t, exec (.abump h f) s = .next t ∧ t.mem = s.mem ∧
        Regs s t e.tid (vPair e false f.d (bumpAddr (ownArena e lv.toNat 0) q.2)) noK noP ∧
        arenaOf t e.grid.ctx (ownArena e lv.toNat 0) = some { x with bump := q.1 }) ∧
    (lv = 0 → ∃ t, exec (.abump h f) s = .next t ∧ t.mem = s.mem ∧ ∀ l, l < 32 → e.act.getLsbD l = true →
      ∀ x, arenaOf s e.grid.ctx (ownArena e 0 l) = some x → f.d.toNat + 1 < 2048 →
        let q := bumpSeq x.reserve x.bump [(l, n l)]
        vAt t e.tid (f.d.toNat + 1) l ++ vAt t e.tid f.d.toNat l = bumpAddr (ownArena e 0 l) q.2 l)) ∧
  ToD (.aqry h f) f.kd f.d (fun e l => BitVec.ofNat 32 (queryWord e (op64At e f.ka f.a l).toNat)) ∧
  ToP (.achk h f) f.d (fun e l => let va := (op64At e f.ka f.a l).toNat
    isArena va && (checkArena e.s e.grid.ctx (hasGroups e.grid.lrec) va).isOk) ∧
  (∀ e va, isArena va = false → queryWord e va = 0)

/-- Moves (08 R141-R144): with no trap, no range lock in the way, room in the target, and for a hand-over to the host its release done and room
in the ring, APROM and AHAND move the granules of every
active lane in ascending order and give each lane the new address, a lane of length 0 its own; one move takes whole granules to
the target's next granules, and hands the source's. ADROP unbacks the whole granules inside each lane's extent. -/
def Sys2Proof.Part.ArenaMoves : Prop :=
  (∀ h f s e s1 s2 vs i, s.lace = [] → e.fr.prog = [] →
    let e' := countIssue e
    let c := e.grid.ctx
    let a := fun l => (op64At e f.ka f.a l).toNat
    let len := fun l => (opAt e f.ty.toNat f.kb f.b l).toNat
    let hd := fun l => (opAt e f.ty.toNat f.kc f.c l).toNat
    let kid := !(lanesOf e.act).all fun l => hd l == 0
    let mv := fun dest => ((lanesOf e.act).filter fun l => len l != 0).map fun l =>
      ({ lane := l, a := a l, len := len l, dest := dest l, host := i == .ahand h f && hd l == 0 } : Move)
    let up := fun l => if levelOf f.c < 0 then MoveTo.exportRange else .arena (ownArena e (levelOf f.c).toNat l)
    let hand := fun l => match (if hd l = 0 then none else heldChild e' (hd l)) with | some b => MoveTo.arena b | none => .exportRange
    let ms := if i = .aprom h f then mv up else mv hand
    Issues i s e →
    (i = .aprom h f ∧ levelTrap e (levelOf f.c) = none ∨ i = .ahand h f ∧ failing e (fun l => if hd l = 0
        then !((tget s.ctxs c).map fun cx => cx.arenaSet && cx.ringAddr != 0).getD false else (heldChild e' (hd l)).isNone) = 0) →
    moveTrap e' (i == .ahand h f && kid) none ms = none → (ms.any fun m => lockAny s c (m.a / 4096 * 4096) (4096 * m.count)) = false →
    ((∀ m ∈ ms, m.host = false) ∧ s1 = e'.s ∨
      ∃ cx s0 n, tget s.ctxs c = some cx ∧ (ms.filter (·.host)).length ≠ 0 ∧ releaseGate e' (opOf i) 4 none = .ok s0 ∧
        ringFree s0 c (qtagOf s0 e.grid) cx = (s1, .ok n) ∧ (ms.filter (·.host)).length ≤ n) →
    moveAll c (qtagOf s1 e.grid) s1 ms = .ok (s2, vs) →
    ∃ t, exec i s = .next t ∧ t.mem = s2.mem ∧ ((∀ m ∈ ms, m.host = false) → t.mem = s.mem) ∧
      Regs s t e.tid (vPair e false f.d fun l => BitVec.ofNat 64 (((vs.find? (·.1 == l)).map Prod.snd).getD (a l))) noK noP) ∧
  (∀ c s m x y base, m.dest = .arena base → arenaOf s c m.a = some x → arenaOf s c base = some y → arenaIdent m.a ≠ arenaIdent base →
    let p := (y.bump + 4095) / 4096 * 4096
    ∃ s' x' y', moveOne c s m = some (s', base + p + m.a % 4096) ∧ s'.mem = s.mem ∧
      arenaOf s' c m.a = some x' ∧ arenaOf s' c base = some y' ∧ y'.bump = p + 4096 * m.count ∧
      (∀ i, i < m.count → tget x'.gran (m.first + i) = some .handed ∧
        tget y'.gran (p / 4096 + i) = (tget x.gran (m.first + i)).bind fun g => match g with | .backed q b => some (.backed q b) | _ => none)) ∧
  (∀ h f s e, Issues (.adrop h f) s e → s.lace = [] →
    let e' := countIssue e
    let c := e.grid.ctx
    let a := fun l => (op64At e f.ka f.a l).toNat
    let g := fun l => wholeGran (a l) (opAt e f.ty.toNat f.kb f.b l).toNat
    (∀ l, e.act.getLsbD l = true → sourceCode e' (a l) = none ∧ pastReserve e' (a l) (opAt e f.ty.toNat f.kb f.b l).toNat = false ∧
      anyHanded e' (a l) (g l).1 (g l).2 = false ∧
      lockAny s c (a l / 4096 * 4096 + (if a l % 4096 = 0 then 0 else 4096)) (4096 * (g l).2) = false) →
    ∃ t, exec (.adrop h f) s = .next t ∧ t.mem = s.mem ∧ Regs s t e.tid noV noK noP ∧
      ∀ l i x, e.act.getLsbD l = true → arenaOf t c (a l) = some x → i < (g l).2 → tget x.gran ((g l).1 + i) = none)

/-- Arena instructions (17). -/
def Obligations.ArenaInstructions : Prop :=
  Part.ArenaQueries ∧ Part.ArenaMoves

/-! ### Engines (18 R348-R358) -/

/-- CPY, CPYT, SORTK and NPOST record their command and give its handle in D, once the places that they name lie inside the
scratchpad and neither a line, nor the range-lock table, nor the release at issue (09 R158) makes them wait: the command is held with `.hold` and ready otherwise, its
scratchpad destinations are empty, and its memory ranges are locked. A descriptor that breaks its rules finishes at once with
BADWR (2).
The order of the checks of a descriptor is read by inference (notes/assumptions/22.md). -/
def Obligations.EngineCommandsIssue : Prop := ∀ h f s e, s.lace = [] →
  let e' := countIssue e
  let new := s.nextId + 1
  let st := if heldBit f then 0 else 1
  let o := (opAt e 0 .v f.a (low e)).toNat
  let d := spRead e.blk o 64
  let desc := e.act ≠ 0 ∧ o % 64 = 0 ∧ o + 64 ≤ spLimit e.grid.lrec ∧ ∀ x ∈ linesOf o 64, x ∉ e.blk.empty
  let room := fun cid lines (rs : List (Nat × Nat × Bool)) =>
    Released s e 3 ∧ lines.any (lineBusy e'.s e.th.bid e.blk cid) = false ∧ lockRoom s (e.blk.core / 8) rs.length = true
  let made := fun i cid lines (rs : List (Nat × Nat × Bool)) (p : Cmd → Prop) => ∃ t c, exec i s = .next t ∧ t.mem = s.mem ∧
    tget t.cmds cid = some c ∧ p c ∧ Regs s t e.tid (vTo e f.d fun _ => BitVec.ofNat 32 (handleOf c)) noK noP ∧
    blAt t e.th.bid (fun b => ∀ x ∈ lines, x ∈ b.empty) ∧
    ∀ r ∈ rs, ∃ k ∈ t.locks, k.lo = r.1 ∧ k.len = r.2.1 ∧ k.dst = r.2.2 ∧ k.cmd = cid
  let refused := fun i kind => ∃ t c, exec i s = .next t ∧ tget t.cmds new = some c ∧ c.kind = kind ∧ c.st = 3 ∧ c.code = 2 ∧
    Regs s t e.tid (vTo e f.d fun _ => BitVec.ofNat 32 (handleOf c)) noK noP
  (Issues (.cpy h f) s e →
    let a := cpyArg e' f
    let dir := immBits f 29 28
    let op := openTag e' (immBits f 27 20)
    let cid := (op.map (·.1)).getD new
    let lines := if dir = 0 then linesOf a.dst a.len else []
    let rs := if a.len = 0 then [] else (if dir = 1 then [] else [(a.src, a.len, false)]) ++ (if dir = 0 then [] else [(a.dst, a.len, true)])
    (∀ x ∈ op, e.tid ∉ x.2.issued ∧ x.2.dir = dir ∧ x.2.hold = heldBit f ∧ (a.ctr = 0 ∨ a.ctr = x.2.ctr)) →
    (a.len ≠ 0 → (dir = 0 → a.dst + a.len ≤ spLimit e.grid.lrec) ∧ (dir = 1 → a.src + a.len ≤ spLimit e.grid.lrec)) →
    room ((op.map (·.1)).getD 0) lines rs → made (.cpy h f) cid lines rs fun c =>
      c.issued = ((op.map (·.2.issued)).getD []) ++ [e.tid] ∧
      c.slices = ((op.map (·.2.slices)).getD []) ++ (if a.len = 0 then [] else
        [{ src := { sp := dir == 1, at' := a.src }, dst := { sp := dir == 0, at' := a.dst }, len := a.len }]) ∧
      (op = none → c.kind = 1 ∧ c.dir = dir ∧ c.tag = immBits f 27 20 ∧ c.ctr = a.ctr ∧ c.st = st)) ∧
  (Issues (.cpyt h f) s e → desc →
    let t := parseTensor d
    (tensorOk d t = false → refused (.cpyt h f) 2) ∧
    (tensorOk d t = true → tensorEnd t ≤ spLimit e.grid.lrec → room 0 (dstLines (tensorSlices t)) (memRange (tensorSlices t) (t.dir == 1)) →
      made (.cpyt h f) new (dstLines (tensorSlices t)) (memRange (tensorSlices t) (t.dir == 1)) fun c =>
        c.kind = 2 ∧ c.dir = t.dir ∧ c.ctr = t.ctr ∧ c.slices = tensorSlices t ∧ c.st = st)) ∧
  (Issues (.sortk h f) s e → desc →
    let x := parseSort d
    (sortOk d x = false → refused (.sortk h f) 3) ∧
    (sortOk d x = true → (∀ i, i < 3 → (sortOpnd x i).1.sp = true → (sortOpnd x i).1.at' + (sortOpnd x i).2 ≤ spLimit e.grid.lrec) →
      room 0 (sortLines x) (sortRanges x) → made (.sortk h f) new (sortLines x) (sortRanges x) fun c =>
        c.kind = 3 ∧ c.desc = d ∧ c.ctr = x.ctr ∧ c.st = st)) ∧
  (Issues (.npost h f) s e → desc → wrCode e'.s e.grid.ctx d = 1 → room 0 [] [(wrLbuf d, wrLen d, false)] →
    made (.npost h f) new [] [(wrLbuf d, wrLen d, false)] fun c => c.kind = 4 ∧ c.desc = d ∧ c.st = st)

/-- LAUNCH and the command graph. A LAUNCH whose record is readable, well formed and fits becomes a held grid of its own, a child of
the issuing one, started by its command; ERUN releases a held command; ELINK adds a predecessor to a held command that was issued
later, or marks it to be skipped when the predecessor has failed; ESTAT gives the status word. -/
def Sys2Proof.Part.CommandGraph : Prop :=
  (∀ h f s e s1 bs, Issues (.launch h f) s e → s.lace = [] → e.act ≠ 0 →
    let e' := countIssue e
    let va := (vpair e' f.a.toNat (low e)).toNat
    let s2 := dropInbox (acquire e' s1 3) e.tid
    let r := parseRec bs
    va % 64 = 0 → arenaTrap1 e' va 256 = none → fetchAt e' 0x287 4 e'.s va = .ok (s1, bs) →
    (launchOk bs = false → ∃ t c, exec (.launch h f) s = .next t ∧ tget t.cmds (s1.nextId + 1) = some c ∧ c.kind = 5 ∧ c.st = 3 ∧
      c.code = 2 ∧ Regs s t e.tid (vTo e f.d fun _ => BitVec.ofNat 32 (handleOf c)) noK noP) ∧
    (∀ slot, launchOk bs = true → Released s e 3 → fitsEmpty s2 e.grid.part e.grid.ctx r = true →
      ((tget s1.ctxs e.grid.ctx).bind fun cx => freeSlot cx 3) = some slot →
      ∃ t c gid, exec (.launch h f) s = .next t ∧ t.mem = s1.mem ∧ tget t.cmds (s1.nextId + 1) = some c ∧ c.kind = 5 ∧ c.child = some gid ∧
        c.st = (if heldBit f then 0 else 1) ∧ Regs s t e.tid (vTo e f.d fun _ => BitVec.ofNat 32 (handleOf c)) noK noP ∧
        grAt t gid fun g => g.lrec = r ∧ g.parent = some e.blk.gid ∧ g.cmd = some (s1.nextId + 1) ∧ g.entered = false ∧
          g.ctx = e.grid.ctx ∧ g.slot = slot)) ∧
  (∀ h f s e cid c, Issues (.erun h f) s e → s.lace = [] → e.act ≠ 0 → cmdOf s e.grid.ctx (handleIn (countIssue e) f.a) = some (cid, c) →
    tget s.cmds cid = some c →
    ∃ t, exec (.erun h f) s = .next t ∧ t.mem = s.mem ∧ Regs s t e.tid noV noK noP ∧ cmAt t cid (·.st = if c.st = 0 then 1 else c.st)) ∧
  (∀ h f s e ia a ib b, Issues (.elink h f) s e → s.lace = [] → e.act ≠ 0 →
    cmdOf s e.grid.ctx (handleIn (countIssue e) f.a) = some (ia, a) → cmdOf s e.grid.ctx (handleIn (countIssue e) f.b) = some (ib, b) →
    tget s.cmds ia = some a → tget s.cmds ib = some b → b.st = 0 → ia < ib →
    (a.st ≠ 3 → a.succs.length < 16 → b.preds < 255 → ∃ t, exec (.elink h f) s = .next t ∧ t.mem = s.mem ∧
      Regs s t e.tid noV noK noP ∧ cmAt t ia (·.succs = a.succs ++ [ib]) ∧ cmAt t ib (·.preds = b.preds + 1)) ∧
    (a.st = 3 → ∃ t, exec (.elink h f) s = .next t ∧ t.mem = s.mem ∧ Regs s t e.tid noV noK noP ∧
      cmAt t ib fun x => x.preds = b.preds ∧ x.skip = (b.skip || a.code != 0))) ∧
  (∀ h f s e, Issues (.estat h f) s e → s.lace = [] → ∃ t, exec (.estat h f) s = .next t ∧ t.mem = s.mem ∧
    Regs s t e.tid (vTo e f.d fun _ => statWord s e.grid.ctx (handleIn (countIssue e) f.a)) noK noP) ∧
  (∀ h f i s e, (i = Instr.erun h f ∨ i = .elink h f) → Issues i s e → e.act = 0 → ∃ t, exec i s = .next t ∧ Computed e t noV noK noP)

/-- Commands run: a ready command with no predecessor left starts, or finishes with its skip code; the bytes of one line land in
the scratchpad, which makes the line full; a finish sets the state 3 and the code, and releases the command's range locks. -/
def Sys2Proof.Part.EngineCommandsRun : Prop := ∀ s cid c, tget s.cmds cid = some c →
  (c.st = 1 → c.full = true → c.preds = 0 → c.kind ≠ 4 →
    (cmdUsesSp c = true → ((tget s.blocks c.bid).map fun b => b.stage != .running).getD false = false) →
    ∃ t, exec (.engineCommandStart cid) s = .next t ∧
      (c.skip = false → cmAt t cid (·.st = 2)) ∧
      (c.skip = true → cmAt t cid fun x => x.st = 3 ∧ x.code = if c.kind = 5 then 0x13 else 10)) ∧
  (∀ sl s1 bs b, c.st = 2 → c.recs = [] → c.slices = [sl] → sl.dst.sp = true → 0 < sl.len → sl.dst.at' % 128 + sl.len ≤ 128 →
    sl.dst.at' / 128 < 2 ^ 20 → sl.lit = none → sl.src.sp = false → engRead cid c 4 s sl.src.at' sl.len = (s1, .bytes bs) →
    bs.length = sl.len → tget s1.cmds cid = some c → tget s1.blocks c.bid = some b →
    ∃ t, exec (.engineLineLanded cid (sl.dst.at' / 128)) s = .next t ∧ t.mem = s1.mem ∧ cmAt t cid (·.slices = []) ∧
      blAt t c.bid fun x => spRead x sl.dst.at' sl.len = bs ∧
        (∀ a, (a < sl.dst.at' ∨ sl.dst.at' + sl.len ≤ a) → sget x.sp a = sget b.sp a) ∧
        (sl.dst.at' / 128 ∈ c.marked → sl.dst.at' / 128 ∉ c.landed → sl.dst.at' / 128 ∉ x.empty)) ∧
  (∀ code, c.st = 2 → c.msg = none → ∃ t, exec (.engineCommandFinish cid code) s = .next t ∧
    cmAt t cid (fun x => x.st = 3 ∧ x.code = code) ∧ ∀ k ∈ t.locks, k.cmd ≠ cid)

/-- Engine commands start, run and finish (18). -/
def Obligations.EngineCommands : Prop :=
  Part.CommandGraph ∧ Part.EngineCommandsRun

/-! ### Matrix commands (18 R359-R367, 12 R224-R231, 10 R190) -/

/-- A matrix instruction whose operands fit, with a free place in its core's queue and its release done, appends its command, with the operands that its
registers and its descriptor name, and goes on; no register changes. MXSPEC opens the context's speculation, MXCMT and MXDSC of
the same tag end it; a multiply or MXZ meanwhile works on the shadow of its accumulator. MXWAIT goes on while few enough commands
are left, and parks before itself otherwise. -/
def Obligations.MatrixCommandsIssue : Prop := ∀ h f s e, e.act ≠ 0 → s.lace = [] →
  let e' := countIssue e
  let sl := mxSlot e f
  let x := fun (r : BitVec 11) => (opAt e 0 .v r 0).toNat
  let k := fun lo => if f.imm.getLsbD 27 then (opAt e 0 .v (BitVec.ofNat 11 (immBits f 10 0)) 0).toNat else immBits f lo 0
  let ready := (mxQueue s e.blk.core).length < 16 ∧ e.blk.mxSaved = [] ∧ Released s e 1
  let pushedM := fun (m : Memory) i (p : State → MxCmd → Prop) => ready → ∃ t c, exec i s = .next t ∧ t.mem = m ∧ Regs s t e.tid noV noK noP ∧
    tget t.mxq e.blk.core = some (mxQueue s e.blk.core ++ [c]) ∧ c.tid = e.tid ∧ c.op = opOf i ∧ c.pc = e.fr.pc ∧ p t c
  let pushed := pushedM s.mem
  let mm := fun (y : State) (c : MxCmd) (z : MxCmd) => ∃ y', shadowOf e' y c.acc = .ok (y', z.acc, z.fresh) ∧
    z.a = c.a ∧ z.b = c.b ∧ z.k = c.k ∧ z.slot = c.slot ∧ z.m = c.m ∧ z.n = c.n ∧ z.soff = mmaSoff c ∧ z.spec = e.th.spec.isSome
  let base := fun op => ({ tid := 0, op := op, pc := 0, acc := x f.d, a := x f.a, b := x f.b, slot := sl } : MxCmd)
  (Issues (.mma h f) s e → kOk sl (k 15) = true → mmaFits e.grid.lrec { base 0x2C0 with k := k 15 } →
    (shadowOf e' e'.s (x f.d)).isOk = true → pushed (.mma h f) fun _ z => mm e'.s { base 0x2C0 with k := k 15 } z) ∧
  (Issues (.mmasp h f) s e → kOk sl (k 10) = true → (slotA sl = 1 ∨ slotA sl = 2) → k 10 ≤ 32 * (16 - immBits f 19 16) →
    mmaFits e.grid.lrec { base 0x2C1 with k := k 10 } → (shadowOf e' e'.s (x f.d)).isOk = true →
    pushed (.mmasp h f) fun _ z => mm e'.s { base 0x2C1 with k := k 10 } z ∧ z.sel = immBits f 25 21 ∧
      z.ws = (List.range (16 - immBits f 19 16)).map fun j => sget e.th.w (immBits f 19 16 + j)) ∧
  (∀ s1 d, Issues (.mmag h f) s e → (slotStep sl).isSome = true →
    let va := (vpair e' f.a.toNat 0).toNat
    let n := fun lo w => leNat ((d.drop lo).take w)
    let c := ({ tid := 0, op := 0x2C2, pc := 0, acc := n 8 4, a := n 0 4, b := n 4 4, k := n 16 4, soff := n 12 4, slot := sl,
                m := n 20 1, n := n 21 1 } : MxCmd)
    va % 64 = 0 → arenaTrap1 e' va 64 = none → fetchAt e' 0x2C2 1 e'.s va = .ok (s1, d) →
    (d.drop 22).any (· != 0) = false → c.m ≤ 32 → c.n ≤ 64 →
    ((c.m = 0 ∨ c.n = 0) → pushedM s1.mem (.mmag h f) fun _ z => z.k = 0 ∧ (z.m = 0 ∨ z.n = 0)) ∧
    (c.m ≠ 0 → c.n ≠ 0 → kOk sl c.k = true → (slotScale sl = 2 ∨ c.soff = 0) → mmaFits e.grid.lrec c →
      (shadowOf e' (dropInbox s1 e.tid) c.acc).isOk = true → pushedM s1.mem (.mmag h f) fun _ z => mm (dropInbox s1 e.tid) c z)) ∧
  (Issues (.mxz h f) s e → x f.d % 256 = 0 → x f.d + 8192 ≤ tsLimit e.grid.lrec → (shadowOf e' e'.s (x f.d)).isOk = true →
    pushed (.mxz h f) fun _ z => ∃ y', shadowOf e' e'.s (x f.d) = .ok (y', z.acc, z.fresh)) ∧
  (Issues (.mxdr h f) s e → (slotStep sl).isSome = true → e.th.spec = none → f.imm.getLsbD 25 = false →
    let mode := immBits f 27 26
    let rb := if mode = 2 then 64 else 256
    let pitch := if immBits f 15 0 = 0 then rb else immBits f 15 0
    rb ≤ pitch → x f.d % 256 = 0 → (mode ≠ 2 → x f.b % 4 = 0 ∧ pitch % 4 = 0) → x f.d + 8192 ≤ tsLimit e.grid.lrec →
    x f.b + 31 * pitch + rb ≤ spLimit e.grid.lrec → (∀ l, lineFilling e'.s e.th.bid e.blk l = false) →
    pushed (.mxdr h f) fun t z => z.acc = x f.d ∧ z.at' = x f.b ∧ z.pitch = pitch ∧ z.mode = mode ∧ z.dmem = false ∧
      blAt t e.th.bid fun b => ∀ i, i < 32 → ∀ l ∈ linesOf (x f.b + i * pitch) rb, l ∈ b.empty) ∧
  (Issues (.mxbl h f) s e → e.th.spec = none → f.imm.getLsbD 25 = false → x f.d % 256 = 0 → x f.a % 128 = 0 →
    x f.a + 256 * immBits f 13 0 ≤ spLimit e.grid.lrec → x f.d + 256 * immBits f 13 0 ≤ tsLimit e.grid.lrec →
    pushed (.mxbl h f) fun _ z => z.acc = x f.d ∧ z.at' = x f.a ∧ z.rows = immBits f 13 0 ∧ z.dmem = false) ∧
  (Issues (.mxspec h f) s e → e.th.spec = none →
    pushed (.mxspec h f) fun t _ => thAt t e.tid (·.spec = some { tag := immBits f 7 0, shadows := [] })) ∧
  (∀ i sp, (i = .mxcmt h f ∨ i = .mxdsc h f) → Issues i s e → e.th.spec = some sp → sp.tag = immBits f 7 0 →
    pushed i fun t z => thAt t e.tid (·.spec = none) ∧ z.shadows = if i = .mxcmt h f then sp.shadows else []) ∧
  (Issues (.mxwait h f) s e →
    (mxLeft s e.tid ≤ immBits f 4 0 → ∃ t, exec (.mxwait h f) s = .next t ∧ Computed e t noV noK noP) ∧
    (immBits f 4 0 < mxLeft s e.tid → ∃ t, exec (.mxwait h f) s = .next t ∧ t.mem = s.mem ∧ Regs s t e.tid noV noK noP ∧
      frAt t e.tid e.fi fun r => r.park = .mxwait (immBits f 4 0) ∧ r.pc = e.fr.pc))

/-- The command at the head of a core's queue streams its source lines one after another, each once it is full (07 R111), and then completes,
with neither an assist routine nor a save of its block in the way of its start, and leaves the queue. MXZ clears its tile, MXBL loads its rows, MXCMT copies the shadows; a dense multiply gives every element of the M × N corner
its new value, and changes no other byte of the tile store. Integer sums are exact (12 R227). -/
def Sys2Proof.Part.MatrixCommandsComplete : Prop :=
  (∀ s core c q b l, mxQueue s core = c :: q → tget s.blocks (c.tid / 128) = some b →
    (c.begun = false → assistHolds s core = false ∧ savePends s (c.tid / 128) b = false) → nextLine c = some l → ∃ t, exec (.matrixCommandComplete core) s = .next t ∧ t.mem = s.mem ∧ t.blocks = s.blocks ∧
      (l ∈ b.empty → mxQueue t core = { c with begun := true } :: q) ∧
      (l ∉ b.empty → mxQueue t core = { c with begun := true, got := c.got ++ [(l, spRead b (128 * l) 128)] } :: q)) ∧
  (∀ s core c q b, mxQueue s core = c :: q → tget s.blocks (c.tid / 128) = some b →
    (c.begun = false → assistHolds s core = false ∧ savePends s (c.tid / 128) b = false) →
    (∀ x ∈ s.blocks, x.2.core = core → x.2.mxSaved = []) →
    nextLine c = none → c.dmem = false → c.fresh = none → c.stale = false → tileHeld s c = false →
    ∃ t, exec (.matrixCommandComplete core) s = .next t ∧ t.mem = s.mem ∧ mxQueue t core = q ∧
      blAt t (c.tid / 128) fun x =>
        (c.op = 0x2C3 → ∀ a, sget x.ts a = if c.acc ≤ a ∧ a < c.acc + 8192 then 0 else sget b.ts a) ∧
        (c.op = 0x2C5 → tsRead x c.acc (256 * c.rows) = ((List.range (256 * c.rows)).map fun j => gotByte { c with k := 0 } 0 (c.at' + j)) ∧
          ∀ a, (a < c.acc ∨ c.acc + 256 * c.rows ≤ a) → sget x.ts a = sget b.ts a) ∧
        (c.op = 0x2C7 → ∀ r j, c.shadows = [(r, j)] →
          tsRead x r 8192 = tsRead b (((tget s.grids b.gid).map fun g => tsLimit g.lrec).getD 0 + 8192 * j) 8192) ∧
        (c.op = 0x2C6 ∨ c.op = 0x2C8 → x.ts = b.ts ∧ x.sp = b.sp) ∧
        (c.op ≤ 0x2C2 → 0 < c.m → c.m ≤ 32 → 0 < c.n → c.n ≤ 64 →
          let flt := slotC c.slot == 0
          let ftz := flt && slotSub c.slot == 0
          let res := ftz || (flt && c.spec)
          (∀ i j, i < c.m → j < c.n → le32 (sget x.ts) (c.acc + 256 * i + 4 * j) =
            let y := (mmaElem c (gotByte c) (sget b.ts) ftz res c.acc i j).1
            (if flt && !res && isSub f32 y then flush f32 true y else y) % 2 ^ 32) ∧
          (∀ a, (∀ i j, i < c.m → j < c.n → a < c.acc + 256 * i + 4 * j ∨ c.acc + 256 * i + 4 * j + 4 ≤ a) → sget x.ts a = sget b.ts a))) ∧
  (∀ kk x y c, (accInt kk x y c).1 = (List.range (4 * (kk / 4))).foldl (fun t k => t + x k * y k) c)

/-- Assist routines (10 R190): a flagged context enters its routine at its next boundary with the flagged command's ACC, A, B and K
in lane 0 of v0-v3, the registers and the PC that it interrupts set aside; ASRET returns to them.
When the routine holds the queue is read by inference (notes/assumptions/23.md). -/
def Sys2Proof.Part.AssistRoutine : Prop :=
  (∀ s tid th acc a b k flags rest fi fr fs g, tget s.threads tid = some th → th.assists = (acc, a, b, k, flags) :: rest →
    th.frags = (fi, fr) :: fs → fr.park = .run → th.assistSave = none → gridOf s th = some g →
    ∃ t, exec (.assistEntry tid) s = .next t ∧ t.mem = s.mem ∧
      Regs s t tid (fun r l => if r < 4 ∧ l = 0 then some (BitVec.ofNat 32 ([acc, a, b, k].getD r 0)) else none) noK noP ∧
      frAt t tid fi (·.pc = BitVec.ofNat 64 g.lrec.assist) ∧
      thAt t tid fun u => u.assists = rest ∧ ∃ sv, u.assistSave = some sv ∧ sv.pc = fr.pc ∧
        sv.v = [vAt s tid 0 0, vAt s tid 1 0, vAt s tid 2 0, vAt s tid 3 0] ∧ sv.w0 = sget th.w 0 ∧ sv.w1 = sget th.w 1) ∧
  (∀ h f s e sv, Issues (.asret h f) s e → e.th.assistSave = some sv → e.th.splits = [] → s.lace = [] →
    ∃ t, exec (.asret h f) s = .next t ∧ t.mem = s.mem ∧
      Regs s t e.tid (fun r l => if r < 4 ∧ l = 0 then some (sv.v.getD r 0) else none) noK noP ∧
      pcAt t e.tid e.fi = some sv.pc ∧ thAt t e.tid fun u => u.assistSave = none ∧ sget u.w 0 = sv.w0 ∧ sget u.w 1 = sv.w1) ∧
  (∀ h f s e, Issues (.asret h f) s e → e.th.assistSave = none →
    exec (.asret h f) s = .next (takeTrap (tick (countIssue e).s) e.tid e.fi 1 (opOf (.asret h f)) e.act 0 e.act))

/-- Matrix commands complete, and their assist routine runs (18). -/
def Obligations.MatrixCommands : Prop :=
  Part.MatrixCommandsComplete ∧ Part.AssistRoutine

/-! ### Callables and nests (19 R368-R377, 11 R193-R213) -/

/-- The constructors (19 R371) write their entry in the first FREE entry of the table that the cursor finds, and give its handle in
D; a full table gives 0. CFREE clears bits 3:0 of byte 0 of its entry, and does nothing for handle 0. -/
def Obligations.CallableConstructors : Prop := ∀ h f s e, e.act ≠ 0 → s.lace = [] →
  let e' := countIssue e
  let a := (opAt e 0 f.ka f.a (low e)).toNat
  let b := (opAt e 0 f.kb f.b (low e)).toNat
  let c := (opAt e 0 f.kc f.c (low e)).toNat
  let img := fun o => spRead e.blk o 64
  let imgOk := fun o => o % 64 = 0 ∧ o + 64 ≤ spLimit e.grid.lrec ∧ ∀ x ∈ linesOf o 64, x ∉ e.blk.empty
  let cur := ((tget s.ctxs e.grid.ctx).map (·.cursor)).getD 1
  (∀ i ok bytes, (i, ok, bytes) ∈ [
      (Instr.cfn h f, imgOk a, entryOf 1 ((img a).drop 1)),
      (.ccor h f, imgOk a, entryOf 2 ((img a).drop 1)),
      (.cseq h f, a < 65536 ∧ b < 65536, entryOf 3 ([0] ++ leBytes a 2 ++ leBytes b 2)),
      (.cpar h f, a < 65536 ∧ b < 65536, entryOf 4 ([0] ++ leBytes a 2 ++ leBytes b 2)),
      (.cpipe h f, a < 65536 ∧ b < 65536, entryOf 5 ([0] ++ leBytes a 2 ++ leBytes b 2 ++ leBytes c 4)),
      (.cfarm h f, a < 65536 ∧ imgOk b, entryOf 6 (((img b).drop 1).take 1 ++ leBytes a 2 ++ [0, 0] ++ leBytes c 4 ++ (img b).drop 10)),
      (.cloop h f, a < 65536, entryOf 7 ([0] ++ leBytes a 2 ++ leBytes c 4 ++ leBytes (op64At e f.kb f.b (low e)).toNat 8))] →
    Issues i s e → ok →
    (∀ s1 r s2 k x, scanFree e' (opOf i) 65535 e'.s cur = .ok (s1, r) →
      (∀ n, r = some n → translate s1 e.grid.ctx (tableBase e + 64 * n) .write e.unit = (s2, .ok (.key k x)) ∧ (tget s2.ctxs e.grid.ctx).isSome = true) →
      let y := BitVec.ofNat 32 (r.getD 0)
      ∃ t, exec i s = .next t ∧ Regs s t e.tid (if f.kd then noV else vTo e f.d fun _ => y) (if f.kd then kTo e f.d fun _ => y else noK) noP ∧
        (r = none → t.mem = s1.mem) ∧
        (∀ n, r = some n → t.mem.readN k 64 = bytes ∧ (∀ z, (z < k ∨ k + 64 ≤ z) → t.mem.read z = s2.mem.read z) ∧
          cxAt t e.grid.ctx (·.cursor = n + 1)))) ∧
  (Issues (.cfree h f) s e →
    (a = 0 → ∃ t, exec (.cfree h f) s = .next t ∧ Computed e t noV noK noP) ∧
    (∀ s1 k x, a ≠ 0 → a < 65536 → translate e'.s e.grid.ctx (tableBase e + 64 * a) .write e.unit = (s1, .ok (.key k x)) →
      ∃ t, exec (.cfree h f) s = .next t ∧ Regs s t e.tid noV noK noP ∧
        ∀ z, t.mem.read z = if z = k then s1.mem.read k &&& 0xF0 else s1.mem.read z))

/-- APPLY registers its nest with the nodes that its snapshot read, and gives its handle; a malformed nest completes at once with
FAULT 0x40 and the handle at which it is malformed. AWAITC gives the status of a completed nest; of one that runs, `.poll` gives
0xFF and the blocking form waits before itself. CYLD in a coroutine ends the active lanes and marks the suspension. -/
def Sys2Proof.Part.NestInstructions : Prop := ∀ h f s e, s.lace = [] →
  let e' := countIssue e
  let a := (opAt e 0 f.ka f.a (low e)).toNat
  let i := ((tget s.ctxs e.grid.ctx).map (·.nestNo)).getD 1
  let hd := BitVec.ofNat 32 (qtagOf s e.grid % 128 * 2 ^ 21 + i)
  let argp := (op64At e f.kb f.b (low e)).toNat
  let walk := snapWalk (instRead e' (opOf (.apply h f))) { tbase := tableBase e, argp := argp, slots := e.grid.lrec.slots } 16 none e'.s a []
  let gives := fun (t : State) => Regs s t e.tid (if f.kd then noV else vTo e f.d fun _ => hd) (if f.kd then kTo e f.d fun _ => hd else noK) noP
  (Issues (.apply h f) s e → e.act ≠ 0 → a < 65536 →
    (∀ s1 ns, walk = .ok (s1, ns) → ∃ t x, exec (.apply h f) s = .next t ∧ gives t ∧ tget t.nests s1.nextId = some x ∧ x.nodes = ns ∧
      x.argp = argp ∧ x.gid = some e.blk.gid ∧ x.index = i ∧ x.ctx = e.grid.ctx) ∧
    (∀ s1 bad, walk = .error (.bad s1 bad) → ∃ t x, exec (.apply h f) s = .next t ∧ gives t ∧ tget t.nests s1.nextId = some x ∧
      x.status = some (BitVec.ofNat 64 (1 + 256 * 0x40 + 2 ^ 32 * bad)))) ∧
  (∀ n x, Issues (.awaitc h f) s e → e.act ≠ 0 → nestOf s e.grid.ctx a = some (n, x) →
    (∀ w, x.status = some w → ∃ t, exec (.awaitc h f) s = .next t ∧ t.mem = s.mem ∧
      Regs s t e.tid (vPair e f.kd f.d fun _ => w) (kPair e f.kd f.d fun _ => w) noP) ∧
    (x.status = none → f.sub.getLsbD 0 = true → ∃ t, exec (.awaitc h f) s = .next t ∧ t.mem = s.mem ∧
      Regs s t e.tid (vPair e f.kd f.d fun _ => 0xFF) (kPair e f.kd f.d fun _ => 0xFF) noP) ∧
    (x.status = none → f.sub.getLsbD 0 = false → ∃ t, exec (.awaitc h f) s = .next t ∧ t.mem = s.mem ∧ Regs s t e.tid noV noK noP ∧
      frAt t e.tid e.fi fun r => r.park = .retry (.nest n) ∧ r.pc = e.fr.pc)) ∧
  (∀ n x leaf v, Issues (.cyld h f) s e → e.act ≠ 0 → e.th.splits = [] → leafOf s e.grid = some (n, x, leaf) →
    tget x.insts leaf = some v → (nodeAt x v.node).kind = 2 →
    ∃ t, exec (.cyld h f) s = .next t ∧ thAt t e.tid (fun th => th.yielded = true ∧ th.exited = e.th.exited ||| e.act) ∧
      grAt t e.blk.gid (·.yielded = true))

/-- CHPUT, CHGET and FTAKE (19 R376, R377) serve their lanes in ascending order: a put while the channel has room and is open, a get
while it has items, a take while the source gives one; once every lane is served the instruction completes with its results, and
until then it waits before itself, keeping who has been served. -/
def Sys2Proof.Part.ChannelsAndFarms : Prop := ∀ h f s e n x leaf p v, e.act ≠ 0 → s.lace = [] →
  leafOf s e.grid = some (n, x, leaf) → tget x.insts p = some v →
  let e' := countIssue e
  let nd := nodeAt x v.node
  let size := fld nd.entry 8 2
  let o := fun l => (opAt e 0 f.ka f.a l).toNat
  let fits := ∀ l, e.act.getLsbD l = true → o l % 4 = 0 ∧ o l + size ≤ spLimit e.grid.lrec
  let chan := fun (t : State) ch => ∃ x' v', tget t.nests n = some x' ∧ tget x'.insts p = some v' ∧ v'.chan = ch
  let served := fun (pg : List (Nat × Word)) => pTo e f.d fun l => pg.any fun y => y.1 == l && y.2 == 1
  let waits := fun (t : State) pg => Regs s t e.tid noV noK noP ∧ frAt t e.tid e.fi fun r => r.park = .retry .chan ∧ r.prog = pg ∧ r.pc = e.fr.pc
  (∀ ch pg all, Issues (.chput h f) s e → enclosing x leaf 5 f.b.toNat = some p → fits →
    (∀ l ∈ unserved e, ∀ y ∈ linesOf (o l) size, y ∉ e.blk.empty) →
    servePut (fld nd.entry 6 2) (v.aDone || v.bDone) (fun l => spRead e.blk (o l) size) (unserved e) v.chan e.fr.prog = (ch, pg, all) →
    ∃ t, exec (.chput h f) s = .next t ∧ t.mem = s.mem ∧ chan t ch ∧ (all = true → Regs s t e.tid noV noK (served pg)) ∧
      (all = false → waits t pg)) ∧
  (∀ ch pg out all, Issues (.chget h f) s e → enclosing x leaf 5 f.b.toNat = some p → fits →
    (∀ l ∈ unserved e, ∀ y ∈ linesOf (o l) size, lineFilling e'.s e.th.bid e.blk y = false) →
    serveGet v.aDone (unserved e) v.chan e.fr.prog [] = (ch, pg, out, all) →
    ∃ t, exec (.chget h f) s = .next t ∧ t.mem = s.mem ∧ chan t ch ∧
      blAt t e.th.bid (fun b => b.sp = out.foldl (fun m y => ssetList m (o y.1) y.2) e.blk.sp) ∧
      (all = true → Regs s t e.tid noV noK (served pg)) ∧ (all = false → waits t pg)) ∧
  (∀ v' pv' pg all, Issues (.ftake h f) s e → enclosing x leaf 6 f.a.toNat = some p → f.sub.getLsbD 0 = false → f.kd = false →
    v.parent ≠ some p → takeLanes nd (unserved e) v (v.parent.bind fun q => tget x.insts q) e.fr.prog = (v', pv', pg, all) →
    ∃ t, exec (.ftake h f) s = .next t ∧ t.mem = s.mem ∧
      (∃ x' w, tget t.nests n = some x' ∧ tget x'.insts p = some w ∧ w.next = v'.next) ∧
      (all = true → Regs s t e.tid (vTo e f.d fun l => ((pg.find? (·.1 == l)).map Prod.snd).getD 0xFFFFFFFF) noK noP) ∧
      (all = false → waits t pg)) ∧
  (∀ v' pv' pg, Issues (.ftake h f) s e → enclosing x leaf 6 f.a.toNat = some p → f.sub.getLsbD 0 = true → e.fr.prog = [] →
    v.parent ≠ some p → takeLanes nd [low e] v (v.parent.bind fun q => tget x.insts q) [] = (v', pv', pg, true) →
    ∃ t, exec (.ftake h f) s = .next t ∧ t.mem = s.mem ∧
      let y := ((pg.head?).map Prod.snd).getD 0xFFFFFFFF
      Regs s t e.tid (if f.kd then noV else vTo e f.d fun _ => y) (if f.kd then kTo e f.d fun _ => y else noK) noP)

/-- The course of a nest (11 R199, R206, R209). A claim that the child reserve of the leaf that applied it covers is taken at once, and
the root starts; another opens the transaction of its partition when the distributor serves it (06 R94); a root that has its status ends the nest with it; a child of a PAR that completes without failing leaves its
siblings running; a SEQ whose first child fails completes with it. A FAULT outweighs CANCELLED, and CANCELLED outweighs DEGRADED.
That a covered claim is taken in one event is read by inference (notes/assumptions/36.md). -/
def Obligations.NestsRun : Prop :=
  (∀ s n x s1, tget s.nests n = some x → x.status = none → x.claimed = false → x.saved = false → ctxRuns s x.part x.ctx = true →
    x.seatN ≤ ((lenderOf s x).map fun l => min l.2.2 (freeSeats s l.1 l.2.1).length).getD 0 → x.chanN = 0 → takeClaim s n x = some s1 →
    exec (.applyClaim n) s = .next (startNode n 17 s1 0 none 0 []) ∧ ∃ y, tget s1.nests n = some y ∧ y.claimed = true ∧ y.nodes = x.nodes) ∧
  (∀ s n x p c, tget s.nests n = some x → x.status = none → x.claimed = false → x.saved = false → ctxRuns s x.part x.ctx = true →
    (((lenderOf s x).map fun l => min l.2.2 (freeSeats s l.1 l.2.1).length).getD 0 < x.seatN ∨ x.chanN ≠ 0) →
    tget s.parts x.part = some p → p.gang = none → p.committed = false → pickLaunch s x.part p = some c → c.who = .nest n →
    ∃ t q, exec (.applyClaim n) s = .next t ∧ tget t.parts x.part = some q ∧ q.gang = some (false, n) ∧
      (s.time, Turn.event (.gangReserve x.part)) ∈ t.timers) ∧
  (∀ s n x i v st, tget s.nests n = some x → tget x.insts i = some v → v.status = some st → v.told = false → v.parent = none →
    x.status = none → x.pkt = none →
    ∃ t y, exec (.nodeComplete n i) s = .next t ∧ tget t.nests n = some y ∧ y.status = some (statDword st) ∧ y.insts = []) ∧
  (∀ s n x i v st p pv, tget s.nests n = some x → tget x.insts i = some v → v.status = some st → v.told = false →
    v.parent = some p → p ≠ i → tget x.insts p = some pv → pv.status = none →
    ((nodeAt x pv.node).kind = 4 → st.code ≠ 1 → st.code ≠ 3 → (pv.kids.filter (· != i)) ≠ [] →
      ∃ t y w, exec (.nodeComplete n i) s = .next t ∧ tget t.nests n = some y ∧ tget y.insts i = none ∧ tget y.insts p = some w ∧
        w.kids = pv.kids.filter (· != i) ∧ w.got = pv.got ++ [st] ∧ w.status = none) ∧
    ((nodeAt x pv.node).kind = 3 → st.code = 1 → pv.got = [] → pv.cancelling = false →
      ∃ t y w, exec (.nodeComplete n i) s = .next t ∧ tget t.nests n = some y ∧ tget y.insts p = some w ∧ w.status = some st)) ∧
  (∀ sts, ((∃ x ∈ sts, x.code = 1) → (combine sts).code = 1 ∧ combine sts ∈ sts) ∧
    ((∀ x ∈ sts, x.code ≠ 1) → (∃ x ∈ sts, x.code = 3) → (combine sts).code = 3))

/-- Nests, channels and farms from device code (11, 19). -/
def Obligations.NestOperations : Prop :=
  Part.NestInstructions ∧ Part.ChannelsAndFarms

/-! ### Traps (10 R165-R171, 19 R378-R383) -/

/-- TRAP and BKPT take their precise trap (13 with the immediate as INFO, 14), and with an empty active set do nothing. Taking a trap
in a block that has a handler and is not halted saves the cause, the PC, EM, the failing lanes and the address, writes no register
and no memory, stops the trapping strand and halts the block: each sibling may issue at most 6 more instructions. -/
def Sys2Proof.Part.TrapsAreTaken : Prop :=
  (∀ h f s e, Issues (.trap h f) s e →
    (e.act = 0 → ∃ t, exec (.trap h f) s = .next t ∧ Computed e t noV noK noP) ∧
    (e.act ≠ 0 → exec (.trap h f) s = .next (takeTrap (tick (countIssue e).s) e.tid e.fi 13 f.imm.toNat e.act 0 e.act))) ∧
  (∀ h f s e, Issues (.bkpt h f) s e →
    (e.act = 0 → ∃ t, exec (.bkpt h f) s = .next t ∧ Computed e t noV noK noP) ∧
    (e.act ≠ 0 → exec (.bkpt h f) s = .next (takeTrap (tick (countIssue e).s) e.tid e.fi 14 0 e.act 0 e.act))) ∧
  (∀ s tid fi code info lanes addr th fr b g, tget s.threads tid = some th → tget th.frags fi = some fr → tget s.blocks th.bid = some b →
    tget s.grids b.gid = some g → th.cc = false → g.handler ≠ 0 → th.hand = none → b.halted = false → s.lace = [] →
    let t := takeTrap s tid fi code info lanes addr
    t.mem = s.mem ∧ (∀ j, Regs s t j noV noK noP) ∧ blAt t th.bid (·.halted = true) ∧
    thAt t tid (fun x => x.skidLeft = some 0 ∧ x.pendTrap = some
      { code := code, info := info, pc := fr.pc, em := fr.em, lanes := lanes, addr := BitVec.ofNat 64 addr, frag := fi, time := s.time }) ∧
    (∀ j x, j ≠ tid → tget s.threads j = some x → x.bid = th.bid → x.cc = false → x.skidLeft = none →
      thAt t j fun y => y.skidLeft = some (if allParked x then 0 else 6) ∧ y.skid = 0) ∧
    (∀ j x, tget s.threads j = some x → x.bid ≠ th.bid → tget t.threads j = some x))

/-- A block without a handler is killed by a trap, and so is one whose handler's strand traps, with code 0x30; TRET.kill kills with the
cause: the grid keeps the first fault code with the block's index, and the strand ends. -/
def Sys2Proof.Part.TrapsThatKill : Prop :=
  (∀ s bid code strand addr b g tid th, tget s.blocks bid = some b → tget s.grids b.gid = some g → tget s.threads tid = some th →
    th.bid = bid → s.lace = [] →
    let t := killBlock s bid code strand addr
    grAt t b.gid (·.fault = if g.fault = none then some (code, b.lin) else g.fault) ∧
    thAt t tid fun x => x.killed = true ∧ x.frags = [] ∧ x.exited = x.lanes) ∧
  (∀ s tid fi code info lanes addr th b g, tget s.threads tid = some th → tget s.blocks th.bid = some b → tget s.grids b.gid = some g →
    th.cc = false → s.lace = [] →
    (g.handler = 0 → takeTrap s tid fi code info lanes addr = killBlock s th.bid code (strandId s th fi) addr) ∧
    (g.handler ≠ 0 → th.hand.isSome = true → takeTrap s tid fi code info lanes addr = killBlock s th.bid 0x30 (strandId s th fi) addr)) ∧
  (∀ h f s e, Issues (.tretKill h f) s e → s.lace = [] → ∃ t, exec (.tretKill h f) s = .next t ∧
    grAt t e.blk.gid (·.fault = if e.grid.fault = none then some (e.blk.trap.tcause.toNat % 256, e.blk.lin) else e.grid.fault) ∧
    thAt t e.tid fun x => x.killed = true ∧ x.frags = [])

/-- Handler entry (10 R168): the pending trap that is handled first fills the trap registers, and the handler starts in the trapping
fragment's entry with every live lane of that fragment, the strand's other fragments frozen. TRET.resume goes back: the fragment
stands at TPC with EM := TEM ∧ M, and with no other trap pending the block runs on. -/
def Sys2Proof.Part.TrapHandlerAndReturn : Prop :=
  (∀ s bid tid r b g th fr, nextPending s bid = some (tid, r) → tget s.blocks bid = some b → tget s.grids b.gid = some g →
    tget s.threads tid = some th → tget th.frags r.frag = some fr → b.halted = true → b.trap.active = false →
    ∃ t, exec (.trapHandlerEntry bid) s = .next t ∧ t.mem = s.mem ∧ (∀ j, Regs s t j noV noK noP) ∧
      blAt t bid (fun x => x.trap.active = true ∧ x.trap.tid = tid ∧ x.trap.tcause = BitVec.ofNat 32 (r.info % 65536 * 65536 + r.code) ∧
        x.trap.tpch ++ x.trap.tpcl = r.pc ∧ x.trap.tem = r.em ∧ x.trap.tlanes = r.lanes ∧ x.trap.taddrh ++ x.trap.taddrl = r.addr) ∧
      frAt t tid r.frag (fun x => x.pc = g.handler ∧ x.m = fullM th 40 fr.split fr.m &&& ~~~th.exited ∧ x.em = x.m ∧ x.frozen = false) ∧
      (∀ j, j ≠ r.frag → (tget th.frags j).isSome = true → frAt t tid j (·.frozen = true)) ∧
      thAt t tid fun x => x.pendTrap = none ∧ ∃ hd, x.hand = some hd ∧ hd.old = fr ∧ hd.entry = r.frag ∧ hd.depth = th.calls.length) ∧
  (∀ s bid b, tget s.blocks bid = some b → b.halted = true → b.trap.active = false → nextPending s bid = none →
    ∃ t, exec (.trapHandlerEntry bid) s = .next t ∧ t.mem = s.mem ∧ blAt t bid (·.halted = false)) ∧
  (∀ h f s e hd, Issues (.tretResume h f) s e → e.th.hand = some hd → e.th.splits = [] → s.lace = [] →
    let pc := e.blk.trap.tpch ++ e.blk.trap.tpcl
    codeOk e pc = true → hd.old.m &&& ~~~e.th.exited ≠ 0 → (∀ x ∈ e.th.frags, x.1 ≠ e.fi → x.2.park = .run) →
    ∃ t, exec (.tretResume h f) s = .next t ∧ t.mem = s.mem ∧ Regs s t e.tid noV noK noP ∧
      thAt t e.tid (·.hand = none) ∧ blAt t e.th.bid (·.trap.active = false) ∧
      frAt t e.tid hd.entry (fun x => x.pc = pc ∧ x.m = hd.old.m &&& ~~~e.th.exited ∧ x.em = e.blk.trap.tem &&& x.m ∧ x.frozen = hd.old.frozen) ∧
      ((∀ x ∈ strandsOf s e.th.bid, x.2.pendTrap = none) → blAt t e.th.bid (·.halted = false))) ∧
  (∀ h f s e, Issues (.tretResume h f) s e → codeOk e (e.blk.trap.tpch ++ e.blk.trap.tpcl) = false →
    exec (.tretResume h f) s = .next (takeTrap (tick (countIssue e).s) e.tid e.fi 1 (opOf (.tretResume h f)) e.act 0 e.act))

/-- The other system instructions: SIGCHK that matches and SIGRST restart the signature, SIGCHK that does not kills the strand with a
machine check of kind 5 (expected value above the one found); MCHKR, CLOCK, GETFMT and SYSR give the record's word, device time,
the format slot and the trap register; SYSW writes TPCL, TPCH, TEM or a scratch register; PMARK writes no register. -/
def Obligations.SystemInstructions : Prop := ∀ h,
  (∀ f, ToPair (.mchkr h f) f.kd f.d (fun e _ => e.blk.mc.getD f.a.toNat 0)) ∧
  (∀ f, ToPair (.clock h f) f.kd f.d (fun e _ => BitVec.ofNat 64 e.s.time)) ∧
  (∀ f, ToPair (.getfmt h f) f.kd f.d (fun e _ => slotOf e f.a.toNat)) ∧
  (∀ f, ToD (.sysr h f) f.kd f.d (fun e _ => trapReg e.s e.th.bid e.blk.trap f.a.toNat)) ∧
  (∀ f s e, Issues (.pmark h f) s e → s.lace = [] → ∃ t, exec (.pmark h f) s = .next t ∧ Computed e t noV noK noP) ∧
  (∀ f s e, Issues (.sysw h f) s e → s.lace = [] → ∃ t, exec (.sysw h f) s = .next t ∧ t.mem = s.mem ∧ Regs s t e.tid noV noK noP ∧
    blAt t e.th.bid fun b =>
      let x := opAt e 0 f.kb f.b (low e)
      (e.act = 0 → b.trap = e.blk.trap) ∧
      (e.act ≠ 0 → (f.a.toNat = 1 → b.trap = { e.blk.trap with tpcl := x }) ∧ (f.a.toNat = 2 → b.trap = { e.blk.trap with tpch := x }) ∧
        (f.a.toNat = 3 → b.trap = { e.blk.trap with tem := x }) ∧ (0x10 ≤ f.a.toNat → sget b.trap.tscr (f.a.toNat - 0x10) = x))) ∧
  (∀ f i s e, (i = .sigrst h f) → Issues i s e → e.th.splits = [] → s.lace = [] → e.fr.rcv ≠ some (e.fr.pc + 12) →
    ∃ t, exec i s = .next t ∧ t.mem = s.mem ∧ Regs s t e.tid noV noK noP ∧
      frAt t e.tid e.fi fun r => r.pc = e.fr.pc + 12 ∧ r.sig = sigReset ∧ r.bmask = e.fr.em) ∧
  (∀ f s e, Issues (.sigchk h f) s e → e.th.splits = [] → s.lace = [] →
    (e.fr.sig = f.imm → e.fr.rcv ≠ some (e.fr.pc + 12) → ∃ t, exec (.sigchk h f) s = .next t ∧ t.mem = s.mem ∧ Regs s t e.tid noV noK noP ∧
      frAt t e.tid e.fi fun r => r.pc = e.fr.pc + 12 ∧ r.sig = sigReset ∧ r.bmask = e.fr.em) ∧
    (e.fr.sig ≠ f.imm → e.th.cc = false → e.blk.core < 1536 → e.blk.sslots.getD e.th.idx 0 < 1024 → ∃ t, exec (.sigchk h f) s = .next t ∧ thAt t e.tid (·.killed = true) ∧
      blAt t e.th.bid fun b => b.mc.getD 1 0 = e.fr.pc ∧ b.mc.getD 2 0 = BitVec.ofNat 64 s.time ∧ b.mc.getD 3 0 = f.imm ++ e.fr.sig ∧
        (b.mc.getD 0 0).toNat / 2 ^ 60 = 5))

/-- A check finds error `u` in the instruction that a fragment would issue: `s1` after its fetch, `i` what it decodes, `e` its surroundings. -/
def Sys2Proof.Part.Found (s : State) (tid fi : Nat) (u : Upset) (s1 : State) (i : Instr) (e : Env) : Prop :=
  ∃ e0 bs, bareEnv s tid fi = some e0 ∧ fetchCode e0 = (s1, .bytes bs) ∧ decode (codeWord bs) = .ok i ∧
    mkEnv (decodeHdr (codeWord bs)) { s1 with cur := tid, curFrag := fi } = some e ∧ canIssue e = true ∧ upsetOk e i u = true

/-- An error that the checks find (10 R182-R187) in the instruction that a fragment would issue: one that is corrected changes no register
of any strand and kills none; by a retry or a mirror it puts a record with CORR = 1 at the fragment's PC and the device time, its predicted
residue the one that the datapath computes from the operands, and a retry advances the cluster's count of corrected mismatches. One that
is not corrected kills the consuming strand and leaves its siblings. An error reaches the machine as an item of the agenda
(notes/assumptions/9.md). -/
def Sys2Proof.Part.HardwareErrors : Prop := ∀ s tid fi u r s1 i e, s.agenda = .upset tid fi u :: r →
  Part.Found { s with agenda := r } tid fi u s1 i e →
  let v := { u with exp := (expect e i u.lane).getD u.exp }
  let cl := clusterOf s1 e.th
  let spares (t : State) : Prop := (∀ j, Regs s t j noV noK noP) ∧
    ∀ j x, tget s.threads j = some x → thAt t j fun y => y.killed = x.killed ∧ y.exited = x.exited ∧ alive y = alive x
  let kills (t : State) : Prop := thAt t tid (fun x => x.killed = true ∧ x.frags = []) ∧
    ∀ j x, j ≠ tid → tget s.threads j = some x → thAt t j fun y => y.killed = x.killed ∧ y.exited = x.exited ∧ alive y = alive x
  (u.kind ≤ 2 → u.bad = false → ∃ t, step s = .next t ∧ spares t ∧
    blAt t e.th.bid (fun x => x = { e.blk with mc := upsetRecord s1 e.th e.fr.pc v true } ∧ x.mc.getD 1 0 = e.fr.pc ∧
      x.mc.getD 2 0 = BitVec.ofNat 64 s.time) ∧
    tget t.pkg.life (lifeKey 1 cl 0) = some (((tget s.pkg.life (lifeKey 1 cl 0)).getD 0 + 1) % 2 ^ 64)) ∧
  (u.kind = 3 → u.bad = false → e.th.cc = false → e.blk.mirrored = true → ∃ t, step s = .next t ∧ spares t ∧
    blAt t e.th.bid (fun x => x = { e.blk with mc := upsetRecord s1 e.th e.fr.pc v true })) ∧
  (u.kind = 4 → u.bad = false → ∃ t, step s = .next t ∧ spares t ∧ blAt t e.th.bid (· = e.blk) ∧
    tget t.pkg.life (lifeKey 2 u.array 0) = some (((tget s.pkg.life (lifeKey 2 u.array 0)).getD 0 + 1) % 2 ^ 64)) ∧
  (u.kind = 3 → e.th.cc = false → e.blk.mirrored = false → s.lace = [] → ∃ t, step s = .next t ∧ kills t) ∧
  (u.bad = true → e.th.cc = false → s.lace = [] → ∃ t, step s = .next t ∧ kills t ∧
    blAt t e.th.bid fun x => x.mc = upsetRecord s1 e.th e.fr.pc v false)

/-- Taking a trap, being killed by one, the handler's entry and the return from it (10 R165-R171, 19 R378-R381); errors of the
hardware that are corrected, and those that kill a strand (10 R182-R187). -/
def Obligations.Traps : Prop :=
  Part.TrapsAreTaken ∧ Part.TrapsThatKill ∧ Part.TrapHandlerAndReturn ∧ Part.HardwareErrors

/-! ### Placement (06 R86-R95, 08 R124-R126, 07 R104) -/

/-- A block that starts finds its entry state (08 R124, R125): each strand one fragment at CODE with every lane that exists, the
lane's index in v0, the argument pointer, the block index, the strand index and the limits in k0-k7, and no predicate set. -/
def Obligations.StrandsStartInEntryState : Prop := ∀ s bid b g,
  tget s.blocks bid = some b → tget s.grids b.gid = some g → b.nstr ≤ 64 →
  let t := runBlock s bid
  let r := g.lrec
  let tid := fun i => bid * 128 + i
  blAt t bid (·.stage = .running) ∧ t.mem = s.mem ∧ tget t.l1 b.core = none ∧
  ∀ i, i < b.nstr →
    frAt t (tid i) 0 (fun f => f.pc = BitVec.ofNat 64 r.code ∧ f.m = strandLanes r i ∧ f.em = strandLanes r i ∧ f.park = .run ∧ f.rcv = none) ∧
    (∀ j, j ≠ 0 → freeAt t (tid i) j) ∧
    (∀ l, l < 32 → (strandLanes r i).getLsbD l = decide (32 * i + l < r.lx * r.ly * r.lz) ∧
      vAt t (tid i) 0 l = if 32 * i + l < r.lx * r.ly * r.lz then BitVec.ofNat 32 (32 * i + l) else 0) ∧
    (∀ j l, 0 < j → l < 32 → vAt t (tid i) j l = 0) ∧ (∀ j l, pAt t (tid i) j l = false) ∧
    kAt t (tid i) 0 = BitVec.ofNat 32 r.argp ∧ kAt t (tid i) 1 = BitVec.ofNat 32 (r.argp / 2 ^ 32) ∧
    kAt t (tid i) 2 = BitVec.ofNat 32 (b.lin % r.gx) ∧ kAt t (tid i) 3 = BitVec.ofNat 32 (b.lin / r.gx % r.gy) ∧
    kAt t (tid i) 4 = BitVec.ofNat 32 (b.lin / (r.gx * r.gy)) ∧ kAt t (tid i) 5 = BitVec.ofNat 32 i ∧
    kAt t (tid i) 6 = BitVec.ofNat 32 (spLimit r) ∧ kAt t (tid i) 7 = BitVec.ofNat 32 (tsLimit r) ∧ (∀ j, 10 ≤ j → kAt t (tid i) j = 0)

/-- The distributor: with no saved block to restore it places the next block of the launch that it serves, on the first core that fits; a
gang takes its reservations one after another, commits once it has them all unless a launch of higher priority waits, and starts its
blocks, or the root of its nest; an abort gives every reservation back; Scarab clears the
first granule of its queue.
How the launch that is served is found is read by inference (notes/assumptions/33.md). -/
def Obligations.BlocksArePlaced : Prop :=
  (∀ s pid p gid g c pl s1 bid, tget s.parts pid = some p → p.committed = false → p.gang = none → sliceRestore s pid = none →
    placeLeaf s pid = none → stranded s pid = none →
    (s.grids.find? fun e => e.2.part == pid && (parkedFits s e.1 e.2).isSome && mayCome s pid e.2.prio) = none → nextRestore s pid = none →
    pickLaunch s pid p = some c → c.who = .grid gid → tget s.grids gid = some g → isGang g.lrec = false →
    firstPlan s g (coreOrder p gid g) = some pl → takeBlock s gid g pl none .reserved = some (s1, bid) →
    ∃ t, exec (.blockPlace pid) s = .next t ∧ t.mem = s.mem ∧ grAt t gid (·.next = g.next + 1) ∧
      blAt t bid fun b => b.gid = gid ∧ b.core = pl.core ∧ b.lin = linAt g.lrec g.next ∧ (b.stage = .running ∨ b.stage = .scrubbing)) ∧
  (∀ s pid p gid g s1, tget s.parts pid = some p → p.gang = some (true, gid) → p.backs = [] → p.committed = false → tget s.grids gid = some g →
    g.cancelled = false → outranked s pid g.prio = false → (reservedOf s gid).length < gangSize g.lrec → gangStep s gid = some s1 →
    ∃ t, exec (.gangReserve pid) s = .next t ∧ t.blocks = s1.blocks ∧
      ((gangSize g.lrec ≤ (reservedOf s1 gid).length → (s1.time, Turn.event (.gangCommit pid)) ∈ t.timers) ∧
       ((reservedOf s1 gid).length < gangSize g.lrec → (s1.time + 4, Turn.event (.gangReserve pid)) ∈ t.timers))) ∧
  (∀ s pid p gid g, tget s.parts pid = some p → p.gang = some (true, gid) → p.backs = [] → p.committed = false → tget s.grids gid = some g →
    g.cancelled = false → outranked s pid g.prio = false → gangSize g.lrec ≤ (reservedOf s gid).length → reservedOf s gid ≠ [] →
    ∃ t q, exec (.gangCommit pid) s = .next t ∧ tget t.parts pid = some q ∧ q.committed = true ∧ q.commitAt = s.time ∧
      t.blocks = s.blocks ∧ t.timers.length = s.timers.length + (reservedOf s gid).length) ∧
  (∀ s pid p n x s1, tget s.parts pid = some p → p.gang = some (false, n) → p.committed = false → tget s.nests n = some x →
    x.status = none → x.saved = false → ownSeats x ≤ x.seats.length → outranked s pid x.prio = false → sealClaim s n = some s1 →
    exec (.gangCommit pid) s = .next (kick (startRoot (modPart s1 pid fun p => { turnOver p x.prio x.queue with gang := none }) n) pid) ∧
    ∃ y, tget s1.nests n = some y ∧ y.claimed = true ∧ y.seats = x.seats) ∧
  (∀ s pid p gid g bid b rest, tget s.parts pid = some p → p.gang = some (true, gid) → p.committed = true → tget s.grids gid = some g →
    reservedOf s gid = bid :: rest → tget s.blocks bid = some b → b.gid = gid →
    ∃ t, exec (.gangBlockStart pid) s = .next t ∧ blAt t bid fun y => y.stage = .running ∨ y.stage = .scrubbing) ∧
  (∀ s pid p gid g, tget s.parts pid = some p → p.gang = some (true, gid) → p.backs = [] → p.committed = false → tget s.grids gid = some g →
    outranked s pid g.prio = true → ∃ t q, exec (.gangAbort pid) s = .next t ∧ reservedOf t gid = [] ∧ tget t.parts pid = some q ∧ q.gang = none) ∧
  (∀ s core g r, tget s.scrubQ core = some (g :: r) →
    ∃ t, exec (.scarabScrub core) s = .next t ∧ t.mem = s.mem ∧ tget t.granules (512 * core + g) = none ∧
      tget t.scrubQ core = if r = [] then none else some r)

/-- The end of a block and of a grid: a block whose strands have all ended leaves with its threads; a grid for which everything has
ended reports its status to the packet that launched it, and leaves with its commands and nests. Results land, and a fragment that
has been ready for 256 cycles of its clock is promoted. -/
def Obligations.EndsAndLandings : Prop :=
  (∀ s bid b g, tget s.blocks bid = some b → b.gid ≠ 0 → tget s.grids b.gid = some g → blockDone s bid = true → cmdsHold s bid = false →
    ∃ t d, exec (.blockEnd bid) s = .next t ∧ tget t.blocks bid = none ∧ (∀ x ∈ t.threads, x.2.bid ≠ bid) ∧
      (d, Turn.event (.gridEnd b.gid)) ∈ t.timers) ∧
  (∀ s gid g i, tget s.grids gid = some g → gridOver s gid g = true → gridWrites s gid = false → g.nest = none → g.cmd = none → g.pkt = some i →
    ∃ t d, exec (.gridEnd gid) s = .next t ∧ tget t.grids gid = none ∧ (∀ x ∈ t.cmds, x.2.gid = gid → x.2.kind = 0) ∧
      (∀ x ∈ t.nests, x.2.gid ≠ some gid) ∧ (d, Turn.event (.packetComplete g.queue i (gridStatus g))) ∈ t.timers) ∧
  (∀ s tid tok th slot n, tget s.threads tid = some th → tget th.flights tok = some slot → tget th.sb slot = some n →
    ∃ t, exec (.variableLatencyResult tid tok) s = .next t ∧ t.mem = s.mem ∧ Regs s t tid noV noK noP ∧ thAt t tid fun x =>
      tget x.sb slot = some (n - 1) ∧ tget x.flights tok = none ∧ ∀ p ∈ x.pend, p.tok ≠ tok) ∧
  (∀ s tid fi th f since, tget s.threads tid = some th → tget th.frags fi = some f → f.readySince = some since → f.promoted = none →
    since + 256 * clkDiv s (coreOf s th) ≤ s.time →
    ∃ t, exec (.fragmentPromote tid fi) s = .next t ∧ Regs s t tid noV noK noP ∧
      frAt t tid fi fun x => x.promoted = some s.time ∧ x.demoted = false ∧ x.pc = f.pc)

/-! ### Pre-emption (06 R93, R98, R99, 10 R178-R181, 05 R78-R81) -/

/-- Saves: a block asked to stop is saved once every strand has stopped and nothing of it runs, with its scratchpad, tile store and
phasers, the save pool receives its image and its use grows by it; an image that does not fit stops the context, and in a context that is stopped nothing
is saved. A deadline that has passed stops
every strand of the block.
Which reason is reported, and when a block comes back, is read by inference (notes/assumptions/34.md). -/
def Sys2Proof.Part.BlocksAreSaved : Prop :=
  (∀ s bid b g cx, tget s.blocks bid = some b → tget s.grids b.gid = some g → tget s.ctxs g.ctx = some cx → b.stage = .running →
    (cx.stopped = true → exec (.blockSave bid) s = .next s) ∧
    (cx.stopped = false → b.preq ≠ [] → 5 ∉ b.preq ++ b.late → (∀ e ∈ strandsOf s bid, allParked e.2 = true ∨ e.2.stopped = true) →
      notQuiet s bid b = false →
      let pool := (eventsOf cx (some g.evNo)).size * 2 ^ 20
      (cx.saveUsed + saveBytes b ≤ pool → leafNest s b = none →
        ∃ t, exec (.blockSave bid) s = .next t ∧ t.mem = (writeImage (leaveGrans s b) g.ctx (eventsOf cx (some g.evNo)) (saveBytes b)).mem ∧
          cxAt t g.ctx (·.saveUsed = cx.saveUsed + saveBytes b) ∧
          blAt t bid fun x => x.stage = .saved ∧ x.why = saveReason b ∧ x.savedAt = s.time ∧ x.preq = [] ∧ x.late = [] ∧ x.halt = 0 ∧
            x.sp = b.sp ∧ x.ts = b.ts ∧ x.phs = b.phs) ∧
      (pool < cx.saveUsed + saveBytes b → ∃ t, exec (.blockSave bid) s = .next t ∧ cxAt t g.ctx (·.stopped = true) ∧
        blAt t bid (·.stage = .running)))) ∧
  (∀ s bid b g, tget s.blocks bid = some b → tget s.grids b.gid = some g → b.stage = .running → b.preq ≠ [] → inTrap b = false →
    b.preqAt + deadlineOf g.lrec ≤ s.time →
    ∃ t d, exec (.forcedSave bid) s = .next t ∧ t.mem = s.mem ∧ (∀ x ∈ t.threads, x.2.bid = bid → x.2.stopped = true) ∧
      (∀ j, Regs s t j noV noK noP) ∧ (d, Turn.event (.blockSave bid)) ∈ t.timers) ∧
  (∀ s bid b, tget s.blocks bid = some b → b.stage = .running → inTrap b = true → (b.preq ≠ [] ∨ b.late ≠ [] ∨ b.halt ≠ 0) →
    let due := max b.trap.since (askedAt b) + 8192
    ∃ t, exec (.handlerDeadlineExpiry bid) s = .next t ∧ t.mem = s.mem ∧
      (due ≤ s.time → ∀ x ∈ t.threads, x.2.bid = bid → x.2.stopped = true) ∧
      (s.time < due → t.threads = s.threads ∧ (due, Turn.event (.handlerDeadlineExpiry bid)) ∈ t.timers))

/-- Who is asked to stop, and restores: the victim of a priority pre-emption gets reason 1, a block that has been resident for 2 ms on
a core that migrates gets reason 2 while its partition has a cool core; a saved block that may come back and fits is restored with
everything that it had, one of a gang in a transaction that brings the gang back (06 R94), and so is a parked COOP grid; at the end of a slice the tenant's blocks stop, and once none is left, and no copy or atomic of the tenant's is under way, the next tenant's slice begins. -/
def Sys2Proof.Part.PreemptionAndSlices : Prop :=
  (∀ s pid p bid b g, tget s.parts pid = some p → p.victim = [] → p.committed = false → findVictim s pid p = some (bid, b) →
    b.gid ≠ 0 → tget s.blocks bid = some b → tget s.grids b.gid = some g → g.nest = none → isGang g.lrec = false →
    b.stage = .running → inTrap b = false → b.preq = [] →
    ∃ t q, exec (.priorityPreemption pid) s = .next t ∧ t.mem = s.mem ∧ blAt t bid (·.preq = [1]) ∧ tget t.parts pid = some q ∧ q.victim = [bid]) ∧
  (∀ s core cool bid b g p, s.pkg.shawm = true → (s.blocks.filter fun e => e.2.core == core) = [(bid, b)] → tget s.blocks bid = some b → b.gid ≠ 0 →
    tget s.grids b.gid = some g → g.nest = none → isGang g.lrec = false → tget s.parts b.part = some p → b.stage = .running →
    inTrap b = false → b.preq = [] → (∃ c ∈ partCores p, c ∈ cool) → b.placedAt + 3200000 ≤ s.time →
    ∃ t, exec (.thermalMigration core cool) s = .next t ∧ t.mem = s.mem ∧ blAt t bid (·.preq = [2]) ∧ t.pkg.cool = cool) ∧
  (∀ s bid b g p s1, tget s.blocks bid = some b → b.stage = .saved → b.back = true → tget s.grids b.gid = some g → g.nest = none →
    tget s.parts b.part = some p → restoreUnit s bid = some s1 →
    (isGang g.lrec = false → b.halt = 0 → (∃ e ∈ s.threads, e.2.bid = bid) → ∃ t, exec (.blockRestore bid) s = .next t ∧ t.mem = s.mem ∧
      blAt t bid fun x => (x.stage = .running ∨ x.stage = .scrubbing) ∧ x.lin = b.lin ∧ x.sp = b.sp ∧ x.ts = b.ts ∧ x.phs = b.phs) ∧
    (isGang g.lrec = true → p.gang = none → p.committed = false → ∃ t q, exec (.blockRestore bid) s = .next t ∧ t.mem = s.mem ∧ t.blocks = s.blocks ∧
      tget t.parts b.part = some q ∧ q.gang = some (true, b.gid) ∧ q.backs = savedGang s bid b ∧
      (s.time, Turn.event (.gangReserve b.part)) ∈ t.timers)) ∧
  (∀ s gid g p bids, tget s.grids gid = some g → parkedFits s gid g = some bids → tget s.parts g.part = some p → p.gang = none →
    p.committed = false → ∃ t q, exec (.coopResume gid) s = .next t ∧ t.mem = s.mem ∧ t.blocks = s.blocks ∧ tget t.parts g.part = some q ∧
      q.gang = some (true, gid) ∧ q.backs = bids ∧ (s.time, Turn.event (.gangReserve g.part)) ∈ t.timers) ∧
  (∀ s p cores bid b s1, tget s.blocks bid = some b → putBlock s p cores bid = some s1 → s1.mem = s.mem ∧ s1.threads = s.threads ∧
    blAt s1 bid fun x => x.stage = .reserved ∧ x.core ∈ allowedCores s b.why cores ∧ x.restored = (b.why == 1) ∧ x.lin = b.lin ∧
      x.sp = b.sp ∧ x.ts = b.ts ∧ x.phs = b.phs) ∧
  (∀ s pid p, tget s.parts pid = some p → s.pkg.shawm = true → 1 < p.slices.length → p.setting = none → p.sliceAt ≤ s.time → p.committed = false → p.gang = none →
    tenantNests s pid (tenantOf p) = [] →
    (tenantBlocks s pid (tenantOf p) = [] → copiesOut s pid (tenantOf p) = [] → atomicsOut s pid (tenantOf p) = false → ∃ t q, exec (.sliceEnd pid) s = .next t ∧ t.mem = s.mem ∧ tget t.parts pid = some q ∧
      q.slicePos = (p.slicePos + 1) % p.slices.length ∧ q.switching = false ∧
      (s.time < q.sliceAt ∨ (p.slices.getD q.slicePos (0, 0)).2 = 0)) ∧
    (∀ bid b, tenantBlocks s pid (tenantOf p) = [(bid, b)] → tget s.blocks bid = some b → b.stage = .running → b.halt = 0 → inTrap b = false →
      ∃ t q, exec (.sliceEnd pid) s = .next t ∧ t.mem = s.mem ∧ tget t.parts pid = some q ∧ q.switching = true ∧
        blAt t bid (·.halt = 6) ∧ ∀ x ∈ t.threads, x.2.bid = bid → x.2.stopped = true))

/-- Pre-emption, saves, restores and slices (06 R93, R98, R99, 10 R178-R181, 05 R78-R81). -/
def Obligations.Preemption : Prop :=
  Part.BlocksAreSaved ∧ Part.PreemptionAndSlices

/-! ### The package (01 R14-R23, 03 R52-R56) -/

/-- What the cores of a stack count in cycles of their clock takes longer, or less long: a stall and a result of fixed latency that end after
now end `f` of their distance from now; a strand of another stack is as it was. -/
def Sys2Proof.Part.Retimed (s t : State) (st : Nat) (f : Nat → Nat) (least : Nat) : Prop :=
  let at' (x : Nat) : Nat := if x ≤ s.time then x else s.time + f (x - s.time)
  (∀ j th, tget s.threads j = some th → ∃ x, tget t.threads j = some x ∧ x.held = th.held ∧
    (stackOf (coreOf s th) ≠ st → x = th) ∧
    (stackOf (coreOf s th) = st → x.stallTill = max (at' th.stallTill) least ∧ x.pend = th.pend.map fun p => { p with due := p.due.map at' })) ∧
  ∀ d core, (d, Turn.event (.scarabScrub core)) ∈ s.timers → stackOf core = st → (at' d, Turn.event (.scarabScrub core)) ∈ t.timers

/-- 01 R16: when the detector fires, the clock of that stack stretches for 1 to 4 cycles, in which no strand of the stack issues, and
one droop event is added to that stack's droop count; what is counted in its cycles ends that much later. -/
def Obligations.SupplyDroopStretches : Prop := ∀ s st n, st < 8 → 1 ≤ n → n ≤ 4 →
  ∃ t, exec (.supplyDroop st n) s = .next t ∧ t.mem = s.mem ∧ t.time = s.time ∧ t.blocks = s.blocks ∧
    tget t.pkg.droops st = some ((tget s.pkg.droops st).getD 0 + 1) ∧
    tget t.pkg.life (lifeKey 4 st (n - 1)) = some (((tget s.pkg.life (lifeKey 4 st (n - 1))).getD 0 + 1) % 2 ^ 64) ∧
    Part.Retimed s t st (· + n) (s.time + n)

/-- Heat (01 R14, R15): a hot stack's clock is halved until it has cooled, and what its cores count in cycles takes twice as long
meanwhile; a trip stops every context and every strand without saving
and raises vector 2 of every function.
Temperatures arrive as events: the model's choice (notes/assumptions/27.md). -/
def Sys2Proof.Part.HeatIsAnswered : Prop :=
  (∀ s st, st < 8 → ∃ t, exec (.stackClockHalve st) s = .next t ∧ t.mem = s.mem ∧
    (∀ core, clkDiv t core = if stackOf core = st then 2 else clkDiv s core) ∧
    (s.pkg.halved.contains st = true → t = s) ∧ (s.pkg.halved.contains st = false → Part.Retimed s t st (2 * ·) 0)) ∧
  (∀ s st, ∃ t, exec (.stackClockRestore st) s = .next t ∧ t.mem = s.mem ∧
    (∀ core, clkDiv t core = if stackOf core = st then 1 else clkDiv s core) ∧
    (s.pkg.halved.contains st = false → t = s) ∧ (s.pkg.halved.contains st = true → Part.Retimed s t st (fun n => (n + 1) / 2) 0)) ∧
  (∀ s, ∃ t, exec .moduleTrip s = .next t ∧ t.mem = s.mem ∧ (∀ x ∈ t.ctxs, x.2.stopped = true) ∧ (∀ x ∈ t.threads, x.2.stopped = true) ∧
    (∀ j, Regs s t j noV noK noP) ∧ t.pkg.tripped = true ∧ t.msix = s.msix ++ (List.range 64).map fun f => (f, 2))

/-- Spares (01 R17-R19): a spare, its pools scrubbed, takes the place of a failing cluster at its quiescence, and until then placement
there has stopped; SRAM rows, lanes and pin pairs are spared at once; a repaired row's granule passes to Scarab, and a link and a channel
retrain. Where no spare is left the unit is retired: the cluster leaves its partitions and the readiness register, the pool's granule is
unplaceable, pages of near memory leave the arena pool, the link runs at 8 lanes, the channel goes at the next module reset. Every
replacement and retirement commits the counters. While Shawm does not run, its work waits.
Retries of a pin pair that reach the threshold of 16 are followed by the spare (01 R20).
How retries are told, the numbers of the units, and which granule and which pages a row lies in, are the model's choice (notes/assumptions/24.md, 27.md). -/
def Obligations.SparesAndRetirement : Prop :=
  (∀ s i, s.pkg.shawm = false → ((∃ cl, i = Instr.clusterSwap cl ∧ cl < 192 ∧ s.pkg.clRetired.contains cl = false) ∨ (∃ a r, i = .sramRowSpare a r) ∨
      (∃ l, i = .lmlLaneSpare l) ∨ ∃ c, i = .farPinPairSpare c ∧ c < 32 ∧ s.pkg.chanRemoved.contains c = false) →
    exec i s = .next (backlog s i) ∧ i ∈ (backlog s i).pkg.backlog) ∧
  (∀ s cl, s.pkg.shawm = true → cl < 192 → s.pkg.clRetired.contains cl = false →
    let used := (tget s.pkg.spareClusters (cl / 24)).getD 0
    (used < 2 → clusterQuiet s cl = true → s.pkg.swapScrub.contains cl = true → poolsClear s cl = true →
      ∃ t, exec (.clusterSwap cl) s = .next t ∧ t.mem = s.mem ∧ t.pkg.clRetired = s.pkg.clRetired ∧ t.granules = s.granules ∧
        t.pkg.clready = s.pkg.clready ∧ tget t.pkg.spareClusters (cl / 24) = some (used + 1) ∧ cl ∉ t.pkg.swapping ∧ t.pkg.flash = t.pkg.life) ∧
    (used < 2 → clusterQuiet s cl = true → s.pkg.swapScrub.contains cl = false →
      ∃ t d, exec (.clusterSwap cl) s = .next t ∧ t.mem = s.mem ∧ cl ∈ t.pkg.swapping ∧ t.pkg.spareClusters = s.pkg.spareClusters ∧
        (∀ j, j < 8 → ∀ g, g < 384 → g ∈ (tget t.scrubQ (8 * cl + j)).getD []) ∧ (d, Turn.event (.clusterSwap cl)) ∈ t.timers) ∧
    (used < 2 → clusterQuiet s cl = false → ∃ t d, exec (.clusterSwap cl) s = .next t ∧ cl ∈ t.pkg.swapping ∧
      t.pkg.spareClusters = s.pkg.spareClusters ∧ (d, Turn.event (.clusterSwap cl)) ∈ t.timers) ∧
    (2 ≤ used → clusterQuiet s cl = true →
      (∀ e ∈ ownersOf s cl, e.2.gang = none ∧ losers s e.1 { e.2 with clusters := e.2.clusters.filter (· != cl) } = []) →
      ∃ t, exec (.clusterSwap cl) s = .next t ∧ t.mem = s.mem ∧ cl ∈ t.pkg.clRetired ∧ cl ∉ t.pkg.clready ∧ cl ∉ t.pkg.swapping ∧
        (∀ pid q, tget t.parts pid = some q → cl ∉ q.clusters) ∧ t.pkg.flash = t.pkg.life)) ∧
  (∀ s arr row, s.pkg.shawm = true →
    let key := arr * 2 ^ 32 + row / 64
    let used := (tget s.pkg.spareRows key).getD 0
    ∃ t, exec (.sramRowSpare arr row) s = .next t ∧ t.mem = s.mem ∧ tget t.pkg.spareRows key = some (used + 1) ∧
      (used = 0 → t.pkg.granRetired = s.pkg.granRetired ∧ t.pkg.pagesRetired = s.pkg.pagesRetired) ∧
      (used = 0 → arr < 4096 → (∀ e ∈ s.blocks, e.2.core = arr → holds e.2 = true → row / 128 ∉ e.2.gran) →
        row / 128 ∈ (tget t.scrubQ arr).getD []) ∧
      (used = 1 → arr < 4096 → t.pkg.granRetired = s.pkg.granRetired ++ [512 * arr + row / 128]) ∧
      (used = 1 → arr / 4096 = 2 → t.pkg.pagesRetired = s.pkg.pagesRetired ++ Config.rowPages (arr % 4096) (row / 64)) ∧
      (used ≤ 1 → t.pkg.flash = t.pkg.life)) ∧
  (∀ s link x, s.pkg.shawm = true → tget s.lnk.links link = some x → x.up = true →
    let y : LmlLink := if x.spares = 0 then { x with lanes := 8 } else { x with spares := x.spares - 1 }
    ∃ t d, exec (.lmlLaneSpare link) s = .next t ∧ t.mem = s.mem ∧ tget t.lnk.links link = some { y with training := true } ∧
      d ≤ s.time + 32000 ∧ (d, Turn.event (.lmlLinkUp link y.lanes y.spares y.peer)) ∈ t.timers ∧
      t.lnk.src = s.lnk.src ∧ t.pkg.flash = t.pkg.life) ∧
  (∀ s ch, s.pkg.shawm = true → ch < 32 → s.pkg.chanRemoved.contains ch = false →
    ((tget s.pkg.sparePins ch).getD 0 = 0 → ∃ t d, exec (.farPinPairSpare ch) s = .next t ∧ t.mem = s.mem ∧
      tget t.pkg.sparePins ch = some 1 ∧ ch ∉ t.pkg.chans ∧ d ≤ s.time + 80000 ∧ (d, Turn.event (.farChannelTrained ch)) ∈ t.timers ∧
      t.pkg.flash = t.pkg.life) ∧
    ((tget s.pkg.sparePins ch).getD 0 ≠ 0 → ∃ t, exec (.farPinPairSpare ch) s = .next t ∧ t.mem = s.mem ∧
      ch ∈ t.pkg.chanDoomed ∧ t.pkg.chans = s.pkg.chans)) ∧
  (∀ s ch pair r, s.agenda = .pinRetry ch pair :: r → ch < 32 → pair < 64 → tget s.pkg.thresholds 5 = none →
    let n := (s.pkg.hist.filter fun e => e.1 == 5 && e.2.1 == 64 * ch + pair && s.time + s.pkg.epoch ≤ e.2.2 + 5760000000000).length
    ∃ t, step s = .next t ∧ t.mem = s.mem ∧ t.pkg.sparePins = s.pkg.sparePins ∧ (n + 1 < 16 → t.timers = s.timers) ∧
      (16 ≤ n + 1 → ∃ d, (d, Turn.event (.farPinPairSpare ch)) ∈ t.timers))

/-- Readiness and lifetime counters (03 R52, R54, R56, 01 R21-R23): channels and tiers that are trained are ready, and a change raises
vector 1; the watchdog clears SHAWM and grids go on; commits make the live counters the committed ones, every 10 minutes; a loss of power
goes back to the committed counts; a module reset starts every function over, runs the firmware only if its signature holds, and leaves
the next commit due 10 minutes after the last one.
What a loss of power and a module reset keep is read by inference (notes/assumptions/25.md). -/
def Sys2Proof.Part.ReadinessAndResets : Prop :=
  (∀ s ch, ch < 32 → s.pkg.chanRemoved.contains ch = false → ∃ t, exec (.farChannelTrained ch) s = .next t ∧
    ch ∈ t.pkg.chans ∧ (s.pkg.chans.contains ch = false → ∃ l, t.msix = s.msix ++ (0, 1) :: l) ∧
    ((∀ c ∈ s.ctxs, c.2.jobs = []) → (∀ d ∈ s.lnk.dst, d.2.faults = []) → s.queues = [] → t.mem = s.mem)) ∧
  (∀ s st, st < 8 → s.pkg.stkReady.contains st = false → ∃ t l, exec (.memoryTierTrained st) s = .next t ∧ t.mem = s.mem ∧
    st ∈ t.pkg.stkReady ∧ (∀ c, c / 24 = st → s.pkg.clRetired.contains c = false → c ∈ t.pkg.clready) ∧ t.msix = s.msix ++ (0, 1) :: l) ∧
  (∀ s, s.pkg.shawmAt + 2 ^ 28 ≤ s.time → ∃ t, exec .shawmWatchdog s = .next t ∧ t.mem = s.mem ∧ t.pkg.shawm = false ∧ t.grids = s.grids ∧ t.blocks = s.blocks ∧
    t.threads = s.threads ∧ (s.pkg.shawm = true → ∃ l, t.msix = s.msix ++ (0, 1) :: l)) ∧
  (∀ s, s.time < s.pkg.shawmAt + 2 ^ 28 → exec .shawmWatchdog s = .next s) ∧
  (∀ s i, i ∈ [Instr.counterCommit, .orderlyShutdown] → (s.pkg.shawm = false → exec i s = .next (backlog s i)) ∧ (s.pkg.shawm = true → ∃ t, exec i s = .next t ∧ t.mem = s.mem ∧ t.pkg.flash = t.pkg.life ∧
    t.pkg.flashSeq = (s.pkg.flashSeq + 1) % 2 ^ 16 ∧ t.pkg.flashAt = s.time ∧ t.pkg.commitAt = s.time ∧
    (i = .counterCommit → ∃ d, (d, Turn.event .counterCommit) ∈ t.timers))) ∧
  (∀ s addr bits, bits ≠ 0 → (0x4000000000 ≤ addr ∧ addr ≤ 0x43FFFFFFFF ∨ 0x5000000000 ≤ addr ∧ addr ≤ 0x53FFFFFFFF) →
    let die := if addr < 0x5000000000 then (addr - 0x4000000000) / 2 ^ 30 else (addr / 4096 % 8) * 2 + (addr - 0x5000000000) / 2 ^ 33 % 2
    let key := lifeKey 2 (0x2000 + die) 0
    ∃ t, exec (.patrolScrub addr bits) s = .next t ∧ t.mem = s.mem ∧
      tget t.pkg.life key = some (((tget s.pkg.life key).getD 0 + 1) % 2 ^ 64)) ∧
  (∀ s, ∃ t, exec .powerLoss s = .next t ∧ t.pkg.life = s.pkg.flash ∧ t.pkg.flash = s.pkg.flash ∧ t.ctxs = [] ∧ t.queues = [] ∧
    t.grids = [] ∧ t.blocks = [] ∧ t.threads = [] ∧
    ∀ a, t.mem.read a = if hostBase ≤ a ∧ a < arenaBase then s.mem.read a else 0) ∧
  (∀ s, let img := if s.pkg.fwStaged.isSome then s.pkg.fwStaged else s.pkg.fwRunning
    ∃ t, exec .moduleReset s = .next t ∧ t.time = s.time ∧ t.ctxs = [] ∧ t.queues = [] ∧ t.grids = [] ∧ t.blocks = [] ∧ t.threads = [] ∧
      t.fns = [] ∧ tget t.parts 0 = some Part.whole ∧ t.pkg.shawm = Config.fwSignatureOk (img.getD Config.fwFactory) ∧ t.pkg.fwRunning = img ∧ t.pkg.fwStaged = none ∧
      t.pkg.stkReady = [] ∧ t.pkg.chans = [] ∧ t.pkg.clready = [] ∧ t.pkg.life = s.pkg.life ∧ t.pkg.flash = s.pkg.flash ∧
      (max s.time (s.pkg.commitAt + tenMinutes), Turn.event .counterCommit) ∈ t.timers ∧ (∀ ch ∈ s.pkg.chanDoomed, ch ∈ t.pkg.chanRemoved) ∧ ∀ a, a < arenaBase → t.mem.read a = s.mem.read a)

/-! ### Links and their packets (02 R24-R33, 04 R74) -/

/-- Links (02 R24, R25, R31, R33, R406): a link or a port that comes up or goes down says so in its register with vector 1; a flow with no
route left has failed; a flit that is sent again and a packet that is discarded count as errors and nothing is lost; device time is
slewed to the master's, TLOCK is set within the tolerance and lost after 2^24 cycles; the exchange goes out on every primary link, and
the master answers with its time. A link that retrains holds its packets, and they go out once it is up. -/
def Obligations.LinksAndTime : Prop :=
  (∀ s link lanes spares peer, link < 16 →
    let x := (tget s.lnk.links link).getD {}
    ∃ t, exec (.lmlLinkUp link lanes spares peer) s = .next t ∧ t.mem = s.mem ∧
      tget t.lnk.links link = some { x with up := true, training := false, lanes := lanes, spares := spares, peer := peer, held := [] } ∧
      (x.up = false → ∃ l, t.msix = s.msix ++ (0, 1) :: l)) ∧
  (∀ s link x, tget s.lnk.links link = some x → x.up = true → s.lnk.remotes = [] → NothingWaits s →
    ∃ t l, exec (.lmlLinkDown link) s = .next t ∧ t.mem = s.mem ∧
      tget t.lnk.links link = some { x with up := false, training := false, tlock := false, lanes := 0, held := [] } ∧ t.msix = s.msix ++ (0, 1) :: l ∧
      ∀ f y, tget s.lnk.src f = some y → ∃ z, tget t.lnk.src f = some z ∧ z.out = y.out ∧ z.seq = y.seq ∧
        (y.failed = true ∨ routeUp t y.pkg = false → z.failed = true)) ∧
  (∀ s link x pk, tget s.lnk.links link = some x → let t := emitOn s link pk
    (x.training = true → tget t.lnk.links link = some { x with held := x.held ++ [{ pk with via := link }] } ∧ t.lnk.out = s.lnk.out) ∧
    (x.training = false → t.lnk.links = s.lnk.links ∧ t.lnk.out = s.lnk.out ++ [{ pk with via := link }])) ∧
  (∀ s link lane i, link < 16 → (i = .flitCrcReplay link lane ∨ i = .lmlPacketDiscard link) →
    let x := (tget s.lnk.links link).getD {}
    ∃ t, exec i s = .next t ∧ t.mem = s.mem ∧ tget t.lnk.links link = some { x with errors := x.errors + 1 } ∧ t.lnk.src = s.lnk.src ∧
      t.lnk.dst = s.lnk.dst ∧ t.lnk.remotes = s.lnk.remotes) ∧
  (∀ s link (err : Int) hops, link < 16 → s.lnk.timeMaster = false →
    let x := (tget s.lnk.links link).getD {}
    ∃ t, exec (.lmlTimeSync link err hops) s = .next t ∧ t.mem = s.mem ∧ t.lnk.slew = err ∧
      tget t.lnk.links link = some { x with
        lastSync := s.time, bound := some (min (8 * hops) 32), tlock := x.tlock || decide (err.natAbs ≤ min (8 * hops) 32) } ∧
      (s.time + 2 ^ 24, Turn.event (.tlockLoss link)) ∈ t.timers) ∧
  (∀ s link err hops x, link < 16 → s.lnk.timeMaster = true → tget s.lnk.links link = some x → x.up = true → x.training = false →
    ∃ t pk, exec (.lmlTimeSync link err hops) s = .next t ∧ t.mem = s.mem ∧ t.lnk.out = s.lnk.out ++ [pk] ∧ pk.ty = 7 ∧ pk.dpkg = x.peer ∧
      pk.via = link ∧ pk.data = leBytes s.time 8) ∧
  (∀ s link x, tget s.lnk.links link = some x → ∃ t, exec (.tlockLoss link) s = .next t ∧ t.mem = s.mem ∧
    tget t.lnk.links link = some (if x.lastSync + 2 ^ 24 ≤ s.time then { x with tlock := false, bound := none } else x)) ∧
  (∀ s, ∃ t d, exec .timeSyncExchange s = .next t ∧ t.mem = s.mem ∧ (d, Turn.event .timeSyncExchange) ∈ t.timers ∧
    ∀ r ∈ s.lnk.routes, ∀ l ∈ r.2.prim, ∀ x, tget s.lnk.links l = some x → x.up = true → x.training = false →
      ∃ pk ∈ t.lnk.out, pk.ty = 7 ∧ pk.dpkg = x.peer ∧ pk.via = l ∧ pk.data = leBytes s.time 8) ∧
  (∀ s port, port < 8 → ∃ t, exec (.ethPortUp port) s = .next t ∧ t.mem = s.mem ∧
    tget t.net.ports port = some { up := true, lfault := false, rfault := false } ∧
    (portReady s port = false → ∃ l, t.msix = s.msix ++ (0, 1) :: l)) ∧
  (∀ s port lf rf, port < 8 → ∃ t, exec (.ethPortDown port lf rf) s = .next t ∧ t.mem = s.mem ∧
    tget t.net.ports port = some { up := false, lfault := lf, rfault := rf } ∧
    (portReady s port = true → ∃ l, t.msix = s.msix ++ (0, 1) :: l))

/-- Heat, readiness, lifetime counters and resets of the module (01 R14, R21-R23, 03 R52-R56). -/
def Obligations.HeatAndReadiness : Prop :=
  Part.HeatIsAnswered ∧ Part.ReadinessAndResets

/-- LML packets at their destination (02 R27-R32, 04 R74, 03 R53): a reserved one is discarded and counts as an error of its link; one for
another package is forwarded; one without an entry is answered negatively; one that came before is ignored, and one that is out of order
where the order counts is held. In its turn a read is answered with the bytes, a write is done and acknowledged, an atomic answers the
old value and is acknowledged, a release passes. A purge marker takes out what is held with its tag, acknowledges that, and is
acknowledged; and later packets with its tag are acknowledged and not performed.
The data of atomic, read and negative packets are the model's choice (notes/assumptions/20.md). -/
def Obligations.LmlDestination : Prop :=
  (∀ go ty s pk, LmlRequest go ty →
    (reservedPkt { pk with ty := ty } = true → pk.via < 16 → ∃ t, exec (go pk) s = .next t ∧ t.mem = s.mem ∧ t.lnk.out = s.lnk.out ∧ t.lnk.dst = s.lnk.dst ∧
      let x := (tget s.lnk.links pk.via).getD {}
      tget t.lnk.links pk.via = some { x with errors := x.errors + 1 }) ∧
    (reservedPkt { pk with ty := ty } = false →
      (pk.dpkg ≠ s.lnk.pkgNum → exec (go pk) s = .next (emit s { pk with ty := ty })) ∧
      (pk.dpkg = s.lnk.pkgNum → tget s.lnk.dst (dstKey pk) = none → exec (go pk) s = .next (emit s (answerTo s pk 5 [1]))) ∧
      (∀ f, pk.dpkg = s.lnk.pkgNum → tget s.lnk.dst (dstKey pk) = some f →
        (2 ^ 31 ≤ (pk.seq - f.next).toNat → exec (go pk) s = .next s) ∧
        (pk.seq ≠ f.next → (pk.seq - f.next).toNat < 2 ^ 31 → pk.seq ∉ f.done → (∀ p ∈ f.held, p.seq ≠ pk.seq) → (∀ p ∈ f.faults, p.2.seq ≠ pk.seq) →
          pk.unordered = false ∨ pk.rel = true ∨ ty = 6 → f.held.length < 8192 → ∃ t, exec (go pk) s = .next t ∧ t.mem = s.mem ∧ t.lnk.out = s.lnk.out ∧
            tget t.lnk.dst (dstKey pk) = some { f with held := f.held ++ [{ pk with ty := ty }] }) ∧
        (pk.seq = f.next → f.held = [] → f.done = [] → f.faults = [] → f.purged.contains pk.qtag = true → ∃ t, exec (go pk) s = .next t ∧
          t.mem = s.mem ∧ t.lnk.out = (emit s (answerTo s pk 5 [])).lnk.out ∧ ∃ g, tget t.lnk.dst (dstKey pk) = some g ∧ g.next = f.next + 1)))) ∧
  (∀ s pk f s1 a pcie, Arrives s pk f → translate s f.ctx pk.va.toNat .read = (s1, .ok (.key a pcie)) → spanStalls s1 a pk.data.length = false →
    ∃ t, exec (.lmlReadRequest pk) s = .next t ∧ t.mem = s1.mem ∧
      t.lnk.out = (emit s1 (answerTo s1 pk 1 (rdN s1 a pk.data.length))).lnk.out ∧ ∃ g, tget t.lnk.dst (dstKey pk) = some g ∧ g.next = f.next + 1) ∧
  (∀ s pk f s1 a pcie, Arrives s pk f → translate s f.ctx pk.va.toNat .write = (s1, .ok (.key a pcie)) →
    (spanStalls s1 a pk.data.length = false → ∃ t, exec (.lmlWrite pk) s = .next t ∧ t.mem = s1.mem.writeN a pk.data ∧
      t.lnk.out = (emit s1 (answerTo s1 pk 5 [])).lnk.out ∧ ∃ g, tget t.lnk.dst (dstKey pk) = some g ∧ g.next = f.next + 1) ∧
    (let n := if (pk.data.getD 1 0).toNat = 7 then 8 else 4
     let o := rdNat s1 a n
     spanStalls s1 a n = false → ∃ t, exec (.lmlAtomic pk) s = .next t ∧
      t.mem = (match atomPacket pk.data n o with | some x => s1.mem.writeN a (leBytes x n) | none => s1.mem) ∧
      t.lnk.out = (emit (emit s1 (answerTo s1 pk 4 (leBytes o n))) (answerTo s1 pk 5 [])).lnk.out ∧
      ∃ g, tget t.lnk.dst (dstKey pk) = some g ∧ g.next = f.next + 1)) ∧
  (∀ s pk f, Arrives s pk f → ∃ t, exec (.lmlRelease pk) s = .next t ∧ t.mem = s.mem ∧ t.lnk.out = s.lnk.out ∧
    ∃ g, tget t.lnk.dst (dstKey pk) = some g ∧ g.next = f.next + 1) ∧
  (∀ s src qtag key f, src < 4096 → tget s.lnk.dst key = some f → (s.lnk.dst.filter fun e => e.2.src == src) = [(key, f)] → (∀ p ∈ f.held, p.qtag = qtag) →
    ∃ t, exec (.purgeMarker src qtag) s = .next t ∧ t.mem = s.mem ∧
      (∃ g, tget t.lnk.dst key = some g ∧ qtag ∈ g.purged ∧ g.held = []) ∧
      ∃ m, t.lnk.out = (emit (f.held.foldl (fun u p => emit u (answerTo s p 5 [])) s) m).lnk.out ∧ m.ty = 5 ∧ m.dpkg = src ∧ m.qtag = qtag ∧ m.data = [2])

/-- LML packets at their source (02 R27, R28, R30, R31, 04 R74): the data of a response reach the register of the lane that asked for them;
an acknowledgement takes its packet out of what is outstanding, and a write's ends what its strand waits for, but a release only once every
earlier write of the strand is acknowledged too; a negative one fails the flow, and one of a purge marker ends that purge. A packet past
2^16 outstanding is not sent, and one held so goes out once there is room.
The data of a negative acknowledgement and of a purge's are the model's choice (notes/assumptions/20.md). -/
def Obligations.LmlSource : Prop :=
  (∀ go s pk r th, (go = Instr.lmlReadResponse ∨ go = .lmlAtomicResponse) → reservedPkt pk = false → pk.dpkg = s.lnk.pkgNum → NothingWaits s →
    tget s.lnk.remotes (remoteKey pk.flow pk.seq) = some r → r.kind = 0 ∨ (r.kind = 1 ∨ r.kind = 2) ∧ r.rel = false → r.lane < 32 → r.d < 2048 →
    tget s.threads r.tid = some th →
    let ws := if r.kind = 0 then extendLoad r.width pk.data else wordsOf pk.data
    ∃ t, exec (go pk) s = .next t ∧ t.mem = s.mem ∧ tget t.lnk.remotes (remoteKey pk.flow pk.seq) = none ∧
      Regs s t r.tid (regsTo (BitVec.ofNat 11 r.d) (widthRegs r.width) fun l => if l = r.lane ∧ r.kind ≠ 1 then some ws else none) noK noP) ∧
  (∀ s pk, reservedPkt pk = false → pk.dpkg = s.lnk.pkgNum →
    (pk.data = [1] → s.lnk.remotes = [] → NothingWaits s → ∃ t, exec (.lmlAck pk) s = .next t ∧ t.mem = s.mem ∧
      ∀ f, tget s.lnk.src pk.flow = some f → tget t.lnk.src pk.flow = some { f with failed := true }) ∧
    (pk.data = [2] → ∃ t, exec (.lmlAck pk) s = .next t ∧ t.mem = s.mem ∧
      ∀ f, tget s.lnk.src pk.flow = some f → tget t.lnk.src pk.flow = some { f with purging := f.purging.filter (· != pk.qtag) }) ∧
    (∀ f, pk.data = [] → NothingWaits s → tget s.lnk.src pk.flow = some f →
      (∀ r, tget s.lnk.remotes (remoteKey pk.flow pk.seq) = some r → r.kind = 1) →
      ∃ t, exec (.lmlAck pk) s = .next t ∧ t.mem = s.mem ∧
        (f.out.length ≤ 65536 → tget t.lnk.src pk.flow = some { f with out := settleOut (f.out.filter (·.seq != pk.seq)) }) ∧
        (∀ q, (∃ p ∈ f.out.take 65536, p.seq = pk.seq) → f.out[65536]? = some q → ∃ l, t.lnk.out = (emit s q).lnk.out ++ l) ∧
        (∀ tid, Regs s t tid noV noK noP) ∧
        (∀ r, tget s.lnk.remotes (remoteKey pk.flow pk.seq) = some r →
          (r.rel = false ∨ relWaits s (remoteKey pk.flow pk.seq, r) = false → tget t.lnk.remotes (remoteKey pk.flow pk.seq) = none) ∧
          (r.rel = true → rising s.lnk.remotes = true → (∃ x ∈ s.lnk.remotes, x.1 ≠ remoteKey pk.flow pk.seq ∧ x.2.tid = r.tid ∧ (x.2.kind = 1 ∨ x.2.kind = 2) ∧ x.2.acked = false ∧
              x.2.tok < r.tok) → tget t.lnk.remotes (remoteKey pk.flow pk.seq) = some { r with acked := true })))) ∧
  (∀ s fid qtag ty rel va data f, tget s.lnk.src fid = some f → ∃ pk, pk.flow = fid ∧ pk.seq = f.seq ∧ pk.qtag = qtag ∧ pk.ty = ty ∧ pk.data = data ∧
    pk.dpkg = f.pkg ∧ let t := sendPkt s fid qtag ty rel va data
      (∃ g, tget t.lnk.src fid = some g ∧ g.seq = f.seq + 1 ∧ g.out = settleOut (f.out ++ [pk])) ∧
      (65536 ≤ f.out.length → t.lnk.out = s.lnk.out) ∧ (f.out.length < 65536 → t.lnk.out = (emit s pk).lnk.out))

/-! ### The network (02 R35-R45, R407) -/

/-- The sender (02 R35, R40, R43-R45, R407): the next packet of a message goes out on its port with its PSN and an entropy value, and a timer of 64 µs runs;
acknowledged packets are no longer outstanding, and a message whose every packet is acknowledged is done; the eighth loss, a refusal and
the 256th not-ready answer end it with their status; a lost skip notice goes out again until the eighth loss closes the delivery
context, and so does idleness; a message whose context closes has failed once packets of it are out, and one that waits takes the place.
What counts as a loss is read by inference (notes/assumptions/32.md). -/
def Obligations.NetworkSends : Prop :=
  (∀ s m x p d c port s1 bs, tget s.net.msgs m = some x → x.pdc = some p → tget s.cmds x.cmd = some c → tget s.net.pdcs p = some d →
    c.recs = [] → x.sent < x.total → portOf s x.ctx x.wr (x.first + BitVec.ofNat 32 x.sent) = some port → 
    pktBytes s x c x.sent = (s1, .bytes bs) → s1.net = s.net →
    ∃ t, exec (.uePacketTransmit m) s = .next t ∧
      t.net.out = s.net.out ++ [(port, d.peer, { uePacket x p d (x.first + BitVec.ofNat 32 x.sent) bs c.qslot
        (Config.sprayEntropy s1.freeCtr (x.first + BitVec.ofNat 32 x.sent).toNat) with sa := saOf s1 x.ctx x.wr })] ∧
      tget t.net.msgs m = some { x with sent := x.sent + 1 } ∧
      (s1.time + 102400, Turn.event (.retransmitTimeout p (x.first + BitVec.ofNat 32 x.sent).toNat)) ∈ t.timers) ∧
  (∀ s p psn d o, tget s.net.pdcs p = some d → (d.out.find? fun o => o.psn.toNat == psn && !o.held && decide (o.deadline ≤ s.time)) = some o →
    (∀ x c, o.notice = false → tget s.net.msgs o.msg = some x → tget s.cmds x.cmd = some c →
      (7 ≤ o.tries → o.again = false → c.st ≠ 3 → c.succs = [] → ∃ t, exec (.retransmitTimeout p psn) s = .next t ∧ msgOver t o.msg x.cmd 6) ∧
      (o.tries < 7 → c.recs = [] → portOf s x.ctx x.wr o.psn = none → ∃ t, exec (.retransmitTimeout p psn) s = .next t ∧ t.mem = s.mem ∧
        t.net.out = s.net.out ∧ (s.time + 102400, Turn.event (.retransmitTimeout p psn)) ∈ t.timers)) ∧
    (o.notice = true → 7 ≤ o.tries → (∀ e ∈ s.net.msgs, e.2.pdc ≠ some p ∧ e.2.pdc ≠ none) →
      ∃ t, exec (.retransmitTimeout p psn) s = .next t ∧ t.mem = s.mem ∧ tget t.net.pdcs p = none) ∧
    (∀ m x c, o.notice = true → 7 ≤ o.tries → s.net.msgs = [(m, x)] → x.pdc = some p → x.sent ≠ 0 → tget s.cmds x.cmd = some c → c.st ≠ 3 → c.succs = [] →
      ∃ t, exec (.retransmitTimeout p psn) s = .next t ∧ msgOver t m x.cmd 6) ∧
    (o.notice = true → o.tries < 7 → ∃ t k, exec (.retransmitTimeout p psn) s = .next t ∧ t.mem = s.mem ∧ (tget t.net.pdcs p).isSome = true ∧
      t.net.skipOut = s.net.skipOut ++ [(d.peer, k)] ∧ k.ctx = d.ctx ∧ k.pdc = p ∧ k.first = o.from' ∧ k.last = o.psn ∧
      (s.time + 102400, Turn.event (.retransmitTimeout p psn)) ∈ t.timers)) ∧
  (∀ s p cum bits d m x c, tget s.net.pdcs p = some d → (∀ o ∈ d.out, psnBefore o.psn (BitVec.ofNat 32 cum) = true) → s.net.msgs = [(m, x)] →
    x.pdc = some p → x.sent = x.total → tget s.cmds x.cmd = some c → c.st ≠ 3 → c.succs = [] →
    ∃ t, exec (.ueAckReceive p cum bits) s = .next t ∧ msgOver t m x.cmd 0 ∧ pdAt t p (·.out = [])) ∧
  (∀ s m x c, tget s.net.msgs m = some x → tget s.cmds x.cmd = some c → c.st ≠ 3 → c.succs = [] →
    (∃ t, exec (.ueNakReceive m) s = .next t ∧ msgOver t m x.cmd 4) ∧
    (255 ≤ x.nready → ∃ t, exec (.ueNotReadyRetry m) s = .next t ∧ msgOver t m x.cmd 5 ∧
      ∀ p d, x.pdc = some p → tget s.net.pdcs p = some d → x.total ≠ 0 → ∃ k, t.net.skipOut = s.net.skipOut ++ [(d.peer, k)] ∧
        k.ctx = d.ctx ∧ k.pdc = p ∧ k.first = x.first ∧ k.last = x.first + BitVec.ofNat 32 (x.total - 1)) ∧
    (∀ p d, x.nready < 255 → x.pdc = some p → tget s.net.pdcs p = some d → ∃ t, exec (.ueNotReadyRetry m) s = .next t ∧
      tget t.net.msgs m = some { x with nready := x.nready + 1 } ∧
      ∀ o ∈ d.out, o.msg = m → o.notice = false → (s.time + 102400, Turn.event (.retransmitTimeout p o.psn.toNat)) ∈ t.timers)) ∧
  (∀ s p d, tget s.net.pdcs p = some d → d.out = [] → (∀ e ∈ s.net.msgs, e.2.pdc ≠ some p ∧ e.2.pdc ≠ none) → d.used + 2 ^ 21 ≤ s.time →
    ∃ t, exec (.pdcIdleClose p) s = .next t ∧ t.mem = s.mem ∧ tget t.net.pdcs p = none) ∧
  (∀ s p d m x, tget s.net.pdcs p = some d → d.out = [] → s.net.msgs = [(m, x)] → x.pdc = none → s.net.pdcs.length ≤ 16384 → d.used + 2 ^ 21 ≤ s.time →
    ∃ t y, exec (.pdcIdleClose p) s = .next t ∧ t.mem = s.mem ∧ tget t.net.msgs m = some y ∧ y.pdc.isSome = true)

/-- The receiver (02 R41, R42, R44, R407, 04 R74): a packet for no context, and one that fails a check of R41, are answered negatively and
place nothing; one of a purged tag or a skipped PSN is discarded; a repeated packet is acknowledged and discarded; a packet of a WRITE
whose checks pass is placed at its offset and acknowledged, but one under ROD is held until its turn; PSNs that a skip notice names are
skipped, and it is acknowledged. An acknowledgement names the PSN below which all are placed or skipped, and the 64 after it.
That the bitmap names a held packet too is the model's reading (notes/assumptions/32.md). -/
def Obligations.NetworkReceives : Prop :=
  (∀ s pk, tget s.ctxs pk.ctx = none → ∃ t, exec (.uePacketReceive pk) s = .next t ∧ t.mem = s.mem ∧
    t.net.answers = s.net.answers ++ [.nak pk.src pk.ctx pk.pdc pk.first]) ∧
  (∀ s pk cx s' p d, tget s.ctxs pk.ctx = some cx → cx.net.stats = 0 → rpdcOf s pk.ctx pk.src pk.pdc pk.rod pk.start = (s', p) →
    tget s'.net.rpdcs p = some d →
    (pk.qtag ∈ d.purged ∨ pk.psn ∈ d.skipped → ∃ t, exec (.uePacketReceive pk) s = .next t ∧ t.mem = s.mem ∧ t.net.answers = s.net.answers) ∧
    (pk.qtag ∉ d.purged → pk.psn ∉ d.skipped →
      (psnBefore pk.psn d.next = true ∨ pk.psn ∈ d.got ∨ (∃ h ∈ d.held, h.psn = pk.psn) → ∃ t b, exec (.uePacketReceive pk) s = .next t ∧ t.mem = s.mem ∧
        t.net.answers = s.net.answers ++ [.ack d.src d.ctx d.pdc d.next b] ∧
        ∀ i, i < 64 → b.getLsbD i = (psnTaken d (d.next + 1 + BitVec.ofNat 32 i) || d.held.any (·.psn == d.next + 1 + BitVec.ofNat 32 i))) ∧
      (psnBefore pk.psn d.next = false → pk.psn ∉ d.got → (∀ h ∈ d.held, h.psn ≠ pk.psn) →
        (pk.rod = true → pk.psn ≠ d.next → d.next ∉ d.got → d.next ∉ d.skipped → (∀ h ∈ d.held, h.psn ≠ d.next) →
          ∃ t b, exec (.uePacketReceive pk) s = .next t ∧ t.mem = s.mem ∧ t.net.answers = s.net.answers ++ [.ack d.src d.ctx d.pdc d.next b] ∧
            (∀ i, i < 64 → pk.psn = d.next + 1 + BitVec.ofNat 32 i → b.getLsbD i = true) ∧ rpAt t p (·.held = d.held ++ [pk])) ∧
        (rxCheck cx pk = none → pk.rod = false → d.got = [] → d.skipped = [] → pk.count ≤ 2 ^ 20 →
          ∃ t, exec (.uePacketReceive pk) s = .next t ∧ t.mem = s.mem ∧
          t.net.answers = s.net.answers ++ [.nak pk.src pk.ctx pk.pdc pk.first] ∧
          rpAt t p fun y => ∀ i, i < pk.count → pk.first + BitVec.ofNat 32 i ∈ y.skipped) ∧
        (∀ r s1 a pcie, rxCheck cx pk = some r → pk.opc = 2 → pk.rod = false →
          let va := pk.raddr.toNat + pk.off
          let m := rmsgOf s' p pk.first
          let u := setRmsg s' { m with slot := none, ctx := pk.ctx, key := pk.rkey.toNat % 4096 }
          pk.data ≠ [] → va % 4096 + pk.data.length ≤ 4096 → m.got.length + 1 < pk.count →
          translate u pk.ctx va .write = (s1, .ok (.key a pcie)) → s1.net = u.net → spanStalls s1 a pk.data.length = false →
          ∃ t y b, exec (.uePacketReceive pk) s = .next t ∧ t.mem = s1.mem.writeN a pk.data ∧ tget t.net.rpdcs p = some y ∧
            t.net.answers = s.net.answers ++ [.ack d.src d.ctx d.pdc y.next b] ∧
            (pk.psn ≠ d.next → psnTaken d d.next = false → pk.psn ∈ y.got ∧ y.next = d.next) ∧
            (pk.psn = d.next → psnTaken d (d.next + 1) = false → y.next = d.next + 1))))) ∧
  (∀ s pk s' p d, (tget s.ctxs pk.ctx).isSome = true → rpdcOf s pk.ctx pk.src pk.pdc pk.rod pk.start = (s', p) → tget s'.net.rpdcs p = some d →
    d.rod = false → d.got = [] → d.skipped = [] → (pk.last - pk.first).toNat < 2 ^ 20 → ∃ t y b, exec (.skipNotice pk) s = .next t ∧ t.mem = s.mem ∧
      tget t.net.rpdcs p = some y ∧ (∀ i, i ≤ (pk.last - pk.first).toNat → pk.first + BitVec.ofNat 32 i ∈ y.skipped) ∧
      t.net.answers = s.net.answers ++ [.ack d.src d.ctx d.pdc y.next b]) ∧
  (∀ s e qtag p d, tget s.net.rpdcs p = some d → d.src = e → ∃ t, exec (.purgeMarker (4096 + e) qtag) s = .next t ∧ t.mem = s.mem ∧
    rpAt t p (fun y => qtag ∈ y.purged ∧ ∀ h ∈ y.held, h.qtag ≠ qtag) ∧ UeAns.purged e d.ctx d.pdc qtag ∈ t.net.answers)

/-! ### Queues (04) -/

/-- Packets (04 R61-R70): a head packet that its BARRIER, a hazard or a full interval table holds stays, as does one whose queue waits; one that may go is dispatched, and READ advances. A
LAUNCH becomes a grid with its record, or is done with TOOBIG; an APPLY a nest that makes its claim, or ends at once; a COPY an engine
command; SIGNAL stores or adds its value and is done; a WAITSIG is done once its condition holds, and until then the word is read
again; tokens are added once every earlier packet has completed, and taken when there are enough; HOSTFLUSH completes after every
earlier packet; MARKER is done.
When a packet's interval entries join the table is read by inference (notes/assumptions/28.md). -/
def Obligations.QueuePackets : Prop :=
  (∀ s q i ty x bs, (i = .launchPacket q ∧ ty = 1 ∨ i = .applyPacket q ∧ ty = 2 ∨ i = .copy q ∧ ty = 3 ∨ i = .signal q ∧ ty = 4 ∨
      i = .waitsig q ∧ ty = 5 ∨ i = .waitsigReread q ∧ ty = 5 ∨ i = .linkRelease q ∧ ty = 6 ∨ i = .linkWait q ∧ ty = 7 ∨
      i = .hostflush q ∧ ty = 8 ∨ i = .marker q ∧ ty = 9 ∨ i = .resetq q ∧ ty = 10) →
    tget s.queues q = some x → x.head = some bs → fld bs 0 1 = ty →
    ((fld bs 1 1).testBit 0 = true ∧ (x.done < x.read ∨ jobsHeld s q x = true) ∨ hazard s q x.read = true ∨ tableRoom s q x.read = false ∨ running s q x = false) →
    exec i s = .next s) ∧
  (∀ s q x bs, AtHead s q 1 x bs →
    (fitsEmpty s x.part x.ctx (parseRec bs) = true → ∀ cx slot, tget s.ctxs x.ctx = some cx → freeSlot cx 3 = some slot →
      ∃ t, exec (.launchPacket q) s = .next t ∧ quAt t q (·.read = x.read + 1) ∧ grAt t s.nextId fun g =>
        g.lrec = parseRec bs ∧ g.ctx = x.ctx ∧ g.queue = q ∧ g.pkt = some x.read ∧ g.prio = min (parseRec bs).prio x.prio ∧ g.part = x.part ∧
        g.slot = slot ∧ g.next = 0 ∧ g.entered = true) ∧
    (fitsEmpty s x.part x.ctx (parseRec bs) = false → ∃ t, exec (.launchPacket q) s = .next t ∧
      t = completePkt (dispatch s q x (pktOf x bs (parseRec bs).cctr)) q x.read 2 ∧
      quAt t q fun y => y.read = x.read + 1 ∧ (x.pkts = [] → y.done = x.read + 1))) ∧
  (∀ s q x bs cx, AtHead s q 2 x bs → tget s.ctxs x.ctx = some cx →
    (cx.tbase = none → ∃ t d, exec (.applyPacket q) s = .next t ∧ quAt t q (·.read = x.read + 1) ∧
      (d, Turn.event (.packetComplete q x.read (statDword (badNest (fld bs 16 2))).toNat)) ∈ t.timers) ∧
    (∀ tb s1 ns, cx.tbase = some tb →
      snapWalk (queueRead q x.ctx x.tag) { tbase := tb, argp := fld bs 24 8, slots := List.replicate 8 0 } 16 none s (fld bs 16 2) [] = .ok (s1, ns) →
      tget s1.queues q = some x → ∃ t d, exec (.applyPacket q) s = .next t ∧ quAt t q (·.read = x.read + 1) ∧
        ((∃ n y, (d, Turn.event (.applyClaim n)) ∈ t.timers ∧ tget t.nests n = some y ∧ y.pkt = some (q, x.read) ∧ y.nodes = ns ∧
            y.argp = fld bs 24 8 ∧ y.prio = min (fld bs 18 1) x.prio ∧ y.status = none) ∨
          (d, Turn.event (.packetComplete q x.read (statDword { code := 2 }).toNat)) ∈ t.timers))) ∧
  (∀ s q x bs, AtHead s q 3 x bs → ∃ t, exec (.copy q) s = .next t ∧ quAt t q (·.read = x.read + 1) ∧ cmAt t s.nextId fun c =>
    c.kind = 0 ∧ c.ctx = x.ctx ∧ c.pkt = some (q, x.read) ∧ ∃ sl, c.slices = [sl] ∧ sl.src.at' = fld bs 16 8 ∧ sl.dst.at' = fld bs 24 8 ∧
      sl.len = fld bs 32 8) ∧
  (∀ s q x bs s1 a pcie, AtHead s q 4 x bs → translate s x.ctx (fld bs 16 8) .write = (s1, .ok (.key a pcie)) → spanStalls s1 a 8 = false →
    let v := if fld bs 32 1 = 0 then fld bs 24 8 else (rdNat s1 a 8 + fld bs 24 8) % 2 ^ 64
    ∃ t s2, s2.mem = s1.mem.writeN a (leBytes v 8) ∧ exec (.signal q) s = .next t ∧
      t = completePkt (dispatch s2 q x (pktOf x bs 0)) q x.read 0 ∧
      (tget s1.queues q = some x → quAt t q fun y => y.read = x.read + 1 ∧ (x.pkts = [] → y.done = x.read + 1))) ∧
  (∀ s q x bs s1 ws i, (i = .waitsig q ∨ i = .waitsigReread q) → AtHead s q 5 x bs → readLong s x.ctx (fld bs 16 8) 8 x.tag = (s1, .ok ws) →
    tget s1.queues q = some x →
    (sigMeets (fld bs 32 1) (leNat ws) (fld bs 24 8) = true → ∃ t, exec i s = .next t ∧
      quAt t q fun y => y.read = x.read + 1 ∧ (x.pkts = [] → y.done = x.read + 1)) ∧
    (sigMeets (fld bs 32 1) (leNat ws) (fld bs 24 8) = false → ∃ t d, exec i s = .next t ∧ t.mem = s1.mem ∧ quAt t q (·.read = x.read) ∧
      (d, Turn.event (.waitsigReread q)) ∈ t.timers ∧ d ≤ s1.time + 4096)) ∧
  (∀ s q x bs k, AtHead s q 6 x bs → tget s.qlinks (fld bs 16 2) = some k → k.producer = q → x.pkts = [] → jobsHeld s q x = false → k.count + fld bs 20 4 < 2 ^ 32 →
    ∃ t, exec (.linkRelease q) s = .next t ∧ quAt t q (·.read = x.read + 1) ∧
      tget t.qlinks (fld bs 16 2) = some { k with count := k.count + fld bs 20 4 }) ∧
  (∀ s q x bs k, AtHead s q 7 x bs → tget s.qlinks (fld bs 16 2) = some k → k.consumer = q →
    (k.count < fld bs 20 4 → exec (.linkWait q) s = .next s) ∧
    (fld bs 20 4 ≤ k.count → x.pkts = [] → ∃ t, exec (.linkWait q) s = .next t ∧
      (quAt t q fun y => y.read = x.read + 1 ∧ y.done = x.read + 1) ∧ tget t.qlinks (fld bs 16 2) = some { k with count := k.count - fld bs 20 4 })) ∧
  (∀ s q x bs, AtHead s q 8 x bs → x.pkts = [] → jobsHeld s q x = false → ∃ t d, exec (.hostflush q) s = .next t ∧ quAt t q (·.read = x.read + 1) ∧
    (d, Turn.event (.packetComplete q x.read 0)) ∈ t.timers) ∧
  (∀ s q x bs, AtHead s q 9 x bs → fld bs 16 8 = 0 → s.lace = [] → ∃ t, exec (.marker q) s = .next t ∧
    t = completePkt (dispatch s q x (pktOf x bs 0)) q x.read 0 ∧ quAt t q fun y => y.read = x.read + 1 ∧ (x.pkts = [] → y.done = x.read + 1)) ∧
  (∀ s q x bs s1 a pcie s2 a2 pcie2, AtHead s q 9 x bs → fld bs 16 8 ≠ 0 → s.lace = [] → s1.lace = [] → s2.lace = [] →
    translate s x.ctx (fld bs 16 8) .write = (s1, .ok (.key a pcie)) →
    translate (storeKey s1 a (leBytes (fld bs 4 4) 4)) x.ctx (fld bs 16 8 + 8) .write = (s2, .ok (.key a2 pcie2)) →
    spanStalls s1 a 4 = false → spanStalls s2 a2 8 = false → tget s2.queues q = some x →
    ∃ t, exec (.marker q) s = .next t ∧ t = completePkt (dispatch (storeKey s2 a2 (leBytes s2.time 8)) q x (pktOf x bs 0)) q x.read 0 ∧
      s2.time = s.time ∧ quAt t q fun y => y.read = x.read + 1)

/-- Completion, resets, wakes and slots (04 R62, R71-R74): DONE advances as far as the completed prefix reaches; a reset stops dispatch
and joins one that runs; once the queue's work is gone purge markers go out for its tags, and once they are answered the queue is empty with READ = DONE = WRITE and RDONE set; a wake with a token is served, or goes
to Shawm if its queue has no slot, and one without a token sets WAKE_AGAIN; Shawm maps a queue to a free slot, or to one of a queue
that it displaces.
That a queue is mapped by its first wake, and which queue is displaced, is the model's reading (notes/assumptions/29.md, 30.md). -/
def Obligations.QueueResetsAndWakes : Prop :=
  (∀ s q idx st x, tget s.queues q = some x →
    (x.resetting = true → exec (.packetComplete q idx st) s = .next s) ∧
    (x.resetting = false → exec (.packetComplete q (2 ^ 64) st) s = .next (progress s q)) ∧
    (∀ p, x.resetting = false → idx < 2 ^ 64 → (x.pkts.find? fun p => p.idx == idx && !p.done) = some p →
      ∃ t, exec (.packetComplete q idx st) s = .next t ∧
        (quAt t q fun y => y.read = x.read ∧ y.done = ((x.pkts.dropWhile fun p => p.done || p.idx == idx).head?.map (·.idx)).getD x.read) ∧
        (p.irq = true → p.cctr = 0 → jobsHeld s q x = false → tagOut s x.ctx x.tags = [] →
          let rest := (x.pkts.map fun y => if y.idx = idx then { y with done := true } else y).dropWhile (·.done)
          let d := (rest.head?.map (·.idx)).getD x.read
          let u := modQueue s q fun y => { y with pkts := rest, done := d }
          (d = x.done ∨ ∃ v a pcie, translate u x.ctx (x.desc + 32) .write = (v, .ok (.key a pcie)) ∧ spanStalls v a 8 = false) →
          (x.fn, x.vec) ∈ t.msix))) ∧
  (∀ s q x bs y, AtHead s q 10 x bs →
    let z := q / 1024 * 1024 + fld bs 16 2
    z ≠ q → tget s.queues z = some y → QueueIdle s z → ∃ t, exec (.resetq q) s = .next t ∧ quAt t q (·.read = x.read + 1) ∧
      (quAt t z fun w => w.resetting = true ∧ w.resetters = y.resetters ++ [(q, x.read)]) ∧
      (y.resetting = false → ∃ d, (d, Turn.event (.queueResetDone z)) ∈ t.timers)) ∧
  (∀ s fn qid x, tget s.queues (queueNo fn qid) = some x →
    (x.resetting = true → exec (.qctlReset fn qid) s = .next s) ∧
    (x.resetting = false → QueueIdle s (queueNo fn qid) → ∃ t d, exec (.qctlReset fn qid) s = .next t ∧
      (quAt t (queueNo fn qid) fun y => y.resetting = true ∧ y.head = none ∧ y.read = x.read ∧ y.pkts = x.pkts) ∧
      (d, Turn.event (.queueResetDone (queueNo fn qid))) ∈ t.timers)) ∧
  (∀ s q x, tget s.queues q = some x → x.resetting = true →
    (workLeft s q = true ∨ x.purged = true ∧ (purgeLeft s x = true ∨ opsStall s x.ctx x.tag (resetOps s q x) = true) →
      ∃ t d, exec (.queueResetDone q) s = .next t ∧ t.mem = s.mem ∧ t.queues = s.queues ∧ (d, Turn.event (.queueResetDone q)) ∈ t.timers) ∧
    (workLeft s q = false → x.purged = false → ∃ t d, exec (.queueResetDone q) s = .next t ∧ t.mem = s.mem ∧
      (quAt t q fun y => y.purged = true ∧ y.resetting = true ∧ y.drains = tagOut s x.ctx (x.tags.filter (tagLent s q x))) ∧
      (d, Turn.event (.queueResetDone q)) ∈ t.timers ∧
      ∀ f y tag, tag ∈ x.tags → tagLent s q x tag = false → tget s.lnk.src f = some y → y.ctx = x.ctx → tag ∈ y.tags → y.failed = false →
        (f, tag) ∈ t.lnk.purgeOut ∧ ∃ z, tget t.lnk.src f = some z ∧ tag ∈ z.purging) ∧
    (workLeft s q = false → x.purged = true → purgeLeft s x = false → opsStall s x.ctx x.tag (resetOps s q x) = false → x.wakeAgain = false → (∀ r ∈ x.resetters, r.1 ≠ q) → ∃ t, exec (.queueResetDone q) s = .next t ∧
      (∀ y ∈ t.intervals, y.queue ≠ q) ∧ (x.gone = true → tget t.queues q = none) ∧
      (x.gone = false → quAt t q fun y => y.read = y.write ∧ y.done = y.write ∧ y.pkts = [] ∧ y.error = false ∧ y.errinfo = 0 ∧
        y.resetting = false ∧ y.rdone = true ∧ y.resetters = []))) ∧
  (∀ s fn qid val x, qid < 1024 → tget s.queues (queueNo fn qid) = some x →
    let q := queueNo fn qid
    ((x.resetting = true ∨ (fnOf s fn).tokens = 0) → ∃ t, exec (.wake fn qid val) s = .next t ∧ tget (fnOf t fn).wakes qid = some val ∧
      (quAt t q (·.wakeAgain = true)) ∧ (fnOf t fn).tokens = (fnOf s fn).tokens) ∧
    (x.resetting = false → (fnOf s fn).tokens ≠ 0 →
      (x.slot = none → ∃ t d, exec (.wake fn qid val) s = .next t ∧ t.mem = s.mem ∧ tget (fnOf t fn).wakes qid = some val ∧
        (fnOf t fn).tokens = (fnOf s fn).tokens - 1 ∧ (d, Turn.event (.queueMap q)) ∈ t.timers) ∧
      (∀ s2 bs, running s q x = true → x.wakeAgain = false →
        let s1 := refillSoon (modFn (modFn s fn fun f => { f with wakes := tset f.wakes qid val }) fn fun f => { f with tokens := f.tokens - 1 }) fn
        readVa (modQueue s1 q fun y => { y with idle := false }) x.ctx (x.desc + 16) 8 x.tag = (s2, .ok bs) → tget s2.queues q = some { x with idle := false } → x.write ≤ leNat bs → leNat bs - x.done ≤ 2 ^ x.size →
        x.read < leNat bs → ∃ t, exec (.wake fn qid val) s = .next t ∧ quAt t q (·.write = leNat bs)))) ∧
  (∀ s fn,
    (nextAgain s fn = none → ∃ t, exec (.wakeTokenRefill fn) s = .next t ∧ t.mem = s.mem ∧ (fnOf t fn).tokens = min 64 ((fnOf s fn).tokens + 1)) ∧
    (∀ q x, nextAgain s fn = some q → tget s.queues q = some x → x.slot = none → ∃ t d, exec (.wakeTokenRefill fn) s = .next t ∧
      (fnOf t fn).tokens = min 64 ((fnOf s fn).tokens + 1) - 1 ∧ (fnOf t fn).lastServed = q ∧ quAt t q (·.wakeAgain = false) ∧
      (d, Turn.event (.queueMap q)) ∈ t.timers)) ∧
  (∀ s q x, tget s.queues q = some x → x.slot = none →
    (s.pkg.shawm = false → ∃ t, exec (.queueMap q) s = .next t ∧ quAt t q fun y => y.slot = none ∧ y.wakeAgain = true) ∧
    (∀ i, s.pkg.shawm = true → tfree s.slots 0 128 (fun _ => true) = some i → ∃ t, exec (.queueMap q) s = .next t ∧ tget t.slots i = some q ∧
      quAt t q fun y => y.slot = some i ∧ y.tag = i) ∧
    (s.pkg.shawm = true → tfree s.slots 0 128 (fun _ => true) = none →
      let vs := s.slots.filter fun e => ((tget s.queues e.2).map fun y => !y.nopre && !y.resetting).getD true
      (vs = [] → ∃ t, exec (.queueMap q) s = .next t ∧ quAt t q fun y => y.slot = none ∧ y.wakeAgain = true) ∧
      (∀ i v y, vs[Config.victimSlot s.freeCtr % vs.length]? = some (i, v) → v ≠ q → tget s.queues v = some y →
        ∃ t, exec (.queueMap q) s = .next t ∧ tget t.slots i = some q ∧ (quAt t q fun z => z.slot = some i ∧ z.tag = i) ∧
          quAt t v fun z => z.slot = none ∧ z.wakeAgain = true)))

/-! ### Registers of the functions, fault service, Cicada (03 R50, R51, R55, 05 R83, R85, 10 R174, R175, 08 R143) -/

/-- What the host writes (03 R51, R55, 04 R71, 05 R83, 10 R175): FSCTX holds the value; MBOX_ST clears OVR; MBOX_DB submits a request at an
aligned address, or sets OVR while one is outstanding; FSERV answers a record; WAKE wakes the queue; QCTL clears RDONE and starts a
reset; BCTL enables a bank that no VF holds; an access that is of no register's width and alignment is ignored. The host frees a place of the
completion ring, and what waits for one goes on. In BAR4, a vector whose mask bit is cleared no longer pends; that table's layout is
PRESUMED (notes/assumptions/52.md). -/
def Sys2Proof.Part.RegisterWrites : Prop :=
  (∀ s fn off width val, regAt fn off width = none → exec (.registerWrite fn off width val) s = .next s) ∧
  (∀ s fn val, ∃ t, exec (.registerWrite fn 0x2000 32 val) s = .next t ∧ t.mem = s.mem ∧ (fnOf t fn).fsctx = val.setWidth 32) ∧
  (∀ s fn val, ∃ t, exec (.registerWrite fn 0x1008 32 val) s = .next t ∧ t.mem = s.mem ∧ (fnOf t fn).busy = (fnOf s fn).busy ∧
    (fnOf t fn).ovr = ((fnOf s fn).ovr && !val.getLsbD 1)) ∧
  (∀ s fn (val : Dword),
    ((fnOf s fn).busy = true → ∃ t, exec (.registerWrite fn 0x1000 64 val) s = .next t ∧ t.mem = s.mem ∧ (fnOf t fn).ovr = true ∧
      (fnOf t fn).mboxAddr = (fnOf s fn).mboxAddr) ∧
    ((fnOf s fn).busy = false → val.toNat % 64 = 0 → ∃ t d, exec (.registerWrite fn 0x1000 64 val) s = .next t ∧ t.mem = s.mem ∧
      (fnOf t fn).busy = true ∧ (fnOf t fn).mboxAddr = val.toNat ∧ (d, Turn.mbox fn) ∈ t.timers)) ∧
  (∀ s fn (val : Dword),
    (val.toNat % 4 = 0 → exec (.registerWrite fn 0x2008 64 val) s = exec (.fservRetry fn (val.toNat / 2 ^ 32)) s) ∧
    (val.toNat % 4 = 1 → exec (.registerWrite fn 0x2008 64 val) s = exec (.fservKill fn (val.toNat / 2 ^ 32)) s)) ∧
  (∀ s fn q (val : Dword), q < 1024 →
    let base := if fn = 0 then 0x100000 else 0x10000
    exec (.registerWrite fn (base + 16 * q) 64 val) s = exec (.wake fn q val) s ∧
    ∀ x, tget s.queues (queueNo fn q) = some x → val.getLsbD 0 = false →
      ∃ t, exec (.registerWrite fn (base + 16 * q + 8) 32 val) s = .next t ∧ t.mem = s.mem ∧
        tget t.queues (queueNo fn q) = some { x with rdone := x.rdone && !val.getLsbD 1 }) ∧
  (∀ s cl b (val : Dword), cl < 192 → tget s.banks cl = some b → b.leased = false →
    ∃ t, exec (.registerWrite 0 (0x1000000 + 4096 * cl) 32 val) s = .next t ∧ t.mem = s.mem ∧
      tget t.banks cl = some { b with en := val.getLsbD 18 }) ∧
  (∀ s fn v (val : Dword), v < vecCount fn → ∃ t, exec (.registerWrite fn (2 ^ 32 + 16 * v + 12) 32 val) s = .next t ∧ t.mem = s.mem ∧
    regRead t fn (2 ^ 32 + 16 * v + 12) 32 = (if val.getLsbD 0 then 1 else 0) ∧
    (val.getLsbD 0 = false → v ∉ ((tget t.vecs fn).getD {}).pending)) ∧
  (∀ s fn v (val : Dword) j, v < vecCount fn → j < 3 → ∃ t, exec (.registerWrite fn (2 ^ 32 + 16 * v + 4 * j) 32 val) s = .next t ∧ t.mem = s.mem ∧
    regRead t fn (2 ^ 32 + 16 * v + 4 * j) 32 = (if j = 0 then val.setWidth 32 &&& 0xFFFFFFFC else val.setWidth 32 : Word).setWidth 64) ∧
  (∀ s c, ∃ t, exec (.hostCompletionRingSpace c) s = .next t ∧ t.mem = s.mem ∧ ∀ tid fi th f, tget s.threads tid = some th →
    tget th.frags fi = some f → ctxOf s th = c → f.park = .retry .ring → frAt t tid fi fun y => y.park = .run ∧ y.pc = f.pc)

/-- Fault service and Cicada (10 R174, R175, 05 R85). Retry: what waits on the record runs again at the same PC. Kill: the block of a
waiting strand is killed, with the record's code. A record that waits is posted when there is room, and is tried again later if there is
none. A tick writes one record of an enabled bank into its owner's ring and then advances WR, or counts it as lost.
That a waiting instruction issues again from its beginning is read by inference (notes/assumptions/45.md). -/
def Obligations.FaultServiceAndCicada : Prop :=
  (∀ s fn seq c id r, servedRec (setFserv s fn seq 0) fn seq = some (c, id, r) → (∀ e ∈ s.cmds, id ∉ e.2.recs) →
    (∀ e ∈ s.queues, e.2.rcd ≠ some id) → (∀ e ∈ s.ctxs, ∀ j ∈ e.2.jobs, j.rcd ≠ some id) → (∀ e ∈ s.lnk.dst, e.2.faults = []) →
    ∃ t, exec (.fservRetry fn seq) s = .next t ∧ t.mem = s.mem ∧ cxAt t c (fun x => tget x.recs id = none) ∧ (∀ j, Regs s t j noV noK noP) ∧
      ∀ tid fi th f, tget s.threads tid = some th → tget th.frags fi = some f → f.park = .fault [id] →
        frAt t tid fi fun y => y.park = .run ∧ y.pc = f.pc ∧ y.em = f.em) ∧
  (∀ s fn seq c id r tid th b g, servedRec (setFserv s fn seq 1) fn seq = some (c, id, r) → s.cmds = [] → s.nests = [] → s.lace = [] →
    (∀ q ∈ s.mxq, ∀ k ∈ q.2, id ∉ k.recs) → (∀ e ∈ s.blocks, ∀ k ∈ e.2.mxSaved, id ∉ k.recs) →
    (∀ e ∈ s.queues, e.2.rcd ≠ some id) → (∀ e ∈ s.ctxs, ∀ j ∈ e.2.jobs, j.rcd ≠ some id) → (∀ e ∈ s.lnk.dst, e.2.faults = []) → id < s.nextId →
    tget s.threads tid = some th → waitsOn id th = true → (∀ e ∈ s.threads, waitsOn id e.2 = true → e.2.bid = th.bid) →
    tget s.blocks th.bid = some b → tget s.grids b.gid = some g →
    ∃ t, exec (.fservKill fn seq) s = .next t ∧ thAt t tid (fun x => x.killed = true ∧ x.frags = []) ∧
      grAt t b.gid (·.fault = if g.fault = none then some (killCode r, b.lin) else g.fault)) ∧
  (∀ s fn seq ans, ans = 0 ∨ ans = 1 → servedRec (setFserv s fn seq ans) fn seq = none →
    ∃ t, exec (if ans = 0 then .fservRetry fn seq else .fservKill fn seq) s = .next t ∧ t.mem = s.mem ∧ t.threads = s.threads ∧
      (fnOf t fn).fserv = BitVec.ofNat 64 (seq % 2 ^ 32 * 2 ^ 32 + ans)) ∧
  (∀ s c cx, tget s.ctxs c = some cx →
    (cx.waiting = [] → exec (.faultRecordRetry c) s = .next s) ∧
    (∀ id r s1, cx.waiting = [id] → tget cx.recs id = some r →
      (tryPost s c cx id r = (s1, .yes) → ∃ t, exec (.faultRecordRetry c) s = .next t ∧ t.mem = s1.mem ∧ t.msix = s1.msix ∧ cxAt t c (·.waiting = [])) ∧
      (tryPost s c cx id r = (s1, .later) ∨ tryPost s c cx id r = (s1, .no) ∧ r.kind ≤ 3 → ∃ t d, exec (.faultRecordRetry c) s = .next t ∧ t.mem = s1.mem ∧
        (d, Turn.event (.faultRecordRetry c)) ∈ t.timers))) ∧
  (∀ s cl b base lg, s.banks = [(cl, b)] → b.en = true → (fnOf s (bankOwner b)).ring = some (base, lg) →
    let f := fnOf s (bankOwner b)
    ∃ t d, exec .cicadaTick s = .next t ∧ (d, Turn.event .cicadaTick) ∈ t.timers ∧
      (f.ringWr - rdNat s (hostKey (base + 8)) 8 < 2 ^ lg → (fnOf t (bankOwner b)).ringWr = f.ringWr + 1 ∧
        ∃ bs, bs.length = 160 ∧ bs.take 8 = leBytes s.time 8 ∧ (bs.drop 8).take 8 = leBytes (s.time / 2 ^ s.cicadaK) 8 ∧
          (bs.drop 18).take 2 = leBytes cl 2 ∧ (∀ n, n < 16 → (bs.drop (32 + 8 * n)).take 8 = leBytes (sget b.ctr n).toNat 8) ∧
          t.mem = (s.mem.writeN (hostKey (base + 64 + 160 * (f.ringWr % 2 ^ lg))) bs).writeN (hostKey base) (leBytes (f.ringWr + 1) 8)) ∧
      (2 ^ lg ≤ f.ringWr - rdNat s (hostKey (base + 8)) 8 → (fnOf t (bankOwner b)).ringLost = f.ringLost + 1 ∧
        t.mem = s.mem.writeN (hostKey (base + 16)) (leBytes (f.ringLost + 1) 8)))

/-- Function-level resets (03 R50): a queue of the function that still has work is reset, and the reset goes on until it is gone; then the
function's contexts are gone, its leases have ended, and Scarab has every granule that its contexts held; once these are cleared its
registers start over. The physical function resets every function.
That a reset looks again until its queues are gone and its granules cleared is read by inference (notes/assumptions/42.md). -/
def Sys2Proof.Part.FunctionResets : Prop :=
  (∀ s fn, 0 < fn → fn < 64 → s.lnk.src = [] → (∀ e ∈ s.queues, e.2.fn ≠ fn) → (fnOf s fn).flr = none →
    ∃ t, exec (.flrVf fn) s = .next t ∧ (∀ e ∈ t.ctxs, e.2.fn ≠ fn) ∧ tget t.leases fn = none ∧
      (∀ c cx, tget s.ctxs c = some cx → (∀ e ∈ s.ctxs, e.1 = c → e.2.fn ≠ fn) → tget t.ctxs c = some cx) ∧
      (∀ g gr cx, tget s.granules g = some gr → tget s.ctxs gr.ctx = some cx → cx.fn = fn → g % 512 ∈ (tget t.scrubQ (g / 512)).getD []) ∧
      ((∀ e ∈ s.granules, ∀ y ∈ s.ctxs, y.1 = e.2.ctx → y.2.fn ≠ fn) → tget t.fns fn = none ∧ tget t.vecs fn = none) ∧
      ((∃ e ∈ s.granules, ∃ y ∈ s.ctxs, y.1 = e.2.ctx ∧ y.2.fn = fn) → ∃ d, (d, Turn.event (.flrVf fn)) ∈ t.timers)) ∧
  (∀ s fn cs, 0 < fn → fn < 64 → (∀ e ∈ s.queues, e.2.fn ≠ fn) → (∀ e ∈ s.ctxs, e.2.fn ≠ fn) → (fnOf s fn).flr = some cs →
    ((∀ c ∈ cs, idFree s c = true) → ∃ t, exec (.flrVf fn) s = .next t ∧ t.mem = s.mem ∧ tget t.fns fn = none ∧ tget t.vecs fn = none) ∧
    ((∃ c ∈ cs, idFree s c = false) → ∃ t d, exec (.flrVf fn) s = .next t ∧ t.mem = s.mem ∧ t.fns = s.fns ∧ (d, Turn.event (.flrVf fn)) ∈ t.timers)) ∧
  (∀ s fn q x, 0 < fn → fn < 64 → tget s.queues q = some x → (s.queues.filter fun e => e.2.fn == fn) = [(q, x)] → QueueIdle s q →
    ∃ t d, exec (.flrVf fn) s = .next t ∧ (quAt t q fun y => y.resetting = true ∧ y.gone = true) ∧ (d, Turn.event (.flrVf fn)) ∈ t.timers) ∧
  (∀ s, s.queues = [] → s.lnk.src = [] → s.granules = [] → (∀ f ∈ s.fns, f.2.flr = none) → ∃ t, exec .flrPf s = .next t ∧ t.ctxs = [] ∧
    tget t.fns 0 = none ∧ tget t.leases 0 = none ∧ t.banks = [])

/-- Register writes of the host and function-level resets (03 R50, R51, R55). -/
def Obligations.RegistersAndResets : Prop :=
  Part.RegisterWrites ∧ Part.FunctionResets

/-! ### The mailbox (03 R55 and the requests of 01, 02, 03, 04, 05, 07, 08, 10, 11) -/

/-- Every request (03 R55): with none outstanding, another CODE, or another function's turn, nothing happens; functions are served in rotation;
a nonzero reserved field, or argument byte past the last
argument, is BADREQ, and a code of the PF's from a VF is DENIED. A request that finishes has its STATUS written, BUSY is clear and
vector 0 is raised.
The order of these checks is read by inference (notes/assumptions/41.md). -/
def Obligations.MailboxAnswers : Prop :=
  (∀ go code n pf s fn, (go, code, n, pf) ∈ ([(.readCtrs, 1, 0, true), (.setThresh, 2, 9, true), (.attest, 3, 32, false), (.getCert, 4, 0, false),
      (.keyInstall, 5, 16, false), (.fwStage, 6, 8, true), (.restart, 7, 0, true), (.ctxCreate, 8, 12, false), (.ctxRoot, 9, 12, false),
      (.ctxDestroy, 10, 4, false), (.queueCreate, 0x10, 14, false), (.queueDestroy, 0x11, 2, false), (.linkCreate, 0x12, 4, false),
      (.linkDestroy, 0x13, 2, false), (.partSet, 0x20, 8, true), (.partQuery, 0x21, 0, true), (.sliceSet, 0x22, 10, true), (.lease, 0x23, 25, false),
      (.leaseEnd, 0x24, 25, false), (.cicadaSet, 0x25, 10, false), (.migrateKey, 0x26, 0, true), (.migrateOut, 0x27, 20, true),
      (.migrateIn, 0x28, 9, true), (.laceSet, 0x29, 20, false), (.tlbInv, 0x30, 20, false), (.arenaConfig, 0x40, 32, false),
      (.arenaRelease, 0x41, 20, false), (.ctxEvents, 0x50, 32, false), (.dbgStop, 0x60, 8, false), (.dbgResume, 0x61, 8, false),
      (.calltabSet, 0x70, 12, false), (.pkgSet, 0x80, 3, true), (.routeSet, 0x81, 4, true), (.flowCreate, 0x82, 7, false),
      (.flowAccept, 0x83, 8, false), (.flowDestroy, 0x84, 7, false), (.netConfig, 0x88, 20, false), (.addrSet, 0x89, 16, false),
      (.saSet, 0x8A, 16, false)] : List ((Nat → Instr) × Nat × Nat × Bool)) →
    let bs := reqBytes s fn
    ((fnOf s fn).busy = false ∨ fld bs 0 2 ≠ code → exec (go fn) s = .next s) ∧
    (s.pkg.shawm = false → code ≠ 7 → exec (go fn) s = .next s) ∧
    (s.pkg.shawm = true → nextFn s ≠ some fn → exec (go fn) s = .next s) ∧
    ((fnOf s fn).busy = true → fld bs 0 2 = code → fnTurn s fn code = true →
      (zeros bs 2 4 = false ∨ zeros bs 8 16 = false → exec (go fn) s = .next (finishReq (served s fn) fn 1)) ∧
      (zeros bs 2 4 = true → zeros bs 8 16 = true → pf = true → fn ≠ 0 → exec (go fn) s = .next (finishReq (served s fn) fn 2)) ∧
      (zeros bs 2 4 = true → zeros bs 8 16 = true → (pf = true → fn = 0) → zeros bs (32 + n) 64 = false →
        exec (go fn) s = .next (finishReq (served s fn) fn 1)))) ∧
  (∀ s g, nextFn s = some g → (∃ x, (g, x) ∈ s.fns ∧ x.busy = true) ∧
    (g ≤ s.pkg.lastFn → ∀ f ∈ s.fns, f.2.busy = true → f.1 ≤ s.pkg.lastFn) ∧
    ∀ fn, s.pkg.shawm = true → serveMailbox fn s = serveFn g s) ∧
  (∀ s fn st, let t := finishReq s fn st
    t.mem = s.mem.writeN (hostKey ((fnOf s fn).mboxAddr + 4)) (leBytes st 4) ∧ (fnOf t fn).busy = false ∧ t.msix = s.msix ++ [(fn, 0)])

/-- Requests with valid arguments, and the cases of each that are written out (03 R55-R58, 01 R20, R22, 04 R59, R70, 02 R32, R37): READ_CTRS,
ATTEST and GET_CERT write their bytes at OUT, or answer SHORT (3) and write nothing; SET_THRESH, FW_STAGE and RESTART; CTX_CREATE, CTX_ROOT
and CTX_DESTROY with their BUSY cases; flows, keys, addresses, associations and the network tables; QUEUE_CREATE and QUEUE_DESTROY;
LINK_CREATE and LINK_DESTROY; PKG_SET and ROUTE_SET. The widths of the arguments of SET_THRESH and FW_STAGE, the free id that a context
takes, the answer of a context that is stopped, and that a VF may not replace the entry of another function's context are the model's choice
(notes/assumptions/26.md, 55.md, 56.md). -/
def Obligations.MailboxContextsAndQueues : Prop := ∀ s fn,
  let arg := argOf s fn
  let out := outOf s fn
  let len := outLen s fn
  let gives := fun (i : Instr) (bs : List Byte) =>
    (bs.length ≤ len → Finishes i s fn 0 fun u => u.mem = s.mem.writeN out bs) ∧ (len < bs.length → Finishes i s fn 3 fun u => u.mem = s.mem)
  (Asks s 0 1 0 → fn = 0 → gives (.readCtrs 0) (allRecords s.pkg)) ∧
  (Asks s fn 3 32 → gives (.attest fn) (attestReport s fn (((reqBytes s fn).drop 32).take 32))) ∧
  (Asks s fn 4 0 → gives (.getCert fn) Config.certificate) ∧
  (Asks s fn 2 9 → fn = 0 → arg 0 1 ≤ 5 →
    (arg 1 8 ≤ thresholdDefault (arg 0 1) → Finishes (.setThresh fn) s fn 0 fun u => tget u.pkg.thresholds (arg 0 1) = some (arg 1 8) ∧ u.mem = s.mem) ∧
    (thresholdDefault (arg 0 1) < arg 1 8 → Finishes (.setThresh fn) s fn 2 fun u => u = served s fn)) ∧
  (Asks s fn 6 8 → fn = 0 → Finishes (.fwStage fn) s fn 0 fun u => u.pkg.fwStaged = some (hostBytes s (arg 0 8) (Config.fwLength (hostBytes s (arg 0 8) 64))) ∧ u.pkg.fwRunning = s.pkg.fwRunning) ∧
  (Asks s fn 7 0 → fn = 0 → Finishes (.restart fn) s fn 0 fun u => u.pkg.shawm = Config.fwSignatureOk (fwImage s.pkg) ∧ u.mem = s.mem ∧
    u.grids = s.grids ∧ u.blocks = s.blocks ∧ u.threads = s.threads) ∧
  -- contexts
  (Asks s fn 8 12 → rootOk (arg 0 8) = true → arg 8 4 < 2 ^ 20 → (∀ e ∈ s.ctxs, ¬(e.2.fn = fn ∧ e.2.pasid = arg 8 4)) →
    ∀ c, tfree s.ctxs 0 4096 (idFree s) = some c → 4 ≤ len → Finishes (.ctxCreate fn) s fn 0 fun u =>
      u.mem = s.mem.writeN out (leBytes c 4) ∧ cxAt u c fun x => x.fn = fn ∧ x.root = arg 0 8 ∧ x.pasid = arg 8 4 ∧ x.stopped = false ∧ x.tbase = none) ∧
  (∀ go code n, (go, code, n) ∈ ([(.ctxRoot, 9, 12), (.keyInstall, 5, 16), (.flowCreate, 0x82, 7), (.flowDestroy, 0x84, 7), (.netConfig, 0x88, 20),
      (.addrSet, 0x89, 16), (.saSet, 0x8A, 16), (.tlbInv, 0x30, 20), (.arenaConfig, 0x40, 32), (.arenaRelease, 0x41, 20), (.ctxEvents, 0x50, 32),
      (.dbgStop, 0x60, 8), (.dbgResume, 0x61, 8), (.calltabSet, 0x70, 12)] : List ((Nat → Instr) × Nat × Nat)) → Asks s fn code n →
    liveCtx s fn (arg 0 4) = none → Finishes (go fn) s fn 1 fun u => u = served s fn) ∧
  (∀ cx, heldCtx s fn (arg 0 4) = some cx → Asks s fn 10 4 →
    ((∀ e ∈ s.queues, e.2.ctx ≠ arg 0 4) → Finishes (.ctxDestroy fn) s fn 0 fun u => tget u.ctxs (arg 0 4) = none) ∧
    ((∃ e ∈ s.queues, e.2.ctx = arg 0 4) → Finishes (.ctxDestroy fn) s fn 4 fun u => u = served s fn)) ∧
  (∀ cx, liveCtx s fn (arg 0 4) = some cx →
    (Asks s fn 9 12 → rootOk (arg 4 8) = true →
      (ctxBusy s (arg 0 4) = false → rangeOut s (arg 0 4) 0 (2 ^ 64) = true → Pends (.ctxRoot fn) s fn fun u => u.ctxs = s.ctxs ∧ u.mem = s.mem) ∧
      (ctxBusy s (arg 0 4) = false → rangeOut s (arg 0 4) 0 (2 ^ 64) = false → Finishes (.ctxRoot fn) s fn 0 fun u => cxAt u (arg 0 4) (fun x => x = { cx with root := arg 4 8 }) ∧
        (∀ e ∈ u.tlb, e.ctx ≠ arg 0 4) ∧ u.mem = s.mem) ∧
      (ctxBusy s (arg 0 4) = true → Finishes (.ctxRoot fn) s fn 4 fun u => u = served s fn)) ∧
    -- flows and the network
    (Asks s fn 0x82 7 → arg 6 1 ≤ 1 → 2 ≤ len →
      (∀ f, flowOf s (arg 0 4) (arg 4 2) = none → tfree s.lnk.src 0 4096 (fun _ => true) = some f → Finishes (.flowCreate fn) s fn 0 fun u =>
        u.mem = s.mem.writeN out (leBytes f 2) ∧ ∃ x, tget u.lnk.src f = some x ∧ x.ctx = arg 0 4 ∧ x.pkg = arg 4 2 ∧ x.seq = 0 ∧
          x.unordered = (arg 6 1 == 1) ∧ x.out = [] ∧ x.failed = false) ∧
      (∀ f x, flowOf s (arg 0 4) (arg 4 2) = some (f, x) → x.failed = false → Finishes (.flowCreate fn) s fn 4 fun u => u = served s fn)) ∧
    (Asks s fn 0x84 7 → (∀ f x, arg 6 1 = 0 → flowOf s (arg 0 4) (arg 4 2) = some (f, x) → s.lnk.remotes = [] →
        Finishes (.flowDestroy fn) s fn 0 fun u => tget u.lnk.src f = none) ∧
      (arg 6 1 = 1 → (∃ e ∈ s.lnk.dst, e.2.src = arg 4 2 ∧ e.2.ctx = arg 0 4) → Finishes (.flowDestroy fn) s fn 0 fun u =>
        ∀ e ∈ u.lnk.dst, ¬(e.2.src = arg 4 2 ∧ e.2.ctx = arg 0 4))) ∧
    (let d := hostBytes s (arg 8 8) 64
     let i := arg 4 2
     zeros ((reqBytes s fn).drop 32) 6 8 = true →
     (Asks s fn 5 16 → i < 4096 → keyOk d = true → Finishes (.keyInstall fn) s fn 0 fun u => cxAt u (arg 0 4) fun x =>
       tget x.net.keys i = if (fld d 16 1).testBit 7 then some d else none) ∧
     (Asks s fn 0x89 16 → i < 16384 → addrOk cx.net i d = true → Finishes (.addrSet fn) s fn 0 fun u => cxAt u (arg 0 4) fun x =>
       tget x.net.addrs i = some d) ∧
     (Asks s fn 0x8A 16 → i < 1024 → zeros d 9 16 = true → zeros d 48 64 = true → fld d 8 1 = 1 → Finishes (.saSet fn) s fn 0 fun u =>
       cxAt u (arg 0 4) fun x => tget x.net.sas i = some d)) ∧
    (Asks s fn 0x88 20 → arg 4 8 % 8 = 0 → arg 12 8 % 64 = 0 → Finishes (.netConfig fn) s fn 0 fun u => cxAt u (arg 0 4) fun x =>
      x.net.ctrBase = arg 4 8 ∧ x.net.stats = arg 12 8)) ∧
  (Asks s fn 0x83 8 → (liveCtx s fn (arg 4 4)).isSome = true → arg 2 2 < 4096 →
    let k := arg 0 2 * 4096 + arg 2 2
    ((∀ f cx, tget s.lnk.dst k = some f → tget s.ctxs f.ctx = some cx → fn = 0 ∨ cx.fn = fn) → s.lnk.dst.length < 4096 → Finishes (.flowAccept fn) s fn 0 fun u =>
      ∃ x, tget u.lnk.dst k = some x ∧ x.ctx = arg 4 4 ∧ x.src = arg 0 2 ∧ x.next = 0 ∧ x.held = []) ∧
    (∀ f cx, fn ≠ 0 → tget s.lnk.dst k = some f → tget s.ctxs f.ctx = some cx → cx.fn ≠ fn → Finishes (.flowAccept fn) s fn 2 fun u => u = served s fn)) ∧
  -- queues and links
  (∀ cx s1 d, liveCtx s fn (arg 8 4) = some cx → Asks s fn 0x10 14 →
    let qid := arg 12 2
    qid < 1024 → tget s.queues (queueNo fn qid) = none → arg 0 8 % 64 = 0 → isArena (arg 0 8) = false →
    readVa (served s fn) (arg 8 4) (arg 0 8) 64 = (s1, .ok d) → descOk fn qid d = true → isArena (fld d 0 8) = false →
    isArena (fld d 0 8 + 2 ^ (fld d 8 1 + 8) - 1) = false → Finishes (.queueCreate fn) s fn 0 fun u =>
      (∃ d', (d', Turn.event (.queueMap (queueNo fn qid))) ∈ u.timers) ∧ quAt u (queueNo fn qid) fun x =>
      x.fn = fn ∧ x.qid = qid ∧ x.ctx = arg 8 4 ∧ x.desc = arg 0 8 ∧ x.ring = fld d 0 8 ∧ x.size = fld d 8 1 ∧ x.prio = fld d 9 1 ∧ x.part = fld d 11 1 ∧
      x.vec = fld d 48 2 ∧ x.write = fld d 16 8 ∧ x.read = 0 ∧ x.done = 0 ∧ x.slot = none) ∧
  (∀ x, Asks s fn 0x11 2 → arg 0 2 < 1024 → tget s.queues (queueNo fn (arg 0 2)) = some x →
    (x.resetting = false → jobsHeld s (queueNo fn (arg 0 2)) x = false → x.done = writeNow (served s fn) x → Finishes (.queueDestroy fn) s fn 0 fun u => tget u.queues (queueNo fn (arg 0 2)) = none ∧
      ∀ i, x.slot = some i → tget u.slots i = none) ∧
    (x.resetting = true ∨ jobsHeld s (queueNo fn (arg 0 2)) x = true ∨ x.done ≠ writeNow (served s fn) x → Finishes (.queueDestroy fn) s fn 4 fun u => u = served s fn)) ∧
  (∀ a b x y l, Asks s fn 0x12 4 → arg 0 2 = a → arg 2 2 = b → a < 1024 → b < 1024 → tget s.queues (queueNo fn a) = some x →
    tget s.queues (queueNo fn b) = some y → tfree s.qlinks 0 256 (fun _ => true) = some l → 2 ≤ len → Finishes (.linkCreate fn) s fn 0 fun u =>
      u.mem = s.mem.writeN out (leBytes l 2) ∧ tget u.qlinks l = some { producer := queueNo fn a, consumer := queueNo fn b, count := 0 }) ∧
  (∀ l, Asks s fn 0x13 2 → tget s.qlinks (arg 0 2) = some l → l.producer / 1024 = fn → Finishes (.linkDestroy fn) s fn 0 fun u =>
    tget u.qlinks (arg 0 2) = none) ∧
  (Asks s fn 0x80 3 → fn = 0 → arg 2 1 ≤ 1 →
    ((∀ n, n < 16 → linkUp s n = false) → Finishes (.pkgSet fn) s fn 0 fun u => u.lnk.pkgNum = arg 0 2 ∧ u.lnk.timeMaster = (arg 2 1 == 1)) ∧
    ((∃ n, n < 16 ∧ linkUp s n = true) → Finishes (.pkgSet fn) s fn 4 fun u => u = served s fn)) ∧
  (Asks s fn 0x81 4 → fn = 0 → arg 0 2 ≠ s.lnk.pkgNum → arg 2 1 ≤ 15 → arg 3 1 ≤ 15 ∨ arg 3 1 = 0xFF → Finishes (.routeSet fn) s fn 0 fun u =>
    tget u.lnk.routes (arg 0 2) = some { prim := [arg 2 1], sec := if arg 3 1 = 0xFF then [] else [arg 3 1] })

/-- Requests with valid arguments, and the cases of each that are written out (05 R75-R85, 10 R172, R191, R192, 07 R122, 08 R135, 11 R193):
PART_SET takes in a descriptor and answers once the partition has shrunk; PART_QUERY; SLICE_SET; LEASE and LEASE_END; CICADA_SET; MIGRATE_KEY,
MIGRATE_OUT and MIGRATE_IN; LACE_SET; TLB_INV; ARENA_CONFIG and ARENA_RELEASE; CTX_EVENTS; CALLTAB_SET; DBG_STOP and DBG_RESUME. The bodies
of images and the moment at which DBG_STOP answers are read by inference (notes/assumptions/40.md, 43.md). -/
def Obligations.MailboxTenantsAndArenas : Prop := ∀ s fn,
  let arg := argOf s fn
  let out := outOf s fn
  let len := outLen s fn
  let raw := fun lo hi => zeros ((reqBytes s fn).drop 32) lo hi = true
  (∀ p, let d := hostBytes s (arg 0 8) 64
    Asks s fn 0x20 8 → fn = 0 → tget s.parts (fld d 0 1) = some p →
    (p.pending = none → partDescOk s d = false → Finishes (.partSet fn) s fn 1 fun u => u = served s fn) ∧
    (p.pending = none → partDescOk s d = true → p.gang = none → losers s (fld d 0 1) (meetPart p (parsePart d)) = [] →
      Pends (.partSet fn) s fn fun u => u.mem = s.mem ∧ ∃ q, tget u.parts (fld d 0 1) = some q ∧ q.clusters = p.clusters.filter ((parsePart d).clusters.contains ·) ∧
        q.pending = some (d, partBytes (fld d 0 1) p)) ∧
    (∀ new old, p.pending = some (new, old) →
      (shrunk s (fld d 0 1) p = false → Pends (.partSet fn) s fn fun u => u = served s fn) ∧
      (shrunk s (fld d 0 1) p = true → Finishes (.partSet fn) s fn 0 fun u => u.mem = s.mem ∧ ∃ q, tget u.parts (fld d 0 1) = some q ∧
        q.pending = none ∧ partBytes 0 q = partBytes 0 { parsePart new with pending := none }))) ∧
  (Asks s fn 0x21 0 → fn = 0 → 576 ≤ len → (∀ e ∈ s.parts, e.2.pending = none) → Finishes (.partQuery fn) s fn 0 fun u => ∃ bs, u.mem = s.mem.writeN out bs ∧
    bs.length = 576 ∧ ∀ i, i < 8 → (bs.drop (64 * i)).take 64 = partBytes i ((tget s.parts i).getD {}) ∧
      (bs.drop (512 + 8 * i)).take 8 = leBytes ((s.grids.filter fun g => g.2.part == i && g.2.parked).length +
        2 ^ 32 * scrubWaiting s ((tget s.parts i).getD {})) 8) ∧
  (∀ p, let l := sliceList (hostBytes s (arg 2 8) (4 * arg 1 1)) (arg 1 1)
    Asks s fn 0x22 10 → fn = 0 → tget s.parts (arg 0 1) = some p → arg 1 1 ≤ 16 →
    sliceOk (hostBytes s (arg 2 8) (4 * arg 1 1)) (arg 1 1) = true →
    (tenantOf p = (l.getD 0 (0, 0)).1 → s.leases = [] → Finishes (.sliceSet fn) s fn 0 fun u => ∃ q, tget u.parts (arg 0 1) = some q ∧
      q.slices = l ∧ q.slicePos = 0 ∧ q.switching = false) ∧
    (tenantOf p ≠ (l.getD 0 (0, 0)).1 → Finishes (.sliceSet fn) s fn 0 fun u => ∃ q, tget u.parts (arg 0 1) = some q ∧ q.slices = l ∧
      q.switching = true ∧ (s.time, Turn.event (.sliceEnd (arg 0 1))) ∈ u.timers)) ∧
  (let banks := maskBits (arg 0 24) 192
   let units := maskBits (arg 24 1) 8
   (Asks s fn 0x23 25 →
    (fn ≠ 0 → heldByOther s fn banks units = true ∨ pfWants s banks units = true → Finishes (.lease fn) s fn 4 fun u => u = served s fn) ∧
    (fn ≠ 0 → heldByOther s fn banks units = false → pfWants s banks units = false → Finishes (.lease fn) s fn 0 fun u =>
      ∃ l, tget u.leases fn = some l ∧ (∀ b ∈ banks, b ∈ l.banks) ∧ ∀ x ∈ units, x ∈ l.units) ∧
    (fn = 0 → Finishes (.lease fn) s fn 0 fun u => ∃ l, tget u.leases 0 = some l ∧ (∀ b ∈ banks, b ∈ l.banks) ∧ ∀ x ∈ units, x ∈ l.units)) ∧
   (Asks s fn 0x24 25 → Finishes (.leaseEnd fn) s fn 0 fun u => ∀ l, tget u.leases fn = some l → (∀ b ∈ banks, b ∉ l.banks) ∧ ∀ x ∈ units, x ∉ l.units)) ∧
  (Asks s fn 0x25 10 → 4 ≤ arg 8 1 → arg 8 1 ≤ 20 →
    (fn ≠ 0 → arg 9 1 = 0 → Finishes (.cicadaSet fn) s fn 0 fun u => (fnOf u fn).ring = some (arg 0 8, arg 8 1) ∧ (fnOf u fn).ringWr = 0 ∧
      u.cicadaK = s.cicadaK) ∧
    (fn = 0 → 10 ≤ arg 9 1 → arg 9 1 ≤ 24 → Finishes (.cicadaSet fn) s fn 0 fun u => (fnOf u fn).ring = some (arg 0 8, arg 8 1) ∧
      u.cicadaK = arg 9 1 ∧ (nextTick s.time (arg 9 1), Turn.event .cicadaTick) ∈ u.timers)) ∧
  (Asks s fn 0x26 0 → fn = 0 → (compatKey s).length ≤ len → Finishes (.migrateKey fn) s fn 0 fun u => u.mem = s.mem.writeN out (compatKey s)) ∧
  (∀ cx, Asks s fn 0x27 20 → fn = 0 → tget s.ctxs (arg 0 4) = some cx → cx.stopped = false →
    (cx.leaving = none → ctxBlocks s (arg 0 4) = [] → (∀ e ∈ s.nests, e.2.ctx ≠ arg 0 4) → (∀ e ∈ s.parts, e.2.gang = none) →
      (64 + (Config.imageBody s.nextId).length ≤ arg 12 8 → Pends (.migrateOut fn) s fn fun u =>
        cxAt u (arg 0 4) fun x => x = { cx with leaving := some s.nextId }) ∧
      (arg 12 8 < 64 + (Config.imageBody s.nextId).length → Finishes (.migrateOut fn) s fn 3 fun u => u = served s fn)) ∧
    (∀ n, cx.leaving = some n → ctxQuiet s (arg 0 4) = true → Finishes (.migrateOut fn) s fn 0 fun u => tget u.ctxs (arg 0 4) = none ∧
      ∃ m, tget u.images n = some m ∧ m.cid = arg 0 4 ∧ m.ctx = { cx with leaving := none })) ∧
  (let h := hostBytes s (arg 0 8) 64
   Asks s fn 0x28 9 → fn = 0 → arg 8 1 ≤ 63 →
    (h.take 32 ≠ compatKey s → Finishes (.migrateIn fn) s fn 2 fun u => u = served s fn) ∧
    (∀ m, h.take 32 = compatKey s → fld h 40 4 = 1 → zeros h 32 40 = true → zeros h 56 64 = true →
      imageIn s (hostBytes s (arg 0 8 + 64) (fld h 48 8 - 64)) = some m → m.queues = [] → m.cid < 4096 → tget s.ctxs m.cid = none → idFree s m.cid = true →
      Finishes (.migrateIn fn) s fn 0 fun u => u.images = s.images ∧ cxAt u m.cid fun x => x.fn = arg 8 1 ∧ x.root = m.ctx.root ∧ x.pasid = m.ctx.pasid ∧
        x.handler = m.ctx.handler ∧ x.poolUnits = m.ctx.poolUnits ∧ x.net = m.ctx.net)) ∧
  (let u := arg 0 1
   let x := (tget s.lace u).getD {}
   Asks s fn 0x29 20 → u ≤ 7 → 4 ≤ arg 9 1 → arg 9 1 ≤ 20 → x.owner.getD 0 = fn → Finishes (.laceSet fn) s fn 0 fun t => tget t.lace u = some
    { x with ring := hostKey (arg 1 8), log := arg 9 1, kinds := arg 10 2, matchId := BitVec.ofNat 32 (arg 12 4), mask := BitVec.ofNat 32 (arg 16 4), wr := 0, lost := 0 }) ∧
  (∀ cx, liveCtx s fn (arg 0 4) = some cx →
    let c := arg 0 4
    (Asks s fn 0x30 20 → rangeOut s c (arg 4 8) (arg 12 8) = true → Pends (.tlbInv fn) s fn fun u => u.mem = s.mem ∧ u.lnk.remotes = s.lnk.remotes) ∧
    (Asks s fn 0x30 20 → rangeOut s c (arg 4 8) (arg 12 8) = false → cx.faultRing = 0 → cx.evOld = [] → Finishes (.tlbInv fn) s fn 0 fun u => u.mem = s.mem ∧ ∀ e ∈ u.tlb, e ∈ s.tlb ∧
      ¬(e.ctx = c ∧ e.page * 2 ^ e.shift < arg 4 8 + arg 12 8 ∧ arg 4 8 < (e.page + 1) * 2 ^ e.shift)) ∧
    (Asks s fn 0x40 32 → arg 8 1 ≤ 9 → 4 ≤ arg 9 1 → arg 9 1 ≤ 16 → raw 10 12 → arg 16 8 % 4096 = 0 → arg 24 8 % 64 = 0 → ctxBusy s c = false →
      cx.exportGran = [] → cx.poolUnits ≤ arg 4 4 → Finishes (.arenaConfig fn) s fn 0 fun u => cxAt u c fun x =>
        x.poolUnits = arg 4 4 ∧ x.view = arg 8 1 ∧ x.ringLog = arg 9 1 ∧ x.exportLen = arg 12 4 * 4096 ∧ x.exportBase = arg 16 8 ∧ x.ringAddr = arg 24 8) ∧
    (Asks s fn 0x41 20 → arg 4 8 % 4096 = 0 → arg 12 8 % 4096 = 0 → cx.exportBase ≤ arg 4 8 → arg 4 8 + arg 12 8 ≤ cx.exportBase + cx.exportLen →
      Finishes (.arenaRelease fn) s fn 0 fun u => cxAt u c fun x => ∀ e ∈ x.exportGran, e ∈ cx.exportGran ∧
        ¬((arg 4 8 - cx.exportBase) / 4096 ≤ e.1 ∧ e.1 < (arg 4 8 - cx.exportBase) / 4096 + arg 12 8 / 4096)) ∧
    (Asks s fn 0x50 32 → 4 ≤ arg 4 1 → arg 4 1 ≤ 16 → 3 ≤ arg 5 1 → arg 5 1 < vecCount cx.fn → arg 8 8 % 4 = 0 → arg 16 8 % 64 = 0 → arg 24 8 % 4096 = 0 →
      cx.waiting = [] → Finishes (.ctxEvents fn) s fn 0 fun u => u.mem = s.mem ∧ cxAt u c fun x => x.handler = BitVec.ofNat 64 (arg 8 8) ∧ x.faultRing = arg 16 8 ∧
        x.faultLog = arg 4 1 ∧ x.vec = arg 5 1 ∧ x.savePool = arg 24 8 ∧ x.saveSize = arg 6 2 ∧ x.evNo = cx.evNo + 1) ∧
    (Asks s fn 0x70 12 → arg 4 8 % 65536 = 0 → isArena (arg 4 8) = false →
      (ctxBusy s c = false → Finishes (.calltabSet fn) s fn 0 fun u => cxAt u c fun x => x = { cx with tbase := some (arg 4 8), cursor := 1 }) ∧
      (ctxBusy s c = true → Finishes (.calltabSet fn) s fn 4 fun u => u = served s fn)) ∧
    (Asks s fn 0x60 8 → namedStrand s c (arg 4 4) = none → Finishes (.dbgStop fn) s fn 1 fun u => u = served s fn) ∧
    (∀ bid b tid fi th, namedStrand s c (arg 4 4) = some (bid, b, tid, fi) → tget s.blocks bid = some b → tget s.threads tid = some th → th.bid = bid →
      (Asks s fn 0x60 8 → b.stage = .running → b.halt ≠ 7 → inTrap b = false → s.lace = [] → Pends (.dbgStop fn) s fn fun u =>
        u.mem = s.mem ∧ thAt u tid (·.stopped = true) ∧ blAt u bid (·.halt = 7)) ∧
      (Asks s fn 0x60 8 → b.stage = .saved → b.why = 7 → Finishes (.dbgStop fn) s fn 0 fun u => u = served s fn) ∧
      (Asks s fn 0x61 8 → b.stage = .saved → b.why = 7 → Finishes (.dbgResume fn) s fn 0 fun u => u.mem = s.mem ∧ blAt u bid (·.back = true))))
end

