-- ==== Sys2Proof/Laws/State.lean ====
section
/-! SUPPORT. What each small change of the state leaves in each field, so that no proof unfolds a record update. -/
namespace Sys2Proof.Machine

/-! ### modThread -/

@[simp] theorem modThread_agenda (s : State) (t : Nat) (f : Thread → Thread) : (modThread s t f).agenda = s.agenda := rfl
@[simp] theorem modThread_timers (s : State) (t : Nat) (f : Thread → Thread) : (modThread s t f).timers = s.timers := rfl
@[simp] theorem modThread_cur (s : State) (t : Nat) (f : Thread → Thread) : (modThread s t f).cur = s.cur := rfl
@[simp] theorem modThread_curFrag (s : State) (t : Nat) (f : Thread → Thread) : (modThread s t f).curFrag = s.curFrag := rfl
@[simp] theorem modThread_freeCtr (s : State) (t : Nat) (f : Thread → Thread) : (modThread s t f).freeCtr = s.freeCtr := rfl
@[simp] theorem modThread_nextId (s : State) (t : Nat) (f : Thread → Thread) : (modThread s t f).nextId = s.nextId := rfl
@[simp] theorem modThread_time (s : State) (t : Nat) (f : Thread → Thread) : (modThread s t f).time = s.time := rfl
@[simp] theorem modThread_mem (s : State) (t : Nat) (f : Thread → Thread) : (modThread s t f).mem = s.mem := rfl
@[simp] theorem modThread_l1 (s : State) (t : Nat) (f : Thread → Thread) : (modThread s t f).l1 = s.l1 := rfl
@[simp] theorem modThread_l0 (s : State) (t : Nat) (f : Thread → Thread) : (modThread s t f).l0 = s.l0 := rfl
@[simp] theorem modThread_tlb (s : State) (t : Nat) (f : Thread → Thread) : (modThread s t f).tlb = s.tlb := rfl
@[simp] theorem modThread_locks (s : State) (t : Nat) (f : Thread → Thread) : (modThread s t f).locks = s.locks := rfl
@[simp] theorem modThread_threads (s : State) (t : Nat) (f : Thread → Thread) : (modThread s t f).threads = tmod s.threads t f := rfl
@[simp] theorem modThread_blocks (s : State) (t : Nat) (f : Thread → Thread) : (modThread s t f).blocks = s.blocks := rfl
@[simp] theorem modThread_grids (s : State) (t : Nat) (f : Thread → Thread) : (modThread s t f).grids = s.grids := rfl
@[simp] theorem modThread_cmds (s : State) (t : Nat) (f : Thread → Thread) : (modThread s t f).cmds = s.cmds := rfl
@[simp] theorem modThread_mxq (s : State) (t : Nat) (f : Thread → Thread) : (modThread s t f).mxq = s.mxq := rfl
@[simp] theorem modThread_nests (s : State) (t : Nat) (f : Thread → Thread) : (modThread s t f).nests = s.nests := rfl
@[simp] theorem modThread_ctxs (s : State) (t : Nat) (f : Thread → Thread) : (modThread s t f).ctxs = s.ctxs := rfl
@[simp] theorem modThread_queues (s : State) (t : Nat) (f : Thread → Thread) : (modThread s t f).queues = s.queues := rfl
@[simp] theorem modThread_qlinks (s : State) (t : Nat) (f : Thread → Thread) : (modThread s t f).qlinks = s.qlinks := rfl
@[simp] theorem modThread_intervals (s : State) (t : Nat) (f : Thread → Thread) : (modThread s t f).intervals = s.intervals := rfl
@[simp] theorem modThread_slots (s : State) (t : Nat) (f : Thread → Thread) : (modThread s t f).slots = s.slots := rfl
@[simp] theorem modThread_parts (s : State) (t : Nat) (f : Thread → Thread) : (modThread s t f).parts = s.parts := rfl
@[simp] theorem modThread_leases (s : State) (t : Nat) (f : Thread → Thread) : (modThread s t f).leases = s.leases := rfl
@[simp] theorem modThread_banks (s : State) (t : Nat) (f : Thread → Thread) : (modThread s t f).banks = s.banks := rfl
@[simp] theorem modThread_lace (s : State) (t : Nat) (f : Thread → Thread) : (modThread s t f).lace = s.lace := rfl
@[simp] theorem modThread_cicadaK (s : State) (t : Nat) (f : Thread → Thread) : (modThread s t f).cicadaK = s.cicadaK := rfl
@[simp] theorem modThread_granules (s : State) (t : Nat) (f : Thread → Thread) : (modThread s t f).granules = s.granules := rfl
@[simp] theorem modThread_scrubQ (s : State) (t : Nat) (f : Thread → Thread) : (modThread s t f).scrubQ = s.scrubQ := rfl
@[simp] theorem modThread_quarters (s : State) (t : Nat) (f : Thread → Thread) : (modThread s t f).quarters = s.quarters := rfl
@[simp] theorem modThread_fns (s : State) (t : Nat) (f : Thread → Thread) : (modThread s t f).fns = s.fns := rfl
@[simp] theorem modThread_msix (s : State) (t : Nat) (f : Thread → Thread) : (modThread s t f).msix = s.msix := rfl
@[simp] theorem modThread_vecs (s : State) (t : Nat) (f : Thread → Thread) : (modThread s t f).vecs = s.vecs := rfl
@[simp] theorem modThread_pkg (s : State) (t : Nat) (f : Thread → Thread) : (modThread s t f).pkg = s.pkg := rfl
@[simp] theorem modThread_lnk (s : State) (t : Nat) (f : Thread → Thread) : (modThread s t f).lnk = s.lnk := rfl
@[simp] theorem modThread_net (s : State) (t : Nat) (f : Thread → Thread) : (modThread s t f).net = s.net := rfl
@[simp] theorem modThread_images (s : State) (t : Nat) (f : Thread → Thread) : (modThread s t f).images = s.images := rfl

/-! ### modBlock -/

@[simp] theorem modBlock_agenda (s : State) (b : Nat) (f : Block → Block) : (modBlock s b f).agenda = s.agenda := rfl
@[simp] theorem modBlock_timers (s : State) (b : Nat) (f : Block → Block) : (modBlock s b f).timers = s.timers := rfl
@[simp] theorem modBlock_cur (s : State) (b : Nat) (f : Block → Block) : (modBlock s b f).cur = s.cur := rfl
@[simp] theorem modBlock_curFrag (s : State) (b : Nat) (f : Block → Block) : (modBlock s b f).curFrag = s.curFrag := rfl
@[simp] theorem modBlock_freeCtr (s : State) (b : Nat) (f : Block → Block) : (modBlock s b f).freeCtr = s.freeCtr := rfl
@[simp] theorem modBlock_nextId (s : State) (b : Nat) (f : Block → Block) : (modBlock s b f).nextId = s.nextId := rfl
@[simp] theorem modBlock_time (s : State) (b : Nat) (f : Block → Block) : (modBlock s b f).time = s.time := rfl
@[simp] theorem modBlock_mem (s : State) (b : Nat) (f : Block → Block) : (modBlock s b f).mem = s.mem := rfl
@[simp] theorem modBlock_l1 (s : State) (b : Nat) (f : Block → Block) : (modBlock s b f).l1 = s.l1 := rfl
@[simp] theorem modBlock_l0 (s : State) (b : Nat) (f : Block → Block) : (modBlock s b f).l0 = s.l0 := rfl
@[simp] theorem modBlock_tlb (s : State) (b : Nat) (f : Block → Block) : (modBlock s b f).tlb = s.tlb := rfl
@[simp] theorem modBlock_locks (s : State) (b : Nat) (f : Block → Block) : (modBlock s b f).locks = s.locks := rfl
@[simp] theorem modBlock_threads (s : State) (b : Nat) (f : Block → Block) : (modBlock s b f).threads = s.threads := rfl
@[simp] theorem modBlock_blocks (s : State) (b : Nat) (f : Block → Block) : (modBlock s b f).blocks = tmod s.blocks b f := rfl
@[simp] theorem modBlock_grids (s : State) (b : Nat) (f : Block → Block) : (modBlock s b f).grids = s.grids := rfl
@[simp] theorem modBlock_cmds (s : State) (b : Nat) (f : Block → Block) : (modBlock s b f).cmds = s.cmds := rfl
@[simp] theorem modBlock_mxq (s : State) (b : Nat) (f : Block → Block) : (modBlock s b f).mxq = s.mxq := rfl
@[simp] theorem modBlock_nests (s : State) (b : Nat) (f : Block → Block) : (modBlock s b f).nests = s.nests := rfl
@[simp] theorem modBlock_ctxs (s : State) (b : Nat) (f : Block → Block) : (modBlock s b f).ctxs = s.ctxs := rfl
@[simp] theorem modBlock_queues (s : State) (b : Nat) (f : Block → Block) : (modBlock s b f).queues = s.queues := rfl
@[simp] theorem modBlock_qlinks (s : State) (b : Nat) (f : Block → Block) : (modBlock s b f).qlinks = s.qlinks := rfl
@[simp] theorem modBlock_intervals (s : State) (b : Nat) (f : Block → Block) : (modBlock s b f).intervals = s.intervals := rfl
@[simp] theorem modBlock_slots (s : State) (b : Nat) (f : Block → Block) : (modBlock s b f).slots = s.slots := rfl
@[simp] theorem modBlock_parts (s : State) (b : Nat) (f : Block → Block) : (modBlock s b f).parts = s.parts := rfl
@[simp] theorem modBlock_leases (s : State) (b : Nat) (f : Block → Block) : (modBlock s b f).leases = s.leases := rfl
@[simp] theorem modBlock_banks (s : State) (b : Nat) (f : Block → Block) : (modBlock s b f).banks = s.banks := rfl
@[simp] theorem modBlock_lace (s : State) (b : Nat) (f : Block → Block) : (modBlock s b f).lace = s.lace := rfl
@[simp] theorem modBlock_cicadaK (s : State) (b : Nat) (f : Block → Block) : (modBlock s b f).cicadaK = s.cicadaK := rfl
@[simp] theorem modBlock_granules (s : State) (b : Nat) (f : Block → Block) : (modBlock s b f).granules = s.granules := rfl
@[simp] theorem modBlock_scrubQ (s : State) (b : Nat) (f : Block → Block) : (modBlock s b f).scrubQ = s.scrubQ := rfl
@[simp] theorem modBlock_quarters (s : State) (b : Nat) (f : Block → Block) : (modBlock s b f).quarters = s.quarters := rfl
@[simp] theorem modBlock_fns (s : State) (b : Nat) (f : Block → Block) : (modBlock s b f).fns = s.fns := rfl
@[simp] theorem modBlock_msix (s : State) (b : Nat) (f : Block → Block) : (modBlock s b f).msix = s.msix := rfl
@[simp] theorem modBlock_vecs (s : State) (b : Nat) (f : Block → Block) : (modBlock s b f).vecs = s.vecs := rfl
@[simp] theorem modBlock_pkg (s : State) (b : Nat) (f : Block → Block) : (modBlock s b f).pkg = s.pkg := rfl
@[simp] theorem modBlock_lnk (s : State) (b : Nat) (f : Block → Block) : (modBlock s b f).lnk = s.lnk := rfl
@[simp] theorem modBlock_net (s : State) (b : Nat) (f : Block → Block) : (modBlock s b f).net = s.net := rfl
@[simp] theorem modBlock_images (s : State) (b : Nat) (f : Block → Block) : (modBlock s b f).images = s.images := rfl

/-! ### modGrid -/

@[simp] theorem modGrid_agenda (s : State) (g : Nat) (f : Grid → Grid) : (modGrid s g f).agenda = s.agenda := rfl
@[simp] theorem modGrid_timers (s : State) (g : Nat) (f : Grid → Grid) : (modGrid s g f).timers = s.timers := rfl
@[simp] theorem modGrid_cur (s : State) (g : Nat) (f : Grid → Grid) : (modGrid s g f).cur = s.cur := rfl
@[simp] theorem modGrid_curFrag (s : State) (g : Nat) (f : Grid → Grid) : (modGrid s g f).curFrag = s.curFrag := rfl
@[simp] theorem modGrid_freeCtr (s : State) (g : Nat) (f : Grid → Grid) : (modGrid s g f).freeCtr = s.freeCtr := rfl
@[simp] theorem modGrid_nextId (s : State) (g : Nat) (f : Grid → Grid) : (modGrid s g f).nextId = s.nextId := rfl
@[simp] theorem modGrid_time (s : State) (g : Nat) (f : Grid → Grid) : (modGrid s g f).time = s.time := rfl
@[simp] theorem modGrid_mem (s : State) (g : Nat) (f : Grid → Grid) : (modGrid s g f).mem = s.mem := rfl
@[simp] theorem modGrid_l1 (s : State) (g : Nat) (f : Grid → Grid) : (modGrid s g f).l1 = s.l1 := rfl
@[simp] theorem modGrid_l0 (s : State) (g : Nat) (f : Grid → Grid) : (modGrid s g f).l0 = s.l0 := rfl
@[simp] theorem modGrid_tlb (s : State) (g : Nat) (f : Grid → Grid) : (modGrid s g f).tlb = s.tlb := rfl
@[simp] theorem modGrid_locks (s : State) (g : Nat) (f : Grid → Grid) : (modGrid s g f).locks = s.locks := rfl
@[simp] theorem modGrid_threads (s : State) (g : Nat) (f : Grid → Grid) : (modGrid s g f).threads = s.threads := rfl
@[simp] theorem modGrid_blocks (s : State) (g : Nat) (f : Grid → Grid) : (modGrid s g f).blocks = s.blocks := rfl
@[simp] theorem modGrid_grids (s : State) (g : Nat) (f : Grid → Grid) : (modGrid s g f).grids = tmod s.grids g f := rfl
@[simp] theorem modGrid_cmds (s : State) (g : Nat) (f : Grid → Grid) : (modGrid s g f).cmds = s.cmds := rfl
@[simp] theorem modGrid_mxq (s : State) (g : Nat) (f : Grid → Grid) : (modGrid s g f).mxq = s.mxq := rfl
@[simp] theorem modGrid_nests (s : State) (g : Nat) (f : Grid → Grid) : (modGrid s g f).nests = s.nests := rfl
@[simp] theorem modGrid_ctxs (s : State) (g : Nat) (f : Grid → Grid) : (modGrid s g f).ctxs = s.ctxs := rfl
@[simp] theorem modGrid_queues (s : State) (g : Nat) (f : Grid → Grid) : (modGrid s g f).queues = s.queues := rfl
@[simp] theorem modGrid_qlinks (s : State) (g : Nat) (f : Grid → Grid) : (modGrid s g f).qlinks = s.qlinks := rfl
@[simp] theorem modGrid_intervals (s : State) (g : Nat) (f : Grid → Grid) : (modGrid s g f).intervals = s.intervals := rfl
@[simp] theorem modGrid_slots (s : State) (g : Nat) (f : Grid → Grid) : (modGrid s g f).slots = s.slots := rfl
@[simp] theorem modGrid_parts (s : State) (g : Nat) (f : Grid → Grid) : (modGrid s g f).parts = s.parts := rfl
@[simp] theorem modGrid_leases (s : State) (g : Nat) (f : Grid → Grid) : (modGrid s g f).leases = s.leases := rfl
@[simp] theorem modGrid_banks (s : State) (g : Nat) (f : Grid → Grid) : (modGrid s g f).banks = s.banks := rfl
@[simp] theorem modGrid_lace (s : State) (g : Nat) (f : Grid → Grid) : (modGrid s g f).lace = s.lace := rfl
@[simp] theorem modGrid_cicadaK (s : State) (g : Nat) (f : Grid → Grid) : (modGrid s g f).cicadaK = s.cicadaK := rfl
@[simp] theorem modGrid_granules (s : State) (g : Nat) (f : Grid → Grid) : (modGrid s g f).granules = s.granules := rfl
@[simp] theorem modGrid_scrubQ (s : State) (g : Nat) (f : Grid → Grid) : (modGrid s g f).scrubQ = s.scrubQ := rfl
@[simp] theorem modGrid_quarters (s : State) (g : Nat) (f : Grid → Grid) : (modGrid s g f).quarters = s.quarters := rfl
@[simp] theorem modGrid_fns (s : State) (g : Nat) (f : Grid → Grid) : (modGrid s g f).fns = s.fns := rfl
@[simp] theorem modGrid_msix (s : State) (g : Nat) (f : Grid → Grid) : (modGrid s g f).msix = s.msix := rfl
@[simp] theorem modGrid_vecs (s : State) (g : Nat) (f : Grid → Grid) : (modGrid s g f).vecs = s.vecs := rfl
@[simp] theorem modGrid_pkg (s : State) (g : Nat) (f : Grid → Grid) : (modGrid s g f).pkg = s.pkg := rfl
@[simp] theorem modGrid_lnk (s : State) (g : Nat) (f : Grid → Grid) : (modGrid s g f).lnk = s.lnk := rfl
@[simp] theorem modGrid_net (s : State) (g : Nat) (f : Grid → Grid) : (modGrid s g f).net = s.net := rfl
@[simp] theorem modGrid_images (s : State) (g : Nat) (f : Grid → Grid) : (modGrid s g f).images = s.images := rfl

/-! ### modCmd -/

@[simp] theorem modCmd_agenda (s : State) (c : Nat) (f : Cmd → Cmd) : (modCmd s c f).agenda = s.agenda := rfl
@[simp] theorem modCmd_timers (s : State) (c : Nat) (f : Cmd → Cmd) : (modCmd s c f).timers = s.timers := rfl
@[simp] theorem modCmd_cur (s : State) (c : Nat) (f : Cmd → Cmd) : (modCmd s c f).cur = s.cur := rfl
@[simp] theorem modCmd_curFrag (s : State) (c : Nat) (f : Cmd → Cmd) : (modCmd s c f).curFrag = s.curFrag := rfl
@[simp] theorem modCmd_freeCtr (s : State) (c : Nat) (f : Cmd → Cmd) : (modCmd s c f).freeCtr = s.freeCtr := rfl
@[simp] theorem modCmd_nextId (s : State) (c : Nat) (f : Cmd → Cmd) : (modCmd s c f).nextId = s.nextId := rfl
@[simp] theorem modCmd_time (s : State) (c : Nat) (f : Cmd → Cmd) : (modCmd s c f).time = s.time := rfl
@[simp] theorem modCmd_mem (s : State) (c : Nat) (f : Cmd → Cmd) : (modCmd s c f).mem = s.mem := rfl
@[simp] theorem modCmd_l1 (s : State) (c : Nat) (f : Cmd → Cmd) : (modCmd s c f).l1 = s.l1 := rfl
@[simp] theorem modCmd_l0 (s : State) (c : Nat) (f : Cmd → Cmd) : (modCmd s c f).l0 = s.l0 := rfl
@[simp] theorem modCmd_tlb (s : State) (c : Nat) (f : Cmd → Cmd) : (modCmd s c f).tlb = s.tlb := rfl
@[simp] theorem modCmd_locks (s : State) (c : Nat) (f : Cmd → Cmd) : (modCmd s c f).locks = s.locks := rfl
@[simp] theorem modCmd_threads (s : State) (c : Nat) (f : Cmd → Cmd) : (modCmd s c f).threads = s.threads := rfl
@[simp] theorem modCmd_blocks (s : State) (c : Nat) (f : Cmd → Cmd) : (modCmd s c f).blocks = s.blocks := rfl
@[simp] theorem modCmd_grids (s : State) (c : Nat) (f : Cmd → Cmd) : (modCmd s c f).grids = s.grids := rfl
@[simp] theorem modCmd_cmds (s : State) (c : Nat) (f : Cmd → Cmd) : (modCmd s c f).cmds = tmod s.cmds c f := rfl
@[simp] theorem modCmd_mxq (s : State) (c : Nat) (f : Cmd → Cmd) : (modCmd s c f).mxq = s.mxq := rfl
@[simp] theorem modCmd_nests (s : State) (c : Nat) (f : Cmd → Cmd) : (modCmd s c f).nests = s.nests := rfl
@[simp] theorem modCmd_ctxs (s : State) (c : Nat) (f : Cmd → Cmd) : (modCmd s c f).ctxs = s.ctxs := rfl
@[simp] theorem modCmd_queues (s : State) (c : Nat) (f : Cmd → Cmd) : (modCmd s c f).queues = s.queues := rfl
@[simp] theorem modCmd_qlinks (s : State) (c : Nat) (f : Cmd → Cmd) : (modCmd s c f).qlinks = s.qlinks := rfl
@[simp] theorem modCmd_intervals (s : State) (c : Nat) (f : Cmd → Cmd) : (modCmd s c f).intervals = s.intervals := rfl
@[simp] theorem modCmd_slots (s : State) (c : Nat) (f : Cmd → Cmd) : (modCmd s c f).slots = s.slots := rfl
@[simp] theorem modCmd_parts (s : State) (c : Nat) (f : Cmd → Cmd) : (modCmd s c f).parts = s.parts := rfl
@[simp] theorem modCmd_leases (s : State) (c : Nat) (f : Cmd → Cmd) : (modCmd s c f).leases = s.leases := rfl
@[simp] theorem modCmd_banks (s : State) (c : Nat) (f : Cmd → Cmd) : (modCmd s c f).banks = s.banks := rfl
@[simp] theorem modCmd_lace (s : State) (c : Nat) (f : Cmd → Cmd) : (modCmd s c f).lace = s.lace := rfl
@[simp] theorem modCmd_cicadaK (s : State) (c : Nat) (f : Cmd → Cmd) : (modCmd s c f).cicadaK = s.cicadaK := rfl
@[simp] theorem modCmd_granules (s : State) (c : Nat) (f : Cmd → Cmd) : (modCmd s c f).granules = s.granules := rfl
@[simp] theorem modCmd_scrubQ (s : State) (c : Nat) (f : Cmd → Cmd) : (modCmd s c f).scrubQ = s.scrubQ := rfl
@[simp] theorem modCmd_quarters (s : State) (c : Nat) (f : Cmd → Cmd) : (modCmd s c f).quarters = s.quarters := rfl
@[simp] theorem modCmd_fns (s : State) (c : Nat) (f : Cmd → Cmd) : (modCmd s c f).fns = s.fns := rfl
@[simp] theorem modCmd_msix (s : State) (c : Nat) (f : Cmd → Cmd) : (modCmd s c f).msix = s.msix := rfl
@[simp] theorem modCmd_vecs (s : State) (c : Nat) (f : Cmd → Cmd) : (modCmd s c f).vecs = s.vecs := rfl
@[simp] theorem modCmd_pkg (s : State) (c : Nat) (f : Cmd → Cmd) : (modCmd s c f).pkg = s.pkg := rfl
@[simp] theorem modCmd_lnk (s : State) (c : Nat) (f : Cmd → Cmd) : (modCmd s c f).lnk = s.lnk := rfl
@[simp] theorem modCmd_net (s : State) (c : Nat) (f : Cmd → Cmd) : (modCmd s c f).net = s.net := rfl
@[simp] theorem modCmd_images (s : State) (c : Nat) (f : Cmd → Cmd) : (modCmd s c f).images = s.images := rfl

/-! ### modNest -/

@[simp] theorem modNest_agenda (s : State) (n : Nat) (f : Nest → Nest) : (modNest s n f).agenda = s.agenda := rfl
@[simp] theorem modNest_timers (s : State) (n : Nat) (f : Nest → Nest) : (modNest s n f).timers = s.timers := rfl
@[simp] theorem modNest_cur (s : State) (n : Nat) (f : Nest → Nest) : (modNest s n f).cur = s.cur := rfl
@[simp] theorem modNest_curFrag (s : State) (n : Nat) (f : Nest → Nest) : (modNest s n f).curFrag = s.curFrag := rfl
@[simp] theorem modNest_freeCtr (s : State) (n : Nat) (f : Nest → Nest) : (modNest s n f).freeCtr = s.freeCtr := rfl
@[simp] theorem modNest_nextId (s : State) (n : Nat) (f : Nest → Nest) : (modNest s n f).nextId = s.nextId := rfl
@[simp] theorem modNest_time (s : State) (n : Nat) (f : Nest → Nest) : (modNest s n f).time = s.time := rfl
@[simp] theorem modNest_mem (s : State) (n : Nat) (f : Nest → Nest) : (modNest s n f).mem = s.mem := rfl
@[simp] theorem modNest_l1 (s : State) (n : Nat) (f : Nest → Nest) : (modNest s n f).l1 = s.l1 := rfl
@[simp] theorem modNest_l0 (s : State) (n : Nat) (f : Nest → Nest) : (modNest s n f).l0 = s.l0 := rfl
@[simp] theorem modNest_tlb (s : State) (n : Nat) (f : Nest → Nest) : (modNest s n f).tlb = s.tlb := rfl
@[simp] theorem modNest_locks (s : State) (n : Nat) (f : Nest → Nest) : (modNest s n f).locks = s.locks := rfl
@[simp] theorem modNest_threads (s : State) (n : Nat) (f : Nest → Nest) : (modNest s n f).threads = s.threads := rfl
@[simp] theorem modNest_blocks (s : State) (n : Nat) (f : Nest → Nest) : (modNest s n f).blocks = s.blocks := rfl
@[simp] theorem modNest_grids (s : State) (n : Nat) (f : Nest → Nest) : (modNest s n f).grids = s.grids := rfl
@[simp] theorem modNest_cmds (s : State) (n : Nat) (f : Nest → Nest) : (modNest s n f).cmds = s.cmds := rfl
@[simp] theorem modNest_mxq (s : State) (n : Nat) (f : Nest → Nest) : (modNest s n f).mxq = s.mxq := rfl
@[simp] theorem modNest_nests (s : State) (n : Nat) (f : Nest → Nest) : (modNest s n f).nests = tmod s.nests n f := rfl
@[simp] theorem modNest_ctxs (s : State) (n : Nat) (f : Nest → Nest) : (modNest s n f).ctxs = s.ctxs := rfl
@[simp] theorem modNest_queues (s : State) (n : Nat) (f : Nest → Nest) : (modNest s n f).queues = s.queues := rfl
@[simp] theorem modNest_qlinks (s : State) (n : Nat) (f : Nest → Nest) : (modNest s n f).qlinks = s.qlinks := rfl
@[simp] theorem modNest_intervals (s : State) (n : Nat) (f : Nest → Nest) : (modNest s n f).intervals = s.intervals := rfl
@[simp] theorem modNest_slots (s : State) (n : Nat) (f : Nest → Nest) : (modNest s n f).slots = s.slots := rfl
@[simp] theorem modNest_parts (s : State) (n : Nat) (f : Nest → Nest) : (modNest s n f).parts = s.parts := rfl
@[simp] theorem modNest_leases (s : State) (n : Nat) (f : Nest → Nest) : (modNest s n f).leases = s.leases := rfl
@[simp] theorem modNest_banks (s : State) (n : Nat) (f : Nest → Nest) : (modNest s n f).banks = s.banks := rfl
@[simp] theorem modNest_lace (s : State) (n : Nat) (f : Nest → Nest) : (modNest s n f).lace = s.lace := rfl
@[simp] theorem modNest_cicadaK (s : State) (n : Nat) (f : Nest → Nest) : (modNest s n f).cicadaK = s.cicadaK := rfl
@[simp] theorem modNest_granules (s : State) (n : Nat) (f : Nest → Nest) : (modNest s n f).granules = s.granules := rfl
@[simp] theorem modNest_scrubQ (s : State) (n : Nat) (f : Nest → Nest) : (modNest s n f).scrubQ = s.scrubQ := rfl
@[simp] theorem modNest_quarters (s : State) (n : Nat) (f : Nest → Nest) : (modNest s n f).quarters = s.quarters := rfl
@[simp] theorem modNest_fns (s : State) (n : Nat) (f : Nest → Nest) : (modNest s n f).fns = s.fns := rfl
@[simp] theorem modNest_msix (s : State) (n : Nat) (f : Nest → Nest) : (modNest s n f).msix = s.msix := rfl
@[simp] theorem modNest_vecs (s : State) (n : Nat) (f : Nest → Nest) : (modNest s n f).vecs = s.vecs := rfl
@[simp] theorem modNest_pkg (s : State) (n : Nat) (f : Nest → Nest) : (modNest s n f).pkg = s.pkg := rfl
@[simp] theorem modNest_lnk (s : State) (n : Nat) (f : Nest → Nest) : (modNest s n f).lnk = s.lnk := rfl
@[simp] theorem modNest_net (s : State) (n : Nat) (f : Nest → Nest) : (modNest s n f).net = s.net := rfl
@[simp] theorem modNest_images (s : State) (n : Nat) (f : Nest → Nest) : (modNest s n f).images = s.images := rfl

/-! ### modCtx -/

@[simp] theorem modCtx_agenda (s : State) (c : Nat) (f : Ctx → Ctx) : (modCtx s c f).agenda = s.agenda := rfl
@[simp] theorem modCtx_timers (s : State) (c : Nat) (f : Ctx → Ctx) : (modCtx s c f).timers = s.timers := rfl
@[simp] theorem modCtx_cur (s : State) (c : Nat) (f : Ctx → Ctx) : (modCtx s c f).cur = s.cur := rfl
@[simp] theorem modCtx_curFrag (s : State) (c : Nat) (f : Ctx → Ctx) : (modCtx s c f).curFrag = s.curFrag := rfl
@[simp] theorem modCtx_freeCtr (s : State) (c : Nat) (f : Ctx → Ctx) : (modCtx s c f).freeCtr = s.freeCtr := rfl
@[simp] theorem modCtx_nextId (s : State) (c : Nat) (f : Ctx → Ctx) : (modCtx s c f).nextId = s.nextId := rfl
@[simp] theorem modCtx_time (s : State) (c : Nat) (f : Ctx → Ctx) : (modCtx s c f).time = s.time := rfl
@[simp] theorem modCtx_mem (s : State) (c : Nat) (f : Ctx → Ctx) : (modCtx s c f).mem = s.mem := rfl
@[simp] theorem modCtx_l1 (s : State) (c : Nat) (f : Ctx → Ctx) : (modCtx s c f).l1 = s.l1 := rfl
@[simp] theorem modCtx_l0 (s : State) (c : Nat) (f : Ctx → Ctx) : (modCtx s c f).l0 = s.l0 := rfl
@[simp] theorem modCtx_tlb (s : State) (c : Nat) (f : Ctx → Ctx) : (modCtx s c f).tlb = s.tlb := rfl
@[simp] theorem modCtx_locks (s : State) (c : Nat) (f : Ctx → Ctx) : (modCtx s c f).locks = s.locks := rfl
@[simp] theorem modCtx_threads (s : State) (c : Nat) (f : Ctx → Ctx) : (modCtx s c f).threads = s.threads := rfl
@[simp] theorem modCtx_blocks (s : State) (c : Nat) (f : Ctx → Ctx) : (modCtx s c f).blocks = s.blocks := rfl
@[simp] theorem modCtx_grids (s : State) (c : Nat) (f : Ctx → Ctx) : (modCtx s c f).grids = s.grids := rfl
@[simp] theorem modCtx_cmds (s : State) (c : Nat) (f : Ctx → Ctx) : (modCtx s c f).cmds = s.cmds := rfl
@[simp] theorem modCtx_mxq (s : State) (c : Nat) (f : Ctx → Ctx) : (modCtx s c f).mxq = s.mxq := rfl
@[simp] theorem modCtx_nests (s : State) (c : Nat) (f : Ctx → Ctx) : (modCtx s c f).nests = s.nests := rfl
@[simp] theorem modCtx_ctxs (s : State) (c : Nat) (f : Ctx → Ctx) : (modCtx s c f).ctxs = tmod s.ctxs c f := rfl
@[simp] theorem modCtx_queues (s : State) (c : Nat) (f : Ctx → Ctx) : (modCtx s c f).queues = s.queues := rfl
@[simp] theorem modCtx_qlinks (s : State) (c : Nat) (f : Ctx → Ctx) : (modCtx s c f).qlinks = s.qlinks := rfl
@[simp] theorem modCtx_intervals (s : State) (c : Nat) (f : Ctx → Ctx) : (modCtx s c f).intervals = s.intervals := rfl
@[simp] theorem modCtx_slots (s : State) (c : Nat) (f : Ctx → Ctx) : (modCtx s c f).slots = s.slots := rfl
@[simp] theorem modCtx_parts (s : State) (c : Nat) (f : Ctx → Ctx) : (modCtx s c f).parts = s.parts := rfl
@[simp] theorem modCtx_leases (s : State) (c : Nat) (f : Ctx → Ctx) : (modCtx s c f).leases = s.leases := rfl
@[simp] theorem modCtx_banks (s : State) (c : Nat) (f : Ctx → Ctx) : (modCtx s c f).banks = s.banks := rfl
@[simp] theorem modCtx_lace (s : State) (c : Nat) (f : Ctx → Ctx) : (modCtx s c f).lace = s.lace := rfl
@[simp] theorem modCtx_cicadaK (s : State) (c : Nat) (f : Ctx → Ctx) : (modCtx s c f).cicadaK = s.cicadaK := rfl
@[simp] theorem modCtx_granules (s : State) (c : Nat) (f : Ctx → Ctx) : (modCtx s c f).granules = s.granules := rfl
@[simp] theorem modCtx_scrubQ (s : State) (c : Nat) (f : Ctx → Ctx) : (modCtx s c f).scrubQ = s.scrubQ := rfl
@[simp] theorem modCtx_quarters (s : State) (c : Nat) (f : Ctx → Ctx) : (modCtx s c f).quarters = s.quarters := rfl
@[simp] theorem modCtx_fns (s : State) (c : Nat) (f : Ctx → Ctx) : (modCtx s c f).fns = s.fns := rfl
@[simp] theorem modCtx_msix (s : State) (c : Nat) (f : Ctx → Ctx) : (modCtx s c f).msix = s.msix := rfl
@[simp] theorem modCtx_vecs (s : State) (c : Nat) (f : Ctx → Ctx) : (modCtx s c f).vecs = s.vecs := rfl
@[simp] theorem modCtx_pkg (s : State) (c : Nat) (f : Ctx → Ctx) : (modCtx s c f).pkg = s.pkg := rfl
@[simp] theorem modCtx_lnk (s : State) (c : Nat) (f : Ctx → Ctx) : (modCtx s c f).lnk = s.lnk := rfl
@[simp] theorem modCtx_net (s : State) (c : Nat) (f : Ctx → Ctx) : (modCtx s c f).net = s.net := rfl
@[simp] theorem modCtx_images (s : State) (c : Nat) (f : Ctx → Ctx) : (modCtx s c f).images = s.images := rfl

/-! ### modQueue -/

@[simp] theorem modQueue_agenda (s : State) (q : Nat) (f : Queue → Queue) : (modQueue s q f).agenda = s.agenda := rfl
@[simp] theorem modQueue_timers (s : State) (q : Nat) (f : Queue → Queue) : (modQueue s q f).timers = s.timers := rfl
@[simp] theorem modQueue_cur (s : State) (q : Nat) (f : Queue → Queue) : (modQueue s q f).cur = s.cur := rfl
@[simp] theorem modQueue_curFrag (s : State) (q : Nat) (f : Queue → Queue) : (modQueue s q f).curFrag = s.curFrag := rfl
@[simp] theorem modQueue_freeCtr (s : State) (q : Nat) (f : Queue → Queue) : (modQueue s q f).freeCtr = s.freeCtr := rfl
@[simp] theorem modQueue_nextId (s : State) (q : Nat) (f : Queue → Queue) : (modQueue s q f).nextId = s.nextId := rfl
@[simp] theorem modQueue_time (s : State) (q : Nat) (f : Queue → Queue) : (modQueue s q f).time = s.time := rfl
@[simp] theorem modQueue_mem (s : State) (q : Nat) (f : Queue → Queue) : (modQueue s q f).mem = s.mem := rfl
@[simp] theorem modQueue_l1 (s : State) (q : Nat) (f : Queue → Queue) : (modQueue s q f).l1 = s.l1 := rfl
@[simp] theorem modQueue_l0 (s : State) (q : Nat) (f : Queue → Queue) : (modQueue s q f).l0 = s.l0 := rfl
@[simp] theorem modQueue_tlb (s : State) (q : Nat) (f : Queue → Queue) : (modQueue s q f).tlb = s.tlb := rfl
@[simp] theorem modQueue_locks (s : State) (q : Nat) (f : Queue → Queue) : (modQueue s q f).locks = s.locks := rfl
@[simp] theorem modQueue_threads (s : State) (q : Nat) (f : Queue → Queue) : (modQueue s q f).threads = s.threads := rfl
@[simp] theorem modQueue_blocks (s : State) (q : Nat) (f : Queue → Queue) : (modQueue s q f).blocks = s.blocks := rfl
@[simp] theorem modQueue_grids (s : State) (q : Nat) (f : Queue → Queue) : (modQueue s q f).grids = s.grids := rfl
@[simp] theorem modQueue_cmds (s : State) (q : Nat) (f : Queue → Queue) : (modQueue s q f).cmds = s.cmds := rfl
@[simp] theorem modQueue_mxq (s : State) (q : Nat) (f : Queue → Queue) : (modQueue s q f).mxq = s.mxq := rfl
@[simp] theorem modQueue_nests (s : State) (q : Nat) (f : Queue → Queue) : (modQueue s q f).nests = s.nests := rfl
@[simp] theorem modQueue_ctxs (s : State) (q : Nat) (f : Queue → Queue) : (modQueue s q f).ctxs = s.ctxs := rfl
@[simp] theorem modQueue_queues (s : State) (q : Nat) (f : Queue → Queue) : (modQueue s q f).queues = tmod s.queues q f := rfl
@[simp] theorem modQueue_qlinks (s : State) (q : Nat) (f : Queue → Queue) : (modQueue s q f).qlinks = s.qlinks := rfl
@[simp] theorem modQueue_intervals (s : State) (q : Nat) (f : Queue → Queue) : (modQueue s q f).intervals = s.intervals := rfl
@[simp] theorem modQueue_slots (s : State) (q : Nat) (f : Queue → Queue) : (modQueue s q f).slots = s.slots := rfl
@[simp] theorem modQueue_parts (s : State) (q : Nat) (f : Queue → Queue) : (modQueue s q f).parts = s.parts := rfl
@[simp] theorem modQueue_leases (s : State) (q : Nat) (f : Queue → Queue) : (modQueue s q f).leases = s.leases := rfl
@[simp] theorem modQueue_banks (s : State) (q : Nat) (f : Queue → Queue) : (modQueue s q f).banks = s.banks := rfl
@[simp] theorem modQueue_lace (s : State) (q : Nat) (f : Queue → Queue) : (modQueue s q f).lace = s.lace := rfl
@[simp] theorem modQueue_cicadaK (s : State) (q : Nat) (f : Queue → Queue) : (modQueue s q f).cicadaK = s.cicadaK := rfl
@[simp] theorem modQueue_granules (s : State) (q : Nat) (f : Queue → Queue) : (modQueue s q f).granules = s.granules := rfl
@[simp] theorem modQueue_scrubQ (s : State) (q : Nat) (f : Queue → Queue) : (modQueue s q f).scrubQ = s.scrubQ := rfl
@[simp] theorem modQueue_quarters (s : State) (q : Nat) (f : Queue → Queue) : (modQueue s q f).quarters = s.quarters := rfl
@[simp] theorem modQueue_fns (s : State) (q : Nat) (f : Queue → Queue) : (modQueue s q f).fns = s.fns := rfl
@[simp] theorem modQueue_msix (s : State) (q : Nat) (f : Queue → Queue) : (modQueue s q f).msix = s.msix := rfl
@[simp] theorem modQueue_vecs (s : State) (q : Nat) (f : Queue → Queue) : (modQueue s q f).vecs = s.vecs := rfl
@[simp] theorem modQueue_pkg (s : State) (q : Nat) (f : Queue → Queue) : (modQueue s q f).pkg = s.pkg := rfl
@[simp] theorem modQueue_lnk (s : State) (q : Nat) (f : Queue → Queue) : (modQueue s q f).lnk = s.lnk := rfl
@[simp] theorem modQueue_net (s : State) (q : Nat) (f : Queue → Queue) : (modQueue s q f).net = s.net := rfl
@[simp] theorem modQueue_images (s : State) (q : Nat) (f : Queue → Queue) : (modQueue s q f).images = s.images := rfl

/-! ### modPart -/

@[simp] theorem modPart_agenda (s : State) (p : Nat) (f : Part → Part) : (modPart s p f).agenda = s.agenda := rfl
@[simp] theorem modPart_timers (s : State) (p : Nat) (f : Part → Part) : (modPart s p f).timers = s.timers := rfl
@[simp] theorem modPart_cur (s : State) (p : Nat) (f : Part → Part) : (modPart s p f).cur = s.cur := rfl
@[simp] theorem modPart_curFrag (s : State) (p : Nat) (f : Part → Part) : (modPart s p f).curFrag = s.curFrag := rfl
@[simp] theorem modPart_freeCtr (s : State) (p : Nat) (f : Part → Part) : (modPart s p f).freeCtr = s.freeCtr := rfl
@[simp] theorem modPart_nextId (s : State) (p : Nat) (f : Part → Part) : (modPart s p f).nextId = s.nextId := rfl
@[simp] theorem modPart_time (s : State) (p : Nat) (f : Part → Part) : (modPart s p f).time = s.time := rfl
@[simp] theorem modPart_mem (s : State) (p : Nat) (f : Part → Part) : (modPart s p f).mem = s.mem := rfl
@[simp] theorem modPart_l1 (s : State) (p : Nat) (f : Part → Part) : (modPart s p f).l1 = s.l1 := rfl
@[simp] theorem modPart_l0 (s : State) (p : Nat) (f : Part → Part) : (modPart s p f).l0 = s.l0 := rfl
@[simp] theorem modPart_tlb (s : State) (p : Nat) (f : Part → Part) : (modPart s p f).tlb = s.tlb := rfl
@[simp] theorem modPart_locks (s : State) (p : Nat) (f : Part → Part) : (modPart s p f).locks = s.locks := rfl
@[simp] theorem modPart_threads (s : State) (p : Nat) (f : Part → Part) : (modPart s p f).threads = s.threads := rfl
@[simp] theorem modPart_blocks (s : State) (p : Nat) (f : Part → Part) : (modPart s p f).blocks = s.blocks := rfl
@[simp] theorem modPart_grids (s : State) (p : Nat) (f : Part → Part) : (modPart s p f).grids = s.grids := rfl
@[simp] theorem modPart_cmds (s : State) (p : Nat) (f : Part → Part) : (modPart s p f).cmds = s.cmds := rfl
@[simp] theorem modPart_mxq (s : State) (p : Nat) (f : Part → Part) : (modPart s p f).mxq = s.mxq := rfl
@[simp] theorem modPart_nests (s : State) (p : Nat) (f : Part → Part) : (modPart s p f).nests = s.nests := rfl
@[simp] theorem modPart_ctxs (s : State) (p : Nat) (f : Part → Part) : (modPart s p f).ctxs = s.ctxs := rfl
@[simp] theorem modPart_queues (s : State) (p : Nat) (f : Part → Part) : (modPart s p f).queues = s.queues := rfl
@[simp] theorem modPart_qlinks (s : State) (p : Nat) (f : Part → Part) : (modPart s p f).qlinks = s.qlinks := rfl
@[simp] theorem modPart_intervals (s : State) (p : Nat) (f : Part → Part) : (modPart s p f).intervals = s.intervals := rfl
@[simp] theorem modPart_slots (s : State) (p : Nat) (f : Part → Part) : (modPart s p f).slots = s.slots := rfl
@[simp] theorem modPart_parts (s : State) (p : Nat) (f : Part → Part) : (modPart s p f).parts = tmod s.parts p f := rfl
@[simp] theorem modPart_leases (s : State) (p : Nat) (f : Part → Part) : (modPart s p f).leases = s.leases := rfl
@[simp] theorem modPart_banks (s : State) (p : Nat) (f : Part → Part) : (modPart s p f).banks = s.banks := rfl
@[simp] theorem modPart_lace (s : State) (p : Nat) (f : Part → Part) : (modPart s p f).lace = s.lace := rfl
@[simp] theorem modPart_cicadaK (s : State) (p : Nat) (f : Part → Part) : (modPart s p f).cicadaK = s.cicadaK := rfl
@[simp] theorem modPart_granules (s : State) (p : Nat) (f : Part → Part) : (modPart s p f).granules = s.granules := rfl
@[simp] theorem modPart_scrubQ (s : State) (p : Nat) (f : Part → Part) : (modPart s p f).scrubQ = s.scrubQ := rfl
@[simp] theorem modPart_quarters (s : State) (p : Nat) (f : Part → Part) : (modPart s p f).quarters = s.quarters := rfl
@[simp] theorem modPart_fns (s : State) (p : Nat) (f : Part → Part) : (modPart s p f).fns = s.fns := rfl
@[simp] theorem modPart_msix (s : State) (p : Nat) (f : Part → Part) : (modPart s p f).msix = s.msix := rfl
@[simp] theorem modPart_vecs (s : State) (p : Nat) (f : Part → Part) : (modPart s p f).vecs = s.vecs := rfl
@[simp] theorem modPart_pkg (s : State) (p : Nat) (f : Part → Part) : (modPart s p f).pkg = s.pkg := rfl
@[simp] theorem modPart_lnk (s : State) (p : Nat) (f : Part → Part) : (modPart s p f).lnk = s.lnk := rfl
@[simp] theorem modPart_net (s : State) (p : Nat) (f : Part → Part) : (modPart s p f).net = s.net := rfl
@[simp] theorem modPart_images (s : State) (p : Nat) (f : Part → Part) : (modPart s p f).images = s.images := rfl

/-! ### modFn -/

@[simp] theorem modFn_agenda (s : State) (n : Nat) (f : Fn → Fn) : (modFn s n f).agenda = s.agenda := rfl
@[simp] theorem modFn_timers (s : State) (n : Nat) (f : Fn → Fn) : (modFn s n f).timers = s.timers := rfl
@[simp] theorem modFn_cur (s : State) (n : Nat) (f : Fn → Fn) : (modFn s n f).cur = s.cur := rfl
@[simp] theorem modFn_curFrag (s : State) (n : Nat) (f : Fn → Fn) : (modFn s n f).curFrag = s.curFrag := rfl
@[simp] theorem modFn_freeCtr (s : State) (n : Nat) (f : Fn → Fn) : (modFn s n f).freeCtr = s.freeCtr := rfl
@[simp] theorem modFn_nextId (s : State) (n : Nat) (f : Fn → Fn) : (modFn s n f).nextId = s.nextId := rfl
@[simp] theorem modFn_time (s : State) (n : Nat) (f : Fn → Fn) : (modFn s n f).time = s.time := rfl
@[simp] theorem modFn_mem (s : State) (n : Nat) (f : Fn → Fn) : (modFn s n f).mem = s.mem := rfl
@[simp] theorem modFn_l1 (s : State) (n : Nat) (f : Fn → Fn) : (modFn s n f).l1 = s.l1 := rfl
@[simp] theorem modFn_l0 (s : State) (n : Nat) (f : Fn → Fn) : (modFn s n f).l0 = s.l0 := rfl
@[simp] theorem modFn_tlb (s : State) (n : Nat) (f : Fn → Fn) : (modFn s n f).tlb = s.tlb := rfl
@[simp] theorem modFn_locks (s : State) (n : Nat) (f : Fn → Fn) : (modFn s n f).locks = s.locks := rfl
@[simp] theorem modFn_threads (s : State) (n : Nat) (f : Fn → Fn) : (modFn s n f).threads = s.threads := rfl
@[simp] theorem modFn_blocks (s : State) (n : Nat) (f : Fn → Fn) : (modFn s n f).blocks = s.blocks := rfl
@[simp] theorem modFn_grids (s : State) (n : Nat) (f : Fn → Fn) : (modFn s n f).grids = s.grids := rfl
@[simp] theorem modFn_cmds (s : State) (n : Nat) (f : Fn → Fn) : (modFn s n f).cmds = s.cmds := rfl
@[simp] theorem modFn_mxq (s : State) (n : Nat) (f : Fn → Fn) : (modFn s n f).mxq = s.mxq := rfl
@[simp] theorem modFn_nests (s : State) (n : Nat) (f : Fn → Fn) : (modFn s n f).nests = s.nests := rfl
@[simp] theorem modFn_ctxs (s : State) (n : Nat) (f : Fn → Fn) : (modFn s n f).ctxs = s.ctxs := rfl
@[simp] theorem modFn_queues (s : State) (n : Nat) (f : Fn → Fn) : (modFn s n f).queues = s.queues := rfl
@[simp] theorem modFn_qlinks (s : State) (n : Nat) (f : Fn → Fn) : (modFn s n f).qlinks = s.qlinks := rfl
@[simp] theorem modFn_intervals (s : State) (n : Nat) (f : Fn → Fn) : (modFn s n f).intervals = s.intervals := rfl
@[simp] theorem modFn_slots (s : State) (n : Nat) (f : Fn → Fn) : (modFn s n f).slots = s.slots := rfl
@[simp] theorem modFn_parts (s : State) (n : Nat) (f : Fn → Fn) : (modFn s n f).parts = s.parts := rfl
@[simp] theorem modFn_leases (s : State) (n : Nat) (f : Fn → Fn) : (modFn s n f).leases = s.leases := rfl
@[simp] theorem modFn_banks (s : State) (n : Nat) (f : Fn → Fn) : (modFn s n f).banks = s.banks := rfl
@[simp] theorem modFn_lace (s : State) (n : Nat) (f : Fn → Fn) : (modFn s n f).lace = s.lace := rfl
@[simp] theorem modFn_cicadaK (s : State) (n : Nat) (f : Fn → Fn) : (modFn s n f).cicadaK = s.cicadaK := rfl
@[simp] theorem modFn_granules (s : State) (n : Nat) (f : Fn → Fn) : (modFn s n f).granules = s.granules := rfl
@[simp] theorem modFn_scrubQ (s : State) (n : Nat) (f : Fn → Fn) : (modFn s n f).scrubQ = s.scrubQ := rfl
@[simp] theorem modFn_quarters (s : State) (n : Nat) (f : Fn → Fn) : (modFn s n f).quarters = s.quarters := rfl
@[simp] theorem modFn_fns (s : State) (n : Nat) (f : Fn → Fn) : (modFn s n f).fns = tset s.fns n (f (fnOf s n)) := rfl
@[simp] theorem modFn_msix (s : State) (n : Nat) (f : Fn → Fn) : (modFn s n f).msix = s.msix := rfl
@[simp] theorem modFn_vecs (s : State) (n : Nat) (f : Fn → Fn) : (modFn s n f).vecs = s.vecs := rfl
@[simp] theorem modFn_pkg (s : State) (n : Nat) (f : Fn → Fn) : (modFn s n f).pkg = s.pkg := rfl
@[simp] theorem modFn_lnk (s : State) (n : Nat) (f : Fn → Fn) : (modFn s n f).lnk = s.lnk := rfl
@[simp] theorem modFn_net (s : State) (n : Nat) (f : Fn → Fn) : (modFn s n f).net = s.net := rfl
@[simp] theorem modFn_images (s : State) (n : Nat) (f : Fn → Fn) : (modFn s n f).images = s.images := rfl

/-! ### tick -/

@[simp] theorem tick_agenda (s : State) : (tick s).agenda = s.agenda := rfl
@[simp] theorem tick_timers (s : State) : (tick s).timers = s.timers := rfl
@[simp] theorem tick_cur (s : State) : (tick s).cur = s.cur := rfl
@[simp] theorem tick_curFrag (s : State) : (tick s).curFrag = s.curFrag := rfl
@[simp] theorem tick_freeCtr (s : State) : (tick s).freeCtr = s.freeCtr + 1 := rfl
@[simp] theorem tick_nextId (s : State) : (tick s).nextId = s.nextId := rfl
@[simp] theorem tick_time (s : State) : (tick s).time = s.time := rfl
@[simp] theorem tick_mem (s : State) : (tick s).mem = s.mem := rfl
@[simp] theorem tick_l1 (s : State) : (tick s).l1 = s.l1 := rfl
@[simp] theorem tick_l0 (s : State) : (tick s).l0 = s.l0 := rfl
@[simp] theorem tick_tlb (s : State) : (tick s).tlb = s.tlb := rfl
@[simp] theorem tick_locks (s : State) : (tick s).locks = s.locks := rfl
@[simp] theorem tick_threads (s : State) : (tick s).threads = s.threads := rfl
@[simp] theorem tick_blocks (s : State) : (tick s).blocks = s.blocks := rfl
@[simp] theorem tick_grids (s : State) : (tick s).grids = s.grids := rfl
@[simp] theorem tick_cmds (s : State) : (tick s).cmds = s.cmds := rfl
@[simp] theorem tick_mxq (s : State) : (tick s).mxq = s.mxq := rfl
@[simp] theorem tick_nests (s : State) : (tick s).nests = s.nests := rfl
@[simp] theorem tick_ctxs (s : State) : (tick s).ctxs = s.ctxs := rfl
@[simp] theorem tick_queues (s : State) : (tick s).queues = s.queues := rfl
@[simp] theorem tick_qlinks (s : State) : (tick s).qlinks = s.qlinks := rfl
@[simp] theorem tick_intervals (s : State) : (tick s).intervals = s.intervals := rfl
@[simp] theorem tick_slots (s : State) : (tick s).slots = s.slots := rfl
@[simp] theorem tick_parts (s : State) : (tick s).parts = s.parts := rfl
@[simp] theorem tick_leases (s : State) : (tick s).leases = s.leases := rfl
@[simp] theorem tick_banks (s : State) : (tick s).banks = s.banks := rfl
@[simp] theorem tick_lace (s : State) : (tick s).lace = s.lace := rfl
@[simp] theorem tick_cicadaK (s : State) : (tick s).cicadaK = s.cicadaK := rfl
@[simp] theorem tick_granules (s : State) : (tick s).granules = s.granules := rfl
@[simp] theorem tick_scrubQ (s : State) : (tick s).scrubQ = s.scrubQ := rfl
@[simp] theorem tick_quarters (s : State) : (tick s).quarters = s.quarters := rfl
@[simp] theorem tick_fns (s : State) : (tick s).fns = s.fns := rfl
@[simp] theorem tick_msix (s : State) : (tick s).msix = s.msix := rfl
@[simp] theorem tick_vecs (s : State) : (tick s).vecs = s.vecs := rfl
@[simp] theorem tick_pkg (s : State) : (tick s).pkg = s.pkg := rfl
@[simp] theorem tick_lnk (s : State) : (tick s).lnk = s.lnk := rfl
@[simp] theorem tick_net (s : State) : (tick s).net = s.net := rfl
@[simp] theorem tick_images (s : State) : (tick s).images = s.images := rfl

/-! ### newId -/

@[simp] theorem newId_agenda (s : State) : (newId s).agenda = s.agenda := rfl
@[simp] theorem newId_timers (s : State) : (newId s).timers = s.timers := rfl
@[simp] theorem newId_cur (s : State) : (newId s).cur = s.cur := rfl
@[simp] theorem newId_curFrag (s : State) : (newId s).curFrag = s.curFrag := rfl
@[simp] theorem newId_freeCtr (s : State) : (newId s).freeCtr = s.freeCtr := rfl
@[simp] theorem newId_nextId (s : State) : (newId s).nextId = s.nextId + 1 := rfl
@[simp] theorem newId_time (s : State) : (newId s).time = s.time := rfl
@[simp] theorem newId_mem (s : State) : (newId s).mem = s.mem := rfl
@[simp] theorem newId_l1 (s : State) : (newId s).l1 = s.l1 := rfl
@[simp] theorem newId_l0 (s : State) : (newId s).l0 = s.l0 := rfl
@[simp] theorem newId_tlb (s : State) : (newId s).tlb = s.tlb := rfl
@[simp] theorem newId_locks (s : State) : (newId s).locks = s.locks := rfl
@[simp] theorem newId_threads (s : State) : (newId s).threads = s.threads := rfl
@[simp] theorem newId_blocks (s : State) : (newId s).blocks = s.blocks := rfl
@[simp] theorem newId_grids (s : State) : (newId s).grids = s.grids := rfl
@[simp] theorem newId_cmds (s : State) : (newId s).cmds = s.cmds := rfl
@[simp] theorem newId_mxq (s : State) : (newId s).mxq = s.mxq := rfl
@[simp] theorem newId_nests (s : State) : (newId s).nests = s.nests := rfl
@[simp] theorem newId_ctxs (s : State) : (newId s).ctxs = s.ctxs := rfl
@[simp] theorem newId_queues (s : State) : (newId s).queues = s.queues := rfl
@[simp] theorem newId_qlinks (s : State) : (newId s).qlinks = s.qlinks := rfl
@[simp] theorem newId_intervals (s : State) : (newId s).intervals = s.intervals := rfl
@[simp] theorem newId_slots (s : State) : (newId s).slots = s.slots := rfl
@[simp] theorem newId_parts (s : State) : (newId s).parts = s.parts := rfl
@[simp] theorem newId_leases (s : State) : (newId s).leases = s.leases := rfl
@[simp] theorem newId_banks (s : State) : (newId s).banks = s.banks := rfl
@[simp] theorem newId_lace (s : State) : (newId s).lace = s.lace := rfl
@[simp] theorem newId_cicadaK (s : State) : (newId s).cicadaK = s.cicadaK := rfl
@[simp] theorem newId_granules (s : State) : (newId s).granules = s.granules := rfl
@[simp] theorem newId_scrubQ (s : State) : (newId s).scrubQ = s.scrubQ := rfl
@[simp] theorem newId_quarters (s : State) : (newId s).quarters = s.quarters := rfl
@[simp] theorem newId_fns (s : State) : (newId s).fns = s.fns := rfl
@[simp] theorem newId_msix (s : State) : (newId s).msix = s.msix := rfl
@[simp] theorem newId_vecs (s : State) : (newId s).vecs = s.vecs := rfl
@[simp] theorem newId_pkg (s : State) : (newId s).pkg = s.pkg := rfl
@[simp] theorem newId_lnk (s : State) : (newId s).lnk = s.lnk := rfl
@[simp] theorem newId_net (s : State) : (newId s).net = s.net := rfl
@[simp] theorem newId_images (s : State) : (newId s).images = s.images := rfl

/-! ### atTime -/

@[simp] theorem atTime_agenda (s : State) (t : Nat) (i : Instr) : (atTime s t i).agenda = s.agenda := rfl
@[simp] theorem atTime_timers (s : State) (t : Nat) (i : Instr) : (atTime s t i).timers = s.timers ++ [(t, .event i)] := rfl
@[simp] theorem atTime_cur (s : State) (t : Nat) (i : Instr) : (atTime s t i).cur = s.cur := rfl
@[simp] theorem atTime_curFrag (s : State) (t : Nat) (i : Instr) : (atTime s t i).curFrag = s.curFrag := rfl
@[simp] theorem atTime_freeCtr (s : State) (t : Nat) (i : Instr) : (atTime s t i).freeCtr = s.freeCtr := rfl
@[simp] theorem atTime_nextId (s : State) (t : Nat) (i : Instr) : (atTime s t i).nextId = s.nextId := rfl
@[simp] theorem atTime_time (s : State) (t : Nat) (i : Instr) : (atTime s t i).time = s.time := rfl
@[simp] theorem atTime_mem (s : State) (t : Nat) (i : Instr) : (atTime s t i).mem = s.mem := rfl
@[simp] theorem atTime_l1 (s : State) (t : Nat) (i : Instr) : (atTime s t i).l1 = s.l1 := rfl
@[simp] theorem atTime_l0 (s : State) (t : Nat) (i : Instr) : (atTime s t i).l0 = s.l0 := rfl
@[simp] theorem atTime_tlb (s : State) (t : Nat) (i : Instr) : (atTime s t i).tlb = s.tlb := rfl
@[simp] theorem atTime_locks (s : State) (t : Nat) (i : Instr) : (atTime s t i).locks = s.locks := rfl
@[simp] theorem atTime_threads (s : State) (t : Nat) (i : Instr) : (atTime s t i).threads = s.threads := rfl
@[simp] theorem atTime_blocks (s : State) (t : Nat) (i : Instr) : (atTime s t i).blocks = s.blocks := rfl
@[simp] theorem atTime_grids (s : State) (t : Nat) (i : Instr) : (atTime s t i).grids = s.grids := rfl
@[simp] theorem atTime_cmds (s : State) (t : Nat) (i : Instr) : (atTime s t i).cmds = s.cmds := rfl
@[simp] theorem atTime_mxq (s : State) (t : Nat) (i : Instr) : (atTime s t i).mxq = s.mxq := rfl
@[simp] theorem atTime_nests (s : State) (t : Nat) (i : Instr) : (atTime s t i).nests = s.nests := rfl
@[simp] theorem atTime_ctxs (s : State) (t : Nat) (i : Instr) : (atTime s t i).ctxs = s.ctxs := rfl
@[simp] theorem atTime_queues (s : State) (t : Nat) (i : Instr) : (atTime s t i).queues = s.queues := rfl
@[simp] theorem atTime_qlinks (s : State) (t : Nat) (i : Instr) : (atTime s t i).qlinks = s.qlinks := rfl
@[simp] theorem atTime_intervals (s : State) (t : Nat) (i : Instr) : (atTime s t i).intervals = s.intervals := rfl
@[simp] theorem atTime_slots (s : State) (t : Nat) (i : Instr) : (atTime s t i).slots = s.slots := rfl
@[simp] theorem atTime_parts (s : State) (t : Nat) (i : Instr) : (atTime s t i).parts = s.parts := rfl
@[simp] theorem atTime_leases (s : State) (t : Nat) (i : Instr) : (atTime s t i).leases = s.leases := rfl
@[simp] theorem atTime_banks (s : State) (t : Nat) (i : Instr) : (atTime s t i).banks = s.banks := rfl
@[simp] theorem atTime_lace (s : State) (t : Nat) (i : Instr) : (atTime s t i).lace = s.lace := rfl
@[simp] theorem atTime_cicadaK (s : State) (t : Nat) (i : Instr) : (atTime s t i).cicadaK = s.cicadaK := rfl
@[simp] theorem atTime_granules (s : State) (t : Nat) (i : Instr) : (atTime s t i).granules = s.granules := rfl
@[simp] theorem atTime_scrubQ (s : State) (t : Nat) (i : Instr) : (atTime s t i).scrubQ = s.scrubQ := rfl
@[simp] theorem atTime_quarters (s : State) (t : Nat) (i : Instr) : (atTime s t i).quarters = s.quarters := rfl
@[simp] theorem atTime_fns (s : State) (t : Nat) (i : Instr) : (atTime s t i).fns = s.fns := rfl
@[simp] theorem atTime_msix (s : State) (t : Nat) (i : Instr) : (atTime s t i).msix = s.msix := rfl
@[simp] theorem atTime_vecs (s : State) (t : Nat) (i : Instr) : (atTime s t i).vecs = s.vecs := rfl
@[simp] theorem atTime_pkg (s : State) (t : Nat) (i : Instr) : (atTime s t i).pkg = s.pkg := rfl
@[simp] theorem atTime_lnk (s : State) (t : Nat) (i : Instr) : (atTime s t i).lnk = s.lnk := rfl
@[simp] theorem atTime_net (s : State) (t : Nat) (i : Instr) : (atTime s t i).net = s.net := rfl
@[simp] theorem atTime_images (s : State) (t : Nat) (i : Instr) : (atTime s t i).images = s.images := rfl

/-! ### raiseVec -/

@[simp] theorem raiseVec_agenda (s : State) (n v : Nat) : (raiseVec s n v).agenda = s.agenda := rfl
@[simp] theorem raiseVec_timers (s : State) (n v : Nat) : (raiseVec s n v).timers = s.timers := rfl
@[simp] theorem raiseVec_cur (s : State) (n v : Nat) : (raiseVec s n v).cur = s.cur := rfl
@[simp] theorem raiseVec_curFrag (s : State) (n v : Nat) : (raiseVec s n v).curFrag = s.curFrag := rfl
@[simp] theorem raiseVec_freeCtr (s : State) (n v : Nat) : (raiseVec s n v).freeCtr = s.freeCtr := rfl
@[simp] theorem raiseVec_nextId (s : State) (n v : Nat) : (raiseVec s n v).nextId = s.nextId := rfl
@[simp] theorem raiseVec_time (s : State) (n v : Nat) : (raiseVec s n v).time = s.time := rfl
@[simp] theorem raiseVec_mem (s : State) (n v : Nat) : (raiseVec s n v).mem = s.mem := rfl
@[simp] theorem raiseVec_l1 (s : State) (n v : Nat) : (raiseVec s n v).l1 = s.l1 := rfl
@[simp] theorem raiseVec_l0 (s : State) (n v : Nat) : (raiseVec s n v).l0 = s.l0 := rfl
@[simp] theorem raiseVec_tlb (s : State) (n v : Nat) : (raiseVec s n v).tlb = s.tlb := rfl
@[simp] theorem raiseVec_locks (s : State) (n v : Nat) : (raiseVec s n v).locks = s.locks := rfl
@[simp] theorem raiseVec_threads (s : State) (n v : Nat) : (raiseVec s n v).threads = s.threads := rfl
@[simp] theorem raiseVec_blocks (s : State) (n v : Nat) : (raiseVec s n v).blocks = s.blocks := rfl
@[simp] theorem raiseVec_grids (s : State) (n v : Nat) : (raiseVec s n v).grids = s.grids := rfl
@[simp] theorem raiseVec_cmds (s : State) (n v : Nat) : (raiseVec s n v).cmds = s.cmds := rfl
@[simp] theorem raiseVec_mxq (s : State) (n v : Nat) : (raiseVec s n v).mxq = s.mxq := rfl
@[simp] theorem raiseVec_nests (s : State) (n v : Nat) : (raiseVec s n v).nests = s.nests := rfl
@[simp] theorem raiseVec_ctxs (s : State) (n v : Nat) : (raiseVec s n v).ctxs = s.ctxs := rfl
@[simp] theorem raiseVec_queues (s : State) (n v : Nat) : (raiseVec s n v).queues = s.queues := rfl
@[simp] theorem raiseVec_qlinks (s : State) (n v : Nat) : (raiseVec s n v).qlinks = s.qlinks := rfl
@[simp] theorem raiseVec_intervals (s : State) (n v : Nat) : (raiseVec s n v).intervals = s.intervals := rfl
@[simp] theorem raiseVec_slots (s : State) (n v : Nat) : (raiseVec s n v).slots = s.slots := rfl
@[simp] theorem raiseVec_parts (s : State) (n v : Nat) : (raiseVec s n v).parts = s.parts := rfl
@[simp] theorem raiseVec_leases (s : State) (n v : Nat) : (raiseVec s n v).leases = s.leases := rfl
@[simp] theorem raiseVec_banks (s : State) (n v : Nat) : (raiseVec s n v).banks = s.banks := rfl
@[simp] theorem raiseVec_lace (s : State) (n v : Nat) : (raiseVec s n v).lace = s.lace := rfl
@[simp] theorem raiseVec_cicadaK (s : State) (n v : Nat) : (raiseVec s n v).cicadaK = s.cicadaK := rfl
@[simp] theorem raiseVec_granules (s : State) (n v : Nat) : (raiseVec s n v).granules = s.granules := rfl
@[simp] theorem raiseVec_scrubQ (s : State) (n v : Nat) : (raiseVec s n v).scrubQ = s.scrubQ := rfl
@[simp] theorem raiseVec_quarters (s : State) (n v : Nat) : (raiseVec s n v).quarters = s.quarters := rfl
@[simp] theorem raiseVec_fns (s : State) (n v : Nat) : (raiseVec s n v).fns = s.fns := rfl
@[simp] theorem raiseVec_msix (s : State) (n v : Nat) : (raiseVec s n v).msix = s.msix ++ [(n, v)] := rfl
@[simp] theorem raiseVec_vecs (s : State) (n v : Nat) : (raiseVec s n v).vecs = notePend s.vecs n v := rfl
@[simp] theorem raiseVec_pkg (s : State) (n v : Nat) : (raiseVec s n v).pkg = s.pkg := rfl
@[simp] theorem raiseVec_lnk (s : State) (n v : Nat) : (raiseVec s n v).lnk = s.lnk := rfl
@[simp] theorem raiseVec_net (s : State) (n v : Nat) : (raiseVec s n v).net = s.net := rfl
@[simp] theorem raiseVec_images (s : State) (n v : Nat) : (raiseVec s n v).images = s.images := rfl

/-! ### after -/

@[simp] theorem after_agenda (s : State) (i : Instr) : (after s i).agenda = s.agenda := rfl
@[simp] theorem after_timers (s : State) (i : Instr) : (after s i).timers = s.timers ++ [(s.time + Config.delay s.freeCtr, .event i)] := rfl
@[simp] theorem after_cur (s : State) (i : Instr) : (after s i).cur = s.cur := rfl
@[simp] theorem after_curFrag (s : State) (i : Instr) : (after s i).curFrag = s.curFrag := rfl
@[simp] theorem after_freeCtr (s : State) (i : Instr) : (after s i).freeCtr = s.freeCtr + 1 := rfl
@[simp] theorem after_nextId (s : State) (i : Instr) : (after s i).nextId = s.nextId := rfl
@[simp] theorem after_time (s : State) (i : Instr) : (after s i).time = s.time := rfl
@[simp] theorem after_mem (s : State) (i : Instr) : (after s i).mem = s.mem := rfl
@[simp] theorem after_l1 (s : State) (i : Instr) : (after s i).l1 = s.l1 := rfl
@[simp] theorem after_l0 (s : State) (i : Instr) : (after s i).l0 = s.l0 := rfl
@[simp] theorem after_tlb (s : State) (i : Instr) : (after s i).tlb = s.tlb := rfl
@[simp] theorem after_locks (s : State) (i : Instr) : (after s i).locks = s.locks := rfl
@[simp] theorem after_threads (s : State) (i : Instr) : (after s i).threads = s.threads := rfl
@[simp] theorem after_blocks (s : State) (i : Instr) : (after s i).blocks = s.blocks := rfl
@[simp] theorem after_grids (s : State) (i : Instr) : (after s i).grids = s.grids := rfl
@[simp] theorem after_cmds (s : State) (i : Instr) : (after s i).cmds = s.cmds := rfl
@[simp] theorem after_mxq (s : State) (i : Instr) : (after s i).mxq = s.mxq := rfl
@[simp] theorem after_nests (s : State) (i : Instr) : (after s i).nests = s.nests := rfl
@[simp] theorem after_ctxs (s : State) (i : Instr) : (after s i).ctxs = s.ctxs := rfl
@[simp] theorem after_queues (s : State) (i : Instr) : (after s i).queues = s.queues := rfl
@[simp] theorem after_qlinks (s : State) (i : Instr) : (after s i).qlinks = s.qlinks := rfl
@[simp] theorem after_intervals (s : State) (i : Instr) : (after s i).intervals = s.intervals := rfl
@[simp] theorem after_slots (s : State) (i : Instr) : (after s i).slots = s.slots := rfl
@[simp] theorem after_parts (s : State) (i : Instr) : (after s i).parts = s.parts := rfl
@[simp] theorem after_leases (s : State) (i : Instr) : (after s i).leases = s.leases := rfl
@[simp] theorem after_banks (s : State) (i : Instr) : (after s i).banks = s.banks := rfl
@[simp] theorem after_lace (s : State) (i : Instr) : (after s i).lace = s.lace := rfl
@[simp] theorem after_cicadaK (s : State) (i : Instr) : (after s i).cicadaK = s.cicadaK := rfl
@[simp] theorem after_granules (s : State) (i : Instr) : (after s i).granules = s.granules := rfl
@[simp] theorem after_scrubQ (s : State) (i : Instr) : (after s i).scrubQ = s.scrubQ := rfl
@[simp] theorem after_quarters (s : State) (i : Instr) : (after s i).quarters = s.quarters := rfl
@[simp] theorem after_fns (s : State) (i : Instr) : (after s i).fns = s.fns := rfl
@[simp] theorem after_msix (s : State) (i : Instr) : (after s i).msix = s.msix := rfl
@[simp] theorem after_vecs (s : State) (i : Instr) : (after s i).vecs = s.vecs := rfl
@[simp] theorem after_pkg (s : State) (i : Instr) : (after s i).pkg = s.pkg := rfl
@[simp] theorem after_lnk (s : State) (i : Instr) : (after s i).lnk = s.lnk := rfl
@[simp] theorem after_net (s : State) (i : Instr) : (after s i).net = s.net := rfl
@[simp] theorem after_images (s : State) (i : Instr) : (after s i).images = s.images := rfl

/-! ### count -/

@[simp] theorem count_agenda (s : State) (c n k : Nat) : (count s c n k).agenda = s.agenda := by
  unfold count; split <;> (try split) <;> rfl
@[simp] theorem count_timers (s : State) (c n k : Nat) : (count s c n k).timers = s.timers := by
  unfold count; split <;> (try split) <;> rfl
@[simp] theorem count_cur (s : State) (c n k : Nat) : (count s c n k).cur = s.cur := by
  unfold count; split <;> (try split) <;> rfl
@[simp] theorem count_curFrag (s : State) (c n k : Nat) : (count s c n k).curFrag = s.curFrag := by
  unfold count; split <;> (try split) <;> rfl
@[simp] theorem count_freeCtr (s : State) (c n k : Nat) : (count s c n k).freeCtr = s.freeCtr := by
  unfold count; split <;> (try split) <;> rfl
@[simp] theorem count_nextId (s : State) (c n k : Nat) : (count s c n k).nextId = s.nextId := by
  unfold count; split <;> (try split) <;> rfl
@[simp] theorem count_time (s : State) (c n k : Nat) : (count s c n k).time = s.time := by
  unfold count; split <;> (try split) <;> rfl
@[simp] theorem count_mem (s : State) (c n k : Nat) : (count s c n k).mem = s.mem := by
  unfold count; split <;> (try split) <;> rfl
@[simp] theorem count_l1 (s : State) (c n k : Nat) : (count s c n k).l1 = s.l1 := by
  unfold count; split <;> (try split) <;> rfl
@[simp] theorem count_l0 (s : State) (c n k : Nat) : (count s c n k).l0 = s.l0 := by
  unfold count; split <;> (try split) <;> rfl
@[simp] theorem count_tlb (s : State) (c n k : Nat) : (count s c n k).tlb = s.tlb := by
  unfold count; split <;> (try split) <;> rfl
@[simp] theorem count_locks (s : State) (c n k : Nat) : (count s c n k).locks = s.locks := by
  unfold count; split <;> (try split) <;> rfl
@[simp] theorem count_threads (s : State) (c n k : Nat) : (count s c n k).threads = s.threads := by
  unfold count; split <;> (try split) <;> rfl
@[simp] theorem count_blocks (s : State) (c n k : Nat) : (count s c n k).blocks = s.blocks := by
  unfold count; split <;> (try split) <;> rfl
@[simp] theorem count_grids (s : State) (c n k : Nat) : (count s c n k).grids = s.grids := by
  unfold count; split <;> (try split) <;> rfl
@[simp] theorem count_cmds (s : State) (c n k : Nat) : (count s c n k).cmds = s.cmds := by
  unfold count; split <;> (try split) <;> rfl
@[simp] theorem count_mxq (s : State) (c n k : Nat) : (count s c n k).mxq = s.mxq := by
  unfold count; split <;> (try split) <;> rfl
@[simp] theorem count_nests (s : State) (c n k : Nat) : (count s c n k).nests = s.nests := by
  unfold count; split <;> (try split) <;> rfl
@[simp] theorem count_ctxs (s : State) (c n k : Nat) : (count s c n k).ctxs = s.ctxs := by
  unfold count; split <;> (try split) <;> rfl
@[simp] theorem count_queues (s : State) (c n k : Nat) : (count s c n k).queues = s.queues := by
  unfold count; split <;> (try split) <;> rfl
@[simp] theorem count_qlinks (s : State) (c n k : Nat) : (count s c n k).qlinks = s.qlinks := by
  unfold count; split <;> (try split) <;> rfl
@[simp] theorem count_intervals (s : State) (c n k : Nat) : (count s c n k).intervals = s.intervals := by
  unfold count; split <;> (try split) <;> rfl
@[simp] theorem count_slots (s : State) (c n k : Nat) : (count s c n k).slots = s.slots := by
  unfold count; split <;> (try split) <;> rfl
@[simp] theorem count_parts (s : State) (c n k : Nat) : (count s c n k).parts = s.parts := by
  unfold count; split <;> (try split) <;> rfl
@[simp] theorem count_leases (s : State) (c n k : Nat) : (count s c n k).leases = s.leases := by
  unfold count; split <;> (try split) <;> rfl
@[simp] theorem count_lace (s : State) (c n k : Nat) : (count s c n k).lace = s.lace := by
  unfold count; split <;> (try split) <;> rfl
@[simp] theorem count_cicadaK (s : State) (c n k : Nat) : (count s c n k).cicadaK = s.cicadaK := by
  unfold count; split <;> (try split) <;> rfl
@[simp] theorem count_granules (s : State) (c n k : Nat) : (count s c n k).granules = s.granules := by
  unfold count; split <;> (try split) <;> rfl
@[simp] theorem count_scrubQ (s : State) (c n k : Nat) : (count s c n k).scrubQ = s.scrubQ := by
  unfold count; split <;> (try split) <;> rfl
@[simp] theorem count_quarters (s : State) (c n k : Nat) : (count s c n k).quarters = s.quarters := by
  unfold count; split <;> (try split) <;> rfl
@[simp] theorem count_fns (s : State) (c n k : Nat) : (count s c n k).fns = s.fns := by
  unfold count; split <;> (try split) <;> rfl
@[simp] theorem count_msix (s : State) (c n k : Nat) : (count s c n k).msix = s.msix := by
  unfold count; split <;> (try split) <;> rfl
@[simp] theorem count_vecs (s : State) (c n k : Nat) : (count s c n k).vecs = s.vecs := by
  unfold count; split <;> (try split) <;> rfl
@[simp] theorem count_pkg (s : State) (c n k : Nat) : (count s c n k).pkg = s.pkg := by
  unfold count; split <;> (try split) <;> rfl
@[simp] theorem count_lnk (s : State) (c n k : Nat) : (count s c n k).lnk = s.lnk := by
  unfold count; split <;> (try split) <;> rfl
@[simp] theorem count_net (s : State) (c n k : Nat) : (count s c n k).net = s.net := by
  unfold count; split <;> (try split) <;> rfl
@[simp] theorem count_images (s : State) (c n k : Nat) : (count s c n k).images = s.images := by
  unfold count; split <;> (try split) <;> rfl

end Sys2Proof.Machine
end

