-- ==== Sys2Proof/Laws/Table.lean ====
section
/-! SUPPORT. Tables and stores: read after write, and the canonical form that every operation keeps. -/
namespace Sys2Proof.Machine

/-! ### Tables -/

@[simp] theorem tget_nil {α : Type} (i : Nat) : tget ([] : Tab α) i = none := rfl

/-- What a table holds after a record is put into it. -/
theorem tget_tset {α : Type} (t : Tab α) (i k : Nat) (y : α) : tget (tset t i y) k = if k = i then some y else tget t k := by
  induction t with
  | nil => simp only [tset, tget]
  | cons e r ih =>
    obtain ⟨j, x⟩ := e
    by_cases h1 : i < j
    · simp only [tset, if_pos h1, tget]
    · by_cases h2 : i = j
      · subst h2
        simp only [tset, if_neg h1, if_true, tget]
        split <;> rfl
      · simp only [tset, if_neg h1, if_neg h2, tget, ih]
        repeat' split
        all_goals first | rfl | omega

@[simp] theorem tget_tset_same {α : Type} (t : Tab α) (i : Nat) (y : α) : tget (tset t i y) i = some y := by simp [tget_tset]

theorem tget_tset_other {α : Type} (t : Tab α) {i k : Nat} (y : α) (h : k ≠ i) : tget (tset t i y) k = tget t k := by simp [tget_tset, h]

/-- What a table holds after the record of a number is changed. -/
theorem tget_tmod {α : Type} (t : Tab α) (i k : Nat) (f : α → α) : tget (tmod t i f) k = if k = i then (tget t i).map f else tget t k := by
  unfold tmod
  cases h : tget t i with
  | none => by_cases hk : k = i <;> simp [hk, h]
  | some x => simp [tget_tset]

theorem tget_tmap {α : Type} (t : Tab α) (f : Nat → α → α) (k : Nat) : tget (tmap t f) k = (tget t k).map (f k) := by
  induction t with
  | nil => rfl
  | cons e r ih =>
    obtain ⟨j, x⟩ := e
    simp only [tmap, List.map_cons, tget] at ih ⊢
    repeat' split
    all_goals first | rfl | (subst_vars; rfl) | exact ih

theorem tget_tdel {α : Type} (t : Tab α) (i k : Nat) : tget (tdel t i) k = if k = i then none else tget t k := by
  induction t with
  | nil => simp [tdel]
  | cons e r ih =>
    obtain ⟨j, x⟩ := e
    simp only [tdel]
    repeat' split
    all_goals simp only [tget, ih]
    all_goals repeat' split
    all_goals first | rfl | omega

/-! ### Rising numbers -/

/-- Every number of a list lies above a bound. -/
def allAbove {α : Type} (b : Nat) (t : List (Nat × α)) : Bool := t.all fun e => decide (b < e.1)

theorem rising_cons {α : Type} (e : Nat × α) (r : List (Nat × α)) : rising (e :: r) = (allAbove e.1 r && rising r) := by
  induction r generalizing e with
  | nil => simp [rising, allAbove]
  | cons a r ih =>
    rw [rising, ih a]
    simp only [allAbove, List.all_cons]
    rw [Bool.eq_iff_iff]
    simp only [Bool.and_eq_true, decide_eq_true_eq, List.all_eq_true]
    constructor
    · rintro ⟨h1, h2, h3⟩
      exact ⟨⟨h1, fun x hx => Nat.lt_trans h1 (h2 x hx)⟩, h2, h3⟩
    · rintro ⟨⟨h1, -⟩, h2, h3⟩
      exact ⟨h1, h2, h3⟩

theorem allAbove_mono {α : Type} {b c : Nat} {t : List (Nat × α)} (h : b ≤ c) (ht : allAbove c t = true) : allAbove b t = true := by
  simp only [allAbove, List.all_eq_true, decide_eq_true_eq] at ht ⊢
  exact fun x hx => Nat.lt_of_le_of_lt h (ht x hx)

theorem allAbove_tset {α : Type} (b i : Nat) (y : α) (t : Tab α) (h : b < i) (ht : allAbove b t = true) :
    allAbove b (tset t i y) = true := by
  induction t with
  | nil => simp [tset, allAbove, h]
  | cons e r ih =>
    obtain ⟨j, x⟩ := e
    simp only [allAbove, List.all_cons, Bool.and_eq_true, decide_eq_true_eq] at ht ih
    simp only [tset]
    repeat' split
    all_goals simp only [allAbove, List.all_cons, Bool.and_eq_true, decide_eq_true_eq]
    · exact ⟨h, ht.1, ht.2⟩
    · exact ⟨h, ht.2⟩
    · exact ⟨ht.1, ih ht.2⟩

theorem allAbove_tdel {α : Type} (b i : Nat) (t : Tab α) (ht : allAbove b t = true) : allAbove b (tdel t i) = true := by
  induction t with
  | nil => rfl
  | cons e r ih =>
    obtain ⟨j, x⟩ := e
    simp only [allAbove, List.all_cons, Bool.and_eq_true, decide_eq_true_eq] at ht ih
    simp only [tdel]
    split
    · exact ih ht.2
    · simp only [allAbove, List.all_cons, Bool.and_eq_true, decide_eq_true_eq]
      exact ⟨ht.1, ih ht.2⟩

/-- Putting a record in keeps the numbers rising. -/
theorem rising_tset {α : Type} (t : Tab α) (i : Nat) (y : α) (h : rising t = true) : rising (tset t i y) = true := by
  induction t with
  | nil => rfl
  | cons e r ih =>
    obtain ⟨j, x⟩ := e
    rw [rising_cons, Bool.and_eq_true] at h
    simp only [tset]
    split
    · rename_i h1
      rw [rising_cons, rising_cons, Bool.and_eq_true, Bool.and_eq_true]
      refine ⟨?_, h⟩
      simp only [allAbove, List.all_cons, Bool.and_eq_true, decide_eq_true_eq]
      exact ⟨h1, allAbove_mono (Nat.le_of_lt h1) h.1⟩
    · split
      · rename_i h2
        subst h2
        rw [rising_cons, Bool.and_eq_true]
        exact h
      · rw [rising_cons, Bool.and_eq_true]
        exact ⟨allAbove_tset _ _ _ _ (by simp only; omega) h.1, ih h.2⟩

/-- Taking a record away keeps the numbers rising. -/
theorem rising_tdel {α : Type} (t : Tab α) (i : Nat) (h : rising t = true) : rising (tdel t i) = true := by
  induction t with
  | nil => rfl
  | cons e r ih =>
    obtain ⟨j, x⟩ := e
    rw [rising_cons, Bool.and_eq_true] at h
    simp only [tdel]
    split
    · exact ih h.2
    · rw [rising_cons, Bool.and_eq_true]
      exact ⟨allAbove_tdel _ _ _ h.1, ih h.2⟩

theorem rising_filter {α : Type} (t : List (Nat × α)) (p : Nat × α → Bool) (h : rising t = true) : rising (t.filter p) = true := by
  induction t with
  | nil => rfl
  | cons e r ih =>
    rw [rising_cons, Bool.and_eq_true] at h
    simp only [List.filter_cons]
    split
    · rw [rising_cons, Bool.and_eq_true]
      refine ⟨?_, ih h.2⟩
      have h1 := h.1
      simp only [allAbove, List.all_eq_true, List.mem_filter] at h1 ⊢
      exact fun x hx => h1 x hx.1
    · exact ih h.2

/-! ### Stores -/

@[simp] theorem sget_nil {n : Nat} (i : Nat) : sget ([] : Sparse n) i = 0 := rfl

theorem sget_tset {n : Nat} (t : Sparse n) (i k : Nat) (y : BitVec n) : sget (tset t i y) k = if k = i then y else sget t k := by
  induction t with
  | nil => simp only [tset, sget]
  | cons e r ih =>
    obtain ⟨j, x⟩ := e
    by_cases h1 : i < j
    · simp only [tset, if_pos h1, sget]
    · by_cases h2 : i = j
      · subst h2
        simp only [tset, if_neg h1, if_true, sget]
        split <;> rfl
      · simp only [tset, if_neg h1, if_neg h2, sget, ih]
        repeat' split
        all_goals first | rfl | omega

theorem sget_tdel {n : Nat} (t : Sparse n) (i k : Nat) : sget (tdel t i) k = if k = i then 0 else sget t k := by
  induction t with
  | nil => simp [tdel]
  | cons e r ih =>
    obtain ⟨j, x⟩ := e
    simp only [tdel]
    repeat' split
    all_goals simp only [sget, ih]
    all_goals repeat' split
    all_goals first | rfl | omega

/-- A store reads as it was last written, and a write leaves every other number alone. -/
theorem sget_sset {n : Nat} (t : Sparse n) (i k : Nat) (y : BitVec n) : sget (sset t i y) k = if k = i then y else sget t k := by
  unfold sset
  split
  · subst_vars; rw [sget_tdel]
  · rw [sget_tset]

theorem all_tset {α : Type} (p : Nat × α → Bool) (t : Tab α) (i : Nat) (y : α) (hy : p (i, y) = true) (h : t.all p = true) :
    (tset t i y).all p = true := by
  induction t with
  | nil => simp [tset, hy]
  | cons e r ih =>
    obtain ⟨j, x⟩ := e
    simp only [List.all_cons, Bool.and_eq_true] at h
    simp only [tset]
    repeat' split
    all_goals simp only [List.all_cons, Bool.and_eq_true]
    · exact ⟨hy, h.1, h.2⟩
    · exact ⟨hy, h.2⟩
    · exact ⟨h.1, ih h.2⟩

theorem all_tdel {α : Type} (p : Nat × α → Bool) (t : Tab α) (i : Nat) (h : t.all p = true) : (tdel t i).all p = true := by
  induction t with
  | nil => rfl
  | cons e r ih =>
    obtain ⟨j, x⟩ := e
    simp only [List.all_cons, Bool.and_eq_true] at h
    simp only [tdel]
    split
    · exact ih h.2
    · simp only [List.all_cons, Bool.and_eq_true]
      exact ⟨h.1, ih h.2⟩

theorem Sparse.wf_nil {n : Nat} : Sparse.wf ([] : Sparse n) = true := rfl

/-- A write keeps the canonical form. -/
theorem Sparse.wf_sset {n : Nat} (t : Sparse n) (i : Nat) (y : BitVec n) (h : Sparse.wf t = true) : Sparse.wf (sset t i y) = true := by
  simp only [Sparse.wf, Bool.and_eq_true] at h ⊢
  unfold sset
  split
  · exact ⟨rising_tdel t i h.1, all_tdel _ t i h.2⟩
  · rename_i hy
    exact ⟨rising_tset t i y h.1, all_tset _ t i y (by simpa using hy) h.2⟩

theorem Sparse.wf_ssetList {n : Nat} (ys : List (BitVec n)) (t : Sparse n) (i : Nat) (h : Sparse.wf t = true) :
    Sparse.wf (ssetList t i ys) = true := by
  induction ys generalizing t i with
  | nil => exact h
  | cons y ys ih => exact ih _ _ (Sparse.wf_sset t i y h)

theorem Sparse.wf_filter {n : Nat} (t : Sparse n) (p : Nat × BitVec n → Bool) (h : Sparse.wf t = true) : Sparse.wf (t.filter p) = true := by
  simp only [Sparse.wf, Bool.and_eq_true] at h ⊢
  refine ⟨rising_filter t p h.1, ?_⟩
  exact List.all_eq_true.mpr fun x hx => List.all_eq_true.mp h.2 x (List.mem_filter.mp hx).1

theorem Sparse.wf_sclear {n : Nat} (t : Sparse n) (i c : Nat) (h : Sparse.wf t = true) : Sparse.wf (sclear t i c) = true :=
  Sparse.wf_filter t _ h

end Sys2Proof.Machine
end

