-- ==== Sys2Proof/Laws/Memory.lean ====
section
/-! SUPPORT. Memory: read after write, and the canonical form that every operation over memory keeps. -/
namespace Sys2Proof.Machine

/-- A byte reads as the byte last written to it, and a write leaves every other byte alone. -/
theorem Memory.read_write (m : Memory) (a k : Nat) (b : Byte) :
    (m.write a b).read k = if k = a then b else m.read k :=
  sget_sset (n := 8) m a k b

theorem Memory.wf_write (m : Memory) (a : Nat) (b : Byte) (h : Memory.wf m = true) : Memory.wf (m.write a b) = true :=
  Sparse.wf_sset (n := 8) m a b h

theorem Memory.wf_writeN (bs : List Byte) (m : Memory) (a : Nat) (h : Memory.wf m = true) : Memory.wf (m.writeN a bs) = true := by
  induction bs generalizing m a with
  | nil => exact h
  | cons b bs ih => exact ih _ _ (Memory.wf_write m a b h)

/-- A write of several bytes: those bytes, from its address on, and every other byte as it was. -/
theorem Memory.read_writeN (bs : List Byte) (m : Memory) (a k : Nat) :
    (m.writeN a bs).read k = if a ≤ k ∧ k < a + bs.length then bs.getD (k - a) 0 else m.read k := by
  induction bs generalizing m a with
  | nil =>
    rw [if_neg (by simp only [List.length_nil]; omega)]
    rfl
  | cons b bs ih =>
    rw [Memory.writeN, ih, Memory.read_write]
    by_cases hk : k = a
    · subst hk
      rw [if_neg (by omega), if_pos rfl, if_pos (by simp only [List.length_cons]; omega)]
      simp
    · by_cases h1 : a + 1 ≤ k ∧ k < a + 1 + bs.length
      · rw [if_pos h1, if_pos (by simp only [List.length_cons]; omega)]
        obtain ⟨n, rfl⟩ : ∃ n, k = a + 1 + n := ⟨k - (a + 1), by omega⟩
        rw [show a + 1 + n - (a + 1) = n by omega, show a + 1 + n - a = n + 1 by omega]
        rfl
      · rw [if_neg h1, if_neg hk, if_neg (by simp only [List.length_cons]; omega)]

/-- What several bytes read as just after they were written. -/
theorem Memory.readN_writeN_same (m : Memory) (a : Nat) (bs : List Byte) : (m.writeN a bs).readN a bs.length = bs := by
  apply List.ext_getElem
  · simp [Memory.readN]
  · intro i h1 h2
    simp [Memory.readN, Memory.read_writeN, h2, List.getD_eq_getElem?_getD]

/-- A write leaves a range that it does not meet as it was. -/
theorem Memory.readN_writeN_apart (m : Memory) (a k n : Nat) (bs : List Byte) (h : k + n ≤ a ∨ a + bs.length ≤ k) :
    (m.writeN a bs).readN k n = m.readN k n := by
  unfold Memory.readN
  apply List.map_congr_left
  intro j hj
  rw [List.mem_range] at hj
  rw [Memory.read_writeN, if_neg (by omega)]

theorem Memory.wf_filter (m : Memory) (p : Host.Cell → Bool) (h : Memory.wf m = true) : Memory.wf (m.filter p) = true :=
  Sparse.wf_filter (n := 8) m p h

end Sys2Proof.Machine
end

