-- ==== Sys2Proof/Laws/Ops.lean ====
section
/-! SUPPORT. What issue does, said once: the operands of a strand whose results have all landed, the registers after an
instruction's results, and everything that finishing an instruction leaves alone. -/
namespace Sys2Proof.Machine

/-! ### Lanes -/

theorem mem_lanesOf (m : Word) (l : Nat) : l ∈ lanesOf m ↔ m.getLsbD l = true := by
  simp only [lanesOf, List.mem_filter, List.mem_range]
  constructor
  · exact fun h => h.2
  · exact fun h => ⟨BitVec.lt_of_getLsbD h, h⟩

theorem lanesOf_lt (m : Word) (l : Nat) (h : l ∈ lanesOf m) : l < 32 := by
  simp only [lanesOf, List.mem_filter, List.mem_range] at h
  exact h.1

theorem getLsbD_bit (l i : Nat) (h : i < 32) : (bit l).getLsbD i = decide (i = l) := by
  simp only [bit, BitVec.getLsbD_shiftLeft]
  by_cases hi : i = l
  · subst hi; simp [h]
  · by_cases h2 : i < l
    · simp [h2, hi]
    · have : i - l ≠ 0 := by omega
      simp [h2, hi, this]

theorem getLsbD_foldBits (p : Nat → Bool) (ls : List Nat) (m : Word) (i : Nat) (h : i < 32) :
    (ls.foldl (fun m l => if p l then m ||| bit l else m) m).getLsbD i = (m.getLsbD i || (decide (i ∈ ls) && p i)) := by
  induction ls generalizing m with
  | nil => simp
  | cons a r ih =>
    rw [List.foldl_cons, ih]
    have hb : (if p a then m ||| bit a else m).getLsbD i = (m.getLsbD i || (decide (i = a) && p a)) := by
      by_cases hp : p a
      · rw [if_pos hp, BitVec.getLsbD_or, getLsbD_bit a i h, hp, Bool.and_true]
      · simp [hp]
    rw [hb]
    by_cases hi : i = a
    · subst hi; cases m.getLsbD i <;> cases p i <;> simp
    · simp [hi]

theorem getLsbD_maskOf (p : Nat → Bool) (i : Nat) (h : i < 32) : (maskOf p).getLsbD i = p i := by
  rw [maskOf, getLsbD_foldBits p _ _ i h]
  simp [h]

/-! ### The environment of an issue -/

/-- What the environment of an issue is made of. -/
theorem mkEnv_parts {h : Hdr} {s : State} {e : Env} (he : mkEnv h s = some e) :
    e.s = s ∧ e.tid = s.cur ∧ e.fi = s.curFrag ∧ e.h = h ∧ tget s.threads e.tid = some e.th ∧ tget e.th.frags e.fi = some e.fr ∧
    tget s.blocks e.th.bid = some e.blk ∧ tget s.grids e.blk.gid = some e.grid ∧
    e.act = e.fr.em &&& guardMask e.th s.time s.freeCtr h ∧ e.tok = s.nextId := by
  unfold mkEnv at he
  repeat' split at he
  all_goals first | contradiction | skip
  simp only [Option.some.injEq] at he
  subst he
  exact ⟨rfl, rfl, rfl, rfl, ‹_›, ‹_›, ‹_›, ‹_›, rfl, rfl⟩

theorem Issues.parts {i : Instr} {s : State} {e : Env} (hi : Issues i s e) : ∃ h, hdr? i = some h ∧ mkEnv h s = some e := by
  have := hi.env
  cases hh : hdr? i with
  | none => simp [hh] at this
  | some h => exact ⟨h, rfl, by simpa [hh] using this⟩

theorem Issues.same {i : Instr} {s : State} {e : Env} (hi : Issues i s e) : e.s = s := by
  obtain ⟨h, -, he⟩ := hi.parts
  exact (mkEnv_parts he).1

theorem Issues.thread {i : Instr} {s : State} {e : Env} (hi : Issues i s e) : tget s.threads e.tid = some e.th := by
  obtain ⟨h, -, he⟩ := hi.parts
  exact (mkEnv_parts he).2.2.2.2.1

theorem Issues.frag {i : Instr} {s : State} {e : Env} (hi : Issues i s e) : tget e.th.frags e.fi = some e.fr := by
  obtain ⟨h, -, he⟩ := hi.parts
  exact (mkEnv_parts he).2.2.2.2.2.1

/-! ### Operands with no result on its way -/

theorem pendFor_clean {th : Thread} (hp : th.pend = []) (now file r l : Nat) : pendFor th now file r l = none := by
  simp [pendFor, hp]

theorem rdV_clean {th : Thread} (hp : th.pend = []) (now n r l : Nat) : rdV th now n r l = sget th.v (32 * r + l) := by
  simp [rdV, pendFor_clean hp]

theorem rdK_clean {th : Thread} (hp : th.pend = []) (now n r : Nat) : rdK th now n r = sget th.k r := by
  simp [rdK, pendFor_clean hp]

theorem rdP_clean {th : Thread} (hp : th.pend = []) (now n r l : Nat) :
    rdP th now n r l = (r == 31 || (sget th.p r).getLsbD l) := by
  unfold rdP
  by_cases h : r = 31
  · simp [h]
  · simp [h, pendFor_clean hp]

theorem Issues.vAt {i : Instr} {s : State} {e : Env} (hi : Issues i s e) (r l : Nat) : vAt s e.tid r l = sget e.th.v (32 * r + l) := by
  simp [Machine.vAt, hi.thread]

theorem Issues.kAt {i : Instr} {s : State} {e : Env} (hi : Issues i s e) (r : Nat) : kAt s e.tid r = sget e.th.k r := by
  simp [Machine.kAt, hi.thread]

theorem Issues.pAt {i : Instr} {s : State} {e : Env} (hi : Issues i s e) (r l : Nat) : pAt s e.tid r l = (sget e.th.p r).getLsbD l := by
  simp [Machine.pAt, hi.thread]

/-- A source field reads what the registers hold. -/
theorem src_eq {i : Instr} {s : State} {e : Env} (hi : Issues i s e) (ty : Nat) (k : Kind) (f : BitVec 11) (l : Nat) :
    src (countIssue e) ty k f l = opAt e ty k f l := by
  cases k <;> simp [src, opAt, prAt, countIssue, rdV_clean hi.clean, rdK_clean hi.clean, rdP_clean hi.clean, hi.same, hi.vAt, hi.kAt, hi.pAt]

theorem pr_eq {i : Instr} {s : State} {e : Env} (hi : Issues i s e) (k : Kind) (f : BitVec 11) (l : Nat) :
    pr (countIssue e) k f l = op64At e k f l := by
  cases k <;> simp [pr, op64At, countIssue, hi.same, rdV_clean hi.clean, rdK_clean hi.clean, hi.vAt, hi.kAt]

theorem prd_eq {i : Instr} {s : State} {e : Env} (hi : Issues i s e) (f : BitVec 11) (l : Nat) :
    prd (countIssue e) f l = prAt e f l := by
  simp [prd, prAt, countIssue, hi.same, rdP_clean hi.clean, hi.pAt]

theorem vreg_eq {i : Instr} {s : State} {e : Env} (hi : Issues i s e) (r l : Nat) :
    vreg (countIssue e) r l = vAt e.s e.tid r l := by
  simp [vreg, countIssue, rdV_clean hi.clean, hi.same, hi.vAt]

/-! ### Results -/

/-- What a list of results writes. -/
def resV : List Res → Nat → Nat → Option Word
  | [], _, _ => none
  | .v d vals :: rs, r, l => if d = r then ((vals.find? fun x => x.1 == l).map Prod.snd) <|> resV rs r l else resV rs r l
  | _ :: rs, r, l => resV rs r l

def resK : List Res → Nat → Option Word
  | [], _ => none
  | .k d x :: rs, r => if d = r then some x else resK rs r
  | _ :: rs, r => resK rs r

def resP : List Res → Nat → Nat → Option Bool
  | [], _, _ => none
  | .p d m b :: rs, r, l => if d = r ∧ d ≠ 31 ∧ m.getLsbD l then some (b.getLsbD l) else resP rs r l
  | _ :: rs, r, l => resP rs r l

/-- File and number of the register that a result names. -/
def Res.key : Res → Nat × Nat
  | .v r _ => (0, r)
  | .k r _ => (1, r)
  | .p r _ _ => (2, r)

/-- A result names lanes that exist, and each at most once. -/
def Res.ok : Res → Prop
  | .v _ vals => (∀ x ∈ vals, x.1 < 32) ∧ (vals.map Prod.fst).Nodup
  | _ => True

theorem sget_wrV (v : Sparse 32) (r : Nat) (vals : List (Nat × Word)) (h : ∀ x ∈ vals, x.1 < 32)
    (hn : (vals.map Prod.fst).Nodup) (r' l : Nat) (hl : l < 32) :
    sget (wrV v r vals) (32 * r' + l) =
      (if r = r' then (vals.find? fun x => x.1 == l).map Prod.snd else none).getD (sget v (32 * r' + l)) := by
  induction vals generalizing v with
  | nil => simp [wrV]
  | cons a vs ih =>
    obtain ⟨m, x⟩ := a
    simp only [List.map_cons, List.nodup_cons] at hn
    have hm : m < 32 := h (m, x) (by simp)
    rw [wrV, ih _ (fun y hy => h y (by simp [hy])) hn.2, sget_sset]
    by_cases hr : r = r'
    · subst hr
      simp only [if_true, List.find?_cons]
      by_cases hml : m = l
      · subst hml
        have : (vs.find? fun x => x.1 == m) = none := by
          rw [List.find?_eq_none]
          intro y hy hc
          simp only [beq_iff_eq] at hc
          exact hn.1 (List.mem_map.mpr ⟨y, hy, hc⟩)
        simp [this]
      · have h1 : ¬ 32 * r + l = 32 * r + m := by omega
        have h2 : (m == l) = false := by simp [hml]
        have h3 : ¬ l = m := fun hc => hml hc.symm
        simp [h2, h3]
    · have : ¬ 32 * r' + l = 32 * r + m := by omega
      simp [hr, this]

theorem raceKeeps_fresh {th : Thread} {now n file r l : Nat} (h : ∀ p ∈ th.pend, (p.file, p.num) ≠ (file, r)) :
    raceKeeps th now n file r l = false := by
  have : pendFor th now file r l = none := by
    rw [pendFor, List.find?_eq_none]
    intro p hp hc
    simp only [Bool.and_eq_true, beq_iff_eq] at hc
    exact h p hp (by simp [hc.1.1.1, hc.1.1.2])
  simp [raceKeeps, this]

/-- Results on distinct registers, none of which has a result on its way. -/
theorem fold_applyRes (now n tok : Nat) (due : Option Nat) (rs : List Res) (th : Thread)
    (hok : ∀ r ∈ rs, r.ok) (hnd : (rs.map Res.key).Nodup) (hf : ∀ r ∈ rs, ∀ p ∈ th.pend, (p.file, p.num) ≠ r.key) :
    (∀ r l, l < 32 → sget (rs.foldl (applyRes now n tok due) th).v (32 * r + l) = (resV rs r l).getD (sget th.v (32 * r + l))) ∧
    (∀ r, sget (rs.foldl (applyRes now n tok due) th).k r = (resK rs r).getD (sget th.k r)) ∧
    (∀ r l, l < 32 → (sget (rs.foldl (applyRes now n tok due) th).p r).getLsbD l = (resP rs r l).getD ((sget th.p r).getLsbD l)) ∧
    ∃ v k p pd, rs.foldl (applyRes now n tok due) th = { th with v := v, k := k, p := p, pend := pd } := by
  induction rs generalizing th with
  | nil => exact ⟨fun _ _ _ => rfl, fun _ => rfl, fun _ _ _ => rfl, th.v, th.k, th.p, th.pend, rfl⟩
  | cons a rs ih =>
    simp only [List.map_cons, List.nodup_cons] at hnd
    have key : ∀ (u : Thread), (∀ p ∈ u.pend, p ∈ th.pend ∨ (p.file, p.num) = a.key) →
        ∀ r ∈ rs, ∀ p ∈ u.pend, (p.file, p.num) ≠ r.key := by
      intro u hu r hr p hp
      rcases hu p hp with h | h
      · exact hf r (by simp [hr]) p h
      · rw [h]
        intro hc
        exact hnd.1 (List.mem_map.mpr ⟨r, hr, hc.symm⟩)
    have hfa := hf a (by simp)
    cases a with
    | v d vals =>
      obtain ⟨hl, hn⟩ : (∀ x ∈ vals, x.1 < 32) ∧ (vals.map Prod.fst).Nodup := hok (.v d vals) (by simp)
      have hflt : (vals.filter fun e => !raceKeeps th now n 0 d e.1) = vals := by
        rw [List.filter_eq_self]
        intro x _
        rw [raceKeeps_fresh hfa]; rfl
      have h0 := ih (applyRes now n tok due th (.v d vals)) (fun r hr => hok r (by simp [hr])) hnd.2
        (key _ (by
          simp only [applyRes, hflt]
          intro p hp
          rcases List.mem_append.mp hp with h | h
          · exact Or.inl h
          · simp only [List.mem_singleton] at h; subst h; exact Or.inr rfl))
      simp only [List.foldl_cons]
      obtain ⟨hv, hk, hp, v', k', p', pd, he⟩ := h0
      simp only [applyRes, hflt] at hv hk hp he ⊢
      refine ⟨fun r l hlt => ?_, hk, hp, v', k', p', pd, he⟩
      rw [hv r l hlt, sget_wrV _ _ _ hl hn _ _ hlt]
      simp only [resV]
      by_cases hd : d = r
      · subst hd
        have hnone : resV rs d l = none := by
          have : ∀ (rs : List Res), (0, d) ∉ rs.map Res.key → resV rs d l = none := by
            intro rs
            induction rs with
            | nil => intro _; rfl
            | cons b bs ih2 =>
              intro hb
              simp only [List.map_cons, List.mem_cons, not_or] at hb
              cases b with
              | v d2 vs2 =>
                have : ¬ d2 = d := by intro hc; subst hc; exact hb.1 rfl
                simp only [resV, if_neg this]; exact ih2 hb.2
              | k d2 x2 => exact ih2 hb.2
              | p d2 m2 b2 => exact ih2 hb.2
          exact this rs hnd.1
        rw [hnone]
        simp only [if_true, Option.getD_none]
        cases (vals.find? fun x => x.1 == l) <;> rfl
      · simp [hd]
    | k d x =>
      have h0 := ih (applyRes now n tok due th (.k d x)) (fun r hr => hok r (by simp [hr])) hnd.2
        (key _ (by
          simp only [applyRes, raceKeeps_fresh hfa]
          intro p hp
          rcases List.mem_append.mp hp with h | h
          · exact Or.inl h
          · simp only [List.mem_singleton] at h; subst h; exact Or.inr rfl))
      simp only [List.foldl_cons]
      obtain ⟨hv, hk, hp, v', k', p', pd, he⟩ := h0
      simp only [applyRes, raceKeeps_fresh hfa] at hv hk hp he ⊢
      refine ⟨hv, fun r => ?_, hp, v', k', p', pd, he⟩
      have h1 := hk r
      simp only [Bool.false_eq_true, if_false] at h1 ⊢
      rw [h1, sget_sset]
      simp only [resK]
      by_cases hd : d = r
      · subst hd
        have hnone : resK rs d = none := by
          have : ∀ (rs : List Res), (1, d) ∉ rs.map Res.key → resK rs d = none := by
            intro rs
            induction rs with
            | nil => intro _; rfl
            | cons b bs ih2 =>
              intro hb
              simp only [List.map_cons, List.mem_cons, not_or] at hb
              cases b with
              | k d2 x2 =>
                have : ¬ d2 = d := by intro hc; subst hc; exact hb.1 rfl
                simp only [resK, if_neg this]; exact ih2 hb.2
              | v d2 x2 => exact ih2 hb.2
              | p d2 m2 b2 => exact ih2 hb.2
          exact this rs hnd.1
        simp [hnone]
      · have : ¬ r = d := fun h => hd h.symm
        simp [hd, this]
    | p d m b =>
      by_cases h31 : d = 31
      · have h0 := ih th (fun r hr => hok r (by simp [hr])) hnd.2 (fun r hr => hf r (by simp [hr]))
        simp only [List.foldl_cons]
        have ha : applyRes now n tok due th (.p d m b) = th := by simp [applyRes, h31]
        rw [ha]
        refine ⟨h0.1, h0.2.1, fun r l hl => ?_, h0.2.2.2⟩
        rw [h0.2.2.1 r l hl]
        simp [resP, h31]
      · have hm : (m &&& maskOf fun l => !raceKeeps th now n 2 d l) = m := by
          apply BitVec.eq_of_getLsbD_eq
          intro j hj
          simp only [BitVec.getLsbD_and]
          rw [getLsbD_maskOf _ _ hj, raceKeeps_fresh hfa]
          simp
        have h0 := ih (applyRes now n tok due th (.p d m b)) (fun r hr => hok r (by simp [hr])) hnd.2
          (key _ (by
            simp only [applyRes, hm, if_neg h31]
            intro p hp
            rcases List.mem_append.mp hp with h | h
            · exact Or.inl h
            · simp only [List.mem_singleton] at h; subst h; exact Or.inr rfl))
        simp only [List.foldl_cons]
        obtain ⟨hv, hk, hp, v', k', p', pd, he⟩ := h0
        simp only [applyRes, hm, if_neg h31] at hv hk hp he ⊢
        refine ⟨hv, hk, fun r l hl => ?_, v', k', p', pd, he⟩
        rw [hp r l hl, sget_sset]
        simp only [resP]
        by_cases hd : d = r
        · subst hd
          have hnone : resP rs d l = none := by
            have : ∀ (rs : List Res), (2, d) ∉ rs.map Res.key → resP rs d l = none := by
              intro rs
              induction rs with
              | nil => intro _; rfl
              | cons b bs ih2 =>
                intro hb
                simp only [List.map_cons, List.mem_cons, not_or] at hb
                cases b with
                | p d2 m2 b2 =>
                  have : ¬ d2 = d := by intro hc; subst hc; exact hb.1 rfl
                  simp only [resP, this, false_and, if_false]; exact ih2 hb.2
                | v d2 x2 => exact ih2 hb.2
                | k d2 x2 => exact ih2 hb.2
            exact this rs hnd.1
          simp only [hnone, if_true, Option.getD_none, true_and, ne_eq, h31, not_false_eq_true,
            BitVec.getLsbD_or, BitVec.getLsbD_and, BitVec.getLsbD_not, hl, decide_true, Bool.true_and]
          cases hml : m.getLsbD l <;> simp
        · have : ¬ r = d := fun h => hd h.symm
          simp [hd, this]

/-! ### What closing an issue keeps -/

theorem endSplit_held (th : Thread) (sid : Nat) (sp : Split) (entry : Nat) (m em : Word) (c : Bool) (fs : List Fence) :
    (endSplit th sid sp entry m em c fs).held = th.held := by
  unfold endSplit
  repeat' (first | split | dsimp only)
  all_goals rfl

theorem settleOne_held (th : Thread) (sid : Nat) (sp : Split) (u : Thread) (h : settleOne th sid sp = some u) : u.held = th.held := by
  unfold settleOne at h
  repeat' (first | split at h | dsimp only at h)
  all_goals first | contradiction | skip
  all_goals simp only [Option.some.injEq] at h
  all_goals subst h
  all_goals first | rfl | (rw [endSplit_held]; rfl)

theorem settle_held (n : Nat) (th : Thread) : (settle n th).held = th.held := by
  induction n generalizing th with
  | zero => rfl
  | succ n ih =>
    unfold settle
    split
    · rename_i u hu
      rw [ih]
      obtain ⟨e, -, he⟩ := List.exists_of_findSome?_eq_some hu
      exact settleOne_held th e.1 e.2 u he
    · split <;> rfl

theorem settle_frags (n : Nat) (th : Thread) (h : th.splits = []) : (settle n th).frags = th.frags := by
  cases n with
  | zero => rfl
  | succ n =>
    unfold settle
    rw [h]
    simp only [List.findSome?_nil]
    split <;> rfl

theorem closeIssue_held (i : Instr) (e : Env) (th : Thread) : (closeIssue i e th).held = th.held := by
  unfold closeIssue
  split <;> exact settle_held 40 _

theorem advance_held (i : Instr) (e : Env) (th : Thread) : (advance i e th).held = th.held := by
  unfold advance
  split <;> rfl

theorem arrive_pc (th : Thread) (f : Frag) : (arrive th f).pc = f.pc := by
  unfold arrive
  repeat' split
  all_goals rfl

theorem closeIssue_pc (i : Instr) (e : Env) (th : Thread) (h : th.splits = []) (fi : Nat) :
    (tget (closeIssue i e th).frags fi).map (·.pc) = (tget th.frags fi).map (·.pc) := by
  unfold closeIssue
  simp only [tget_tmap, Option.map_map]
  rw [settle_frags]
  · split
    all_goals
      simp only [tget_tmod]
      split
      · subst_vars; cases tget th.frags e.fi <;> rfl
      · cases tget th.frags fi <;> rfl
  · split <;> exact h

theorem advance_pc (i : Instr) (e : Env) (th : Thread) (fr : Frag) (h : tget th.frags e.fi = some fr) :
    (tget (advance i e th).frags e.fi).map (·.pc) = some (fr.pc + 12) := by
  unfold advance
  rw [h]
  simp [arrive_pc]

theorem advance_splits (i : Instr) (e : Env) (th : Thread) : (advance i e th).splits = th.splits := by
  unfold advance
  split <;> rfl

theorem held_v {a b : Thread} (h : a.held = b.held) : a.v = b.v := (congrArg (fun t : Thread => t.v) h : a.held.v = b.held.v)
theorem held_k {a b : Thread} (h : a.held = b.held) : a.k = b.k := (congrArg (fun t : Thread => t.k) h : a.held.k = b.held.k)
theorem held_p {a b : Thread} (h : a.held = b.held) : a.p = b.p := (congrArg (fun t : Thread => t.p) h : a.held.p = b.held.p)
theorem held_aside {a b : Thread} (h : a.held = b.held) : a.aside = b.aside := by
  unfold Thread.aside; rw [h]

/-! ### Tracing -/

theorem noteStore_unwatched (m : Memory) (a n : Nat) (f : Frag) : (noteStore m a n f).unwatched = f.unwatched := by
  unfold noteStore
  split
  · rename_i d w ws sys st tmo tok hp
    simp only [Frag.unwatched, hp, List.map_map]
    congr 2
    apply List.map_congr_left
    intro x _
    simp only [Function.comp]
    split <;> rfl
  · rfl

theorem Watches.refl (s : State) (j : Nat) : Watches s s j := ⟨rfl, fun _ => rfl⟩
theorem Watches.trans {a b c : State} {j : Nat} (h : Watches a b j) (g : Watches b c j) : Watches a c j :=
  ⟨g.1.trans h.1, fun fi => (g.2 fi).trans (h.2 fi)⟩
theorem Watches.of_eq {s t : State} (h : t.threads = s.threads) (j : Nat) : Watches s t j := by
  unfold Watches; rw [h]; exact ⟨rfl, fun _ => rfl⟩

/-- Whatever reads nothing of the fragments is the same. -/
theorem Watches.map {s t : State} {j : Nat} (h : Watches s t j) {β : Type} (g : Thread → β)
    (hg : ∀ th : Thread, g { th with frags := [] } = g th) : (tget t.threads j).map g = (tget s.threads j).map g := by
  have hk := congrArg (Option.map g) h.1
  have hc : (g ∘ fun th : Thread => { th with frags := [] }) = g := funext hg
  rwa [Option.map_map, Option.map_map, hc] at hk

theorem Frag.unwatched_pc (f : Frag) : f.unwatched.pc = f.pc := by
  unfold Frag.unwatched; split <;> rfl

theorem Watches.pc {s t : State} {tid : Nat} (h : Watches s t tid) (fi : Nat) : pcAt t tid fi = pcAt s tid fi := by
  have hc : ((fun f : Frag => f.pc) ∘ Frag.unwatched) = fun f => f.pc := funext Frag.unwatched_pc
  have := congrArg (Option.map fun f : Frag => f.pc) (h.2 fi)
  rwa [Option.map_map, Option.map_map, hc] at this

/-- A change of one fragment of one thread that only notes what a watch has seen. -/
theorem modFrag_watches (s : State) (tid fi : Nat) (g : Frag → Frag) (hg : ∀ f, (g f).unwatched = f.unwatched) (j : Nat) :
    Watches s (modThread s tid fun th => { th with frags := tmod th.frags fi g }) j := by
  by_cases hj : j = tid
  · subst hj
    unfold Watches
    rw [modThread_threads, tget_tmod, if_pos rfl]
    cases tget s.threads j with
    | none => exact ⟨rfl, fun _ => rfl⟩
    | some th =>
      refine ⟨rfl, fun k => ?_⟩
      simp only [Option.map_some, Option.bind_some, tget_tmod]
      split
      · subst_vars
        rw [Option.map_map]
        congr 1
        exact funext hg
      · rfl
  · unfold Watches
    rw [modThread_threads, tget_tmod, if_neg hj]
    exact ⟨rfl, fun _ => rfl⟩

theorem foldl_watches {α : Type} (f : State → α → State) (j : Nat) (hf : ∀ s x, Watches s (f s x) j) (xs : List α) (s : State) :
    Watches s (xs.foldl f s) j := by
  induction xs generalizing s with
  | nil => exact Watches.refl s j
  | cons x xs ih => exact (hf s x).trans (ih _)

theorem storeKey_watches (s : State) (a : Nat) (bs : List Byte) (j : Nat) : Watches s (storeKey s a bs) j := by
  unfold storeKey
  refine Watches.trans (b := { s with mem := s.mem.writeN a bs }) (Watches.of_eq rfl j) ?_
  refine Watches.trans (foldl_watches _ j (fun s x => ?_) _ _) (foldl_watches _ j (fun s x => Watches.of_eq (after_threads ..) j) _ _)
  exact (modFrag_watches s x.1 x.2 _ (noteStore_unwatched _ _ _) j).trans (Watches.of_eq (after_threads ..) j)

theorem lacewing_watches (s : State) (st k tag sid : Nat) (m : Word) (pc : Dword) (j : Nat) :
    Watches s (lacewing s st k tag sid m pc) j := by
  unfold lacewing
  split
  · exact Watches.refl s j
  · rename_i u _
    have h (v : Lace) : Watches s { s with lace := tset s.lace st v } j := Watches.of_eq rfl j
    dsimp only
    split
    · exact Watches.refl s j
    · split
      · exact (h _).trans (storeKey_watches _ _ _ j)
      · exact ((h _).trans (storeKey_watches _ _ _ j)).trans (storeKey_watches _ _ _ j)

theorem lacewing_off (s : State) (h : s.lace = []) (st k tag sid : Nat) (m : Word) (pc : Dword) :
    lacewing s st k tag sid m pc = s := by
  simp [lacewing, h]

theorem traceFuse_watches (e : Env) (th : Thread) (s : State) (x : Nat × Split) (j : Nat) : Watches s (traceFuse e th s x) j := by
  unfold traceFuse
  repeat' (first | split | dsimp only)
  all_goals first | exact Watches.refl s j | exact lacewing_watches _ _ _ _ _ _ _ j

theorem traceFuses_watches (e : Env) (s : State) (j : Nat) : Watches s (traceFuses e s) j := by
  unfold traceFuses
  split
  · exact Watches.refl s j
  · exact foldl_watches _ j (fun s x => traceFuse_watches e _ s x j) _ _

theorem traceFuses_off (e : Env) (s : State) (hl : s.lace = []) : traceFuses e s = s := by
  unfold traceFuses
  split
  · rfl
  · rename_i th _
    have h1 : ∀ x, traceFuse e th s x = s := by
      intro x
      unfold traceFuse
      repeat' (first | split | dsimp only)
      all_goals first | rfl | exact lacewing_off s hl ..
    generalize e.th.splits = xs
    induction xs with
    | nil => rfl
    | cons x xs ih => rw [List.foldl_cons, h1]; exact ih

/-! ### Looking for a save -/

@[simp] theorem saveCheck_threads (s : State) (bid : Nat) : (saveCheck s bid).threads = s.threads := by
  unfold saveCheck
  repeat' (first | split | dsimp only)
  all_goals first | rfl | exact after_threads ..

theorem saveCheck_undisturbed (s : State) (bid : Nat) : Undisturbed s (saveCheck s bid) := by
  unfold saveCheck
  repeat' (first | split | dsimp only)
  all_goals (constructor <;> simp)

/-! ### Finishing an instruction that is performed at once -/

theorem Undisturbed.refl (s : State) : Undisturbed s s := by constructor <;> rfl

theorem Undisturbed.trans {a b c : State} (h : Undisturbed a b) (g : Undisturbed b c) : Undisturbed a c where
  mem := g.mem.trans h.mem
  time := g.time.trans h.time
  l1 := g.l1.trans h.l1
  l0 := g.l0.trans h.l0
  tlb := g.tlb.trans h.tlb
  locks := g.locks.trans h.locks
  blocks := g.blocks.trans h.blocks
  grids := g.grids.trans h.grids
  cmds := g.cmds.trans h.cmds
  mxq := g.mxq.trans h.mxq
  nests := g.nests.trans h.nests
  ctxs := g.ctxs.trans h.ctxs
  queues := g.queues.trans h.queues
  qlinks := g.qlinks.trans h.qlinks
  intervals := g.intervals.trans h.intervals
  slots := g.slots.trans h.slots
  parts := g.parts.trans h.parts
  leases := g.leases.trans h.leases
  granules := g.granules.trans h.granules
  scrubQ := g.scrubQ.trans h.scrubQ
  quarters := g.quarters.trans h.quarters
  cicadaK := g.cicadaK.trans h.cicadaK
  fns := g.fns.trans h.fns
  msix := g.msix.trans h.msix
  vecs := g.vecs.trans h.vecs
  pkg := g.pkg.trans h.pkg
  lnk := g.lnk.trans h.lnk
  net := g.net.trans h.net
  images := g.images.trans h.images

theorem count_undisturbed (s : State) (c n k : Nat) : Undisturbed s (count s c n k) := by
  unfold count
  repeat' split
  all_goals (constructor <;> rfl)

/-- Everything that finishing a performed instruction can do: its results are in the registers of its thread, of which nothing
else that it holds has changed, the fragment stands at the next instruction, and all else is as the instruction left it. -/
theorem finish_done (i : Instr) (e : Env) (s' : State) (rs : List Res) (th : Thread)
    (hth : tget s'.threads e.tid = some th) (hp : th.pend = [])
    (hok : ∀ r ∈ rs, r.ok) (hnd : (rs.map Res.key).Nodup) :
    Regs s' (finish i e (.done s' rs)) e.tid (resV rs) (resK rs) (resP rs) ∧
    (tget (finish i e (.done s' rs)).threads e.tid).map Thread.aside = some th.aside ∧
    (∀ fr, th.splits = [] → tget th.frags e.fi = some fr → pcAt (finish i e (.done s' rs)) e.tid e.fi = some (fr.pc + 12)) ∧
    (∀ j, j ≠ e.tid → Watches s' (finish i e (.done s' rs)) j) ∧
    (s'.lace = [] → ∀ j, j ≠ e.tid → tget (finish i e (.done s' rs)).threads j = tget s'.threads j) ∧
    (s'.lace = [] → Undisturbed s' (finish i e (.done s' rs))) := by
  generalize hg : (fun th => closeIssue i e (advance i e (commitRes i e rs th))) = g
  generalize ha : modThread { s' with nextId := s'.nextId + 1, freeCtr := s'.freeCtr + 1 } e.tid g = a
  have hat : a.threads = tmod s'.threads e.tid g := by rw [← ha]; rfl
  have hw (j : Nat) : Watches a (finish i e (.done s' rs)) j := by
    have : Watches a (traceFuses e a) j := traceFuses_watches e a j
    unfold finish
    simp only [hg, ha]
    refine Watches.trans ?_ (Watches.of_eq (saveCheck_threads ..) j)
    split
    · exact this.trans (Watches.of_eq (after_threads ..) j)
    · exact this
  obtain ⟨hv, hk, hpr, v', k', p', pd, hrec⟩ :=
    fold_applyRes e.s.time e.s.freeCtr e.tok (dueTime i e) rs { th with pend := th.pend.filter (stillPend e.s.time) } hok hnd
      (by simp [hp])
  have hc : commitRes i e rs th = { th with v := v', k := k', p := p', pend := pd } := by
    unfold commitRes; rw [hrec]
  have hheld : (closeIssue i e (advance i e (commitRes i e rs th))).held = (commitRes i e rs th).held := by
    rw [closeIssue_held, advance_held]
  have hget : tget a.threads e.tid = some (closeIssue i e (advance i e (commitRes i e rs th))) := by
    rw [hat, tget_tmod, if_pos rfl, hth, ← hg]; rfl
  have hcv : (commitRes i e rs th).v = v' := by rw [hc]
  have hck : (commitRes i e rs th).k = k' := by rw [hc]
  have hcp : (commitRes i e rs th).p = p' := by rw [hc]
  rw [hrec] at hv hk hpr
  refine ⟨⟨?_, ?_, ?_⟩, ?_, ?_, ?_, ?_, ?_⟩
  · intro r l hl
    simp only [vAt]
    rw [(hw _).map _ (fun _ => rfl)]
    simp only [hget, hth, Option.map_some, Option.getD_some]
    rw [held_v hheld, hcv]
    exact hv r l hl
  · intro r
    simp only [kAt]
    rw [(hw _).map _ (fun _ => rfl)]
    simp only [hget, hth, Option.map_some, Option.getD_some]
    rw [held_k hheld, hck]
    exact hk r
  · intro r l hl
    simp only [pAt]
    rw [(hw _).map _ (fun _ => rfl)]
    simp only [hget, hth, Option.map_some, Option.getD_some]
    rw [held_p hheld, hcp]
    exact hpr r l hl
  · rw [(hw _).map _ (fun _ => rfl), hget, Option.map_some, held_aside hheld, hc]
    rfl
  · intro fr hs hf
    rw [(hw _).pc]
    simp only [pcAt, hget, Option.bind_some]
    rw [closeIssue_pc, advance_pc i e _ fr]
    · rw [hc]; exact hf
    · rw [advance_splits, hc]; exact hs
  · intro j hj
    refine Watches.trans ?_ (hw j)
    unfold Watches
    rw [hat, tget_tmod, if_neg hj]
    exact ⟨rfl, fun _ => rfl⟩
  · intro hl j hj
    have hl' : a.lace = [] := by rw [← ha]; exact hl
    have : (finish i e (.done s' rs)).threads = a.threads := by
      unfold finish
      simp only [hg, ha, traceFuses_off _ _ hl', saveCheck_threads]
      split <;> simp
    rw [this, hat, tget_tmod, if_neg hj]
  · intro hl
    unfold finish
    simp only
    rw [traceFuses_off _ _ (by simpa using hl)]
    refine Undisturbed.trans ?_ (saveCheck_undisturbed ..)
    split <;> (constructor <;> simp)

/-- An instruction that issues and is performed. -/
theorem issue_eq {i : Instr} {s : State} {e : Env} (hi : Issues i s e) (body : Env → Act) :
    issue i body s = .next (finish i (countIssue e) (body (countIssue e))) := by
  obtain ⟨h, hh, he⟩ := hi.parts
  have hs : shortStall i e = none := by
    have hp : ∀ w r, pendLanes i e w r = 0 := by intro w r; simp [pendLanes, hi.clean]
    unfold shortStall
    split
    · rfl
    · rw [List.findSome?_eq_none_iff]; intro r _; simp [hp]
  have ho : (!e.fr.fences.isEmpty && ordered (opOf i)) = false := by
    rcases hi.order with h | h <;> simp [h]
  simp [issue, hh, he, issueIn, hi.can, hi.legal, hs, ho]

/-- An instruction that only computes registers: everything it does. -/
theorem issue_done {i : Instr} {s : State} {e : Env} (hi : Issues i s e) (body : Env → Act) (rs : List Res)
    (hb : body (countIssue e) = .done (countIssue e).s rs) (hok : ∀ r ∈ rs, r.ok) (hnd : (rs.map Res.key).Nodup) :
    ∃ t, issue i body s = .next t ∧ Computed e t (resV rs) (resK rs) (resP rs) := by
  refine ⟨_, issue_eq hi body, ?_⟩
  rw [hb]
  have hcs : Undisturbed e.s (countIssue e).s := count_undisturbed ..
  have hct : (countIssue e).s.threads = e.s.threads := by simp [countIssue]
  have hth : tget (countIssue e).s.threads e.tid = some e.th := by rw [hct, hi.same]; exact hi.thread
  obtain ⟨h1, h2, h3, h4, h6, h5⟩ := finish_done i (countIssue e) (countIssue e).s rs e.th hth hi.clean hok hnd
  have hv : ∀ r l, vAt (countIssue e).s e.tid r l = vAt e.s e.tid r l := by intro r l; simp [vAt, hct]
  have hk : ∀ r, kAt (countIssue e).s e.tid r = kAt e.s e.tid r := by intro r; simp [kAt, hct]
  have hp : ∀ r l, pAt (countIssue e).s e.tid r l = pAt e.s e.tid r l := by intro r l; simp [pAt, hct]
  refine ⟨⟨fun r l hl => ?_, fun r => ?_, fun r l hl => ?_⟩, h2, fun hsp => h3 e.fr hsp hi.frag, fun j hj => ?_, fun hl j hj => ?_, fun hl => ?_⟩
  · rw [← hv]; exact h1.v r l hl
  · rw [← hk]; exact h1.k r
  · rw [← hp]; exact h1.p r l hl
  · exact (Watches.of_eq hct j).trans (h4 j hj)
  · rw [← hct]; exact h6 (by simpa [countIssue] using hl) j hj
  · exact hcs.trans (h5 (by simpa [countIssue] using hl))

/-! ### The shapes of results -/

theorem find_lane (m : Word) (x : Nat → Word) (l : Nat) :
    (((lanesOf m).map fun l => (l, x l)).find? fun y => y.1 == l).map Prod.snd = if m.getLsbD l then some (x l) else none := by
  rw [List.find?_map, Option.map_map]
  cases h : m.getLsbD l with
  | false =>
    have : (lanesOf m).find? ((fun y : Nat × Word => y.1 == l) ∘ fun l => (l, x l)) = none := by
      rw [List.find?_eq_none]
      intro y hy hc
      simp only [Function.comp, beq_iff_eq] at hc
      subst hc
      rw [mem_lanesOf, h] at hy
      contradiction
    rw [this]; rfl
  | true =>
    cases hf : (lanesOf m).find? ((fun y : Nat × Word => y.1 == l) ∘ fun l => (l, x l)) with
    | none =>
      rw [List.find?_eq_none] at hf
      exact absurd (by simp) (hf l ((mem_lanesOf m l).mpr h))
    | some y =>
      have := List.find?_some hf
      simp only [Function.comp, beq_iff_eq] at this
      subst this
      rfl

theorem lanes_ok (m : Word) (d : Nat) (x : Nat → Word) : (Res.v d ((lanesOf m).map fun l => (l, x l))).ok := by
  constructor
  · intro y hy
    obtain ⟨l, hl, rfl⟩ := List.mem_map.mp hy
    exact lanesOf_lt m l hl
  · rw [List.map_map]
    have : (Prod.fst ∘ fun l => (l, x l)) = id := rfl
    rw [this, List.map_id]
    exact List.Pairwise.filter _ List.nodup_range

theorem act_zero {e : Env} (h : e.act = 0) (l : Nat) : e.act.getLsbD l = false := by rw [h]; simp

theorem res_app (a b : List Res) :
    (∀ r l, resV (a ++ b) r l = (resV a r l <|> resV b r l)) ∧ (∀ r, resK (a ++ b) r = (resK a r <|> resK b r)) ∧
    (∀ r l, resP (a ++ b) r l = (resP a r l <|> resP b r l)) := by
  induction a with
  | nil => refine ⟨fun _ _ => ?_, fun _ => ?_, fun _ _ => ?_⟩ <;> simp [resV, resK, resP]
  | cons x a ih =>
    obtain ⟨h1, h2, h3⟩ := ih
    cases x with
    | v d vals =>
      refine ⟨fun r l => ?_, h2, h3⟩
      simp only [List.cons_append, resV, h1]
      split
      · cases ((vals.find? fun x => x.1 == l).map Prod.snd) <;> rfl
      · rfl
    | k d x =>
      refine ⟨h1, fun r => ?_, h3⟩
      simp only [List.cons_append, resK, h2]
      split <;> rfl
    | p d m y =>
      refine ⟨h1, h2, fun r l => ?_⟩
      simp only [List.cons_append, resP, h3]
      split <;> rfl

/-- What the results of a destination write. -/
theorem res_wrD (e : Env) (kd : Bool) (d : BitVec 11) (x : Nat → Word) :
    resV (wrD e kd d x) = (if kd then noV else vTo e d x) ∧ resK (wrD e kd d x) = (if kd then kTo e d x else noK) ∧
    resP (wrD e kd d x) = noP := by
  unfold wrD
  by_cases h : e.act = 0#32
  · rw [if_pos (by simp [h])]
    refine ⟨?_, ?_, rfl⟩
    · funext r l
      cases kd <;> simp [resV, noV, vTo, act_zero h]
    · funext r
      cases kd <;> simp [resK, noK, kTo, h]
  · rw [if_neg (by simp [h])]
    cases kd with
    | true =>
      refine ⟨?_, ?_, ?_⟩
      · funext r l; simp [resV, noV]
      · funext r
        by_cases hd : d.toNat = r
        · simp [resK, kTo, hd, h]
        · have : ¬ r = d.toNat := fun hc => hd hc.symm
          simp [resK, kTo, hd, this]
      · funext r l; simp [resP, noP]
    | false =>
      refine ⟨?_, ?_, ?_⟩
      · funext r l
        simp only [resV, find_lane, vTo, Bool.false_eq_true, if_false]
        by_cases hd : d.toNat = r
        · by_cases hl : e.act.getLsbD l <;> simp [hd, hl]
        · have : ¬ r = d.toNat := fun hc => hd hc.symm
          simp [hd, this]
      · funext r; simp [resK, noK]
      · funext r l; simp [resP, noP]

theorem ok_wrD (e : Env) (kd : Bool) (d : BitVec 11) (x : Nat → Word) : ∀ r ∈ wrD e kd d x, r.ok := by
  unfold wrD
  repeat' split
  all_goals simp only [List.mem_singleton, List.not_mem_nil, forall_eq, false_imp_iff, implies_true]
  · trivial
  · exact lanes_ok ..

theorem key_wrD (e : Env) (kd : Bool) (d : BitVec 11) (x : Nat → Word) :
    (wrD e kd d x).map Res.key = if e.act = 0#32 then [] else [(if kd then 1 else 0, d.toNat)] := by
  unfold wrD
  by_cases h : e.act = 0#32
  · simp [h]
  · cases kd <;> simp [h, Res.key]

theorem res_wrP (e : Env) (d : BitVec 11) (x : Nat → Bool) :
    resV (wrP e d x) = noV ∧ resK (wrP e d x) = noK ∧ resP (wrP e d x) = pTo e d x := by
  unfold wrP
  by_cases h : e.act = 0#32
  · rw [if_pos (by simp [h])]
    refine ⟨rfl, rfl, ?_⟩
    funext r l
    simp [resP, pTo, act_zero h]
  · rw [if_neg (by simp [h])]
    refine ⟨rfl, rfl, ?_⟩
    funext r l
    simp only [resP, pTo]
    by_cases hd : d.toNat = r
    · by_cases hl : e.act.getLsbD l
      · have h32 : l < 32 := BitVec.lt_of_getLsbD hl
        rw [getLsbD_maskOf _ _ h32]
        simp [hd, hl]
      · simp [hd, hl]
    · have : ¬ r = d.toNat := fun hc => hd hc.symm
      simp [hd, this]

theorem ok_wrP (e : Env) (d : BitVec 11) (x : Nat → Bool) : ∀ r ∈ wrP e d x, r.ok := by
  unfold wrP
  split
  all_goals simp only [List.mem_singleton, List.not_mem_nil, forall_eq, false_imp_iff, implies_true]
  trivial

theorem key_wrP (e : Env) (d : BitVec 11) (x : Nat → Bool) :
    (wrP e d x).map Res.key = if e.act = 0#32 then [] else [(2, d.toNat)] := by
  unfold wrP
  by_cases h : e.act = 0#32 <;> simp [h, Res.key]

/-! ### The shapes of instructions -/

/-- An instruction whose results go to its destination D. -/
theorem toD {i : Instr} {kd : Bool} {d : BitVec 11} {x : Env → Nat → Word} (body : Env → Act)
    (hx : ∀ s, exec i s = issue i body s)
    (hb : ∀ s e, Issues i s e → body (countIssue e) = .done (countIssue e).s (wrD (countIssue e) kd d (x e))) :
    ToD i kd d x := by
  intro s e hi
  obtain ⟨t, ht, hc⟩ := issue_done hi body _ (hb s e hi) (ok_wrD _ _ _ _) (by rw [key_wrD]; split <;> simp)
  refine ⟨t, (hx s).trans ht, ?_⟩
  obtain ⟨h1, h2, h3⟩ := res_wrD (countIssue e) kd d (x e)
  rw [h1, h2, h3] at hc
  exact hc

/-- An instruction whose results go to a pair. -/
theorem toPair {i : Instr} {kd : Bool} {d : BitVec 11} {x : Env → Nat → Dword} (body : Env → Act)
    (hx : ∀ s, exec i s = issue i body s)
    (hb : ∀ s e, Issues i s e → body (countIssue e) = .done (countIssue e).s (wrPair (countIssue e) kd d (x e))) :
    ToPair i kd d x := by
  intro s e hi
  have hd : ¬ d.toNat = (d.toNat + 1) % 2048 := by have := d.isLt; omega
  obtain ⟨t, ht, hc⟩ := issue_done hi body _ (hb s e hi)
    (by
      intro r hr
      rcases List.mem_append.mp hr with h | h
      · exact ok_wrD _ _ _ _ r h
      · exact ok_wrD _ _ _ _ r h)
    (by
      unfold wrPair
      rw [List.map_append, key_wrD, key_wrD]
      split
      · simp
      · simp [hd])
  refine ⟨t, (hx s).trans ht, ?_⟩
  unfold wrPair at hc
  obtain ⟨a1, a2, a3⟩ := res_app (wrD (countIssue e) kd d fun l => lo32 (x e l))
    (wrD (countIssue e) kd (d + 1) fun l => hi32 (x e l))
  rw [funext fun r => funext fun l => a1 r l, funext fun r => a2 r, funext fun r => funext fun l => a3 r l] at hc
  obtain ⟨h1, h2, h3⟩ := res_wrD (countIssue e) kd d fun l => lo32 (x e l)
  obtain ⟨g1, g2, g3⟩ := res_wrD (countIssue e) kd (d + 1) fun l => hi32 (x e l)
  rw [h1, h2, h3, g1, g2, g3] at hc
  cases kd
  · exact hc
  · exact hc

/-- An instruction whose results go to a predicate. -/
theorem toP {i : Instr} {d : BitVec 11} {x : Env → Nat → Bool} (body : Env → Act)
    (hx : ∀ s, exec i s = issue i body s)
    (hb : ∀ s e, Issues i s e → body (countIssue e) = .done (countIssue e).s (wrP (countIssue e) d (x e))) :
    ToP i d x := by
  intro s e hi
  obtain ⟨t, ht, hc⟩ := issue_done hi body _ (hb s e hi) (ok_wrP _ _ _) (by rw [key_wrP]; split <;> simp)
  refine ⟨t, (hx s).trans ht, ?_⟩
  obtain ⟨h1, h2, h3⟩ := res_wrP (countIssue e) d (x e)
  rw [h1, h2, h3] at hc
  exact hc

/-! ### The canonical form of memory, through the operations that write it -/

theorem foldl_mem {α : Type} (f : State → α → State) (hf : ∀ s x, (f s x).mem = s.mem) (xs : List α) (s : State) :
    (xs.foldl f s).mem = s.mem := by
  induction xs generalizing s with
  | nil => rfl
  | cons x xs ih => exact (ih _).trans (hf s x)

/-- What a store leaves of memory: its bytes at its address, and everything else. -/
theorem storeKey_mem (s : State) (a : Nat) (bs : List Byte) : (storeKey s a bs).mem = s.mem.writeN a bs := by
  unfold storeKey
  dsimp only
  rw [foldl_mem _ (fun _ _ => after_mem ..), foldl_mem _ (fun _ _ => (after_mem ..).trans (modThread_mem ..))]

theorem storeKey_inv (s : State) (a : Nat) (bs : List Byte) (h : s.Inv) : (storeKey s a bs).Inv := by
  unfold State.Inv
  rw [storeKey_mem]
  exact Memory.wf_writeN bs _ a h

theorem setBit_inv (s : State) (key e b : Nat) (h : s.Inv) : (setBit s key e b).Inv := by
  unfold setBit
  split
  · exact h
  · exact Memory.wf_writeN _ _ _ h

end Sys2Proof.Machine
end

