-- ==== Sys2Proof/Tests/Slice0.lean ====
section
/-! SUPPORT. Tests: ill-formed terms that the checks refuse, values worked out by hand from the spec, and for every statement with
hypotheses a concrete state and operands that meet all of them together (`witness_...`, one theorem per statement, its clauses in
the statement's order). The encodings written out from the spec's tables are theorems of Sys2Proof/Decode.lean. -/
namespace Sys2Proof.Tests
set_option Elab.async false
open Sys2Proof.Machine

/-! ### Small states -/

/-- A block of one strand (thread 256, its fragment 0) and one control context (thread 320) of grid 1 and block 2, in context 4095 whose
page table maps the first 2 MiB; scratchpad of 1 KiB, tile store of 16 KiB. -/
def base : State :=
  let s := placeWord State.reset 0
  { s with
    timers := []
    grids := tmap s.grids fun _ g => { g with lrec := { g.lrec with scratch := 1024, tiles := 16384, regs := 2048, lx := 32 } } }

/-- The strand issues next; the control context issues next. -/
def st : State := { base with cur := 256 }
def sc : State := { base with cur := 320 }

/-- With another thread, fragment, block, grid, context. -/
def thr (s : State) (f : Thread → Thread) : State := { s with threads := tmap s.threads fun j th => if j = s.cur then f th else th }
def frg (s : State) (f : Frag → Frag) : State := thr s fun th => { th with frags := tmap th.frags fun _ r => f r }
def blk (s : State) (f : Block → Block) : State := { s with blocks := tmap s.blocks fun _ b => f b }
def grd (s : State) (f : Grid → Grid) : State := { s with grids := tmap s.grids fun _ g => f g }
def ctx (s : State) (f : Ctx → Ctx) : State := { s with ctxs := tmap s.ctxs fun _ c => f c }

/-- Operands of format R: v4 from v2, from v2 and v6, and from v2, v6 and v8, of a TYPE. -/
def r0 : FmtR := { d := 0, a := 0, b := 0, c := 0, kd := false, ka := .v, kb := .v, kc := .v, ty := 0, rnd := 0, sat := false, sub := 0 }
def r1 (ty : BitVec 4) : FmtR := { r0 with d := 4, a := 2, ty := ty }
def r2 (ty : BitVec 4) : FmtR := { r1 ty with b := 6 }
def r3 (ty : BitVec 4) : FmtR := { r2 ty with c := 8 }
/-- Operands of the other formats. -/
def fI : FmtI := { d := 4, a := 0, imm := 0x12345678, kd := false, ka := .v, ty := 0, sub := 0 }
def fM : FmtM := { d := 4, a := 2, off := 0, width := 6, ord := 0, scope := 3, cache := 0, ka := false, raw := false, sub := 0 }
def fA : FmtA := { d := 4, a := 2, b := 6, c := 0, off := 0, width := 0, ord := 0, scope := 3, noret := false }
def fB : FmtB := { tgt := 0, a := 0, ka := .v, sub := 0, rsv := 0 }
def fX : FmtX := { d := 0, a := 0, b := 0, imm := 0 }
def hd : Hdr := bareHdr

/-- Instruction `i` issues in `s` by a fragment that satisfies `p`: the condition `Issues` of the statements. -/
def issues (i : Instr) (s : State) (p : Env → Bool) : Bool :=
  match (hdr? i).bind (fun h => mkEnv h s) with
  | some e => canIssue e && ctxLegal i e && e.th.pend.isEmpty && e.fr.fences.isEmpty && p e
  | none => false

theorem issues_spec {i : Instr} {s : State} {p : Env → Bool} (h : issues i s p = true) : ∃ e, Issues i s e ∧ p e = true := by
  unfold issues at h
  split at h
  · rename_i e he
    simp only [Bool.and_eq_true] at h
    exact ⟨e, ⟨he, h.1.1.1.1, h.1.1.1.2, by simpa using h.1.1.2, .inl (by simpa using h.1.2)⟩, h.2⟩
  · cases h

def any (_ : Env) : Bool := true

/-- A state answers as a step does: its next state satisfies `p`. -/
def next (o : Host.Outcome State Fault Refusal) (p : State → Bool) : Bool :=
  match o with
  | .next t => p t
  | _ => false

/-- Register 4 of the strand after an instruction, lane 0. -/
def v4 (i : Instr) (s : State) : Option Word :=
  match exec i s with
  | .next t => some (vAt t s.cur 4 0)
  | _ => none

/-! ### Encoding and the step -/

theorem witness_EncodingRoundTrip : WellFormed (.iadd hd (r2 4)) = true ∧ (encode (.iadd hd (r2 4))).isSome = true := by decide +kernel

theorem witness_DecodingIsExact :
    (decode 0x005F3000_00801000_80018800).toOption.isSome = true ∧
    [(0 : IWord), 0xE00F0000_00000000_00000000, 0x325F0001_00000000_00000000].all (fun w => opField w = 0 || 0x380 ≤ opField w || w.getLsbD 64) = true := by
  decide +kernel

/-- NOP, as 13 R238 and R245 write it. -/
def nopWord : Nat := 0x325F0000_00000000_00000000
def fetches (s : State) (tid fi : Nat) : Bool := match fetchTurn s tid fi with | .ok _ => true | .error _ => false
def placed : State := State.reset.withFetchWord 96 nopWord

theorem witness_StepRunsDecoded_agenda :
    placed.agenda = [.issue 256 0] ∧ fetches { placed with agenda := [] } 256 0 = true := by decide +kernel
theorem witness_StepRunsDecoded_due :
    ((dueTurn State.reset).any fun x => match x.1 with | .event .moduleReset => true | _ => false) = true ∧ State.reset.agenda = [] := by
  decide +kernel
theorem witness_StepRunsDecoded_pick :
    let s := { placed with agenda := [], timers := [] }
    (dueTurn s).isNone = true ∧ firstPark s = none ∧ ((firstPick s).any fun p => fetches (markIssue s p) p.tid p.fi) = true := by decide +kernel
/-- The fragments of `placed` stand where no page is mapped. -/
theorem witness_StepRunsDecoded_park :
    let s := { placed with agenda := [], timers := [], threads := tmap placed.threads fun _ th => { th with frags := tmap th.frags fun _ f => { f with pc := 0x400000 } } }
    (dueTurn s).isNone = true ∧ firstPark s = some (256, 0) := by decide +kernel
theorem witness_StepRunsDecoded_cycle :
    let s := { State.reset with timers := [] }
    s.agenda = [] ∧ (dueTurn s).isNone = true ∧ firstPark s = none ∧ (firstPick s).isNone = true := by decide +kernel
/-- A thread may fetch, whose instruction does not cross a line: `n` bytes of code at `va` lie in one page, which `s` translates, and decode from the PC on. -/
def mayFetch (s : State) (tid : Nat) (cc : Bool) (held : List Byte) : Bool :=
  (bareEnv s tid 0).any fun e =>
    let pc := e.fr.pc.toNat
    let line := pc / 96 * 96
    let va := if cc then pc else line
    let n := if cc then 12 else 96
    decide (e.fr.park = .run) && !e.fr.frozen && !e.th.stopped && decide (e.blk.stage = .running) && (e.th.cc == cc) && decide (pc % 96 + 12 ≤ 96) &&
      decide (va % 4096 + n ≤ 4096) && ((tget (if cc then e.s else tick e.s).ctxs e.grid.ctx).any fun cx => isPaged cx e.unit va) &&
      (match pageOf (if cc then e.s else tick e.s) e.grid.ctx va .fetch e.unit with
       | (s', .ok l) => match pageTgt s' l.pte l.shift va with
         | .ok (.key k _) => !spanStalls s' k n && (decodeBytes (rdN s' (k + (pc - va)) 12)).toOption.isSome
         | _ => false
       | _ => false) &&
      (if held.isEmpty then cc || (heldL0 e e.s line).isEmpty
       else (e.s.l0.filter fun y => y.1 == e.blk.core && y.2.1 == e.grid.ctx && y.2.2.1 / 96 * 96 == line) == [(e.blk.core, e.grid.ctx, line, held)] &&
         held.length == 96 && (decodeBytes ((held.drop (pc % 96)).take 12)).toOption.isSome)
/-- The fragments of `placed` stand at 0x10EC, the second word of a line, where another NOP is. -/
def placedIn : State :=
  let s := frg { placed with cur := 256 } fun r => { r with pc := 0x10EC }
  { s with mem := s.mem.writeN (placeBase + 0x10EC) (leBytes nopWord 12) }
theorem witness_StepRunsDecoded_fetch :
    mayFetch placed 320 true [] = true ∧ mayFetch placedIn 256 false [] = true ∧
    mayFetch { placedIn with l0 := [(0, 4095, 0x10E0, leBytes (nopWord * 2 ^ 96) 96)] } 256 false (leBytes (nopWord * 2 ^ 96) 96) = true := by decide +kernel

theorem witness_InstructionsComplete :
    hdr? .counterCommit = none ∧ ((hdr? (.iadd hd (r2 4))).bind fun h => mkEnv h st).isSome = true ∧
    ((hdr? (.iadd hd (r2 4))).bind fun h => mkEnv h State.reset).isNone = true ∧
    (match step { State.reset with agenda := [.poke (2 ^ 80) [0]] } with | .fault _ => true | _ => false) = true := by decide +kernel

theorem witness_StepKeepsMemoryCanonical :
    State.reset.Inv ∧ next (step State.reset) (fun _ => true) = true ∧ placed.Inv ∧ next (step placed) (fun _ => true) = true := by
  unfold State.Inv
  decide +kernel

theorem witness_MemoryReadAfterWrite :
    placed.Inv ∧ (storeKey placed 5 [1, 2]).mem.readN 5 2 = [1, 2] ∧ watchers placed 5 2 = [] ∧ Memory.wf [(5, 1), (9, 2)] = true := by
  unfold State.Inv
  decide +kernel

/-- A result that is due at time 9 is on its way to v1. -/
def stPend : State := thr st fun th => { th with chk := true, pend := [{ tok := 0, file := 0, num := 2, mask := 1, old := [], due := some 9 }] }

theorem witness_IssueRules :
    ((mkEnv { hd with gp := 3, gn := true } st).any fun e => e.th.pend.isEmpty) = true ∧
    issues (.nop hd fB) st any = true ∧
    ((mkEnv hd stPend).any fun e => canIssue e && ctxLegal (.iadd hd (r2 4)) e && e.th.chk && (e.th.pend.any fun p =>
      stillPend stPend.time p && p.file != 1 && p.mask &&& e.act != 0 && (reads (.iadd hd (r2 4))).contains ⟨p.file, p.num⟩)) = true ∧
    ((mkEnv hd st).any fun e => canIssue e && !ctxLegal (.mxz hd fX) e) = true := by decide +kernel

/-! ### Integer, bit, compare and move -/

theorem witness_RotateRotates : issues (.rot hd (r2 0)) st any = true ∧ rotVal false 7 32 = 7 := by decide +kernel
theorem witness_ShiftsShift : issues (.shl hd (r2 0)) st any = true ∧ issues (.shr hd (r2 4)) st any = true := by decide +kernel
theorem witness_FieldExtract : issues (.bfe hd (r3 4)) st any = true := by decide +kernel

theorem witness_IntegerInstructions :
    [Instr.iadd hd (r2 4), .isub hd (r2 4), .iadd3 hd (r3 0), .imul hd (r2 4), .imulhi hd (r2 5), .imad hd (r3 4), .imin hd (r2 4),
      .imax hd (r2 4), .iabs hd (r1 0), .idiv hd (r2 4), .irem hd (r2 5), .idot4 hd (r3 1)].all (issues · st any) = true ∧
    ival (7 : Word) 4 ≠ 0 ∧ ival (7 : Word) 5 ≠ 0 := by decide +kernel

/-- Lane 0 of v2:v3 points into lane arena 0 of slot 0. -/
def stPtr : State := thr st fun th => { th with v := ssetList [] 96 [0xAE000000] }

theorem witness_PairsAndCarry :
    issues (.iaddc hd { r2 0 with kc := .p, c := 3 }) st any = true ∧ issues (.isubb hd { r2 0 with kc := .p, c := 3 }) st any = true ∧
    [Instr.imadw hd (r3 4), .iadd64 hd (r2 6), .isub64 hd (r2 6)].all (issues · st any) = true ∧
    issues (.aadd hd (r2 0)) st (fun e => (List.range 32).all fun l => op64At e .v 2 l == 0) = true ∧
    issues (.aadd hd (r2 0)) (thr stPtr fun th => { th with v := sset th.v 192 0xFFFFFFFF })
      (fun e => aaddKeeps (op64At e .v 2 0) (op64At e .v 2 0 + (opAt e 0 .v 6 0).signExtend 64) == false && e.act.getLsbD 0) = true := by decide +kernel

theorem witness_BitOperations :
    [Instr.lgc3 hd (r3 0), .dsh hd (r3 0), .popc hd (r1 0), .clz hd (r1 0), .brev hd (r1 0), .bfi hd (r3 0), .bshuf hd (r3 0)].all
      (issues · st any) = true := by decide +kernel

/-- Three predicates. -/
def fP : FmtR := { r0 with d := 1, a := 2, b := 3, c := 4, ka := .p, kb := .p, kc := .p }

theorem witness_Comparisons :
    issues (.isetp hd { r2 4 with kc := .p, c := 3 }) st any = true ∧ issues (.fsetp hd { r2 9 with kc := .p, c := 3 }) st any = true := by
  decide +kernel

theorem witness_PredicateLogic :
    issues (.psetp hd fP) st any = true ∧ WellFormed (.psetp hd { fP with ty := 8 }) = true := by decide +kernel

theorem witness_MatchLanes : issues (.lmatch hd (r1 0)) st any = true ∧ ((mkEnv hd st).any canIssue) = true := by decide +kernel

theorem witness_PredicateTransfers :
    issues (.p2v hd (r1 0)) st any = true ∧ issues (.v2p hd { r2 0 with d := 0 }) st any = true ∧ ((mkEnv hd st).any canIssue) = true := by
  decide +kernel

theorem witness_MovesAndRegisters :
    [Instr.sel hd { r2 0 with kc := .p, c := 3 }, .mov hd (r1 0), .movi hd fI, .bcast hd { r1 0 with ka := .k },
      .readlane hd { r2 0 with kd := true, kb := .imm }, .shfl hd { r2 0 with kb := .imm, kc := .imm, c := 32 },
      .redux hd (r1 4), .vote hd { r0 with ka := .p }, .getsr hd { r0 with d := 4, a := 0x0C, ka := .imm }].all (issues · st any) = true ∧
    issues (.setsr { hd with gn := true } { r0 with a := 0x0F, ka := .imm }) st (fun e => e.act = 0) = true ∧
    issues (.setsr hd { r0 with a := 0x0F, ka := .imm }) st (fun e => e.act ≠ 0 && !e.th.cc) = true ∧
    issues (.setsr hd { r0 with a := 0x11, ka := .imm }) sc (fun e => e.act ≠ 0 && e.th.cc) = true := by decide +kernel

/-! ### Floating point -/

/-- A grid whose format slot 0 holds a kind that R313 accepts, and whose slot 1 one that it excludes. -/
def stF : State := grd st fun g => { g with lrec := { g.lrec with slots := [0x1100000000000000, 0] } }

theorem witness_FloatInstructions :
    [Instr.fadd hd (r2 9), .fmul hd (r2 9), .ffma hd (r3 9), .fmin hd (r2 9), .fmax hd (r2 9), .frnd hd (r1 9), .fclass hd (r1 9),
      .fdot2 hd (r3 11), .fscale hd (r2 9), .ffrexp hd (r1 9), .fsqrt hd (r1 9), .fdiv hd (r2 9), .qshr hd (r3 0), .qmul hd (r2 0),
      .frcp hd (r1 9), .frsq hd (r1 9), .fex2 hd (r1 9), .flg2 hd (r1 9), .fsin hd (r1 9), .fcos hd (r1 9), .ftanh hd (r1 9),
      .cvt hd { r1 4 with sub := 9 }, .pack hd (r2 11), .unpk hd (r1 11), .bpnspl hd { r2 0 with kb := .imm, b := 1 },
      .bpnjn hd { r2 0 with kb := .imm, b := 1, kc := .imm, c := 8 }].all (issues · st any) = true ∧
    (0x41100000 : Nat) ≤ 0x41100000 := by decide +kernel

theorem witness_FloatInstructions_slots :
    issues (.cvtQ hd { r1 0 with kb := .imm, sub := 14 }) stF (fun e => cvtKindOk (slotOf e 0)) = true ∧
    issues (.cvtDq hd { r1 0 with kb := .imm, sub := 15 }) stF (fun e => cvtKindOk (slotOf e 0)) = true ∧
    issues (.cvtQ hd { r1 0 with kb := .imm, b := 1, sub := 14 }) stF (fun e => !cvtKindOk (slotOf e 1)) = true := by decide +kernel

/-! ### Control -/

def hasRoom (e : Env) (n : Nat) : Bool := decide (e.th.calls.length + n ≤ 1024) && decide (spillGran (e.th.calls.length + n) ≤ e.th.spill)
/-- All lanes enabled, no split, and the call stack has room. -/
def uni (n : Nat) (e : Env) : Bool := e.fr.em != 0 && e.th.splits.isEmpty && (e.act == e.fr.em) && hasRoom e n
/-- v2:v3 of every lane, and k2:k3, are 0x1000; the spill area is backed. -/
def stTgt : State := thr st fun th => { th with v := ssetList [] 64 (List.replicate 32 0x1000), k := ssetList [] 2 [0x1000], spill := 4 }
/-- The call stack holds a return to 0x1000. -/
def stCall : State := thr stTgt fun th => { th with calls := [{ serial := false, pc := 0x1000, owner := 0 }] }

theorem witness_UniformBranches :
    issues (.bra hd fB) stTgt (uni 0) = true ∧ issues (.bra { hd with gn := true } fB) stTgt (fun e => e.act == 0 && hasRoom e 0) = true ∧
    issues (.call hd fB) stTgt (uni 1) = true ∧
    issues (.brx hd { fB with a := 2 }) stTgt (fun e => uni 0 e && codeOk e 0x1000 && (List.range 32).all fun l => op64At e .v 2 l == 0x1000) = true ∧
    issues (.callx hd { fB with a := 2 }) stTgt (fun e => uni 1 e && codeOk e 0x1000 && (List.range 32).all fun l => op64At e .v 2 l == 0x1000) = true ∧
    issues (.ret hd fB) stCall (fun e => e.act == e.fr.em && (popRet e.th.calls (2 * e.fi)).any fun x => codeOk e x.1) = true := by decide +kernel

/-- Predicate 3 holds in lanes 0 to 3. -/
def stDiv : State := thr stTgt fun th => { th with p := sset [] 3 0xF }
def fragAt (m em : Word) (split : Nat) (pc : Dword) : Frag := { pc := pc, m := m, em := em, bmask := em, split := split, park := .join }
def thJoin : Thread :=
  { bid := 2, idx := 0, cc := false, nregs := 64, lanes := 0xFF, frags := [(0, fragAt 0xF 0xF 5 0x1100), (1, fragAt 0xF0 0xF0 5 0x1100)]
    splits := [(5, { addr := some 0x1100, dis := 0, parent := 0, entry := 0, inCont := false })] }

theorem witness_DivergenceAndFusion :
    issues (.bra { hd with gp := 3 } { fB with tgt := 4 }) stDiv (fun e => e.th.splits.isEmpty && hasRoom e 0 && e.act != 0 && e.act != e.fr.em &&
      (freeEntries e.th).head?.isSome && e.fr.rcv.isNone) = true ∧
    (thJoin.splits.all fun x => x.1 == 5 && x.2.addr == some 0x1100 && !x.2.serial && x.2.parent != 5 && x.2.dis == 0) = true ∧
    (thJoin.frags.all fun x => x.2.split == 5 && x.2.park == .join) = true ∧ thJoin.hand = none ∧ thJoin.exited &&& 0xFF = 0 := by decide +kernel

def wholeSplit (e : Env) : Bool := e.th.splits.isEmpty
/-- The strand stands in its continuation, its record serviced. -/
def stCont : State := frg (thr st fun th => { th with frame := some { pc := 0x1000, em := 1, sig := 0, rcd := 1, served := true } })
  fun r => { r with inCont := true }

theorem witness_ControlTransfers :
    issues (.maskr hd { fB with a := 4 }) st any = true ∧ issues (.nop hd fB) st any = true ∧ issues (.rcv hd fB) st wholeSplit = true ∧
    issues (.maskw hd { fB with tgt := 0xFF, ka := .imm }) st wholeSplit = true ∧ issues (.exit hd fB) st (fun e => wholeSplit e && e.fr.m &&& ~~~e.act == 0) = true ∧
    issues (.exit { hd with gp := 3 } fB) stDiv (fun e => wholeSplit e && e.fr.m &&& ~~~e.act != 0) = true ∧
    issues (.cont hd fB) st any = true ∧ issues (.contOff hd { fB with sub := 1 }) st any = true ∧
    issues (.cret hd fB) stCont (fun e => wholeSplit e && e.fr.inCont && (e.th.frame.any fun w => w.served && codeOk e w.pc)) = true := by decide +kernel

theorem witness_ControlTransfers_yield :
    issues (.yield hd fB) st (fun e => e.blk.preq.isEmpty && wholeSplit e) = true ∧
    issues (.yieldReq hd { fB with sub := 1 }) st (fun e => e.blk.preq.isEmpty && e.blk.late.isEmpty && wholeSplit e) = true ∧
    issues (.yield hd fB) (blk st fun b => { b with preq := [1] }) (fun e => !e.blk.preq.isEmpty && !e.blk.preq.contains 5 && wholeSplit e) = true ∧
    issues (.yieldReq hd { fB with sub := 1 }) (blk st fun b => { b with preq := [1] }) (fun e => !e.blk.preq.contains 5 && wholeSplit e) = true ∧
    issues (.sleep hd { fB with ka := .imm }) st any = true ∧
    issues (.sleep hd { fB with ka := .imm, tgt := 9 }) st (fun e => preqOf e.blk == 0 && wholeSplit e) = true ∧
    ((tget (frg st fun r => { r with park := .sleep 0 }).threads 256).any fun th => th.splits.isEmpty && th.frags.any fun x => x.2.park == .sleep 0) = true ∧
    ((tget (frg st fun r => { r with park := .sleep 9 }).threads 256).any fun th => th.splits.isEmpty && th.frags.any fun x => x.2.park == .sleep 9) = true := by decide +kernel

/-! ### Memory -/

/-- One lane is enabled, and its address is 0x1000. -/
def st1 : State := frg stTgt fun r => { r with em := 1 }
def here (x : Except Act (State × List (Nat × Tgt))) : Bool :=
  match x with
  | .ok (_, ts) => !ts.isEmpty && ts.all fun y => match y.2 with | .key .. => true | .remote .. => false
  | .error _ => false
def pages (t : State × Except TErr Tgt) : Bool := match t.2 with | .ok (.key ..) => true | _ => false
def noLace (s : State) (e : Env) : Bool := e.act != 0 && s.lace.isEmpty

theorem witness_AccessChecks :
    pages (transPage st 4095 0x1000 .write) = true ∧ (tget st.ctxs 4095).isSome = true ∧ isArena (2 ^ 60) = false ∧
    issues (.ld hd fM) (thr st1 fun th => { th with v := sset th.v 64 0x1001 }) (fun e =>
      !isWindow (countIssue e) (eaMem (countIssue e) fM 0) && eaMem (countIssue e) fM 0 % 4 != 0 && e.act.getLsbD 0) = true ∧
    issues (.st hd fM) (thr st1 fun th => { th with v := sset th.v 64 0x1001 }) (fun e => eaMem (countIssue e) fM 0 % 4 != 0 && e.act.getLsbD 0) = true ∧
    issues (.lds hd fM) st1 (fun e => eaSp (countIssue e) fM 0 % 4 == 0 && eaSp (countIssue e) fM 0 + 4 > spLimit e.grid.lrec) = true := by decide +kernel

theorem witness_LoadsAndStores :
    issues (.ld hd fM) st1 (fun e => noLace st1 e && !isWindow (countIssue e) (eaMem (countIssue e) fM 0) &&
      (checkMem (countIssue e) 6 false (fun _ => []) (eaMem (countIssue e) fM)).isNone &&
      here (xlate (countIssue e) (countIssue e).s 0x180 .read true (eaMem (countIssue e) fM))) = true ∧
    issues (.st hd fM) st1 (fun e => noLace st1 e && (checkMem (countIssue e) 6 true (storeHalves (countIssue e) 4 6 false) (eaMem (countIssue e) fM)).isNone &&
      here (xlate (countIssue e) (countIssue e).s 0x181 .write false (eaMem (countIssue e) fM)) &&
      (release (countIssue e) (countIssue e).s 0x181 3 false none).toOption.isSome) = true := by decide +kernel

/-- The page of the first 2 MiB is marked accessed and dirty. -/
def stAD : State := { st1 with mem := st1.mem.writeN (placeBase + 0x30000) (leBytes (placeBase + 0xF3) 8) }
/-- The control context's v2:v3 name byte 0 of the block's scratchpad through the window. -/
def scWin : State := thr (blk sc fun b => { b with bslot := 0 }) fun th => { th with v := ssetList [] 96 [0xC5000000] }

def mapKey (s : State) (e : Env) (va n : Nat) (wr : Bool) : Bool :=
  match tget s.ctxs e.grid.ctx with
  | some cx => isPaged cx e.unit va && (s.tlb.all fun t => t.ctx != e.grid.ctx) && match walk s va [3, 2, 1, 0] (tableKey cx.root) with
    | .ok (pte, lvl, _) => (!wr || pte.testBit 4) && (match leafTgt pte (levelShift lvl) va with
      | .key k _ => !keyStalls s k && !spanStalls s k n
      | .remote .. => false)
    | .error _ => false
  | none => false

theorem mapKey_spec {s : State} {e : Env} {va n : Nat} {wr : Bool} (h : mapKey s e va n wr = true) : ∃ k x leaf, Maps s e va n wr k x leaf := by
  unfold mapKey at h
  split at h
  · rename_i cx hcx
    simp only [Bool.and_eq_true, List.all_eq_true, bne_iff_ne] at h
    obtain ⟨⟨hp, ht⟩, h⟩ := h
    split at h
    · rename_i pte lvl key hw
      simp only [Bool.and_eq_true, Bool.or_eq_true, Bool.not_eq_true'] at h
      obtain ⟨hwr, h⟩ := h
      split at h
      · rename_i k x hk
        simp only [Bool.and_eq_true, Bool.not_eq_true'] at h
        refine ⟨k, x, some key, h.1, h.2, .inr ⟨cx, pte, lvl, key, hcx, hp, hw, rfl, fun hx => ?_, hk, fun y hy hc => absurd hc (ht y hy)⟩⟩
        rcases hwr with hwr | hwr
        · rw [hwr] at hx; cases hx
        · exact hwr
      · cases h
    · cases h
  · cases h

/-- The conditions of a plain access. -/
def plain (s : State) (f : FmtM) (wr : Bool) (e : Env) : Bool :=
  (!e.th.cc || memEa e f 0 / 2 ^ 32 != 0xC5000000) && ((lanesOf e.act).all fun l => memEa e f l % widthBytes f.width.toNat == 0 &&
    !lockHit s (e.blk.core / 8) e.grid.ctx (memEa e f l) (widthBytes f.width.toNat) wr && mapKey s e (memEa e f l) (widthBytes f.width.toNat) wr)

theorem plain_spec {s : State} {e : Env} {f : FmtM} {wr : Bool} (h : plain s f wr e = true) : PlainAccess s e f wr := by
  simp only [plain, Bool.and_eq_true, Bool.or_eq_true, Bool.not_eq_true', bne_iff_ne, List.all_eq_true, beq_iff_eq] at h
  refine ⟨fun hc => ?_, fun l hl => (h.2 l hl).1.1, fun l hl => (h.2 l hl).1.2, fun l hl => mapKey_spec (h.2 l hl).2⟩
  rcases h.1 with h2 | h2
  · rw [hc] at h2; cases h2
  · exact h2

/-- No half of a store escapes. -/
def noEsc (f : FmtM) (home : Nat → Home) (e : Env) : Bool :=
  (lanesOf e.act).all fun l => (storeHalves e f.d.toNat f.width.toNat f.raw l).all fun v => (escapeInfo e (home l) v).isNone
theorem noEsc_spec {f : FmtM} {home : Nat → Home} {e : Env} (h : noEsc f home e = true) : NoEscape e f home := by
  simpa only [noEsc, List.all_eq_true, Option.isNone_iff_eq_none] using h

theorem witness_LoadsAndStores_plain :
    (∃ e, Issues (.ld hd fM) st1 e ∧ PlainAccess st1 e fM false) ∧
    (∃ e, Issues (.st hd fM) st1 e ∧ PlainAccess st1 e fM true ∧ NoEscape e fM (fun l => .mem (memEa e fM l)) ∧ ReleaseFree st1 e fM) := by
  have h1 : issues (.ld hd fM) st1 (plain st1 fM false) = true := by decide +kernel
  have h2 : issues (.st hd fM) st1 (fun e => plain st1 fM true e && noEsc fM (fun l => .mem (memEa e fM l)) e && decide (ReleaseFree st1 e fM)) = true := by
    decide +kernel
  refine ⟨?_, ?_⟩
  · obtain ⟨e, he, hp⟩ := issues_spec h1
    exact ⟨e, he, plain_spec hp⟩
  · obtain ⟨e, he, hp⟩ := issues_spec h2
    simp only [Bool.and_eq_true, decide_eq_true_eq] at hp
    exact ⟨e, he, plain_spec hp.1.1, noEsc_spec hp.1.2, hp.2⟩

/-- The conditions of an access to the cluster window, for block 2, the only one. -/
def inWin (s : State) (f : FmtM) (wr : Bool) (e : Env) : Bool :=
  e.act != 0 && e.th.cc && memEa e f 0 / 2 ^ 32 == 0xC5000000 && memEa e f 0 % widthBytes f.width.toNat == 0 && bitsOf (memEa e f 0) 22 21 == 0 &&
    (match s.blocks with
     | [(2, b)] => b.core == e.blk.core / 8 * 8 + bitsOf (memEa e f 0) 31 29 && b.bslot == bitsOf (memEa e f 0) 28 23 && b.stage == .running &&
       (match tget s.grids b.gid with
        | some g => g.ctx == e.grid.ctx && decide (bitsOf (memEa e f 0) 20 0 + widthBytes f.width.toNat ≤ spLimit g.lrec)
        | none => false) && (linesOf (bitsOf (memEa e f 0) 20 0) (widthBytes f.width.toNat)).all fun x => !lineWaits e 2 b x && !lineFilling s 2 b x
     | _ => false) && !lockHit s (e.blk.core / 8) e.grid.ctx (memEa e f 0) (widthBytes f.width.toNat) wr

theorem inWin_spec {s : State} {e : Env} {f : FmtM} {wr : Bool} (h : inWin s f wr e = true) : e.act ≠ 0 ∧ ∃ b, InWindow s e f wr 2 b ∧
    ∀ x ∈ linesOf (bitsOf (memEa e f 0) 20 0) (widthBytes f.width.toNat), lineWaits e 2 b x = false ∧ lineFilling s 2 b x = false := by
  simp only [inWin, Bool.and_eq_true, bne_iff_ne, beq_iff_eq, Bool.not_eq_true'] at h
  obtain ⟨⟨⟨⟨⟨⟨h1, h3⟩, h4⟩, h5⟩, h6⟩, h7⟩, h8⟩ := h
  refine ⟨h1, ?_⟩
  split at h7
  · rename_i b hb
    simp only [Bool.and_eq_true, beq_iff_eq, List.all_eq_true, Bool.not_eq_true'] at h7
    obtain ⟨⟨⟨⟨g1, g2⟩, g3⟩, g4⟩, g5⟩ := h7
    refine ⟨b, ⟨h3, h4, h5, h6, by rw [hb]; rfl, g1, g2, g3, fun x hx _ _ => by rw [hb] at hx; simpa using hx, ?_, h8⟩, g5⟩
    split at g4
    · rename_i g hg
      simp only [Bool.and_eq_true, beq_iff_eq, decide_eq_true_eq] at g4
      exact ⟨g, hg, g4.1, g4.2⟩
    · cases g4
  · cases h7

theorem witness_LoadsAndStores_window :
    (∃ e, Issues (.ld hd fM) scWin e ∧ e.act ≠ 0 ∧ ∃ b, InWindow scWin e fM false 2 b ∧
      ∀ x ∈ linesOf (bitsOf (memEa e fM 0) 20 0) (widthBytes fM.width.toNat), lineWaits e 2 b x = false) ∧
    (∃ e, Issues (.st hd fM) scWin e ∧ e.act ≠ 0 ∧ (∃ b, InWindow scWin e fM true 2 b ∧
      ∀ x ∈ linesOf (bitsOf (memEa e fM 0) 20 0) (widthBytes fM.width.toNat), lineFilling scWin 2 b x = false) ∧
      NoEscape e fM (fun _ => .block) ∧ ReleaseFree scWin e fM) := by
  have h1 : issues (.ld hd fM) scWin (inWin scWin fM false) = true := by decide +kernel
  have h2 : issues (.st hd fM) scWin (fun e => inWin scWin fM true e && noEsc fM (fun _ => .block) e && decide (ReleaseFree scWin e fM)) = true := by
    decide +kernel
  refine ⟨?_, ?_⟩
  · obtain ⟨e, he, hp⟩ := issues_spec h1
    obtain ⟨ha, b, hb, hl⟩ := inWin_spec hp
    exact ⟨e, he, ha, b, hb, fun x hx => (hl x hx).1⟩
  · obtain ⟨e, he, hp⟩ := issues_spec h2
    simp only [Bool.and_eq_true, decide_eq_true_eq] at hp
    obtain ⟨ha, b, hb, hl⟩ := inWin_spec hp.1.1
    exact ⟨e, he, ha, ⟨b, hb, fun x hx => (hl x hx).2⟩, noEsc_spec hp.1.2, hp.2⟩

/-- Offsets: v2 of every lane is 128. -/
def stOff : State := thr st fun th => { th with v := ssetList [] 64 (List.replicate 32 128) }

theorem witness_BlockTransfers :
    issues (.lds hd fM) stOff (fun e => noLace stOff e && (checkSp (countIssue e) 6 4 1024 3 (eaSp (countIssue e) fM)).isNone && e.blk.empty.isEmpty &&
      spLimit e.grid.lrec == 1024) = true ∧
    issues (.tld hd { fM with scope := 0 }) stOff (fun e => noLace stOff e && tsLimit e.grid.lrec == 16384 &&
      (checkSp (countIssue e) 6 4 16384 4 (eaSp (countIssue e) fM) <|> pickTrap (countIssue e) 10 (fun _ => 2)
        (fun l => footHit (countIssue e).s e.th.bid (offsNat (eaSp (countIssue e) fM) l) 4 true) (offsNat (eaSp (countIssue e) fM))).isNone) = true ∧
    issues (.sts hd { fM with sub := 1 }) stOff (fun e => noLace stOff e &&
      (checkSp (countIssue e) 6 4 1024 3 (eaSp (countIssue e) fM) <|> escapeTrap (countIssue e) (fun _ => .block) (storeHalves (countIssue e) 4 6 false)
        (offsNat (eaSp (countIssue e) fM))).isNone && (release (countIssue e) (countIssue e).s 0x183 3 false none).toOption.isSome) = true ∧
    issues (.tst hd { fM with scope := 0 }) stOff (fun e => noLace stOff e &&
      (checkSp (countIssue e) 6 4 16384 4 (eaSp (countIssue e) fM) <|> escapeTrap (countIssue e) (fun _ => .block) (storeHalves (countIssue e) 4 6 false)
        (offsNat (eaSp (countIssue e) fM))).isNone) = true := by decide +kernel

theorem witness_BlockTransfers_complete :
    issues (.lds hd fM) stOff (fun e => decide (InBlock e fM (spLimit e.grid.lrec)) && decide (LinesFull e fM) && stOff.lace.isEmpty) = true ∧
    issues (.sts hd { fM with sub := 1 }) stOff (fun e => decide (InBlock e fM (spLimit e.grid.lrec)) && decide (LinesStill stOff e fM) &&
      noEsc fM (fun _ => .block) e && decide (ReleaseFree stOff e fM) && decide (Released stOff e 3)) = true ∧
    issues (.tld hd { fM with scope := 0 }) stOff (fun e => decide (InBlock e { fM with scope := 0 } (tsLimit e.grid.lrec)) &&
      decide (OffFootprints stOff e fM true)) = true ∧
    issues (.tst hd { fM with scope := 0 }) stOff (fun e => decide (InBlock e { fM with scope := 0 } (tsLimit e.grid.lrec)) &&
      decide (OffFootprints stOff e fM false) && noEsc fM (fun _ => .block) e) = true := by decide +kernel

theorem witness_RecordAndLines :
    issues (.ldk hd { fM with a := 0, scope := 0 }) st (noLace st) = true ∧
    issues (.pref hd { fM with d := 0, width := 0 }) stTgt (noLace st) = true ∧
    [Instr.feset hd { fM with d := 0, width := 0, scope := 0 }, .feclr hd { fM with d := 0, width := 0, scope := 0 }].all (issues · stOff (fun e => noLace stOff e &&
      (opAt e 0 .v 2 (low e)).toNat == 128 && spLimit e.grid.lrec == 1024 &&
      !(linesOf 128 128).any (lineFilling (countIssue e).s e.th.bid e.blk))) = true := by decide +kernel

def memOk (s : State) (op : Nat) (ret : Bool) (f : FmtA) (e : Env) : Bool :=
  let e' := countIssue e
  let ea := fun l => ea64 (vpair e' f.a.toNat l) f.off.toInt
  noLace s e && (checkMem e' 6 true (fun _ => []) ea).isNone && here (xlate e' e'.s op .write ret ea) &&
    (release e' e'.s op f.scope.toNat (isRel (ordA f)) none).toOption.isSome && (escapeTrap e' (fun l => .mem (ea l)) (fun _ => []) ea).isNone
def spOk (s : State) (op : Nat) (f : FmtA) (e : Env) : Bool :=
  let e' := countIssue e
  let ea := fun l => ((vreg e' f.a.toNat l).toNat : Int) + f.off.toInt
  noLace s e && (checkSp e' 6 4 (spLimit e.grid.lrec) 3 ea).isNone && (escapeTrap e' (fun _ => .block) (fun _ => []) (offsNat ea)).isNone &&
    ((lanesOf e.act).all fun l => !(linesOf (offsNat ea l) 4).any (lineFilling e'.s e.th.bid e.blk)) &&
    (release e' e'.s op f.scope.toNat (isRel (ordA f)) none).toOption.isSome

theorem witness_Atomics :
    issues (.atom hd fA) st1 (memOk st1 0x1C0 true fA) = true ∧ issues (.atomcas hd fA) st1 (memOk st1 0x1C1 true fA) = true ∧
    issues (.red hd { fA with d := 0, noret := true, ord := 1 }) st1 (memOk st1 0x1C4 false fA) = true ∧
    issues (.atoms hd fA) stOff (spOk stOff 0x1C2 fA) = true ∧ issues (.atomscas hd fA) stOff (spOk stOff 0x1C3 fA) = true ∧
    atomBytes fA = 4 := by decide +kernel

def fW : FmtA := { fA with ord := 2 }
def waitOk (s : State) (e : Env) (words : State → Nat → Bool) : Bool :=
  let e' := countIssue e
  let ea := fun l => ea64 (vpair e' 2 l) 0
  noLace s e && (checkMem e' 6 false (fun _ => []) ea).isNone && here (xlate e' e'.s 0x207 .read true ea) &&
    (match xlate e' e'.s 0x207 .read true ea with
     | .ok (s1, ts) => ts.all fun y => match y.2 with | .key k _ => words s1 k | .remote .. => false
     | .error _ => false)
/-- A timeout of 5 in v8 and an expected word of 0 in v6; a parked wait for a word of device memory. -/
def stWait : State := thr st1 fun th => { th with v := ssetList th.v 256 [5] }
def parkedWait (tmo want : Nat) : State := frg st fun r => { r with park := .mwait 4 4 [{ lane := 0, key := 0x2000, want := want }] false 0 tmo 0 }

theorem witness_FencesAndWaits :
    issues (.fence hd { fX with imm := 0x34 }) st (fun e => st.lace.isEmpty && !e.th.cc && e.th.splits.isEmpty && immBits { fX with imm := 0x34 } 2 0 != 3 &&
      (release (countIssue e) (countIssue e).s 0x200 3 true none).toOption.isSome) = true ∧
    issues (.mwait hd fW) st1 (fun e => waitOk st1 e fun _ _ => (opAt e 0 .v 0 (low e)).toNat == 0) = true ∧
    issues (.mwait hd { fW with c := 8 }) stWait (fun e => waitOk stWait e fun s1 k => (opAt e 0 .v 8 (low e)).toNat == 5 && rdNat s1 k 4 == 0 && e.th.splits.isEmpty) = true ∧
    rdNat (parkedWait 0 0) 0x2000 4 = 0 ∧ (tget (parkedWait 9 0).threads 256).isSome = true ∧ rdNat (parkedWait 9 1) 0x2000 4 ≠ 1 := by decide +kernel

/-- A second strand of the block, so that a barrier of two waits. -/
def st2 : State := { (blk st fun b => { b with nstr := 2 }) with threads := tset st.threads 257 { ((tget st.threads 256).getD { bid := 0, idx := 0, cc := false, nregs := 0, lanes := 0 }) with idx := 1 } }
def bar (n : Nat) : FmtX := { fX with d := 1, imm := BitVec.ofNat 31 (n * 256) }
def barOk (s : State) (n : Nat) (full : Bool) (e : Env) : Bool :=
  let e' := countIssue e
  match phLoc e.grid e.blk e.th.bid 0 with
  | some l =>
    let p := phAt e'.s l
    (tget s.blocks e.th.bid).isSome && s.lace.isEmpty && !notWhole e && p.mode != 2 && n ≤ sharers e l && p.mode != 1 &&
      phComplete e'.s l { p with mode := 1, count := n, arrived := p.arrived ++ [e.tid] } == full && e.th.splits.isEmpty
  | none => false
/-- The grid is cooperative; its first phaser is registered, with this strand as a member of a mode. -/
def coop (s : State) : State := grd s fun g => { g with lrec := { g.lrec with coop := true } }
def phs (s : State) (p : Phaser) : State := blk s fun b => { b with phs := [(0, p)] }
def asMember (m : Nat) : Phaser := { mode := 2, members := [{ tid := 256, mode := m }] }
def passed : Phaser := { mode := 2, phase := 1, members := [{ tid := 256, mode := 3, lastSig := some 0 }] }
def pair (m : Nat) : Phaser := { mode := 2, members := [{ tid := 256, mode := m }, { tid := 257, mode := 3 }] }
def phOk (s : State) (p : Phaser → Env → Bool) (e : Env) : Bool :=
  match phLoc e.grid e.blk e.th.bid 0 with
  | some l => (tget s.blocks e.th.bid).isSome && s.lace.isEmpty && e.act != 0 && !notWhole e && e.th.splits.isEmpty && p (phAt (countIssue e).s l) e
  | none => false
def memberIs (f : Member → Bool) (p : Phaser) (e : Env) : Bool := (phMember e p).any f && !p.signalled.contains e.tid

theorem witness_BarriersAndPhasers_bar :
    issues (.bar hd (bar 1)) st (barOk st 1 true) = true ∧ issues (.bar hd (bar 2)) st2 (barOk st2 2 false) = true ∧
    issues (.bar hd (bar 3)) st2 (fun e => match phLoc e.grid e.blk e.th.bid 0 with | some l => sharers e l < 3 | none => false) = true ∧
    issues (.gsync hd { fX with d := 1 }) (coop st) (fun e => e.grid.lrec.coop && e.grid.nest.isNone && !notWhole e &&
      (gridStrands (countIssue e).s e.blk.gid).all fun x => !alive x.2 || x.1 == e.tid) = true ∧
    issues (.gsync hd { fX with d := 1 }) (coop st2) (fun e => !notWhole e && !((gridStrands (countIssue e).s e.blk.gid).all fun x => !alive x.2 || x.1 == e.tid) &&
      e.th.splits.isEmpty) = true ∧
    issues (.gsync hd { fX with d := 1 }) (thr (coop st) fun th => { th with frags := th.frags ++ th.frags.map fun x => (1, x.2) }) notWhole = true := by decide +kernel

theorem witness_BarriersAndPhasers_phasers :
    [Instr.phreg { hd with gn := true } { fX with imm := 0x300 }, .phdrop { hd with gn := true } fX, .phsig { hd with gn := true } fX,
      .phwait { hd with gn := true } { fX with d := 1 }, .phsw { hd with gn := true } { fX with d := 1 }].all (issues · st fun e => e.act == 0) = true ∧
    issues (.phreg hd { fX with imm := 0x300 }) st (phOk st fun p _ => p.mode != 1 && p.members.isEmpty) = true ∧
    issues (.phdrop hd fX) (phs st (asMember 3)) (phOk (phs st (asMember 3)) fun p e => p.mode != 1 && (p.members.any fun m => m.tid == e.tid) &&
      (e.th.frags.all fun x => x.1 == e.fi)) = true ∧
    issues (.phsig hd fX) (phs st (asMember 1)) (phOk (phs st (asMember 1)) (memberIs fun m => m.mode != 2)) = true ∧
    issues (.phwait hd { fX with d := 1 }) (phs st passed) (phOk (phs st passed)
      fun p e => (phMember e p).any fun m => m.mode != 1 && waitPhase p m < p.phase) = true ∧
    issues (.phwait hd { fX with d := 1 }) (phs st (pair 2)) (phOk (phs st (pair 2)) fun p e => (phMember e p).any fun m => m.mode != 1 && p.phase ≤ waitPhase p m) = true ∧
    issues (.phsw hd { fX with d := 1 }) (phs st (asMember 3)) (phOk (phs st (asMember 3)) (memberIs fun m => m.mode == 3)) = true ∧
    issues (.phsw hd { fX with d := 1 }) (phs st2 (pair 3)) (phOk (phs st2 (pair 3)) (memberIs fun m => m.mode == 3)) = true := by decide +kernel

/-! ### Arenas -/

/-- A block arena of 16 granules, two of them backed, a grid arena of 64, and a pool. -/
def blockA : Nat := arenaBaseAddr 1 0 0 0
def gridA : Nat := arenaBaseAddr 3 0 0 0
def withArenas (s : State) : State := ctx s fun c => { c with
  poolUnits := 16
  nextPage := 64
  arenas := [(arenaKey 1 0 0, { gen := 0, live := true, reserve := 65536, gran := [(0, .backed 0 false), (1, .backed 1 false)], owner := 2 }),
    (arenaKey 3 0 0, { gen := 0, live := true, reserve := 262144, owner := 1 })] }
/-- One lane, whose v2:v3 is the block arena, v6 4096. -/
def stA : State := thr (withArenas st1) fun th => { th with v := sset (sset (sset th.v 64 0) 96 (BitVec.ofNat 32 (blockA / 2 ^ 32))) 192 4096 }
def atLevel (n : BitVec 11) (f : FmtR) : FmtR := { f with a := n, ka := .imm }

theorem witness_ArenaInstructions_queries :
    issues (.abase hd (atLevel 1 { r0 with d := 4 })) stA (fun e => (levelTrap e 1).isNone) = true ∧
    [Instr.abase hd (atLevel 5 { r0 with d := 4 }), .abump hd (atLevel 5 { r0 with d := 4 })].all (issues · stA fun e => e.act != 0) = true ∧
    issues (.abase hd (atLevel 2 { r0 with d := 4 })) stA (fun e => e.act != 0 && !hasGroups e.grid.lrec) = true ∧
    issues (.abump hd (atLevel 1 { r0 with d := 4, b := 6 })) stA (fun e => noLace stA e && (levelTrap e 1).isNone && e.th.splits.isEmpty &&
      (arenaOf stA e.grid.ctx (ownArena e 1 0)).isSome) = true ∧
    issues (.abump hd (atLevel 0 { r0 with d := 4, b := 6 })) stA (fun e => (levelTrap e 0).isNone && (arenaOf stA e.grid.ctx (ownArena e 0 0)).isSome) = true ∧
    issues (.aqry hd { r0 with d := 4, a := 2 }) stA any = true ∧ issues (.achk hd { r0 with d := 4, a := 2 }) stA any = true ∧
    isArena 0x1000 = false := by decide +kernel

/-- The strand holds a held launch of its grid, whose handle is in v8: grid 7 with its own arena. -/
def heldCmd : Cmd := { blankCmd 5 true with ctx := 4095, gid := 1, bid := 2, index := 3, st := 0, child := some 7, tid := 256 }
def stKid : State :=
  let s := ctx stA fun c => { c with arenas := c.arenas ++ [(arenaKey 3 1 0, { gen := 0, live := true, reserve := 262144, owner := 7 })] }
  thr { s with
    cmds := [(9, heldCmd)]
    grids := s.grids ++ s.grids.map fun g => (7, { g.2 with slot := 1, parent := some 1, entered := false }) }
    fun th => { th with v := sset th.v 256 (BitVec.ofNat 32 (handleOf heldCmd)) }
def moveOk (s : State) (child : Bool) (dest : MoveTo) (e : Env) : Bool :=
  let ms : List Move := [{ lane := 0, a := blockA, len := 4096, dest := dest, host := false }]
  noLace s e && (moveTrap (countIssue e) child none ms).isNone && !(ms.any fun m => lockAny s 4095 (m.a / 4096 * 4096) (4096 * m.count)) &&
    (tget s.ctxs 4095).isSome && e.fr.prog.isEmpty && (moveAll 4095 (qtagOf s e.grid) (countIssue e).s ms).toOption.isSome

theorem witness_ArenaInstructions_moves :
    issues (.aprom hd { r0 with d := 4, a := 2, b := 6, c := 3, kc := .imm }) stA (fun e => (levelTrap e 3).isNone && moveOk stA false (.arena gridA) e) = true ∧
    issues (.ahand hd { r0 with d := 4, a := 2, b := 6, c := 8 }) stKid (fun e =>
      heldChild (countIssue e) (handleOf heldCmd) == some (arenaBaseAddr 3 1 0 0) && moveOk stKid true (.arena (arenaBaseAddr 3 1 0 0)) e) = true ∧
    (arenaOf stA 4095 blockA).isSome = true ∧ (arenaOf stA 4095 gridA).isSome = true ∧ arenaIdent blockA ≠ arenaIdent gridA ∧
    issues (.adrop hd { r0 with a := 2, b := 6 }) stA (fun e => noLace stA e && (sourceCode (countIssue e) blockA).isNone &&
      !pastReserve (countIssue e) blockA 4096 && !anyHanded (countIssue e) blockA 0 1 && !lockAny stA 4095 blockA 4096) = true := by decide +kernel

/-- A host hand-over: the completion ring at 0x8000 has 16 free places. -/
def stHost : State := ctx stA fun c => { c with arenaSet := true, ringAddr := 0x8000, ringLog := 4, exportBase := 0x1000000, exportLen := 65536 }
theorem witness_ArenaInstructions_host :
    issues (.ahand hd { r0 with d := 4, a := 2, b := 6, c := 8 }) stHost (fun e => noLace stHost e &&
      (failing e fun _ => !((tget stHost.ctxs 4095).map fun cx => cx.arenaSet && cx.ringAddr != 0).getD false) == 0 &&
      (moveTrap (countIssue e) false none [{ lane := 0, a := blockA, len := 4096, dest := .exportRange, host := true }]).isNone && e.fr.prog.isEmpty &&
      (match releaseGate (countIssue e) 0x243 4 none, tget stHost.ctxs 4095 with
       | .ok s0, some cx => match ringFree s0 4095 (qtagOf s0 e.grid) cx with
         | (s1, .ok n) => decide (1 ≤ n) && (moveAll 4095 (qtagOf s1 e.grid) s1 [{ lane := 0, a := blockA, len := 4096, dest := .exportRange, host := true }]).toOption.isSome
         | _ => false
       | _, _ => false)) = true := by decide +kernel

/-! ### Engines -/

/-- The structure at offset 0 of the scratchpad; v1 of every lane is 0. -/
def stD (d : List Nat) : State := blk st1 fun b => { b with sp := ssetList [] 0 (d.map (BitVec.ofNat 8)) }
def tensorD : List Nat :=
  [0, 2, 2, 0] ++ [128, 0, 0, 0] ++ [0, 0x10, 0, 0, 0, 0, 0, 0] ++ [8, 0, 0, 0] ++ [8, 0, 0, 0] ++ [1, 0, 0, 0] ++ List.replicate 12 0 ++
    [32, 0, 0, 0] ++ [0, 0, 0, 0] ++ [4, 0] ++ [2, 0] ++ [1, 0] ++ [16, 0] ++ List.replicate 8 0
def sortD : List Nat :=
  [7] ++ List.replicate 24 0 ++ [0] ++ [4, 0] ++ [8, 0, 0, 0] ++ [128, 0, 0, 0, 0, 0, 0, 0] ++ [0, 1, 0, 0, 0, 0, 0, 0] ++ [128, 1, 0, 0, 0, 0, 0, 0] ++
    List.replicate 8 0
/-- A WRITE of 64 bytes to endpoint 5, which the context can reach. -/
def wrD : List Nat :=
  [2, 1, 0, 0xFF] ++ List.replicate 16 0 ++ [5, 0, 0, 0, 0, 0] ++ [0, 0] ++ [0, 0, 0, 0] ++ [64, 0, 0, 0] ++ List.replicate 4 0 ++
    List.replicate 8 0 ++ [0, 0x10, 0, 0, 0, 0, 0, 0] ++ List.replicate 8 0
def stNet : State := ctx (stD wrD) fun c => { c with net := { c.net with addrs :=
  [(0, [5, 0, 0, 0, 0, 0, 0, 0, 1, 1] ++ List.replicate 26 0 ++ [255, 255, 255, 255] ++ List.replicate 24 0)] } }
def fD : FmtX := { fX with d := 4, a := 1 }
def descOk (s : State) (p : List Byte → Env → Bool) (e : Env) : Bool :=
  noLace s e && (opAt e 0 .v 1 (low e)).toNat == 0 && spLimit e.grid.lrec == 1024 && e.blk.empty.isEmpty && p (spRead e.blk 0 64) e
def freeRoom (s : State) (lines : List Nat) (n : Nat) (e : Env) : Bool :=
  !lines.any (lineBusy (countIssue e).s e.th.bid e.blk 0) && lockRoom s (e.blk.core / 8) n
/-- CPY from memory at v2:v3 = 0x1000 to scratchpad offset v6 = 0, 128 bytes in v8, into a new command of tag 0. -/
def cpyF : FmtX := { fX with d := 4, a := 2, b := 6, imm := 8 }
def stCpy : State := thr st1 fun th => { th with v := sset th.v 256 128 }

theorem witness_EngineCommandsIssue :
    issues (.cpy hd cpyF) stCpy (fun e => (openTag (countIssue e) 0).isNone && (cpyArg (countIssue e) cpyF).len == 128 && freeRoom stCpy [0] 1 e) = true ∧
    issues (.cpyt hd fD) (stD tensorD) (descOk (stD tensorD) fun d e => tensorOk d (parseTensor d) && tensorEnd (parseTensor d) ≤ 1024 &&
      freeRoom (stD tensorD) (dstLines (tensorSlices (parseTensor d))) 1 e) = true ∧
    issues (.cpyt hd fD) (stD []) (descOk (stD []) fun d _ => !tensorOk d (parseTensor d)) = true ∧
    issues (.sortk hd fD) (stD sortD) (descOk (stD sortD) fun d e => sortOk d (parseSort d) && ((List.range 3).all fun i =>
      (sortOpnd (parseSort d) i).1.sp && (sortOpnd (parseSort d) i).1.at' + (sortOpnd (parseSort d) i).2 ≤ 1024) && freeRoom (stD sortD) (sortLines (parseSort d)) 0 e) = true ∧
    issues (.sortk hd fD) (stD []) (descOk (stD []) fun d _ => !sortOk d (parseSort d)) = true ∧
    issues (.npost hd fD) stNet (descOk stNet fun d e => wrCode (countIssue e).s 4095 d == 1 && freeRoom stNet [] 1 e) = true := by decide +kernel

/-- A launch record in the block arena: one block of 32 lanes of code at 0x1000. -/
def recD : List Nat :=
  [1] ++ List.replicate 15 0 ++ [0, 0x10, 0, 0, 0, 0, 0, 0] ++ List.replicate 32 0 ++ [1, 0, 0, 0] ++ [1, 0] ++ [1, 0] ++ [32, 0] ++ [1, 0] ++ [1, 0] ++
    [0, 0, 0, 0] ++ [8, 0]
def stRec (d : List Nat) : State :=
  { stA with
    mem := stA.mem.writeN (pageKey 4095 0) (d.map (BitVec.ofNat 8))
    parts := [(0, {})] }
def launchIn (s : State) (p : State → List Byte → Bool) (e : Env) : Bool :=
  let e' := countIssue e
  noLace s e && (vpair e' 2 (low e)).toNat == blockA && blockA % 64 == 0 && (arenaTrap1 e' blockA 256).isNone &&
    (match fetchAt e' 0x287 4 e'.s blockA with | .ok (s1, bs) => p (dropInbox (acquire e' s1 3) e.tid) bs | .error _ => false)

theorem witness_EngineCommands_launch :
    issues (.launch hd { fX with d := 4, a := 2 }) (stRec recD) (launchIn (stRec recD) fun s2 bs => launchOk bs && fitsEmpty s2 0 4095 (parseRec bs) &&
      ((tget s2.ctxs 4095).bind fun cx => freeSlot cx 3).isSome) = true ∧
    issues (.launch hd { fX with d := 4, a := 2 }) (stRec []) (launchIn (stRec []) fun _ bs => !launchOk bs) = true := by decide +kernel

/-- Two held commands, whose handles are in v2 and v6; the first may have finished. -/
def cmdA (st code : Nat) : Cmd := { blankCmd 3 true with ctx := 4095, gid := 1, bid := 2, index := 3, st := st, code := code }
def cmdB : Cmd := { blankCmd 3 true with ctx := 4095, gid := 1, bid := 2, index := 4, st := 0 }
def stCmd (st code : Nat) : State :=
  thr { st1 with cmds := [(9, cmdA st code), (10, cmdB)] } fun th =>
    { th with v := sset (sset [] 64 (BitVec.ofNat 32 (handleOf cmdB - 1))) 192 (BitVec.ofNat 32 (handleOf cmdB)) }
def linkOk (s : State) (e : Env) (p : Cmd → Cmd → Bool) : Bool :=
  noLace s e && (match cmdOf s 4095 (handleIn (countIssue e) 2), cmdOf s 4095 (handleIn (countIssue e) 6) with
    | some (ia, a), some (ib, b) => b.st == 0 && ia < ib && p a b
    | _, _ => false)

theorem witness_EngineCommands_graph :
    issues (.erun hd { fX with a := 2 }) (stCmd 0 1) (fun e => linkOk (stCmd 0 1) e fun a _ => a.st == 0) = true ∧
    issues (.elink hd { fX with a := 2, b := 6 }) (stCmd 1 1) (fun e => linkOk (stCmd 1 1) e fun a b => a.st != 3 && a.succs.length < 16 && b.preds < 255) = true ∧
    issues (.elink hd { fX with a := 2, b := 6 }) (stCmd 3 2) (fun e => linkOk (stCmd 3 2) e fun a _ => a.st == 3) = true ∧
    issues (.estat hd { fX with d := 4, a := 2 }) (stCmd 1 1) (noLace (stCmd 1 1)) = true ∧
    issues (.erun { hd with gn := true } { fX with a := 2 }) (stCmd 0 1) (fun e => e.act == 0) = true ∧
    issues (.elink { hd with gn := true } { fX with a := 2, b := 6 }) (stCmd 0 1) (fun e => e.act == 0) = true := by decide +kernel

/-- A copy of 64 bytes of the block arena to line 1. -/
def landSlice : Slice := { src := { sp := false, at' := blockA }, dst := { sp := true, at' := 128 }, len := 64 }
def stLand : State := { stA with cmds := [(9, { blankCmd 1 false with ctx := 4095, gid := 1, bid := 2, index := 3, st := 2, slices := [landSlice] })] }

theorem witness_EngineCommands_run :
    (tget (stCmd 1 1).cmds 9).any (fun c => c.st == 1 && c.full && c.preds == 0 && c.kind != 4 && !c.skip && !cmdUsesSp c) = true ∧
    (tget ({ stA with cmds := [(9, { cmdA 1 1 with skip := true })] } : State).cmds 9).any (fun c => c.st == 1 && c.skip) = true ∧
    (tget stLand.cmds 9).any (fun c => c.st == 2 && c.recs.isEmpty && (match engRead 9 c 4 stLand blockA 64 with
      | (s1, .bytes bs) => bs.length == 64 && (tget s1.blocks 2).isSome && tget s1.cmds 9 == some c
      | _ => false)) = true := by decide +kernel

/-! ### Matrix commands -/

/-- The control context issues, in a grid with 16 KiB of scratchpad and a format slot of FP32 operands and accumulators. -/
def scM : State := grd sc fun g => { g with lrec := { g.lrec with scratch := 16384, slots := [0x1100000000000000] } }
def fMx : FmtX := { fX with d := 4, a := 6, b := 8 }
/-- B begins at 8192. -/
def scB : State := thr scM fun th => { th with v := sset [] 256 8192 }
def room (s : State) (e : Env) : Bool := noLace s e && (mxQueue s e.blk.core).length < 16
def cmdM (op : Nat) : MxCmd := { tid := 320, op := op, pc := 0, acc := 0, a := 0, b := 8192, k := 4, slot := 0x1100000000000000 }
def fits (r : LRec) (c : MxCmd) : Bool :=
  c.acc % 256 == 0 && c.b % 256 == 0 && c.a % 128 == 0 && c.a + aBytes c.slot (c.op == 0x2C1) c.k ≤ spLimit r && slotScale c.slot != 2 &&
    c.b + 256 * bRows c.slot c.k ≤ tsLimit r && c.acc + 8192 ≤ tsLimit r
/-- A gather descriptor of 32 x 64, K = 4 in the block arena, whose address is in v2:v3 of lane 0. -/
def gatherD : List Nat := [0, 0, 0, 0, 0, 0x20, 0, 0, 0, 0, 0, 0, 0, 0, 0, 0, 4, 0, 0, 0, 32, 64]
def scG (d : List Nat) : State :=
  let s := thr (withArenas scM) fun th => { th with v := sset (sset [] 64 0) 96 (BitVec.ofNat 32 (blockA / 2 ^ 32)) }
  { s with mem := s.mem.writeN (pageKey 4095 0) (d.map (BitVec.ofNat 8)) }
def gatherIn (s : State) (p : List Byte → Bool) (e : Env) : Bool :=
  let e' := countIssue e
  room s e && (slotStep (mxSlot e { fX with a := 2 })).isSome && (vpair e' 2 0).toNat == blockA && (arenaTrap1 e' blockA 64).isNone &&
    (match fetchAt e' 0x2C2 1 e'.s blockA with | .ok (_, d) => !(d.drop 22).any (· != 0) && p d | .error _ => false)
def spec (s : State) : State := thr s fun th => { th with spec := some { tag := 0, shadows := [] } }

theorem witness_MatrixCommandsIssue_multiply :
    issues (.mma hd { fMx with imm := 4 }) scB (fun e => room scB e && kOk (mxSlot e fMx) 4 && fits e.grid.lrec (cmdM 0x2C0) &&
      (shadowOf (countIssue e) (countIssue e).s 0).toOption.isSome && (opAt e 0 .v 8 0).toNat == 8192) = true ∧
    issues (.mmasp hd { fMx with imm := 4 }) scB (fun e => room scB e && kOk (mxSlot e fMx) 4 && slotA (mxSlot e fMx) == 1 && fits e.grid.lrec (cmdM 0x2C1)) = true ∧
    issues (.mmag hd { fX with a := 2 }) (scG gatherD) (gatherIn (scG gatherD) fun d => leNat ((d.drop 16).take 4) == 4 && leNat ((d.drop 20).take 1) == 32 &&
      leNat ((d.drop 21).take 1) == 64 && leNat ((d.drop 12).take 4) == 0) = true ∧
    issues (.mmag hd { fX with a := 2 }) (scG []) (gatherIn (scG []) fun d => leNat ((d.drop 20).take 1) == 0) = true := by decide +kernel

theorem witness_MatrixCommandsIssue_rest :
    issues (.mxz hd { fX with d := 4 }) scM (fun e => room scM e && (opAt e 0 .v 4 0).toNat == 0 && 8192 ≤ tsLimit e.grid.lrec) = true ∧
    issues (.mxdr hd { fX with d := 4, b := 6 }) scM (fun e => room scM e && (slotStep (mxSlot e fX)).isSome && e.th.spec.isNone &&
      31 * 256 + 256 ≤ spLimit e.grid.lrec && e.blk.empty.isEmpty) = true ∧
    issues (.mxbl hd { fX with d := 4, a := 6, imm := 1 }) scM (fun e => room scM e && e.th.spec.isNone && 256 ≤ spLimit e.grid.lrec) = true ∧
    issues (.mxspec hd fX) scM (fun e => room scM e && e.th.spec.isNone) = true ∧
    issues (.mxcmt hd fX) (spec scM) (fun e => room scM e && (e.th.spec.any fun x => x.tag == 0)) = true ∧
    issues (.mxdsc hd fX) (spec scM) (fun e => e.th.spec.any fun x => x.tag == 0) = true ∧
    issues (.mxwait hd fX) scM (fun e => room scM e && mxLeft scM e.tid == 0) = true ∧
    issues (.mxwait hd fX) { scM with mxq := [(0, [cmdM 0x2C3])] } (fun e => mxLeft { scM with mxq := [(0, [cmdM 0x2C3])] } e.tid == 1) = true := by
  decide +kernel

/-- A command at the head of a core's queue, and the block of its context. -/
def headIs (c : MxCmd) (p : Block → Bool) : Bool :=
  let s := { scM with mxq := [(0, [c])] }
  match mxQueue s 0 with
  | c :: _ => (tget s.blocks (c.tid / 128)).any p && !assistHolds s 0
  | [] => false
/-- The command with all its source lines read. -/
def streamed (c : MxCmd) : MxCmd := { c with got := (mxSourceLines c).map fun l => (l, List.replicate 128 1) }
def scAs : State := thr sc fun th => { th with assists := [(0, 0, 0, 4, 1)] }
def scRet : State := thr sc fun th => { th with assistSave := some { pc := 0x1000, v := [1, 2, 3, 4], w0 := 0, w1 := 0 } }

theorem witness_MatrixCommands :
    [cmdM 0x2C3, { cmdM 0x2C5 with rows := 1 }, { cmdM 0x2C7 with shadows := [(0, 0)] }, cmdM 0x2C6, cmdM 0x2C8, cmdM 0x2C0].all (fun c =>
      headIs (streamed c) fun _ => (nextLine (streamed c)).isNone && !c.dmem && c.fresh.isNone) = true ∧
    headIs { cmdM 0x2C5 with rows := 1 } (fun b => (nextLine { cmdM 0x2C5 with rows := 1 }).any fun l => !b.empty.contains l) = true ∧
    headIs { cmdM 0x2C5 with rows := 1 } (fun b => ({ b with empty := [0] }).empty.contains ((nextLine { cmdM 0x2C5 with rows := 1 }).getD 1)) = true ∧
    (tget scAs.threads 320).any (fun th => th.assists.length == 1 && th.frags.length == 1 && th.assistSave.isNone && (gridOf scAs th).isSome) = true ∧
    issues (.asret hd r0) scRet (fun e => e.th.assistSave.isSome && e.th.splits.isEmpty && scRet.lace.isEmpty) = true ∧
    issues (.asret hd r0) sc (fun e => e.th.assistSave.isNone) = true := by decide +kernel

/-! ### Callables and nests -/

/-- The callable table stands in the block arena; its entries 1 to 63 are free, and entry 0 is skipped. -/
def stT : State := ctx stA fun c => { c with tbase := some blockA }
def uniF : FmtR := { r0 with d := 4, a := 1, b := 7, c := 9 }
def builds (i : Instr) (ok : Env → Bool) : Bool :=
  issues i stT fun e => noLace stT e && ok e && (opAt e 0 .v 1 (low e)).toNat == 0 && (opAt e 0 .v 7 (low e)).toNat == 0 &&
    (match scanFree (countIssue e) (opOf i) 65535 (countIssue e).s 1 with
     | .ok (s1, some n) => n == 1 && pages (translate s1 4095 (tableBase e + 64 * n) .write) && (tget (translate s1 4095 (tableBase e + 64 * n) .write).1.ctxs 4095).isSome
     | _ => false)
def imgOk (e : Env) : Bool := spLimit e.grid.lrec == 1024 && e.blk.empty.isEmpty

theorem witness_CallableConstructors :
    builds (.cfn hd { uniF with b := 0, c := 0 }) imgOk = true ∧ builds (.ccor hd { uniF with b := 0, c := 0 }) imgOk = true ∧
    builds (.cseq hd { uniF with c := 0 }) any = true ∧ builds (.cpar hd { uniF with c := 0 }) any = true ∧ builds (.cpipe hd uniF) any = true ∧
    builds (.cfarm hd uniF) imgOk = true ∧ builds (.cloop hd { uniF with b := 10 }) any = true ∧
    issues (.cfree hd { r0 with a := 1 }) stT (fun e => (opAt e 0 .v 1 (low e)).toNat == 0) = true ∧
    issues (.cfree hd { r0 with a := 1 }) (thr stT fun th => { th with v := sset th.v 32 5 }) (fun e => (opAt e 0 .v 1 (low e)).toNat == 5 &&
      pages (translate (countIssue e).s 4095 (tableBase e + 64 * 5) .write)) = true := by decide +kernel

/-- A leaf of one block of 32 lanes of code at 0x1000, as entry 1 of the table. -/
def leafD (kind : Nat) : List Byte :=
  ([kind] ++ List.replicate 13 0 ++ [1, 0] ++ [1, 0] ++ [32, 0] ++ [8, 0] ++ List.replicate 10 0 ++ [1, 0] ++ [1, 0] ++ [1, 0, 0, 0] ++
    [0, 0x10, 0, 0, 0, 0, 0, 0] ++ List.replicate 16 0).map (BitVec.ofNat 8)
def stE : State := thr { stT with mem := stT.mem.writeN (pageKey 4095 0 + 64) (leafD 1) } fun th => { th with v := sset th.v 32 1 }
def applyIn (s : State) (p : Except SErr (State × List Node) → Bool) (e : Env) : Bool :=
  let e' := countIssue e
  noLace s e && (opAt e 0 .v 1 (low e)).toNat < 65536 &&
    p (snapWalk (instRead e' (opOf (.apply hd r0))) { tbase := tableBase e, argp := 0, slots := e.grid.lrec.slots } 16 none e'.s (opAt e 0 .v 1 (low e)).toNat [])

/-- A nest of a coroutine under a PIPE, or an FN under a FARM of 4 indices, of which the grid is the leaf. -/
def nodeOf (kind : Nat) (bs : List Nat) (kids : List Nat) : Node := { kind := kind, handle := 1, entry := bs.map (BitVec.ofNat 8), kids := kids }
def pipeN : Node := nodeOf 5 [5, 0, 2, 0, 3, 0, 4, 0, 8, 0] [1, 2]
def farmN : Node := nodeOf 6 [6, 0, 2, 0, 0, 0, 1, 0, 1, 0, 0, 0, 4, 0, 0, 0] [1]
def nestIs (top : Node) (kind : Nat) (st : Option Dword) (v : NInst) : Nest :=
  { ctx := 4095, gid := some 1, queue := 0, index := 2, qslot := 0, argp := 0, prio := 0, part := 0, nodes := [top, nodeOf kind [kind] [], nodeOf 1 [1] []]
    insts := [(0, v), (1, { node := 1, parent := some 0 })], status := st }
def inNest (s : State) (x : Nest) : State := grd { s with nests := [(5, x)] } fun g => { g with nest := some (5, 1) }
def top : NInst := { node := 0, parent := none, kids := [1] }
def stN (x : Nest) : State := inNest (thr stT fun th => { th with v := sset th.v 32 2 }) x
def awaited (st : Option Dword) (e : Env) : Bool := (nestOf (stN (nestIs pipeN 2 st top)) 4095 (opAt e 0 .v 1 (low e)).toNat).any fun x => x.2.status == st

theorem witness_NestOperations_nests :
    issues (.apply hd { r0 with d := 4, a := 1, b := 6 }) (thr stE fun th => { th with v := sset th.v 192 0 }) (applyIn stE fun w => w.toOption.isSome) = true ∧
    issues (.apply hd { r0 with d := 4, a := 7, b := 10 }) stE (fun e => match snapWalk (instRead (countIssue e) (opOf (.apply hd r0)))
      { tbase := tableBase e, argp := 0, slots := [] } 16 none (countIssue e).s 0 [] with | .error (.bad ..) => true | _ => false) = true ∧
    issues (.awaitc hd { r0 with d := 4, a := 1 }) (stN (nestIs pipeN 2 (some 0) top)) (awaited (some 0)) = true ∧
    issues (.awaitc hd { r0 with d := 4, a := 1, sub := 1 }) (stN (nestIs pipeN 2 none top)) (awaited none) = true ∧
    issues (.awaitc hd { r0 with d := 4, a := 1 }) (stN (nestIs pipeN 2 none top)) (awaited none) = true ∧
    issues (.cyld hd r0) (stN (nestIs pipeN 2 none top)) (fun e => noLace st1 e && e.th.splits.isEmpty && ((leafOf (stN (nestIs pipeN 2 none top)) e.grid).any fun x =>
      (tget x.2.1.insts x.2.2).any fun v => (nodeAt x.2.1 v.node).kind == 2)) = true := by decide +kernel

def inPipe (v : NInst) : State := stN (nestIs pipeN 2 none v)
def chanOk (v : NInst) (e : Env) : Bool :=
  noLace st1 e && ((leafOf (inPipe v) e.grid).any fun x => enclosing x.2.1 x.2.2 5 0 == some 0 && fld (nodeAt x.2.1 0).entry 8 2 == 8) &&
    (opAt e 0 .v 7 0).toNat % 4 == 0 && (opAt e 0 .v 7 0).toNat + 8 ≤ spLimit e.grid.lrec && e.blk.empty.isEmpty
def inFarm (v : NInst) : State := stN (nestIs farmN 1 none v)
def farmOk (v : NInst) (e : Env) : Bool := noLace st1 e && ((leafOf (inFarm v) e.grid).any fun x => enclosing x.2.1 x.2.2 6 0 == some 0) && v.parent.isNone
def fCh : FmtR := { r0 with d := 1, a := 7, kb := .imm }

theorem witness_NestOperations_items :
    issues (.chput hd fCh) (inPipe top) (fun e => chanOk top e && (servePut 4 false (fun _ => []) (unserved e) [] e.fr.prog).2.2) = true ∧
    issues (.chput hd fCh) (inPipe { top with chan := [[], [], [], []] }) (fun e => !(servePut 4 false (fun _ => []) (unserved e) [[], [], [], []] e.fr.prog).2.2) = true ∧
    issues (.chget hd fCh) (inPipe { top with chan := [[1, 2, 3, 4, 5, 6, 7, 8]] }) (fun e => chanOk { top with chan := [[1, 2, 3, 4, 5, 6, 7, 8]] } e &&
      (serveGet false (unserved e) [[1, 2, 3, 4, 5, 6, 7, 8]] e.fr.prog []).2.2.2) = true ∧
    issues (.chget hd fCh) (inPipe top) (fun e => chanOk top e && !(serveGet false (unserved e) [] e.fr.prog []).2.2.2) = true ∧
    issues (.ftake hd { r0 with d := 4, ka := .imm }) (inFarm top) (fun e => farmOk top e && (takeLanes farmN (unserved e) top none e.fr.prog).2.2.2) = true ∧
    issues (.ftake hd { r0 with d := 4, ka := .imm, sub := 1 }) (inFarm top) (fun e => farmOk top e && e.fr.prog.isEmpty &&
      (takeLanes farmN [low e] top none []).2.2.2) = true := by decide +kernel

/-- Nest 5 lends a seat of its leaf's grid to nest 6, which that leaf has applied. -/
def stClaim : State :=
  let s := grd (inNest stT { nestIs pipeN 2 none top with seats := [20], shape := { reg := 1, sp := 0, ts := 0, str := 1, phs := 0, ctl := false } }) fun g => { g with child := 1 }
  { s with nests := s.nests ++ [(6, { nestIs pipeN 2 none top with seatN := 1, insts := [], nodes := [nodeOf 1 [1] []] })] }
/-- A nest whose instance 1 has a status, under a top of a kind. -/
def stDone (topKind : Nat) (kids : List Nat) (st : NStat) : State :=
  inNest stT { nestIs (nodeOf topKind [topKind] [1, 2]) 1 none { top with kids := kids } with
    insts := [(0, { top with kids := kids }), (1, { node := 1, parent := some 0, status := some st }), (2, { node := 2, parent := some 0 })] }
def doneOk (topKind : Nat) (kids : List Nat) (st : NStat) : Bool :=
  (tget (stDone topKind kids st).nests 5).any fun x => (tget x.insts 1).any (fun v => v.status == some st && !v.told && v.parent == some 0) &&
    (tget x.insts 0).any fun pv => pv.status.isNone && (nodeAt x pv.node).kind == topKind && pv.got.isEmpty && !pv.cancelling && pv.kids == kids

def oneCluster : Part := { clusters := [0], scount := 16, bcount := 8, pcount := 16, cccount := 8, gcount := 8, rcap := 8, scap := 8, tcap := 8, cpcount := 16 }
def ready (s : State) : State := { s with parts := [(0, oneCluster)], pkg := { s.pkg with clready := [0], stkReady := [0] } }

/-- Nest 6 needs two seats, and its lender has one; its claim is what the partition serves. -/
def stClaim2 : State :=
  { ready stClaim with nests := tmap stClaim.nests fun k x => if k = 6 then { x with seatN := 2 } else { x with claimed := true } }

theorem witness_NestsRun_claim :
    (tget stClaim2.nests 6).any (fun x => x.status.isNone && !x.claimed && !x.saved && ctxRuns stClaim2 x.part x.ctx &&
      decide (((lenderOf stClaim2 x).map fun l => min l.2.2 (freeSeats stClaim2 l.1 l.2.1).length).getD 0 < x.seatN) &&
      (tget stClaim2.parts x.part).any fun p => p.gang.isNone && !p.committed && ((pickLaunch stClaim2 x.part p).any fun c => c.who == .nest 6)) = true := by decide +kernel

theorem witness_NestsRun :
    (tget stClaim.nests 6).any (fun x => x.status.isNone && !x.claimed && !x.saved && ctxRuns stClaim x.part x.ctx && x.chanN == 0 &&
      x.seatN ≤ ((lenderOf stClaim x).map fun l => min l.2.2 (freeSeats stClaim l.1 l.2.1).length).getD 0 && (takeClaim stClaim 6 x).isSome) = true ∧
    (tget (inNest stT { nestIs pipeN 2 none top with insts := [(0, { top with status := some { code := 0 } })] }).nests 5).any (fun x =>
      x.status.isNone && x.pkt.isNone && (tget x.insts 0).any fun v => v.status.isSome && !v.told && v.parent.isNone) = true ∧
    doneOk 4 [1, 2] { code := 0 } = true ∧ ([1, 2] : List Nat).filter (· != 1) ≠ [] ∧ doneOk 3 [1] { code := 1 } = true ∧
    (combine [{ code := 3 }, { code := 1 }]).code = 1 ∧ (combine [{ code := 3 }, { code := 4 }]).code = 3 := by decide +kernel

/-! ### Traps and system instructions -/

/-- The strand runs its block's handler. -/
def handOf (th : Thread) : Option Hand := (tget th.frags 0).map fun fr => { old := fr, entry := 0, mark := 0, depth := 0 }
def stHand (pc : Word) : State := thr (blk st fun b => { b with halted := true, trap := { active := true, tid := 256, tpcl := pc } }) fun th => { th with hand := handOf th }
def sysF : FmtX := { fX with d := 4, a := 1, b := 6 }

theorem witness_SystemInstructions :
    [Instr.mchkr hd { r0 with d := 4, ka := .imm }, .clock hd { r0 with d := 4 }, .getfmt hd { r0 with d := 4, ka := .imm }, .pmark hd { fI with d := 0 }].all (issues · st any) = true ∧
    issues (.sysr hd { r0 with d := 4, a := 1, ka := .imm }) (stHand 0x1000) any = true ∧
    issues (.sysw hd { r0 with a := 3, ka := .imm, b := 6 }) (stHand 0x1000) (fun e => e.act != 0 && (stHand 0x1000).lace.isEmpty) = true ∧
    issues (.sysw { hd with gn := true } { r0 with a := 3, ka := .imm, b := 6 }) (stHand 0x1000) (fun e => e.act == 0) = true ∧
    issues (.sigrst hd r0) st (fun e => e.th.splits.isEmpty && e.fr.rcv != some (e.fr.pc + 12) && st.lace.isEmpty) = true ∧
    issues (.sigchk hd { fI with d := 0, imm := 0xFFFFFFFF }) st (fun e => e.th.splits.isEmpty && e.fr.sig == 0xFFFFFFFF && e.fr.rcv != some (e.fr.pc + 12)) = true ∧
    issues (.sigchk hd { fI with d := 0, imm := 5 }) st (fun e => e.th.splits.isEmpty && e.fr.sig != 5 && !e.th.cc && e.blk.core < 1536 && e.blk.sslots.getD e.th.idx 0 < 1024) = true := by
  decide +kernel

/-- The grid has a trap handler at 0x1000. -/
def stH : State := grd st fun g => { g with handler := 0x1000 }
def trapAt (fi : Nat) : TrapRec := { code := 3, info := 0, pc := 0x1000, em := 1, lanes := 1, addr := 0, frag := fi, time := 0 }
def stTrap : State := thr (blk stH fun b => { b with halted := true }) fun th => { th with pendTrap := some (trapAt 0), skidLeft := some 0 }
def threadOk (s : State) (p : Thread → Block → Grid → Bool) : Bool :=
  match tget s.threads 256 with
  | some th => (tget th.frags 0).isSome && (match tget s.blocks th.bid with
    | some b => (match tget s.grids b.gid with | some g => p th b g | none => false)
    | none => false)
  | none => false

theorem witness_Traps_taken :
    issues (.trap { hd with gn := true } { fI with d := 0, imm := 9 }) st (fun e => e.act == 0) = true ∧ issues (.trap hd { fI with d := 0, imm := 9 }) st (fun e => e.act != 0) = true ∧
    issues (.bkpt { hd with gn := true } r0) st (fun e => e.act == 0) = true ∧ issues (.bkpt hd r0) st (fun e => e.act != 0) = true ∧
    threadOk stH (fun th b g => !th.cc && g.handler != 0 && th.hand.isNone && !b.halted && stH.lace.isEmpty) = true := by decide +kernel

theorem witness_Traps_kill :
    threadOk st (fun th _ g => th.bid == 2 && !th.cc && g.handler == 0 && st.lace.isEmpty) = true ∧
    threadOk (grd (stHand 0x1000) fun g => { g with handler := 0x1000 }) (fun th _ g => !th.cc && g.handler != 0 && th.hand.isSome) = true ∧
    issues (.tretKill hd { r0 with sub := 1 }) (stHand 0x1000) (fun _ => (stHand 0x1000).lace.isEmpty) = true := by decide +kernel

theorem witness_Traps_handler :
    nextPending stTrap 2 = some (256, trapAt 0) ∧ threadOk stTrap (fun _ b _ => b.halted && !b.trap.active) = true ∧
    nextPending (thr stTrap fun th => { th with pendTrap := none }) 2 = none ∧
    issues (.tretResume hd r0) (stHand 0x1000) (fun e => e.th.hand == handOf e.th && e.th.splits.isEmpty && (stHand 0x1000).lace.isEmpty &&
      codeOk e (e.blk.trap.tpch ++ e.blk.trap.tpcl) && e.fr.m &&& ~~~e.th.exited != 0 && (strandsOf (stHand 0x1000) e.th.bid).all (·.2.pendTrap.isNone)) = true ∧
    issues (.tretResume hd r0) (stHand 0x1001) (fun e => !codeOk e (e.blk.trap.tpch ++ e.blk.trap.tpcl)) = true := by decide +kernel

def err (kind unit : Nat) (bad : Bool) : Upset := { kind := kind, unit := unit, op := 1, lane := 3, exp := 1, obs := 2, detail := 2, array := 0, bad := bad }
/-- The strand's next instruction is an IADD, and a check finds an error in it. -/
def upsetIn (u : Upset) : State :=
  { placeWord State.reset (((encode (.iadd hd (r2 4))).getD 0).toNat) with timers := [], agenda := [.upset 256 0 u] }
def found (s : State) (p : Env → Bool) : Bool :=
  match s.agenda with
  | .upset tid fi u :: r => match bareEnv { s with agenda := r } tid fi with
    | some e0 => match fetchCode e0 with
      | (s1, .bytes bs) => match decode (codeWord bs), mkEnv (decodeHdr (codeWord bs)) { s1 with cur := tid, curFrag := fi } with
        | .ok i, some e => canIssue e && upsetOk e i u && p e
        | _, _ => false
      | _ => false
    | none => false
  | _ => false
theorem witness_Traps_errors :
    [err 1 0 false, err 4 10 false, err 1 0 true].all (fun u => found (upsetIn u) fun e => !e.th.cc && e.s.lace.isEmpty) = true ∧
    found (upsetIn (err 3 9 false)) (fun e => !e.th.cc && !e.blk.mirrored && e.s.lace.isEmpty) = true ∧
    found (blk (upsetIn (err 3 9 false)) fun b => { b with mirrored := true }) (fun e => !e.th.cc && e.blk.mirrored) = true := by
  decide +kernel

/-! ### Placement -/

/-- Grid 1 has one block, or as a COOP grid two, to place; what its blocks are. -/
def stPlace (coop : Bool) (bs : Tab Block) : State :=
  let s := ready { base with blocks := bs, threads := [] }
  grd s fun g => { g with next := bs.length, lastCore := some 0, lrec := { g.lrec with coop := coop, gx := if coop then 2 else 1, scratch := 0, tiles := 0, regs := 32, phasers := 0, ctrl := 0 } }
def gangOpen (s : State) (done : Bool) : State := { s with parts := [(0, { oneCluster with gang := some (true, 1), committed := done })] }
def seatAt (lin slot : Nat) : Block :=
  { gid := 1, part := 0, need := { reg := 1, sp := 0, ts := 0, str := 1, phs := 0, ctl := false }, lin := lin, core := 0, bslot := slot, aslot := slot, gen := 0,
    gran := [slot], stage := .reserved, nstr := 1 }
def gangWith (bs : Tab Block) (done : Bool) : State := gangOpen (stPlace true bs) done
def gridIs (s : State) (p : Grid → Bool) : Bool := (tget s.grids 1).any p

theorem witness_StrandsStartInEntryState : (tget base.blocks 2).any (fun b => b.nstr ≤ 64 && (tget base.grids b.gid).isSome) = true := by decide +kernel

theorem witness_BlocksArePlaced_block :
    let s := stPlace false []
    oneCluster.committed = false ∧ oneCluster.gang = none ∧ oneCluster.backs = [] ∧ (sliceRestore s 0).isNone = true ∧ (placeLeaf s 0).isNone = true ∧
    (stranded s 0).isNone = true ∧ (s.grids.find? fun e => e.2.part == 0 && (parkedFits s e.1 e.2).isSome && mayCome s 0 e.2.prio) = none ∧ (nextRestore s 0).isNone = true ∧
    (pickLaunch s 0 oneCluster).any (·.who == .grid 1) = true ∧
    gridIs s (fun g => !isGang g.lrec && (match firstPlan s g (coreOrder oneCluster 1 g) with
      | some pl => (takeBlock s 1 g pl none .reserved).isSome
      | none => false)) = true := by decide +kernel

/-- A launch of priority 2 waits in queue 1. -/
def outbid (s : State) : State := { s with grids := s.grids ++ s.grids.map fun e => (6, { e.2 with prio := 2, queue := 1, next := 0 }) }
/-- Nest 6 has the seat that it claims, and its transaction is open. -/
def stSeal : State :=
  { stClaim with
    nests := tmap stClaim.nests fun k x => if k = 6 then { x with seatN := 1, seats := [20], borrow := [] } else x
    parts := [(0, { oneCluster with gang := some (false, 6) })] }
theorem witness_BlocksArePlaced_claim :
    (tget stSeal.nests 6).any (fun x => x.status.isNone && decide (ownSeats x ≤ x.seats.length) && !outranked stSeal 0 x.prio && (sealClaim stSeal 6).isSome) = true := by
  decide +kernel

theorem witness_BlocksArePlaced_gang :
    gridIs (gangWith [] false) (fun g => !g.cancelled && !outranked (gangWith [] false) 0 g.prio && (reservedOf (gangWith [] false) 1).length < gangSize g.lrec &&
      (match gangStep (gangWith [] false) 1 with | some s1 => (reservedOf s1 1).length < gangSize g.lrec | none => false)) = true ∧
    gridIs (gangWith [(4, seatAt 0 0)] false) (fun g => (reservedOf (gangWith [(4, seatAt 0 0)] false) 1).length < gangSize g.lrec &&
      (match gangStep (gangWith [(4, seatAt 0 0)] false) 1 with | some s1 => gangSize g.lrec ≤ (reservedOf s1 1).length | none => false)) = true ∧
    gridIs (gangWith [(4, seatAt 0 0), (5, seatAt 1 1)] false) (fun g => gangSize g.lrec ≤ (reservedOf (gangWith [(4, seatAt 0 0), (5, seatAt 1 1)] false) 1).length) = true ∧
    gridIs (gangWith [(4, seatAt 0 0), (5, seatAt 1 1)] false) (fun g => !g.cancelled && !outranked (gangWith [(4, seatAt 0 0), (5, seatAt 1 1)] false) 0 g.prio) = true ∧
    gridIs (outbid (gangWith [(4, seatAt 0 0)] false)) (fun g => outranked (outbid (gangWith [(4, seatAt 0 0)] false)) 0 g.prio) = true ∧
    reservedOf (gangWith [(4, seatAt 0 0), (5, seatAt 1 1)] true) 1 = [4, 5] ∧
    (tget ({ st with scrubQ := [(0, [3, 4])] } : State).scrubQ 0) = some [3, 4] := by decide +kernel

/-- Every lane of the strand has exited, and its control context has ended. -/
def stOver : State := { base with threads := tmap base.threads fun _ th => { th with exited := th.lanes, frags := [] } }
def gridLeft : State := grd { base with blocks := [], threads := [] } fun g => { g with pkt := some 3 }
def stFlight : State := thr st fun th => { th with sb := [(1, 2)], flights := [(7, 1)] }
def stWaits : State := frg { st with time := 300 } fun r => { r with readySince := some 0 }

theorem witness_EndsAndLandings :
    (tget stOver.blocks 2).any (fun b => b.gid == 1) = true ∧ blockDone stOver 2 = true ∧ cmdsHold stOver 2 = false ∧
    gridIs gridLeft (fun g => gridOver gridLeft 1 g && !gridWrites gridLeft 1 && g.nest.isNone && g.cmd.isNone && g.pkt == some 3) = true ∧
    (tget stFlight.threads 256).any (fun th => tget th.flights 7 == some 1 && tget th.sb 1 == some 2) = true ∧
    (tget stWaits.threads 256).any (fun th => (tget th.frags 0).any fun f => f.readySince == some 0 && f.promoted.isNone &&
      0 + 256 * clkDiv stWaits (coreOf stWaits th) ≤ stWaits.time) = true := by decide +kernel

/-! ### Pre-emption -/

/-- The block is asked to stop, and every strand stands at a YIELD; the context's save pool has a size in MiB. -/
def stSave (size : Nat) : State :=
  ctx { blk base (fun b => { b with preq := [1] }) with threads := tmap base.threads fun _ th => { th with frags := tmap th.frags fun _ f => { f with park := .stopped } } }
    fun c => { c with saveSize := size }
def saveOk (s : State) (p : Ctx → Block → Bool) : Bool :=
  threadOk s fun _ b g => (tget s.ctxs g.ctx).any fun cx => b.stage == .running && b.preq == [1] && !cx.stopped && !(b.preq ++ b.late).contains 5 &&
    (strandsOf s 2).all (fun e => allParked e.2 || e.2.stopped) && !notQuiet s 2 b && (leafNest s b).isNone && p cx b
def stIn (since now : Nat) : State := { blk base (fun b => { b with preq := [1], trap := { active := true, tid := 256, since := since } }) with time := now }

theorem witness_Preemption_saves :
    saveOk (stSave 16) (fun cx b => cx.saveUsed + saveBytes b ≤ (eventsOf cx (some 0)).size * 2 ^ 20) = true ∧
    saveOk (stSave 0) (fun cx b => (eventsOf cx (some 0)).size * 2 ^ 20 < cx.saveUsed + saveBytes b) = true ∧
    threadOk (ctx (stSave 16) fun c => { c with stopped := true }) (fun _ b g => g.evNo == 0 && b.stage == .running) = true ∧
    threadOk { stSave 16 with time := 10 ^ 9 } (fun _ b g => !inTrap b && b.preqAt + deadlineOf g.lrec ≤ 10 ^ 9) = true ∧
    [stIn 0 0, stIn 0 9000].all (fun s => threadOk s fun _ b _ => b.stage == .running && inTrap b && askedAt b == 0 && b.preq != []) = true ∧
    max 0 0 + 8192 > 0 ∧ max 0 0 + 8192 ≤ 9000 := by decide +kernel

/-- Grid 1 runs the one block of its partition's only block slot; grid 6 of priority 2 waits. -/
def stFull : State :=
  let s := stPlace false [(4, { seatAt 0 0 with stage := .running })]
  { s with
    parts := [(0, { oneCluster with clusters := [0], bcount := 1 })]
    blocks := s.blocks ++ ((List.range 7).map fun i => (5 + i, { seatAt 0 0 with gid := 1, core := i + 1, stage := .running }))
    grids := s.grids ++ s.grids.map fun e => (6, { e.2 with prio := 2, queue := 1, next := 0, waits := true }) }
def stWarm : State := { stPlace false [(4, { seatAt 0 0 with stage := .running })] with time := 3200000, pkg := { base.pkg with shawm := true } }
/-- Block 4 is saved and may come back. -/
def stSaved : State :=
  let s := stPlace false [(4, { seatAt 0 0 with stage := .saved, why := 1, back := true })]
  { s with threads := base.threads.map fun e => (512, { e.2 with bid := 4 }) }
/-- A COOP grid of two blocks, both saved. -/
def stGangSaved : State :=
  stPlace true [(4, { seatAt 0 0 with stage := .saved, why := 1, back := true }), (5, { seatAt 1 1 with stage := .saved, why := 1, back := true })]
def stParked : State := grd (stPlace true [(4, { seatAt 0 0 with stage := .saved, why := 5, back := true }), (5, { seatAt 1 1 with stage := .saved, why := 5, back := true })])
  fun g => { g with parked := true }
/-- The slice of the PF has ended in a partition of two tenants, with a set of blocks. -/
def stSlice (bs : Tab Block) : State := { stPlace false bs with parts := [(0, { oneCluster with slices := [(0, 1600000), (1, 1600000)] })], time := 100, pkg := { base.pkg with shawm := true } }
def sliceOver (s : State) : Bool :=
  (tget s.parts 0).any fun p => s.pkg.shawm && 1 < p.slices.length && p.setting.isNone && p.sliceAt ≤ s.time && !p.committed && p.gang.isNone && (tenantNests s 0 (tenantOf p)).isEmpty

theorem witness_Preemption_stops :
    ((tget stFull.parts 0).bind fun p => findVictim stFull 0 p).any (fun x => x.2.gid != 0 && x.2.stage == .running && !inTrap x.2 && x.2.preq.isEmpty &&
      gridIs stFull (fun g => g.nest.isNone && !isGang g.lrec)) = true ∧
    (stWarm.blocks.filter fun e => e.2.core == 0) = [(4, { seatAt 0 0 with stage := .running })] ∧ gridIs stWarm (fun g => g.nest.isNone && !isGang g.lrec) = true ∧ stWarm.pkg.shawm = true ∧
    (partCores oneCluster).contains 7 = true ∧ (seatAt 0 0).placedAt + 3200000 ≤ stWarm.time ∧
    (tget stSaved.blocks 4).any (fun b => b.stage == .saved && b.back && b.halt == 0) = true ∧ stSaved.threads.any (·.2.bid == 4) = true ∧
    gridIs stSaved (fun g => g.nest.isNone && !isGang g.lrec) = true ∧ (restoreUnit stSaved 4).isSome = true ∧
    gridIs stGangSaved (fun g => g.nest.isNone && isGang g.lrec) = true ∧ (restoreUnit stGangSaved 4).isSome = true ∧ (putBlock stSaved oneCluster (partCores oneCluster) 4).isSome = true ∧
    (tget stParked.grids 1).any (fun g => (parkedFits stParked 1 g).isSome) = true := by decide +kernel

theorem witness_Preemption_slices :
    sliceOver (stSlice []) = true ∧ tenantBlocks (stSlice []) 0 0 = [] ∧ copiesOut (stSlice []) 0 0 = [] ∧ atomicsOut (stSlice []) 0 0 = false ∧
    sliceOver (stSlice [(4, { seatAt 0 0 with stage := .running })]) = true ∧
    tenantBlocks (stSlice [(4, { seatAt 0 0 with stage := .running })]) 0 0 = [(4, { seatAt 0 0 with stage := .running })] ∧
    (seatAt 0 0).halt = 0 ∧ Machine.inTrap (seatAt 0 0) = false := by decide +kernel

/-! ### The package and its links -/

def stSwap (used : Nat) (bs : Tab Block) : State :=
  { base with blocks := bs, threads := [], parts := [(0, oneCluster)], pkg := { base.pkg with shawm := true, spareClusters := [(0, used)] } }
def upLink (spares : Nat) : LmlLink := { up := true, lanes := 16, spares := spares, peer := 3 }

theorem witness_SupplyDroopStretches : (7 : Nat) < 8 ∧ (1 : Nat) ≤ 1 ∧ (1 : Nat) ≤ 4 := by decide

theorem witness_SparesAndRetirement :
    (st.pkg.shawm = false ∧ (0 : Nat) < 192 ∧ st.pkg.clRetired.contains 0 = false ∧ (31 : Nat) < 32 ∧ st.pkg.chanRemoved.contains 31 = false) ∧
    (stSwap 1 []).pkg.shawm = true ∧ clusterQuiet (stSwap 1 []) 0 = true ∧ (stSwap 1 []).pkg.clRetired.contains 0 = false ∧
    (tget (stSwap 1 []).pkg.spareClusters (0 / 24)).getD 0 < 2 ∧ (stSwap 1 []).pkg.swapScrub.contains 0 = false ∧
    (let s := { stSwap 1 [] with pkg := { (stSwap 1 []).pkg with swapScrub := [0] } }
     s.pkg.swapScrub.contains 0 = true ∧ poolsClear s 0 = true ∧ clusterQuiet s 0 = true) ∧
    clusterQuiet (stSwap 1 base.blocks) 0 = false ∧
    (clusterQuiet (stSwap 2 []) 0 = true ∧ 2 ≤ (tget (stSwap 2 []).pkg.spareClusters (0 / 24)).getD 0 ∧ (ownersOf (stSwap 2 []) 0).all (fun e =>
      e.2.gang.isNone && (losers (stSwap 2 []) e.1 { e.2 with clusters := e.2.clusters.filter (· != 0) }).isEmpty) = true) ∧
    ((tget ({ stSwap 1 [] with lnk := { st.lnk with links := [(15, upLink 0)] } } : State).lnk.links 15).any (·.up)) = true ∧
    ((stSwap 1 []).pkg.chanRemoved.contains 31 = false ∧ (tget (stSwap 1 []).pkg.sparePins 31).getD 0 = 0) ∧
    (tget ({ stSwap 1 [] with pkg := { (stSwap 1 []).pkg with sparePins := [(31, 1)] } } : State).pkg.sparePins 31).getD 0 ≠ 0 ∧
    (let s := { st with agenda := [.pinRetry 31 63], pkg := { st.pkg with hist := List.replicate 15 (5, 64 * 31 + 63, 0) } }
     s.agenda = .pinRetry 31 63 :: [] ∧ tget s.pkg.thresholds 5 = none ∧
     16 ≤ (s.pkg.hist.filter fun e => e.1 == 5 && e.2.1 == 64 * 31 + 63 && s.time + s.pkg.epoch ≤ e.2.2 + 5760000000000).length + 1) := by decide +kernel

/-- No completion is held, and no fence waits. -/
def nothing (s : State) : Bool := s.ctxs.all (fun c => c.2.jobs.isEmpty) && s.threads.all fun th => th.2.frags.all fun f => f.2.fences.isEmpty
theorem nothing_spec {s : State} (h : nothing s = true) : NothingWaits s := by
  simp only [nothing, Bool.and_eq_true, List.all_eq_true, List.isEmpty_iff] at h
  exact ⟨h.1, h.2⟩
def stLink : State := { st with lnk := { st.lnk with links := [(0, upLink 2)], routes := [(3, { prim := [0] })] }, time := 5 }
theorem witness_LinksAndTime :
    tget stLink.lnk.links 0 = some (upLink 2) ∧ nothing stLink = true ∧ (upLink 2).up = true ∧ stLink.lnk.remotes = [] ∧ stLink.lnk.timeMaster = false ∧
    (stLink.lnk.routes.any fun r => r.2.prim.contains 0) = true ∧ (upLink 2).training = false ∧ ({ upLink 2 with training := true } : LmlLink).training = true ∧
    ({ stLink with lnk := { stLink.lnk with timeMaster := true } } : State).lnk.timeMaster = true ∧ portReady st 7 = false ∧
    portReady { st with net := { st.net with ports := [(7, { up := true })] } } 7 = true := by decide +kernel

theorem witness_HeatAndReadiness :
    st.pkg.chanRemoved.contains 31 = false ∧ st.pkg.chans.contains 31 = false ∧ st.pkg.stkReady.contains 7 = false ∧
    st.pkg.halved.contains 7 = false ∧ ({ st with pkg := { st.pkg with halved := [7] } } : State).pkg.halved.contains 7 = true ∧
    (st.ctxs.all fun c => c.2.jobs.isEmpty) = true ∧ st.lnk.dst = [] ∧ st.queues = [] ∧
    nothing st = true ∧ st.pkg.shawmAt + 2 ^ 28 ≤ ({ st with time := 2 ^ 28 } : State).time ∧ st.time < st.pkg.shawmAt + 2 ^ 28 ∧
    ({ st with pkg := { st.pkg with shawm := true } } : State).pkg.shawm = true ∧ (0x43FFFFFFFF : Nat) ≤ 0x43FFFFFFFF ∧ (0x5000000000 : Nat) ≤ 0x53FFFFFFFF ∧
    ({ st with pkg := { st.pkg with chanDoomed := [4] } } : State).pkg.chanDoomed = [4] := by decide +kernel

/-- A packet of flow 2 of package 3, and the flow's state here; packets held, done and waiting on a record. -/
def pkt (seq : Word) (data : List Nat) : LmlPkt :=
  { spkg := 3, dpkg := 0, flow := 2, seq := seq, qtag := 1, unordered := false, rel := false, ty := 0, va := 0x1000, data := data.map (BitVec.ofNat 8) }
def stDst (f : DstFlow) : State := { st with lnk := { st.lnk with dst := [(3 * 4096 + 2, f)] } }
def dflow : DstFlow := { ctx := 4095, src := 3, next := 7 }
def arrives (s : State) (pk : LmlPkt) (f : DstFlow) : Bool :=
  !reservedPkt { pk with ty := 0 } && pk.dpkg == s.lnk.pkgNum && tget s.lnk.dst (dstKey pk) == some f && pk.seq == f.next && f.held.isEmpty && f.done.isEmpty && f.faults.isEmpty &&
    !f.purged.contains pk.qtag
theorem arrives_spec {s : State} {pk : LmlPkt} {f : DstFlow} (h : arrives s pk f = true) : Arrives s pk f := by
  simp only [arrives, Bool.and_eq_true, beq_iff_eq, List.isEmpty_iff, Bool.not_eq_true'] at h
  exact ⟨h.1.1.1.1.1.1.1, h.1.1.1.1.1.1.2, h.1.1.1.1.1.2, h.1.1.1.1.2, h.1.1.1.2, h.1.1.2, h.1.2, h.2⟩

/-- A read or a write at 0x1000 arrives in its turn, translates, and its channel is trained. -/
def placesAt (u : Use) : Bool :=
  match translate (stDst dflow) 4095 0x1000 u with
  | (s1, .ok (.key a _)) => !spanStalls s1 a 8
  | _ => false

theorem witness_LmlDestination :
    LmlRequest .lmlAtomic 3 ∧ (reservedPkt { pkt 7 [] with rsv := true, ty := 3 } = true ∧ ({ pkt 7 [] with via := 15 } : LmlPkt).via < 16) ∧
    reservedPkt { pkt 7 [] with ty := 3 } = false ∧ ({ pkt 7 [] with dpkg := 9 } : LmlPkt).dpkg ≠ st.lnk.pkgNum ∧
    (pkt 7 []).dpkg = st.lnk.pkgNum ∧ tget st.lnk.dst (dstKey (pkt 7 [])) = none ∧
    2 ^ 31 ≤ ((pkt 6 []).seq - dflow.next).toNat ∧ ((pkt 8 []).seq ≠ dflow.next ∧ ((pkt 8 []).seq - dflow.next).toNat < 2 ^ 31 ∧ (pkt 8 []).unordered = false ∧
      dflow.done = [] ∧ dflow.held.length < 8192 ∧ dflow.faults = []) ∧
    ((pkt 7 []).seq = dflow.next ∧ ({ dflow with purged := [1] } : DstFlow).purged.contains (pkt 7 []).qtag = true) ∧
    arrives (stDst dflow) (pkt 7 [0, 0, 0, 0]) dflow = true ∧ placesAt .read = true ∧ placesAt .write = true ∧
    ((stDst { dflow with held := [pkt 8 []] }).lnk.dst.filter fun e => e.2.src == 3) = [(dstKey (pkt 8 []), { dflow with held := [pkt 8 []] })] ∧
    (pkt 8 []).qtag = 1 := ⟨Or.inr (Or.inr (Or.inl ⟨rfl, rfl⟩)), by decide +kernel⟩

/-- A lane waits for a load, and for an atomic, of flow 2. -/
def stSrc (kind : Nat) : State :=
  { st with lnk := { st.lnk with
    src := [(2, { ctx := 4095, pkg := 3, unordered := false, out := [pkt 7 []], purging := [1] })]
    remotes := [(remoteKey 2 7, { tid := 256, tok := 5, d := 4, lane := 31, width := 6, kind := kind })] } }
/-- Two writes of one strand: the release, kind 2 or 1, waits for the other. -/
def stRel : State :=
  { stSrc 1 with lnk := { (stSrc 1).lnk with remotes := [(remoteKey 2 6, { tid := 256, tok := 4, d := 0, lane := 0, width := 6, kind := 1 }),
      (remoteKey 2 7, { tid := 256, tok := 5, d := 0, lane := 0, width := 6, kind := 1, rel := true })] } }
theorem witness_LmlSource :
    reservedPkt (pkt 7 [1, 0, 0, 0]) = false ∧ (pkt 7 [1, 0, 0, 0]).dpkg = st.lnk.pkgNum ∧ nothing (stSrc 1) = true ∧ [0, 1, 2].all (fun k => (tget (stSrc k).lnk.remotes (remoteKey 2 7)).any fun r =>
      r.kind == k && !r.rel && r.lane < 32 && r.d < 2048 && (tget (stSrc k).threads r.tid).isSome) = true ∧
    st.lnk.remotes = [] ∧ (tget (stSrc 1).lnk.src 2).any (fun f => f.out.length == 1 && f.purging == [1]) = true ∧
    (tget (stSrc 1).lnk.remotes (remoteKey 2 7)).any (fun r => r.kind == 1 && !r.rel) = true ∧
    (tget stRel.lnk.remotes (remoteKey 2 7)).any (fun r => r.kind == 1 && r.rel && (stRel.lnk.remotes.any fun x =>
      x.1 != remoteKey 2 7 && x.2.tid == r.tid && x.2.kind == 1 && !x.2.acked && decide (x.2.tok < r.tok))) = true ∧ rising stRel.lnk.remotes = true ∧
    (tget (stSrc 1).lnk.src 2).any (fun f => decide (f.out.length < 65536)) = true ∧
    65536 ≤ ({ ctx := 4095, pkg := 3, unordered := false, out := List.replicate 65536 (pkt 7 []) } : SrcFlow).out.length := by
  refine ⟨?_, ?_, ?_, ?_, ?_, ?_, ?_, ?_, ?_, ?_, ?_⟩
  case refine_11 => exact Nat.le_of_eq List.length_replicate.symm
  all_goals decide +kernel

/-! ### The network -/

/-- Message 8 of two packets of 64 bytes on delivery context 4 for command 9, which sends from the block arena; how much is sent. -/
def wrN (len : Nat) : List Byte := ((wrD.take 32) ++ [len % 256, len / 256, 0, 0] ++ (wrD.drop 36).take 12 ++
  (leBytes blockA 8).map (·.toNat) ++ wrD.drop 56).map (BitVec.ofNat 8)
def wr0 (len : Nat) : List Byte := (wrN len).take 3 ++ [0] ++ (wrN len).drop 4
def msg0 (sent : Nat) : Msg := { cmd := 9, ctx := 4095, wr := wr0 64, pdc := some 4, first := 100, total := 1, sent := sent }
def pdc0 (out : List OutPkt) : Pdc := { ctx := 4095, peer := 5, rod := false, first := 100, next := 101, out := out, used := 0 }
def outP (tries : Nat) (notice : Bool) : OutPkt := { psn := 100, msg := 8, notice := notice, tries := tries, deadline := 0 }
def stMsg (up : Bool) (x : Msg) (out : List OutPkt) : State :=
  { stA with
    cmds := [(9, { blankCmd 4 false with ctx := 4095, gid := 1, bid := 2, index := 3, st := 2, desc := wr0 64, msg := some 8 })]
    net := { stA.net with ports := [(0, { up := up })], msgs := [(8, x)], pdcs := [(4, pdc0 out)] } }
def late (s : State) (o : OutPkt) : Bool := (tget s.net.pdcs 4).any fun d => (d.out.find? fun o => o.psn.toNat == 100 && !o.held && decide (o.deadline ≤ s.time)) == some o

/-- The delivery context has nothing outstanding, and has been idle for 2^21 cycles. -/
def stIdle (ms : Tab Msg) : State := { stMsg true (msg0 1) [] with net := { st.net with pdcs := [(4, pdc0 [])], msgs := ms }, time := 2 ^ 21 }
def cmd9 (s : State) : Bool := (tget s.cmds 9).any fun c => c.st != 3 && c.succs.isEmpty && c.recs.isEmpty

theorem witness_NetworkSends :
    cmd9 (stMsg true (msg0 0) []) = true ∧ (msg0 0).sent < (msg0 0).total ∧ portOf (stMsg true (msg0 0) []) 4095 (wr0 64) 100 = some 0 ∧
    (tget (stMsg true (msg0 0) []).cmds 9).any (fun c =>
      match pktBytes (stMsg true (msg0 0) []) (msg0 0) c 0 with | (s1, .bytes bs) => bs.length == 64 && s1.net == (stMsg true (msg0 0) []).net | _ => false) = true ∧
    late (stMsg true (msg0 1) [outP 7 false]) (outP 7 false) = true ∧ (outP 7 false).again = false ∧
    (late (stMsg false (msg0 1) [outP 6 false]) (outP 6 false) = true ∧ (portOf (stMsg false (msg0 1) [outP 6 false]) 4095 (wr0 64) 100).isNone = true) ∧
    late { stMsg true (msg0 1) [outP 7 true] with net := { (stMsg true (msg0 1) [outP 7 true]).net with msgs := [] } } (outP 7 true) = true ∧
    late (stMsg true (msg0 1) [outP 7 true]) (outP 7 true) = true ∧ (stMsg true (msg0 1) []).net.msgs = [(8, msg0 1)] ∧ (msg0 1).sent ≠ 0 ∧
    late (stMsg true (msg0 1) [outP 6 true]) (outP 6 true) = true ∧
    psnBefore 100 (BitVec.ofNat 32 101) = true ∧ (msg0 1).sent = (msg0 1).total ∧ 255 ≤ ({ msg0 1 with nready := 255 } : Msg).nready ∧
    ({ msg0 1 with nready := 254 } : Msg).nready < 255 ∧
    (tget (stIdle []).net.pdcs 4).any (fun d => d.out.isEmpty && d.used + 2 ^ 21 ≤ (stIdle []).time) = true ∧
    (tget (stIdle [(8, { msg0 0 with pdc := none })]).net.pdcs 4).any (fun d => d.out.isEmpty && d.used + 2 ^ 21 ≤ 2 ^ 21) = true := by decide +kernel

/-- Packet 0 or 1 of a WRITE of two packets to key 0 of the context, and the receiver's delivery context 4 of it. -/
def upk (psn : Word) (rod : Bool) (rkey : Word) : UePkt :=
  { src := 5, ctx := 4095, pdc := 2, rod := rod, psn := psn, start := 100, first := 100, count := 3, opc := 2, rkey := rkey, raddr := 0x1000, off := 0, len := 192,
    msgid := 0, rcen := false, rctr := 0, data := [1, 2, 3, 4] }
def writeKey : List Byte := leBytes 0x1000 8 ++ leBytes 4096 8 ++ [0x81] ++ List.replicate 47 0
def rx0 : RPdc := { ctx := 4095, src := 5, pdc := 2, rod := false, next := 100, used := 0 }
def stRx (d : RPdc) : State := ctx { st with net := { st.net with rpdcs := [(4, d)] } } fun c => { c with net := { c.net with keys := [(0, writeKey)] } }
def rxIn (d : RPdc) (pk : UePkt) (q : Ctx → State → RPdc → Bool) : Bool :=
  (tget (stRx d).ctxs 4095).any fun cx => cx.net.stats == 0 &&
    (let r := rpdcOf (stRx d) pk.ctx pk.src pk.pdc pk.rod pk.start
     r.2 == 4 && (tget r.1.net.rpdcs 4).any (q cx r.1))

def fresh (d : RPdc) (psn : Word) : Bool := !d.purged.contains 0 && !d.skipped.contains psn && !psnBefore psn d.next && !d.got.contains psn && d.held.isEmpty
/-- Packet 100 of the message is placed: the page is writable, and more packets are to come. -/
def writes (psn : Word) (d : RPdc) : Bool := rxIn d (upk psn false 0) fun cx s' d =>
  let u := setRmsg s' { rmsgOf s' 4 100 with slot := none, ctx := 4095, key := 0 }
  (rxCheck cx (upk psn false 0)).isSome && fresh d psn && (rmsgOf s' 4 100).got.length + 1 < 3 &&
    (match translate u 4095 (0x1000 + (upk psn false 0).off) .write with
     | (s1, .ok (.key a _)) => s1.net == u.net && !spanStalls s1 a 4
     | _ => false)
def skipN : UeSkip := { src := 5, ctx := 4095, pdc := 2, rod := false, start := 100, first := 100, last := 101 }

theorem witness_NetworkReceives :
    tget st.ctxs 7 = none ∧
    rxIn { rx0 with purged := [0] } (upk 100 false 0) (fun _ _ d => d.purged.contains 0) = true ∧
    rxIn { rx0 with skipped := [100] } (upk 100 false 0) (fun _ _ d => d.skipped.contains 100) = true ∧
    rxIn { rx0 with got := [101] } (upk 101 false 0) (fun _ _ d => d.got.contains 101 && !d.purged.contains 0 && !d.skipped.contains 101) = true ∧
    rxIn { rx0 with rod := true } (upk 101 true 0) (fun _ _ d => d.next == 100 && fresh d 101 && d.got.isEmpty && d.skipped.isEmpty) = true ∧
    rxIn rx0 (upk 100 false 1) (fun cx _ d => (rxCheck cx (upk 100 false 1)).isNone && fresh d 100 && d.got.isEmpty && d.skipped.isEmpty) = true ∧
    writes 100 rx0 = true ∧ psnTaken rx0 101 = false ∧ writes 101 rx0 = true ∧ psnTaken rx0 100 = false ∧
    (let r := rpdcOf (stRx rx0) 4095 5 2 false 100
     r.2 = 4 ∧ (tget r.1.net.rpdcs 4).any (fun d => !d.rod && d.got.isEmpty && d.skipped.isEmpty) = true) ∧
    ((skipN.last - skipN.first).toNat < 2 ^ 20) ∧
    (tget (stRx rx0).net.rpdcs 4).any (·.src == 5) = true := by decide +kernel

/-! ### Queues -/

/-- Queue 1 of the physical function, in slot 0, with a packet at its head: type, flags, bytes from 2 on. -/
def packet (ty flags : Nat) (rest : List Byte) : List Byte := leBytes ty 1 ++ leBytes flags 1 ++ rest ++ List.replicate (62 - rest.length) 0
def q0 : Queue := { fn := 0, qid := 1, ctx := 4095, desc := 0x2000, ring := 0x3000, size := 6, prio := 1, part := 0, vec := 3, nopre := false, slot := some 0 }
def stQ (x : Queue) : State := { stA with queues := [(1, x)], slots := [(0, 1)] }
def hq (bs : List Byte) : Queue := { q0 with head := some bs }
def atHd (s : State) (q ty : Nat) (x : Queue) (bs : List Byte) : Bool :=
  tget s.queues q == some x && running s q x && x.head == some bs && fld bs 0 1 == ty && (!(fld bs 1 1).testBit 0 || (decide (x.read ≤ x.done) && !jobsHeld s q x)) &&
    !hazard s q x.read && tableRoom s q x.read
theorem atHd_spec {s : State} {q ty : Nat} {x : Queue} {bs : List Byte} (h : atHd s q ty x bs = true) : AtHead s q ty x bs := by
  simp only [atHd, Bool.and_eq_true, beq_iff_eq, Bool.or_eq_true, Bool.not_eq_true', decide_eq_true_eq] at h
  obtain ⟨⟨⟨⟨⟨⟨h1, h2⟩, h3⟩, h4⟩, h5⟩, h6⟩, h7⟩ := h
  exact ⟨h1, h2, h3, h4, fun hb => h5.resolve_left (by rw [hb]; decide), h6, h7⟩

/-- The bytes at 16 and on. -/
def body (bs : List Byte) : List Byte := List.replicate 14 0 ++ bs
def recB (bs : List Nat) : List Byte := bs.map (BitVec.ofNat 8) ++ List.replicate (256 - bs.length) 0
def adr : List Byte := leBytes blockA 8
def sigPkt (rest : List Byte) : List Byte := packet 4 0 (body (adr ++ rest))

theorem witness_QueuePackets_hold :
    (let s := stQ { hq (packet 9 1 []) with read := 1 }
     (tget s.queues 1).any (fun x => x.head == some (packet 9 1 []) && x.done < x.read) = true ∧ fld (packet 9 1 []) 0 1 = 9 ∧ (fld (packet 9 1 []) 1 1).testBit 0 = true) ∧
    (let iv (q : Nat) (live : Bool) : Interval := { ctx := 4095, lo := 0, len := 8, mode := 2, queue := q, pkt := 0, live := live }
     let s := { stQ (hq (packet 9 0 [])) with intervals := [iv 1 false, iv 2 true] }
     (tget s.queues 1).any (fun x => x.head == some (packet 9 0 [])) = true ∧ hazard s 1 0 = true) ∧
    (let s := stQ { hq (packet 9 0 []) with error := true }
     (tget s.queues 1).any (fun x => x.head == some (packet 9 0 []) && !running s 1 x) = true) := by decide +kernel

theorem witness_QueuePackets_full :
    let iv (q : Nat) (live : Bool) : Interval := { ctx := 4095, lo := 0, len := 8, mode := 2, queue := q, pkt := 0, live := live }
    let s := { stQ (hq (packet 9 0 [])) with intervals := iv 1 false :: List.replicate 4096 (iv 2 true) }
    tableRoom s 1 0 = false := by
  intro iv s
  have h : ∀ n, ((List.replicate n (iv 2 true)).filter (·.live)).length = n := by
    intro n
    rw [List.filter_replicate_of_pos rfl, List.length_replicate]
  have g : 1 ≤ ((iv 1 false :: List.replicate 4096 (iv 2 true)).filter (ofPkt 1 0)).length := by
    rw [List.filter_cons_of_pos (by decide)]
    exact Nat.le_add_left ..
  simp only [tableRoom, decide_eq_false_iff_not]
  have h' : (s.intervals.filter (·.live)).length = 4096 := by
    change ((iv 1 false :: List.replicate 4096 (iv 2 true)).filter (·.live)).length = 4096
    rw [List.filter_cons_of_neg (by decide)]
    exact h 4096
  have g' : 1 ≤ (s.intervals.filter (ofPkt 1 0)).length := g
  omega

theorem witness_QueuePackets_launch :
    let s := { stQ (hq (recB recD)) with parts := [(0, {})] }
    let s' := { stQ (hq (recB recD)) with parts := [] }
    (atHd s 1 1 (hq (recB recD)) (recB recD) = true ∧ fitsEmpty s 0 4095 (parseRec (recB recD)) = true ∧
      (tget s.ctxs 4095).any (fun cx => (freeSlot cx 3).isSome) = true) ∧
    (atHd s' 1 1 (hq (recB recD)) (recB recD) = true ∧ fitsEmpty s' 0 4095 (parseRec (recB recD)) = false) := by decide +kernel

def applyP : List Byte := packet 2 0 (body [1])
theorem witness_QueuePackets_apply :
    (atHd (stQ (hq applyP)) 1 2 (hq applyP) applyP = true ∧
      (tget ({ stQ (hq applyP) with ctxs := tmap (stQ (hq applyP)).ctxs fun _ c => { c with tbase := none } } : State).ctxs 4095).any (·.tbase.isNone) = true) ∧
    (let s := { stE with queues := [(1, hq applyP)], slots := [(0, 1)] }
     atHd s 1 2 (hq applyP) applyP = true ∧ (match snapWalk (queueRead 1 4095 (hq applyP).tag) { tbase := blockA, argp := fld applyP 24 8, slots := List.replicate 8 0 } 16 none s 1 [] with
       | .ok (s1, _) => tget s1.queues 1 == some (hq applyP)
       | .error _ => false) = true ∧ (tget s.ctxs 4095).any (·.tbase == some blockA) = true) := by decide +kernel

/-- A translation leads to bytes of this package whose channel is trained. -/
def trained (t : State × Except TErr Tgt) (n : Nat) : Bool := match t with | (s, .ok (.key a _)) => !spanStalls s a n | _ => false

theorem witness_QueuePackets_data :
    atHd (stQ (hq (packet 3 0 []))) 1 3 (hq (packet 3 0 [])) (packet 3 0 []) = true ∧
    (atHd (stQ (hq (sigPkt []))) 1 4 (hq (sigPkt [])) (sigPkt []) = true ∧ trained (translate (stQ (hq (sigPkt []))) 4095 (fld (sigPkt []) 16 8) .write) 8 = true ∧
      (tget (translate (stQ (hq (sigPkt []))) 4095 (fld (sigPkt []) 16 8) .write).1.queues 1 == some (hq (sigPkt []))) = true) ∧
    [0, 1].all (fun v =>
      let bs := packet 5 0 (body (adr ++ leBytes v 8))
      let s := stQ (hq bs)
      atHd s 1 5 (hq bs) bs && (match readLong s 4095 (fld bs 16 8) 8 (hq bs).tag with
        | (s1, .ok ws) => tget s1.queues 1 == some (hq bs) && sigMeets (fld bs 32 1) (leNat ws) (fld bs 24 8) == (v == 0)
        | _ => false)) = true ∧
    [2, 3].all (fun n =>
      let bs := packet 7 0 (body ([4, 0, 0, 0] ++ [BitVec.ofNat 8 n]))
      let s := { stQ (hq bs) with qlinks := [(4, { producer := 2, consumer := 1, count := 2 })] }
      atHd s 1 7 (hq bs) bs && (tget s.qlinks (fld bs 16 2)).any fun k => k.consumer == 1 && ((k.count < fld bs 20 4) == (n == 3))) = true ∧
    (let bs := packet 6 0 (body ([4, 0, 0, 0] ++ [2]))
     let s := { stQ (hq bs) with qlinks := [(4, { producer := 1, consumer := 2, count := 2 ^ 32 - 3 })] }
     atHd s 1 6 (hq bs) bs = true ∧ (tget s.qlinks (fld bs 16 2)).any (fun k => k.producer == 1 && k.count + fld bs 20 4 < 2 ^ 32) = true) := by decide +kernel

def twoWrites (s : State) (bs : List Byte) : Bool :=
  let a := translate s 4095 (fld bs 16 8) .write
  match a.2 with
  | .ok (.key k _) =>
    let b := translate (storeKey a.1 k (leBytes (fld bs 4 4) 4)) 4095 (fld bs 16 8 + 8) .write
    trained a 4 && trained b 8 && b.1.lace.isEmpty && a.1.lace.isEmpty && tget b.1.queues 1 == some (hq bs)
  | _ => false

/-- Queue 1 with a packet in flight; queue 2 is idle. -/
def flying : Queue := { q0 with read := 2, pkts := [{ idx := 0, cctr := 0, irq := true }, { idx := 1, cctr := 0, irq := false }] }
theorem witness_QueuePackets_rest :
    atHd (stQ (hq (packet 8 0 []))) 1 8 (hq (packet 8 0 [])) (packet 8 0 []) = true ∧ q0.pkts = [] ∧ jobsHeld (stQ (hq (packet 8 0 []))) 1 q0 = false ∧
    tagOut (stQ flying) 4095 flying.tags = [] ∧ jobsHeld (stQ flying) 1 flying = false ∧ trained (translate (stQ flying) 4095 (flying.desc + 32) .write) 8 = true ∧
    (atHd (stQ (hq (packet 9 0 []))) 1 9 (hq (packet 9 0 [])) (packet 9 0 []) = true ∧ fld (packet 9 0 []) 16 8 = 0) ∧
    (let bs := packet 9 0 (body adr)
     atHd (stQ (hq bs)) 1 9 (hq bs) bs = true ∧ fld bs 16 8 ≠ 0 ∧ twoWrites (stQ (hq bs)) bs = true) := by decide +kernel

def resetP : List Byte := packet 10 0 (body [2])
def two (x y : Queue) : State := { stQ x with queues := [(1, x), (2, y)] }
def idle (s : State) (q : Nat) : Bool := s.grids.all (·.2.queue != q) && s.nests.all (·.2.queue != q) && (queueCmds s q).isEmpty
theorem idle_spec {s : State} {q : Nat} (h : idle s q = true) : QueueIdle s q := by
  simp only [idle, Bool.and_eq_true, List.all_eq_true, bne_iff_ne, List.isEmpty_iff] at h
  exact ⟨h.1.1, h.1.2, h.2⟩
/-- Its descriptor's WRITE is 3. -/
def stDesc (x : Queue) : State := { stQ x with mem := (stQ x).mem.writeN (placeBase + 0x2000 + 16) [3] }
def toks (s : State) (n : Nat) : State := { s with fns := [(0, { tokens := n })] }

theorem witness_QueueResetsAndWakes_ends :
    ({ flying with resetting := true } : Queue).resetting = true ∧ (flying.pkts.find? fun p => p.idx == 0 && !p.done) = some { idx := 0, cctr := 0, irq := true } ∧
    (let s := two (hq resetP) { q0 with qid := 2, slot := none }
     atHd s 1 10 (hq resetP) resetP = true ∧ 1 / 1024 * 1024 + fld resetP 16 2 = 2 ∧ idle s 2 = true ∧ idle s (queueNo 0 1) = true) ∧
    (let x : Queue := { flying with resetting := true, resetters := [(2, 0)] }
     workLeft { stQ x with grids := tmap base.grids fun _ g => { g with queue := 1 } } 1 = true ∧ workLeft (stQ x) 1 = false ∧ x.purged = false ∧ tagLent (stQ x) 1 x 5 = false ∧
       ({ x with purged := true } : Queue).purged = true ∧ purgeLeft (stQ x) x = false ∧
       purgeLeft { stQ x with net := { st.net with pdcs := [(4, pdc0 [outP 0 true])] } } x = true ∧ opsStall (stQ x) 4095 x.tag (resetOps (stQ x) 1 x) = false ∧ x.wakeAgain = false ∧
       (x.resetters.all fun r => r.1 != 1) = true ∧ ({ x with gone := true } : Queue).gone = true) := by decide +kernel

theorem witness_QueueResetsAndWakes_wakes :
    ((fnOf (toks (stQ q0) 0) 0).tokens = 0 ∧ q0.resetting = false) ∧ ((fnOf (stQ q0) 0).tokens ≠ 0 ∧ ({ q0 with slot := none } : Queue).slot = none) ∧
    (running (stDesc q0) 1 q0 = true ∧ q0.wakeAgain = false ∧
      (let s := stDesc q0
       let s1 := refillSoon (modFn (modFn s 0 fun f => { f with wakes := tset f.wakes 1 9 }) 0 fun f => { f with tokens := f.tokens - 1 }) 0
       match readVa (modQueue s1 1 fun y => { y with idle := false }) 4095 (0x2000 + 16) 8 q0.tag with
       | (s2, .ok bs) => tget s2.queues 1 == some { q0 with idle := false } && q0.write ≤ leNat bs && leNat bs - q0.done ≤ 2 ^ q0.size && q0.read < leNat bs
       | _ => false) = true) ∧
    nextAgain (stQ q0) 0 = none ∧ nextAgain (stQ { q0 with wakeAgain := true, slot := none }) 0 = some 1 ∧
    (let s := { two q0 { q0 with qid := 2, slot := none } with pkg := { base.pkg with shawm := true } }
     base.pkg.shawm = false ∧ s.pkg.shawm = true ∧ tfree s.slots 0 128 (fun _ => true) = some 1) ∧
    (let full (nopre : Bool) : State := { two { q0 with nopre := nopre } { q0 with qid := 2, slot := none } with slots := (List.range 128).map fun i => (i, 1) }
     let vs (s : State) := s.slots.filter fun e => ((tget s.queues e.2).map fun y => !y.nopre && !y.resetting).getD true
     tfree (full true).slots 0 128 (fun _ => true) = none ∧ vs (full true) = [] ∧ (vs (full false)).length = 128 ∧ (vs (full false)).all (·.2 == 1) = true) := by
  decide +kernel

/-! ### Fault service, Cicada, registers -/

/-- Record 1 of the context was posted, and the strand waits on it. -/
def fr1 : FRec := { kind := 1, code := 1, flags := 0, strand := 0, addr := 0x5000, time := 0, body := [], seq := some 7 }
def stFault : State := { ctx (frg st fun r => { r with park := .fault [1] }) (fun c => { c with recs := [(1, fr1)] }) with nextId := 10, fns := [(0, { fsctx := 4095 })] }
def stPost (ring : Nat) : State := ctx st fun c => { c with recs := [(1, { fr1 with seq := none })], waiting := [1], faultRing := ring, faultLog := 4 }
def stCic (wr : Nat) : State :=
  { st with
    banks := [(4, { en := true })]
    fns := [(0, { ring := some (0x8000, 4), ringWr := wr })] }
/-- The ring and the fault log's places in the block arena. -/
def stPostA : State := { stPost blockA with ctxs := tmap (stPost blockA).ctxs fun _ c => { c with poolUnits := 16, nextPage := 64, arenas := (tget stA.ctxs 4095).elim [] (·.arenas) } }

theorem witness_FaultServiceAndCicada :
    [0, 1].all (fun a => servedRec (setFserv stFault 0 7 a) 0 7 == some (4095, 1, fr1)) = true ∧
    (stFault.cmds.isEmpty && stFault.nests.isEmpty && stFault.lace.isEmpty && stFault.queues.isEmpty && stFault.lnk.dst.isEmpty && decide (1 < stFault.nextId)) = true ∧
    (stFault.ctxs.all fun e => e.2.jobs.isEmpty) = true ∧ (tget stFault.threads 256).any (fun th => waitsOn 1 th && th.bid == 2 &&
      (tget th.frags 0).any fun f => f.park == .fault [1]) = true ∧ (stFault.threads.all fun e => !waitsOn 1 e.2 || e.2.bid == 2) = true ∧
    servedRec (setFserv stFault 0 8 0) 0 8 = none ∧ (tget st.ctxs 4095).any (·.waiting.isEmpty) = true ∧
    [stPost 0, stPostA].all (fun s => (tget s.ctxs 4095).any fun cx => cx.waiting == [1] && (tget cx.recs 1).any fun r =>
      (tryPost s 4095 cx 1 r).2 == (if cx.faultRing = 0 then .no else .yes) && r.kind ≤ 3) = true ∧
    [15, 16].all (fun n => (fnOf (stCic n) (bankOwner { en := true })).ring == some (0x8000, 4) &&
      (decide ((fnOf (stCic n) 0).ringWr - rdNat (stCic n) (hostKey (0x8000 + 8)) 8 < 2 ^ 4) == (n == 15))) = true := by decide +kernel

/-- Function 3 has the context and, with `q`, a queue. -/
def stFn (q : Bool) : State :=
  let s := ctx stA fun c => { c with fn := 3 }
  { s with queues := if q then [(3 * 1024 + 1, { q0 with fn := 3, slot := none })] else [], granules := [(1, { last := 1, ctx := 4095, use := 1, left := [] })] }

/-- The same function's reset has begun: its context 4095 is being cleared, or is clear. -/
def stFlr (cleared : Bool) : State :=
  { stFn false with ctxs := [], granules := if cleared then [] else (stFn false).granules, fns := [(3, { flr := some [4095] })] }

theorem witness_RegistersAndResets_flr :
    (fnOf (stFlr true) 3).flr = some [4095] ∧ (stFlr true).queues = [] ∧ ([4095].all fun c => idFree (stFlr true) c) = true ∧
    idFree (stFlr false) 4095 = false ∧ (fnOf (stFn false) 3).flr = none ∧
    ((stFn false).granules.any fun e => (stFn false).ctxs.any fun y => y.1 == e.2.ctx && y.2.fn == 3) = true ∧ st.granules = [] ∧
    (st.fns.all fun f => f.2.flr.isNone) = true ∧ st.lnk.src = [] ∧ ((3 : Nat) < vecCount 0 ∧ (3 : Nat) < vecCount 5) := by decide +kernel

theorem witness_RegistersAndResets :
    regAt 0 4 8 = none ∧ (fnOf ({ st with fns := [(5, { busy := true })] } : State) 5).busy = true ∧ (fnOf st 5).busy = false ∧
    (0x40 : Dword).toNat % 64 = 0 ∧ (4 : Dword).toNat % 4 = 0 ∧ (5 : Dword).toNat % 4 = 1 ∧ tget (stQ q0).queues (queueNo 0 1) = some q0 ∧ (2 : Dword).getLsbD 0 = false ∧
    (tget (stCic 0).banks 4).any (fun b => !b.leased) = true ∧
    (tget (frg st fun r => { r with park := .retry .ring }).threads 256).any (fun th => ctxOf st th == 4095 && (tget th.frags 0).any fun f => f.park == .retry .ring) = true ∧
    (stFn false).lnk.src = [] ∧ (stFn false).queues = [] ∧ (tget (stFn false).ctxs 4095).any (·.fn == 3) = true ∧ (tget (stFn false).granules 1).any (·.ctx == 4095) = true ∧
    (stFn true).queues.filter (fun e => e.2.fn == 3) = (stFn true).queues ∧ idle (stFn true) (3 * 1024 + 1) = true ∧ (tget (stFn true).queues 3073).isSome = true ∧
    st.queues = [] := by decide +kernel

/-! ### The mailbox -/

/-- A function's outstanding request at host address 0x100000: CODE, the length of its output buffer at 0x300000, and its arguments. -/
def reqOf (code : Nat) (args : List Byte) : List Byte :=
  leBytes code 2 ++ List.replicate 14 0 ++ leBytes 65536 8 ++ leBytes 0x300000 8 ++ args ++ List.replicate (32 - args.length) 0
def ask (s : State) (fn code : Nat) (args : List Byte) : State :=
  { s with
    mem := s.mem.writeN (hostKey 0x100000) (reqOf code args)
    fns := [(fn, { busy := true, mboxAddr := 0x100000 })]
    pkg := { s.pkg with shawm := true } }
/-- Bytes at host address 0x200000. -/
def host (s : State) (d : List Byte) : State := { s with mem := s.mem.writeN (hostKey 0x200000) d }
def asks (s : State) (fn code n : Nat) : Bool :=
  (fnOf s fn).busy && fld (reqBytes s fn) 0 2 == code && fnTurn s fn code && zeros (reqBytes s fn) 2 4 && zeros (reqBytes s fn) 8 16 &&
    zeros (reqBytes s fn) (32 + n) 64
theorem asks_spec {s : State} {fn code n : Nat} (h : asks s fn code n = true) : Asks s fn code n := by
  simp only [asks, Bool.and_eq_true, beq_iff_eq] at h
  obtain ⟨⟨⟨⟨⟨h1, h2⟩, h3⟩, h4⟩, h5⟩, h6⟩ := h
  exact ⟨h1, h2, h3, h4, h5, h6⟩
def asking (s : State) (fn code : Nat) (args : List Byte) (p : State → (Nat → Nat → Nat) → Bool) : Bool :=
  asks (ask s fn code args) fn code args.length && p (ask s fn code args) (argOf (ask s fn code args) fn)
def le (x n : Nat) : List Byte := leBytes x n
def yes (_ : State) (_ : Nat → Nat → Nat) : Bool := true
/-- The context of the request, 4095. -/
def cid : List Byte := le 4095 4
def held (p : State → (Nat → Nat → Nat) → Ctx → Bool) (s : State) (arg : Nat → Nat → Nat) : Bool := (liveCtx s 0 (arg 0 4)).any (p s arg)
/-- Grid 1 and its block are gone. -/
def stNone : State := { stA with grids := [], blocks := [], threads := [] }

/-- Functions 2 and 5 both ask, and the last one served is `l`. -/
def both (l : Nat) : State :=
  let s := ask st 2 1 []
  { s with fns := s.fns ++ s.fns.map fun f => (5, f.2), pkg := { s.pkg with lastFn := l } }

theorem witness_MailboxAnswers :
    asks (ask st 0 1 []) 0 1 0 = true ∧ (fnOf st 0).busy = false ∧ st.pkg.shawm = false ∧
    (let s := both 3
     s.pkg.shawm = true ∧ nextFn s = some 5 ∧ nextFn s ≠ some 2) ∧
    (let s := both 9
     nextFn s = some 2 ∧ 2 ≤ s.pkg.lastFn) ∧
    (let s := { ask st 3 1 [1] with mem := (ask st 3 1 [1]).mem.writeN (hostKey 0x100000 + 2) [5] }
     (fnOf s 3).busy = true ∧ fld (reqBytes s 3) 0 2 = 1 ∧ fnTurn s 3 1 = true ∧ zeros (reqBytes s 3) 2 4 = false) ∧
    (let s := ask st 3 1 []
     (fnOf s 3).busy = true ∧ fld (reqBytes s 3) 0 2 = 1 ∧ fnTurn s 3 1 = true ∧ zeros (reqBytes s 3) 2 4 = true ∧ zeros (reqBytes s 3) 8 16 = true) ∧
    (let s := ask st 0 1 [1]
     (fnOf s 0).busy = true ∧ fld (reqBytes s 0) 0 2 = 1 ∧ fnTurn s 0 1 = true ∧ zeros (reqBytes s 0) 2 4 = true ∧ zeros (reqBytes s 0) 8 16 = true ∧ zeros (reqBytes s 0) (32 + 0) 64 = false) := by
  decide +kernel

theorem witness_MailboxContextsAndQueues_firmware :
    asking st 0 1 [] yes = true ∧ asking st 2 3 (List.replicate 32 7) yes = true ∧ asking st 2 4 [] yes = true ∧
    asking st 0 2 ([5] ++ le 16 8) (fun _ arg => arg 0 1 ≤ 5 && arg 1 8 ≤ thresholdDefault (arg 0 1)) = true ∧
    asking st 0 2 ([0] ++ le 3 8) (fun _ arg => arg 0 1 ≤ 5 && thresholdDefault (arg 0 1) < arg 1 8) = true ∧
    asking st 0 6 (le 0x4000 8) yes = true ∧ asking st 0 7 [] yes = true := by decide +kernel

def keyD : List Byte := le 0x1000 8 ++ le 4096 8 ++ [0x81] ++ List.replicate 47 0
def addrD : List Byte := [5, 0, 0, 0, 0, 0, 0, 0, 1, 1] ++ List.replicate 24 0 ++ [0, 0] ++ le 0xFFFFFFFF 4 ++ List.replicate 24 0
def saD : List Byte := List.replicate 8 0 ++ [1] ++ List.replicate 55 0
/-- A context, an index and the host address of a record. -/
def recArgs (i : Nat) : List Byte := cid ++ le i 2 ++ [0, 0] ++ le 0x200000 8
def flows (f : SrcFlow) : State := { st with lnk := { st.lnk with src := [(2, f)] } }
def sflow : SrcFlow := { ctx := 4095, pkg := 3, unordered := false }
/-- A load of the context waits for the answer of another package. -/
def awayIn (s : State) : State :=
  { s with lnk := { s.lnk with
    src := [(2, sflow)]
    remotes := [(remoteKey 2 7, { tid := 256, tok := 4, d := 0, lane := 0, width := 6, kind := 0, lva := 0x100, len := 4, ctx := 4095 })] } }

theorem witness_MailboxContextsAndQueues_contexts :
    asking st 0 8 (le 0x10000 8 ++ le 0xFFFFF 4) (fun s arg => rootOk (arg 0 8) && decide (arg 8 4 < 2 ^ 20) && s.ctxs.all (fun e => !(e.2.fn == 0 && e.2.pasid == arg 8 4)) &&
      (tfree s.ctxs 0 4096 (idFree s)).isSome && decide (4 ≤ outLen s 0)) = true ∧
    asking (ctx st fun c => { c with stopped := true }) 0 9 (cid ++ le 0x10000 8) (fun s arg => (liveCtx s 0 (arg 0 4)).isNone) = true ∧
    [stNone, awayIn stNone].all (fun x => asking x 0 9 (cid ++ le 0x10000 8) (held fun s arg _ =>
      rootOk (arg 4 8) && !ctxBusy s (arg 0 4) && rangeOut s (arg 0 4) 0 (2 ^ 64) == !x.lnk.remotes.isEmpty)) = true ∧
    asking st 0 9 (cid ++ le 0x10000 8) (held fun s arg _ => rootOk (arg 4 8) && ctxBusy s (arg 0 4)) = true ∧
    asking st 0 10 cid (held fun s arg _ => s.queues.all (·.2.ctx != arg 0 4)) = true ∧ asking (stQ q0) 0 10 cid (held fun s arg _ => s.queues.any (·.2.ctx == arg 0 4)) = true ∧
    asking st 0 0x82 (cid ++ [3, 0, 1]) (held fun s arg _ => arg 6 1 ≤ 1 && (flowOf s (arg 0 4) (arg 4 2)).isNone && (tfree s.lnk.src 0 4096 fun _ => true).isSome) = true ∧
    asking (flows sflow) 0 0x82 (cid ++ [3, 0, 0]) (held fun s arg _ => (flowOf s (arg 0 4) (arg 4 2)).any fun f => !f.2.failed) = true ∧
    asking (flows sflow) 0 0x84 (cid ++ [3, 0, 0]) (held fun s arg _ => arg 6 1 == 0 && (flowOf s (arg 0 4) (arg 4 2)).isSome && s.lnk.remotes.isEmpty) = true ∧
    asking (stDst dflow) 0 0x84 (cid ++ [3, 0, 1]) (held fun s arg _ => arg 6 1 == 1 && s.lnk.dst.any fun e => e.2.src == arg 4 2 && e.2.ctx == arg 0 4) = true := by
  decide +kernel

theorem witness_MailboxContextsAndQueues_network :
    asking (host st keyD) 0 5 (recArgs 4095) (held fun s arg _ => decide (arg 4 2 < 4096) && keyOk (hostBytes s (arg 8 8) 64) && zeros ((reqBytes s 0).drop 32) 6 8) = true ∧
    asking (host st addrD) 0 0x89 (recArgs 16383) (held fun s arg cx => decide (arg 4 2 < 16384) && addrOk cx.net (arg 4 2) (hostBytes s (arg 8 8) 64)) = true ∧
    asking (host st saD) 0 0x8A (recArgs 1023) (held fun s arg _ =>
      let d := hostBytes s (arg 8 8) 64
      decide (arg 4 2 < 1024) && zeros d 9 16 && zeros d 48 64 && fld d 8 1 == 1) = true ∧
    asking st 0 0x88 (cid ++ le 8 8 ++ le 64 8) (held fun _ arg _ => arg 4 8 % 8 == 0 && arg 12 8 % 64 == 0) = true ∧
    asking st 0 0x83 (le 3 2 ++ le 4095 2 ++ cid) (fun s arg => (liveCtx s 0 (arg 4 4)).isSome && decide (arg 2 2 < 4096) && decide (s.lnk.dst.length < 4096)) = true ∧
    [st, stLink].all (fun x => asking x 0 0x80 [9, 0, 1] fun s arg => arg 2 1 ≤ 1 && ((List.range 16).all (fun n => !linkUp s n)) == x.lnk.links.isEmpty) = true ∧
    [0xFF, 15].all (fun sec => asking st 0 0x81 [3, 0, 15, BitVec.ofNat 8 sec] fun s arg => arg 0 2 != s.lnk.pkgNum && arg 2 1 ≤ 15 && (arg 3 1 ≤ 15 || arg 3 1 == 0xFF)) = true := by
  decide +kernel

/-- A descriptor of queue 4 at 0x1000, and its host copy. -/
def qdesc : List Byte := le 0x3000 8 ++ [6, 1, 0, 0, 4, 0, 0, 0] ++ le 0 8 ++ List.replicate 24 0 ++ [3, 0] ++ List.replicate 14 0
def stQd : State := { st with mem := st.mem.writeN (placeBase + 0x1000) qdesc }
def stTwo : State := two q0 { q0 with qid := 2, slot := none }

theorem witness_MailboxContextsAndQueues_queues :
    asking stQd 0 0x10 (le 0x1000 8 ++ cid ++ le 4 2) (fun s arg => (liveCtx s 0 (arg 8 4)).isSome && decide (arg 12 2 < 1024) && (tget s.queues (queueNo 0 (arg 12 2))).isNone &&
      arg 0 8 % 64 == 0 && !isArena (arg 0 8) && (match readVa (served s 0) (arg 8 4) (arg 0 8) 64 with
        | (_, .ok d) => Machine.descOk 0 (arg 12 2) d && !isArena (fld d 0 8) && !isArena (fld d 0 8 + 2 ^ (fld d 8 1 + 8) - 1)
        | _ => false)) = true ∧
    asking (stQ q0) 0 0x11 (le 1 2) (fun s arg => decide (arg 0 2 < 1024) && (tget s.queues (queueNo 0 (arg 0 2))).any fun x => !x.resetting && x.done == writeNow (served s 0) x) = true ∧
    asking (stDesc q0) 0 0x11 (le 1 2) (fun s arg => (tget s.queues (queueNo 0 (arg 0 2))).any fun x => x.done != writeNow (served s 0) x) = true ∧
    asking stTwo 0 0x12 (le 1 2 ++ le 2 2) (fun s arg => decide (arg 0 2 < 1024) && decide (arg 2 2 < 1024) && (tget s.queues (queueNo 0 (arg 0 2))).isSome &&
      (tget s.queues (queueNo 0 (arg 2 2))).isSome && (tfree s.qlinks 0 256 fun _ => true).isSome) = true ∧
    asking { stTwo with qlinks := [(5, { producer := 1, consumer := 2 })] } 0 0x13 (le 5 2) (fun s arg => (tget s.qlinks (arg 0 2)).any fun l => l.producer / 1024 == 0) = true := by
  decide +kernel

/-- Partition 0 has cluster 0; a descriptor that moves it to cluster 1, and one whose reserved byte is 1. -/
def stPart : State := { stNone with parts := [(0, oneCluster)] }
def partD : List Byte := partBytes 0 { oneCluster with clusters := [1] }
def partBad : List Byte := partD.take 1 ++ [1] ++ partD.drop 2
def moving : Part := { oneCluster with pending := some (partD, partBytes 0 oneCluster) }
/-- A block of the partition still holds its place, or none does. -/
def stMoving (bs : Tab Block) : State := { stNone with parts := [(0, moving)], blocks := bs }
def partIn (s : State) (arg : Nat → Nat → Nat) (q : List Byte → Nat → Part → Bool) : Bool :=
  let d := hostBytes s (arg 0 8) 64
  (tget s.parts (fld d 0 1)).any (q d (fld d 0 1))
/-- Slices of the PF, then function 1; or of function 1 alone. -/
def slices (fns : List Nat) : List Byte := fns.flatMap fun f => [BitVec.ofNat 8 f, 0] ++ le 10 2
def stSet (fns : List Nat) : State := host stPart (slices fns)

theorem witness_MailboxTenantsAndArenas_partitions :
    asking (host stPart partBad) 0 0x20 (le 0x200000 8) (fun s arg => partIn s arg fun d _ p => p.pending.isNone && !partDescOk s d) = true ∧
    asking (host stPart partD) 0 0x20 (le 0x200000 8) (fun s arg => partIn s arg fun d i p => p.pending.isNone && partDescOk s d && p.gang.isNone &&
      (losers s i (meetPart p (parsePart d))).isEmpty) = true ∧
    asking (host (stMoving [(4, { seatAt 0 0 with core := 15, stage := .running })]) partD) 0 0x20 (le 0x200000 8) (fun s arg => partIn s arg fun _ i p => p.pending.isSome && !shrunk s i p) = true ∧
    asking (host (stMoving []) partD) 0 0x20 (le 0x200000 8) (fun s arg => partIn s arg fun _ i p => p.pending.isSome && shrunk s i p) = true ∧
    asking stPart 0 0x21 [] (fun s _ => decide (576 ≤ outLen s 0) && s.parts.all (·.2.pending.isNone)) = true ∧
    [[0, 1], [1]].all (fun l => asking (stSet l) 0 0x22 ([0, BitVec.ofNat 8 l.length] ++ le 0x200000 8) fun s arg =>
      (tget s.parts (arg 0 1)).any fun p => arg 1 1 ≤ 16 && sliceOk (hostBytes s (arg 2 8) (4 * arg 1 1)) (arg 1 1) && s.leases.isEmpty &&
        (tenantOf p == ((sliceList (hostBytes s (arg 2 8) (4 * arg 1 1)) (arg 1 1)).getD 0 (0, 0)).1) == (l.length == 2)) = true := by decide +kernel

/-- A request for bank 4 and unit 1, of function 2. -/
def leaseA : List Byte := [0x10] ++ List.replicate 23 0 ++ [2]
def leased (fn : Nat) : State := { stPart with leases := [(fn, { fn := fn, part := some 0, banks := [4], units := [1] })] }

theorem witness_MailboxTenantsAndArenas_leases :
    asking (leased 3) 2 0x23 leaseA (fun s arg => heldByOther s 2 (maskBits (arg 0 24) 192) (maskBits (arg 24 1) 8)) = true ∧
    asking stPart 2 0x23 leaseA (fun s arg => !heldByOther s 2 (maskBits (arg 0 24) 192) (maskBits (arg 24 1) 8) && !pfWants s (maskBits (arg 0 24) 192) (maskBits (arg 24 1) 8)) = true ∧
    asking stPart 0 0x23 leaseA yes = true ∧ asking (leased 2) 2 0x24 leaseA (fun s _ => (tget s.leases 2).isSome) = true ∧
    asking st 2 0x25 (le 0x8000 8 ++ [20, 0]) (fun _ arg => decide (4 ≤ arg 8 1) && decide (arg 8 1 ≤ 20) && arg 9 1 == 0) = true ∧
    [10, 24].all (fun k => asking st 0 0x25 (le 0x8000 8 ++ [4, BitVec.ofNat 8 k]) fun _ arg => decide (4 ≤ arg 8 1) && decide (10 ≤ arg 9 1) && decide (arg 9 1 ≤ 24)) = true ∧
    asking st 0 0x29 ([7] ++ le 0x8000 8 ++ [20] ++ le 3 2 ++ le 1 4 ++ le 1 4) (fun s arg => arg 0 1 ≤ 7 && decide (4 ≤ arg 9 1) && decide (arg 9 1 ≤ 20) &&
      ((tget s.lace (arg 0 1)).getD {}).owner.getD 0 == 0) = true := by decide +kernel

/-- Its image ends up at 0x300000; MIGRATE_OUT has begun, or not. -/
def outA : List Byte := cid ++ le 0x300000 8 ++ le (2 ^ 32) 8
def stMig (n : Option Nat) : State := ctx stNone fun c => { c with leaving := n }

theorem compatKey_length (s : State) : (compatKey s).length = 32 := by simp [compatKey, pad]

theorem witness_MailboxTenantsAndArenas_migrate :
    (asking st 0 0x26 [] yes = true ∧ (compatKey st).length ≤ outLen (ask st 0 0x26 []) 0) ∧
    asking (stMig none) 0 0x27 outA (fun s arg => (tget s.ctxs (arg 0 4)).any (fun c => !c.stopped && c.leaving.isNone) && (ctxBlocks s (arg 0 4)).isEmpty &&
      s.nests.all (·.2.ctx != arg 0 4) && s.parts.all (·.2.gang.isNone)) = true ∧
    (64 + (Config.imageBody (stMig none).nextId).length ≤ argOf (ask (stMig none) 0 0x27 outA) 0 12 8 ∨
      argOf (ask (stMig none) 0 0x27 outA) 0 12 8 < 64 + (Config.imageBody (stMig none).nextId).length) ∧
    asking (stMig (some 6)) 0 0x27 outA (fun s arg => (tget s.ctxs (arg 0 4)).any (fun c => !c.stopped && c.leaving == some 6) && ctxQuiet s (arg 0 4)) = true :=
  ⟨⟨by decide +kernel, by rw [compatKey_length]; decide +kernel⟩, by decide +kernel, by omega, by decide +kernel⟩

def tlbA : List Byte := cid ++ le 0 8 ++ le 4096 8
theorem witness_MailboxTenantsAndArenas_contexts :
    [st, awayIn st].all (fun x => asking x 0 0x30 tlbA (held fun s arg cx => cx.faultRing == 0 && cx.evOld.isEmpty &&
      rangeOut s (arg 0 4) (arg 4 8) (arg 12 8) == !x.lnk.remotes.isEmpty)) = true ∧
    asking stNone 0 0x40 (cid ++ le 16 4 ++ [9, 16, 0, 0] ++ le 1 4 ++ le 0x4000 8 ++ le 64 8) (held fun s arg cx => arg 8 1 ≤ 9 && decide (4 ≤ arg 9 1) && arg 9 1 ≤ 16 &&
      zeros ((reqBytes s 0).drop 32) 10 12 && arg 16 8 % 4096 == 0 && arg 24 8 % 64 == 0 && !ctxBusy s (arg 0 4) && cx.exportGran.isEmpty && decide (cx.poolUnits ≤ arg 4 4)) = true ∧
    asking (ctx st fun c => { c with exportBase := 0x4000, exportLen := 0x2000 }) 0 0x41 (cid ++ le 0x5000 8 ++ le 0x1000 8) (held fun _ arg cx =>
      arg 4 8 % 4096 == 0 && arg 12 8 % 4096 == 0 && cx.exportBase ≤ arg 4 8 && arg 4 8 + arg 12 8 ≤ cx.exportBase + cx.exportLen) = true ∧
    asking st 0 0x50 (cid ++ [16, 31, 1, 0] ++ le 0x1000 8 ++ le 0x8000 8 ++ le 0x10000 8) (held fun _ arg cx => decide (4 ≤ arg 4 1) && arg 4 1 ≤ 16 && decide (3 ≤ arg 5 1) &&
      decide (arg 5 1 < vecCount cx.fn) && arg 8 8 % 4 == 0 && arg 16 8 % 64 == 0 && arg 24 8 % 4096 == 0 && cx.waiting.isEmpty) = true ∧
    [stNone, st].all (fun x => asking x 0 0x70 (cid ++ le 0x20000 8) (held fun s arg _ => arg 4 8 % 65536 == 0 && !isArena (arg 4 8) && ctxBusy s (arg 0 4) == !x.grids.isEmpty)) = true ∧
    asking st 0 0x60 (cid ++ le 0x10 4) (held fun s arg _ => (namedStrand s (arg 0 4) (arg 4 4)).isNone) = true ∧
    asking st 0 0x60 (cid ++ le 0 4) (held fun s arg _ => (namedStrand s (arg 0 4) (arg 4 4)).any fun x => (tget s.blocks x.1).any (fun b => b.stage == .running && b.halt != 7 && !inTrap b) && s.lace.isEmpty &&
      (tget s.threads x.2.2.1).any (·.bid == x.1)) = true ∧
    [0x60, 0x61].all (fun code => asking (blk st fun b => { b with stage := .saved, why := 7 }) 0 code (cid ++ le 0 4) (held fun s arg _ =>
      (namedStrand s (arg 0 4) (arg 4 4)).any fun x => (tget s.blocks x.1).any fun b => b.stage == .saved && b.why == 7)) = true := by decide +kernel

def img0 : Image :=
  { ctx := { fn := 0, root := 0x10000, pasid := 0 }, cid := 7, grids := [], blocks := [], threads := [], cmds := [], nests := [], queues := []
    intervals := [], locks := [], bytes := [], top := 0 }
/-- An image in host memory at 0x200000, its header and its body given, and the same image among those of the machine; no context. -/
def withImg (s : State) (hdr body : List Byte) : State :=
  { s with
    images := [(1, img0)]
    ctxs := []
    granules := []
    mem := (s.mem.writeN (hostKey 0x200000) hdr).writeN (hostKey 0x200040) body }

theorem withImg_header (s : State) (hdr body : List Byte) (h : hdr.length = 64) : hostBytes (withImg s hdr body) 0x200000 64 = hdr := by
  have k := Memory.readN_writeN_same s.mem (hostKey 0x200000) hdr
  rw [h] at k
  exact (Memory.readN_writeN_apart _ (hostKey 0x200040) (hostKey 0x200000) 64 body (Or.inl (by decide))).trans k

theorem withImg_body (s : State) (hdr body : List Byte) : hostBytes (withImg s hdr body) (0x200000 + 64) body.length = body :=
  Memory.readN_writeN_same (s.mem.writeN (hostKey 0x200000) hdr) (hostKey 0x200040) body

theorem withImg_req (s : State) (hdr body : List Byte) (a : (fnOf s 0).mboxAddr = 0x100000) : reqBytes (withImg s hdr body) 0 = reqBytes s 0 := by
  show Memory.readN _ (hostKey (fnOf s 0).mboxAddr) 64 = Memory.readN _ (hostKey (fnOf s 0).mboxAddr) 64
  rw [a]
  exact (Memory.readN_writeN_apart _ (hostKey 0x200040) (hostKey 0x100000) 64 body (Or.inl (by decide))).trans
    (Memory.readN_writeN_apart s.mem (hostKey 0x200000) (hostKey 0x100000) 64 hdr (Or.inl (by decide)))

theorem withImg_asks (s : State) (hdr body : List Byte) (a : (fnOf s 0).mboxAddr = 0x100000) (q : Asks s 0 0x28 9) : Asks (withImg s hdr body) 0 0x28 9 := by
  refine ⟨q.busy, ?_, q.turn, ?_, ?_, ?_⟩ <;> rw [withImg_req s hdr body a]
  · exact q.kind
  · exact q.low
  · exact q.mid
  · exact q.rest

def inArgs (s : State) : Prop := (fnOf s 0).mboxAddr = 0x100000 ∧ Asks s 0 0x28 9 ∧ argOf s 0 0 8 = 0x200000 ∧ argOf s 0 8 1 = 63
theorem inArgs_some : ∃ s, inArgs s :=
  ⟨ask st 0 0x28 (le 0x200000 8 ++ [63]), by decide +kernel, asks_spec (by decide +kernel), by decide +kernel, by decide +kernel⟩

theorem compatKey_head (s : State) : ∃ x r, compatKey s = x :: r ∧ r.length = 31 := by
  have h := compatKey_length s
  match hk : compatKey s, h with
  | x :: r, h => exact ⟨x, r, rfl, by simpa using h⟩

/-- A header whose key differs in its first byte. -/
theorem witness_MailboxTenantsAndArenas_foreign : ∃ s, Asks s 0 0x28 9 ∧ argOf s 0 8 1 ≤ 63 ∧ (hostBytes s (argOf s 0 0 8) 64).take 32 ≠ compatKey s := by
  obtain ⟨s, a, q, b, c⟩ := inArgs_some
  obtain ⟨x, r, hk, hl⟩ := compatKey_head s
  have h : ((x + 1) :: (r ++ List.replicate 32 0) : List Byte).length = 64 := by simp [hl]
  refine ⟨withImg s ((x + 1) :: (r ++ List.replicate 32 0)) [], withImg_asks s _ [] a q, ?_, ?_⟩
  · unfold argOf at *
    rw [withImg_req _ _ _ a]
    exact Nat.le_of_eq c
  · have d : argOf (withImg s ((x + 1) :: (r ++ List.replicate 32 0)) []) 0 0 8 = 0x200000 := by
      unfold argOf at *
      rw [withImg_req _ _ _ a, b]
    rw [d, withImg_header _ _ _ h]
    show _ ≠ compatKey s
    rw [hk]
    intro e
    have := (List.cons.inj e).1
    bv_omega

/-- The header of an image under a compatibility key: padding, CID, version, length. -/
def imgRest (len : Nat) : List Byte := le 0 8 ++ le 1 4 ++ le 0 4 ++ le len 8 ++ le 0 8
theorem fld_key (k : List Byte) (h : k.length = 32) (r : List Byte) (i n : Nat) : fld (k ++ r) (32 + i) n = fld r i n := by
  unfold fld
  rw [List.drop_append, List.drop_eq_nil_of_le (by omega), h, List.nil_append, show 32 + i - 32 = i by omega]
theorem zeros_key (k : List Byte) (h : k.length = 32) (r : List Byte) (i j : Nat) : zeros (k ++ r) (32 + i) (32 + j) = zeros r i j := by
  unfold zeros
  rw [List.drop_append, List.drop_eq_nil_of_le (by omega), h, List.nil_append, show 32 + i - 32 = i by omega, show 32 + j - (32 + i) = j - i by omega]
theorem leNat_le (n x : Nat) : leNat (leBytes x n) = x % 256 ^ n := by
  induction n generalizing x with
  | zero => simp [leBytes, leNat, Nat.mod_one]
  | succ n ih =>
    simp only [leBytes, leNat, ih, BitVec.toNat_ofNat]
    have k := Nat.mod_mul (x := x) (a := 256) (b := 256 ^ n)
    rw [← Nat.pow_succ'] at k
    exact k.symm

/-- An image that can be taken in again, if its length has a place in the header. -/
theorem witness_MailboxTenantsAndArenas_image (hn : 64 + (Config.imageBody 1).length < 2 ^ 64) : ∃ s,
    let h := hostBytes s (argOf s 0 0 8) 64
    Asks s 0 0x28 9 ∧ argOf s 0 8 1 ≤ 63 ∧ h.take 32 = compatKey s ∧ fld h 40 4 = 1 ∧ zeros h 32 40 = true ∧ zeros h 56 64 = true ∧
      ∃ m, imageIn s (hostBytes s (argOf s 0 0 8 + 64) (fld h 48 8 - 64)) = some m ∧ m.queues = [] ∧ m.cid < 4096 ∧ tget s.ctxs m.cid = none ∧
        idFree s m.cid = true := by
  obtain ⟨s, a, q, b, c⟩ := inArgs_some
  have hk := compatKey_length s
  generalize hx : imgRest (64 + (Config.imageBody 1).length) = x
  have h : (compatKey s ++ x).length = 64 := by subst hx; simp [hk, imgRest, le, leBytes]
  have d : argOf (withImg s (compatKey s ++ x) (Config.imageBody 1)) 0 0 8 = 0x200000 := by
    unfold argOf at *
    rw [withImg_req _ _ _ a]
    exact b
  have l : fld (compatKey s ++ x) (32 + 16) 8 = 64 + (Config.imageBody 1).length := by
    rw [fld_key _ hk]
    subst hx
    show leNat (leBytes _ 8) = _
    rw [leNat_le, Nat.mod_eq_of_lt (by simpa using hn)]
  refine ⟨withImg s (compatKey s ++ x) (Config.imageBody 1), withImg_asks _ _ _ a q, ?_, ?_⟩
  · unfold argOf at *
    rw [withImg_req _ _ _ a]
    exact Nat.le_of_eq c
  · rw [d, withImg_header _ _ _ h]
    refine ⟨?_, ?_, ?_, ?_, img0, ?_, rfl, by decide, rfl, rfl⟩
    · show (compatKey s ++ x).take 32 = compatKey s
      rw [← hk, List.take_left]
    · rw [show (40 : Nat) = 32 + 8 from rfl, fld_key _ hk]
      subst hx
      rfl
    · rw [show (40 : Nat) = 32 + 8 from rfl, show zeros (compatKey s ++ x) 32 (32 + 8) = zeros (compatKey s ++ x) (32 + 0) (32 + 8) from rfl, zeros_key _ hk]
      subst hx
      rfl
    · rw [show (56 : Nat) = 32 + 24 from rfl, show (64 : Nat) = 32 + 32 from rfl, zeros_key _ hk]
      subst hx
      rfl
    · rw [show (48 : Nat) = 32 + 16 from rfl, l, show 64 + (Config.imageBody 1).length - 64 = (Config.imageBody 1).length by omega, withImg_body]
      simp [withImg, imageIn]

/-! ### Ill-formed terms, one for each check of WellFormed -/

/-- The first of each is refused, the second, its mended form, is not. -/
def refuses (bad good : Instr) : Bool := !WellFormed bad && WellFormed good

/-- Format R: the destination file, an odd pair, a register number past its file, a field that the row does not name, TYPE, rounding, saturation, SUB. -/
theorem test_wf_rows :
    refuses (.iadd hd { r2 4 with kd := true }) (.iadd hd (r2 4)) = true ∧ refuses (.iadd64 hd { r2 6 with d := 5 }) (.iadd64 hd (r2 6)) = true ∧
    refuses (.iadd hd { r2 4 with a := 64, ka := .k }) (.iadd hd { r2 4 with a := 63, ka := .k }) = true ∧
    refuses (.iadd hd { r2 4 with c := 1 }) (.iadd hd (r2 4)) = true ∧ refuses (.iadd hd (r2 14)) (.iadd hd (r2 5)) = true ∧
    refuses (.iadd hd { r2 4 with rnd := 1 }) (.fadd hd { r2 9 with rnd := 1 }) = true ∧ refuses (.iadd3 hd { r3 0 with sat := true }) (.iadd hd { r2 4 with sat := true }) = true ∧
    refuses (.shr hd { r2 4 with sub := 1 }) (.rot hd { r2 0 with sub := 1 }) = true ∧
    refuses (.psetp hd { r0 with d := 32, ka := .p, kb := .p, kc := .p }) (.psetp hd { r0 with d := 31, ka := .p, kb := .p, kc := .p }) = true := by decide +kernel

/-- Rules of single instructions, and scoreboard slots of instructions of fixed latency (13 R243). -/
theorem test_wf_extra :
    refuses (.isetp hd { r2 4 with kc := .p, c := 31, sub := 6 }) (.isetp hd { r2 4 with kc := .p, c := 31, sub := 5 }) = true ∧
    refuses (.shfl hd { r2 0 with c := 3, kc := .imm }) (.shfl hd { r2 0 with c := 4, kc := .imm }) = true ∧
    refuses (.iadd { hd with sbset := 1 } (r2 4)) (.idiv { hd with sbset := 1 } (r2 4)) = true := by decide +kernel

/-- Formats I, M, A, B and X: named fields, pairs, WIDTH, ORD, SCOPE, the atomic's operation, reserved bits of MOD and IMM31; events. -/
theorem test_wf_others :
    refuses (.movi hd { fI with a := 1 }) (.movi hd fI) = true ∧ refuses (.trap hd { fI with d := 0, imm := 65536 }) (.trap hd { fI with d := 0, imm := 65535 }) = true ∧
    refuses (.ld hd { fM with a := 3 }) (.ld hd fM) = true ∧ refuses (.ld hd { fM with width := 9 }) (.ld hd fM) = true ∧
    refuses (.ld hd { fM with ord := 3 }) (.st hd { fM with ord := 3 }) = true ∧ refuses (.ld hd { fM with scope := 5 }) (.ld hd { fM with scope := 4 }) = true ∧
    refuses (.st hd { fM with raw := true }) (.st hd { fM with raw := true, width := 7 }) = true ∧
    refuses (.atom hd { fA with c := 14 }) (.atom hd { fA with c := 13 }) = true ∧ refuses (.atom hd { fA with noret := true }) (.atom hd { fA with noret := true, d := 0 }) = true ∧
    refuses (.nop hd { fB with rsv := 1 }) (.nop hd fB) = true ∧ refuses (.bar hd { fX with imm := 8 }) (.bar hd { fX with imm := 7 }) = true ∧
    refuses (.mxspec hd { fX with imm := 0x100 }) (.mxspec hd { fX with imm := 0xFF }) = true ∧ WellFormed (.blockEnd 3) = false := by decide +kernel

/-! ### Words written out field by field from the encoding tables (13 R236, R238) -/

/-- A word from OP, GN, GP, STALL, SBSET, SBWAIT, YLD, and bits 63:0. -/
def wordOf (op gn gp stall sbset sbwait yld low : Nat) : IWord :=
  BitVec.ofNat 96 (op * 2 ^ 86 + gn * 2 ^ 85 + gp * 2 ^ 80 + stall * 2 ^ 76 + sbset * 2 ^ 73 + sbwait * 2 ^ 66 + yld * 2 ^ 65 + low)

def reads (w : IWord) (i : Instr) : Bool := match decode w with | .ok j => decide (j = i) | .error _ => false

/-- 15 R280: the three words of `ISETP.lt.s32.and p1, v0, 8, p31` with STALL 3. -/
theorem test_decode_isetp_words :
    reads ((0x201F3000 : Word) ++ ((0x00200004 : Word) ++ (0x01F1C802 : Word)))
      (.isetp { hd with stall := 3 } { r0 with d := 1, b := 8, kb := .imm, c := 31, kc := .p, ty := 4, sub := 2 }) = true := by decide +kernel

/-- One word for each class. -/
theorem test_decode_classes :
    reads (wordOf 0x001 0 31 0 0 0 0 (4 * 2 ^ 53 + 2 * 2 ^ 42 + 6 * 2 ^ 31 + 4 * 2 ^ 9)) (.iadd hd (r2 4)) = true ∧
    reads (wordOf 0x044 1 3 0 0 0 0 (4 * 2 ^ 53 + 2 * 2 ^ 42 + 6 * 2 ^ 31 + 1)) (.rot { hd with gn := true, gp := 3 } { r2 0 with sub := 1 }) = true ∧
    reads (wordOf 0x085 0 31 0 0 0 0 (4 * 2 ^ 53 + 0x12345678 * 2 ^ 10)) (.movi hd fI) = true ∧
    reads (wordOf 0x0C0 0 31 0 0 0 0 (5 * 2 ^ 32)) (.bra hd { fB with tgt := 5 }) = true ∧
    reads (wordOf 0x100 0 31 0 0 0 0 (4 * 2 ^ 53 + 2 * 2 ^ 42 + 6 * 2 ^ 31 + 9 * 2 ^ 9)) (.fadd hd (r2 9)) = true ∧
    reads (wordOf 0x180 0 31 0 1 0 0 (4 * 2 ^ 53 + 2 * 2 ^ 42 + 6 * 2 ^ 14 + 3 * 2 ^ 8)) (.ld { hd with sbset := 1 } fM) = true ∧
    reads (wordOf 0x1C0 0 31 0 0 0 0 (4 * 2 ^ 53 + 2 * 2 ^ 42 + 6 * 2 ^ 31 + 3 * 2 ^ 1)) (.atom hd fA) = true ∧
    reads (wordOf 0x201 0 31 0 0 1 1 (31 * 2 ^ 53 + 7)) (.bar { hd with sbwait := 1, yld := true } { fX with d := 31, imm := 7 }) = true ∧
    reads (wordOf 0x340 0 31 0 0 0 0 (9 * 2 ^ 10)) (.trap hd { fI with d := 0, imm := 9 }) = true := by decide +kernel

/-! ### Values that the spec works out -/

/-- Lane 0 of v2, v6 and v8. -/
def rv (a b c : Word) : State := thr st fun th => { th with v := sset (sset (sset [] 64 a) 192 b) 256 c }

/-- 14 R258: its borderline cases. -/
theorem test_iadd_isub :
    v4 (.iadd hd { r2 4 with sat := true }) (rv 0x7FFFFFFF 1 0) = some 0x7FFFFFFF ∧ v4 (.iadd hd (r2 4)) (rv 0x7FFFFFFF 1 0) = some 0x80000000 ∧
    v4 (.isub hd { r2 5 with sat := true }) (rv 3 5 0) = some 0 ∧ v4 (.iadd3 hd { r3 0 with sub := 1 }) (rv 0x80000000 0 0) = some 0x80000000 := by decide +kernel

/-- 14 R262. -/
theorem test_iabs : v4 (.iabs hd (r1 0)) (rv 0x80000000 0 0) = some 0x80000000 ∧ v4 (.iabs hd { r1 0 with sat := true }) (rv 0x80000000 0 0) = some 0x7FFFFFFF := by
  decide +kernel

/-- 14 R270: a shift of 33 takes every bit out. -/
theorem test_shr : v4 (.shr hd (r2 4)) (rv 0x80000000 33 0) = some 0xFFFFFFFF ∧ v4 (.shr hd (r2 5)) (rv 0x80000000 33 0) = some 0 := by decide +kernel
/-- 14 R271. -/
theorem test_dsh : v4 (.dsh hd { r3 0 with sub := 1 }) (rv 0x44332211 0x88776655 8) = some 0x55443322 ∧ v4 (.dsh hd (r3 0)) (rv 1 2 32) = some 1 := by decide +kernel
/-- 14 R272-R274. -/
theorem test_rot_clz : v4 (.rot hd (r2 0)) (rv 0x12345678 8 0) = some 0x34567812 ∧ v4 (.clz hd (r1 0)) (rv 0 0 0) = some 32 := by decide +kernel
theorem test_bfe : v4 (.bfe hd (r3 4)) (rv 0xB5 4 4) = some 0xFFFFFFFB ∧ v4 (.bfe hd (r3 5)) (rv 0xB5 4 4) = some 0xB := by decide +kernel
/-- 14 R275, R276. -/
theorem test_bfi : v4 (.bfi hd (r3 0)) (rv 5 0xFFFFFFFF 0x304) = some 0xFFFFFFDF := by decide +kernel
theorem test_bshuf : v4 (.bshuf hd (r3 0)) (rv 0x11223344 0 0x00010203) = some 0x44332211 := by decide +kernel
/-- 16: the class of a quiet NaN, the smallest normal step of FSCALE, and FMAX of a NaN. -/
theorem test_fclass_fscale :
    v4 (.fclass hd (r1 9)) (rv 0x7FC00000 0 0) = some 0x200 ∧ v4 (.fscale hd (r2 9)) (rv 0x3FC00000 0xFFFFFF6B 0) = some 2 := by decide +kernel
theorem test_fmax_nan : v4 (.fmax hd (r2 9)) (rv 0x7FC00000 0 0) = some 0 := by decide +kernel
/-- 1 + 2 = 3, and the sum of two greatest numbers is an infinity under RN and the greatest number under RZ. -/
theorem test_fadd : v4 (.fadd hd (r2 9)) (rv 0x3F800000 0x40000000 0) = some 0x40400000 ∧ v4 (.fadd hd (r2 9)) (rv 0x7F7FFFFF 0x7F7FFFFF 0) = some 0x7F800000 ∧
    v4 (.fadd hd { r2 9 with rnd := 1 }) (rv 0x7F7FFFFF 0x7F7FFFFF 0) = some 0x7F7FFFFF := by decide +kernel

/-- 15 R286: lanes 1 to 31 agree with each other, lane 0 with itself. -/
theorem test_match : v4 (.lmatch hd (r1 0)) (rv 7 0 0) = some 1 ∧ v4 (.lmatch hd { r1 0 with sub := 1 }) (rv 0 0 0) = some 0xFFFFFFFF := by decide +kernel

/-- 10 R188: the records it works out, and its CRC: 32 zero bytes give 0x8A9136AA before the final complement that it leaves out. -/
theorem test_signature :
    sigRec (opOf (.bra hd fB)) false 1 = 0x0601 ∧ sigRec (opOf (.iadd hd (r2 4))) false 0 = 0x0008 ∧ sigRec 0 false 2 = 0x0002 ∧
    (List.range 16).foldl (fun g _ => fold g 0) sigReset = ~~~0x8A9136AA := by decide +kernel

/-- 03 R56: SHA-512 of "abc", from the examples of FIPS 180-4. -/
theorem test_sha512 : (sha512 [0x61, 0x62, 0x63]).take 16 =
    [0xDD, 0xAF, 0x35, 0xA1, 0x93, 0x61, 0x7A, 0xBA, 0xCC, 0x41, 0x73, 0x49, 0xAE, 0x20, 0x41, 0x31] := by decide +kernel

/-- 17: a stored word is little-endian, and a load reads it back sign-extended. -/
theorem test_store_load :
    (match exec (.st hd fM) (thr st1 fun th => { th with v := sset (sset [] 64 0x1100) 128 0xCCBBAA99 }) with
      | .next t => t.mem.readN (placeBase + 0x1100) 4 == [0x99, 0xAA, 0xBB, 0xCC]
      | _ => false) = true ∧
    v4 (.ld hd { fM with width := 1 }) (thr { st1 with mem := st1.mem.writeN (placeBase + 0x1100) [0x99] } fun th => { th with v := sset [] 64 0x1100 }) = some 0xFFFFFF99 := by
  decide +kernel

/-- 08 R135: the address that it works out, of the block arena in slot 5 with generation 3. -/
theorem test_arena_address : arenaBaseAddr 1 5 3 0 + 0x40 = 0xAE20005003000040 := by decide +kernel

/-- 06 R86: the claim that it works out. -/
theorem test_claim :
    needOf { parseRec [] with lx := 256, ly := 1, lz := 1, regs := 64, scratch := 40000, tiles := 24576, shadow := 32, phasers := 2, ctrl := 0x1000 } =
      { reg := 4, sp := 3, ts := 2, str := 8, phs := 2, ctl := true } := by decide +kernel

/-- A step fetches and runs the word at the PC: a MOVI, which advances it by 12. -/
theorem test_step_fetches :
    (match step (State.reset.withFetchWord 96 (wordOf 0x085 0 31 0 0 0 0 (4 * 2 ^ 53 + 0x12345678 * 2 ^ 10)).toNat) with
      | .next t => vAt t 256 4 31 == 0x12345678 && pcAt t 256 0 == some 0x100C
      | _ => false) = true := by decide +kernel

end Sys2Proof.Tests
end

section
/-! O7 (00 R3, 07 R117, 09 R157): a canonical store is determined by what it reads, and what a store to memory leaves alone. -/
namespace Sys2Proof.Machine

/-! ### A canonical store is determined by what it reads -/

theorem Sparse.wf_cons {n : Nat} (e : Nat × BitVec n) (r : Sparse n) :
    Sparse.wf (e :: r) = true ↔ allAbove e.1 r = true ∧ e.2 ≠ 0 ∧ Sparse.wf r = true := by
  simp only [Sparse.wf, rising_cons, List.all_cons, Bool.and_eq_true, bne_iff_ne]
  exact ⟨fun ⟨⟨habove, hrise⟩, hne, hall⟩ => ⟨habove, hne, hrise, hall⟩, fun ⟨habove, hne, hrise, hall⟩ => ⟨⟨habove, hrise⟩, hne, hall⟩⟩

/-- A number at or below the bound of a store is unlisted. -/
theorem sget_of_allAbove {n : Nat} {b i : Nat} {t : Sparse n} (h : allAbove b t = true) (hi : i ≤ b) : sget t i = 0 := by
  induction t with
  | nil => rfl
  | cons e r ih =>
    simp only [allAbove, List.all_cons, Bool.and_eq_true, decide_eq_true_eq] at h ih
    rw [sget, if_neg (by omega), ih h.2]

/-- A number below the first listed one reads 0. -/
theorem sget_cons_of_lt {n : Nat} {i j : Nat} {x : BitVec n} {r : Sparse n} (hr : allAbove j r = true) (hi : i < j) :
    sget ((j, x) :: r) i = 0 := by
  rw [sget, if_neg (by omega), sget_of_allAbove hr (by omega)]

theorem sget_cons_self {n : Nat} (j : Nat) (x : BitVec n) (r : Sparse n) : sget ((j, x) :: r) j = x := if_pos rfl

/-- Two canonical stores that read alike are one store. -/
theorem Sparse.ext_of_wf {n : Nat} {s t : Sparse n} (hs : Sparse.wf s = true) (ht : Sparse.wf t = true)
    (h : ∀ i, sget s i = sget t i) : s = t := by
  induction s generalizing t with
  | nil =>
    cases t with
    | nil => rfl
    | cons e r =>
      obtain ⟨-, hx, -⟩ := (Sparse.wf_cons e r).1 ht
      exact absurd ((sget_cons_self ..).symm.trans (h e.1).symm) hx
  | cons e r ih =>
    obtain ⟨j, x⟩ := e
    obtain ⟨hr, hx, hwr⟩ := (Sparse.wf_cons _ r).1 hs
    have hj := sget_cons_self j x r
    cases t with
    | nil => exact absurd (hj.symm.trans (h j)) hx
    | cons e' r' =>
      obtain ⟨j', x'⟩ := e'
      obtain ⟨hr', hx', hwr'⟩ := (Sparse.wf_cons _ r').1 ht
      have hj' := sget_cons_self j' x' r'
      obtain hlt | rfl | hgt := Nat.lt_trichotomy j j'
      · exact absurd (hj.symm.trans ((h j).trans (sget_cons_of_lt hr' hlt))) hx
      · obtain rfl : x = x' := hj.symm.trans ((h j).trans hj')
        have htail (i : Nat) : sget r i = sget r' i := by
          by_cases hi : i = j
          · rw [sget_of_allAbove hr (Nat.le_of_eq hi), sget_of_allAbove hr' (Nat.le_of_eq hi)]
          · simpa only [sget, if_neg hi] using h i
        rw [ih hwr hwr' htail]
      · exact absurd (hj'.symm.trans ((h j').symm.trans (sget_cons_of_lt hr hgt))) hx'

/-! ### What a store to memory leaves alone -/

theorem Memory.read_writeN_outside {m : Memory} {a k : Nat} {bs : List Byte} (h : k < a ∨ a + bs.length ≤ k) :
    (m.writeN a bs).read k = m.read k := by
  rw [Memory.read_writeN, if_neg (by omega)]

theorem foldl_keeps {α β : Type} (g : State → β) (f : State → α → State) (hf : ∀ s x, g (f s x) = g s) (xs : List α) (s : State) :
    g (xs.foldl f s) = g s :=
  List.foldlRecOn xs f (motive := fun t => g t = g s) rfl fun t ht x _ => (hf t x).trans ht

/-- A store leaves what neither the bytes, nor what falls due, nor a note in a fragment can change. -/
theorem storeKey_keeps {β : Type} (g : State → β) (hmem : ∀ s m, g { s with mem := m } = g s) (hafter : ∀ s i, g (after s i) = g s)
    (hthread : ∀ s t f, g (modThread s t f) = g s) (s : State) (a : Nat) (bs : List Byte) : g (storeKey s a bs) = g s := by
  unfold storeKey
  dsimp only
  rw [foldl_keeps g _ fun _ _ => hafter .., foldl_keeps g _ fun _ _ => (hafter ..).trans (hthread ..), hmem]

/-- With no fragment that watches the bytes, a store leaves every thread as it was. -/
theorem storeKey_threads_of_unwatched {s : State} {a : Nat} {bs : List Byte} (h : watchers s a bs.length = []) :
    (storeKey s a bs).threads = s.threads := by
  unfold storeKey
  rw [h]
  exact foldl_keeps State.threads _ (fun _ _ => after_threads ..) _ _

/-- Settles O7: what `storeKey` does to memory is `writeN`, its walk over the watchers and WAITSIGs keeps the other fields, and a
canonical memory is determined by its reads. -/
theorem memoryReadAfterWrite : Obligations.MemoryReadAfterWrite := by
  unfold Obligations.MemoryReadAfterWrite
  refine ⟨fun s a bs => ?_, fun m m' hm hm' => Sparse.ext_of_wf (n := 8) hm hm'⟩
  have keeps {β : Type} (g : State → β) := storeKey_keeps g (s := s) (a := a) (bs := bs)
  refine ⟨?_, fun k hk => ?_, storeKey_inv s a bs, storeKey_threads_of_unwatched, storeKey_watches s a bs, ?_⟩
  · rw [storeKey_mem, Memory.readN_writeN_same]
  · rw [storeKey_mem, Memory.read_writeN_outside hk]
  · exact ⟨keeps State.blocks (fun _ _ => rfl) after_blocks modThread_blocks, keeps State.grids (fun _ _ => rfl) after_grids modThread_grids,
      keeps State.ctxs (fun _ _ => rfl) after_ctxs modThread_ctxs, keeps State.queues (fun _ _ => rfl) after_queues modThread_queues,
      keeps State.time (fun _ _ => rfl) after_time modThread_time⟩

end Sys2Proof.Machine
end

section
/-! O3 (06 R97, 07 R102, R119, 13 R235, R242): which turn a step runs, and what instruction fetch reads of a page, of a line that the L0
misses, and of one that it may hold. -/
namespace Sys2Proof.Machine

/-! ### Translation leaves the L0s alone -/

@[simp] theorem tlbPut_l0 (s : State) (c va shift pte : Nat) (us : List Nat) : (tlbPut s c va shift pte us).l0 = s.l0 := rfl

@[simp] theorem countWalk_l0 (s : State) (unit : Nat) : (countWalk s unit).l0 = s.l0 := by
  unfold countWalk
  split
  · exact count_l0 ..
  · split
    · exact count_l0 ..
    · rfl

@[simp] theorem setBit_l0 (s : State) (key e b : Nat) : (setBit s key e b).l0 = s.l0 := by
  unfold setBit
  split <;> rfl

@[simp] theorem setDirty_l0 (s : State) (c va unit : Nat) (l : Leaf) : (setDirty s c va unit l).l0 = s.l0 := by
  unfold setDirty
  split
  · split
    · rfl
    · simp
  · rfl

@[simp] theorem pageOf_l0 (s : State) (c va : Nat) (u : Use) (unit : Nat) : (pageOf s c va u unit).1.l0 = s.l0 := by
  unfold pageOf
  split
  · rfl
  · split
    · dsimp only
      split <;> simp
    · dsimp only
      split
      · simp
      · split <;> simp

@[simp] theorem transPage_l0 (s : State) (c va : Nat) (u : Use) (unit : Nat) : (transPage s c va u unit).1.l0 = s.l0 := by
  have hp := pageOf_l0 s c va u unit
  unfold transPage
  split
  next h => simpa [h] using hp
  next h =>
    rw [h] at hp
    split
    · dsimp only
      split <;> simpa using hp
    · exact hp

/-- A fetch backs no arena granule: an arena and the export range hold no code (07 R120). -/
theorem translate_fetch_l0 (s : State) (c va unit : Nat) : (translate s c va .fetch unit).1.l0 = s.l0 := by
  unfold translate
  split
  · rfl
  · split
    · rfl
    · split
      · rfl
      · split
        · rfl
        · exact transPage_l0 ..

theorem xlatePages_l0 (s : State) (c : Nat) (u : Use) (unit : Nat) (known : Pages) (ps : List (Nat × Nat × Nat)) :
    (xlatePages s c u unit known ps).1.l0 = s.l0 := by
  induction ps generalizing s known with
  | nil => rfl
  | cons p r ih =>
    rw [xlatePages]
    dsimp only
    rw [ih]
    split
    · rfl
    · exact pageOf_l0 ..

theorem xlateOthers_fetch_l0 (s : State) (c unit : Nat) (ps : List (Nat × Nat × Nat)) : (xlateOthers s c .fetch unit ps).1.l0 = s.l0 := by
  induction ps generalizing s with
  | nil => rfl
  | cons p r ih =>
    rw [xlateOthers]
    dsimp only
    rw [ih]
    exact translate_fetch_l0 ..

@[simp] theorem codeParts_l0 (e : Env) (s : State) (known : Pages) (ps : List (Nat × Nat)) : (codeParts e s known ps).1.l0 = s.l0 := by
  unfold codeParts
  dsimp only
  rw [xlateOthers_fetch_l0, xlatePages_l0]

/-! ### Reading ahead keeps the lines that it does not read -/

theorem mem_putL0_of_other_line {x : Nat × Nat × Nat × List Byte} {s : State} {line : Nat} (hx : x ∈ s.l0) (hl : x.2.2.1 / 96 * 96 ≠ line)
    (core c : Nat) (ps : List (Nat × List Byte)) : x ∈ (putL0 s core c line ps).l0 := by
  simp [putL0, hx, hl]

theorem mem_prefetchL0 {e : Env} {x : State × Pages} {y : Nat × Nat × Nat × List Byte} {line : Nat} (hy : y ∈ x.1.l0)
    (hl : y.2.2.1 / 96 * 96 ≠ line) : y ∈ (prefetchL0 e x line).1.l0 := by
  unfold prefetchL0
  split
  · exact hy
  · exact mem_putL0_of_other_line (by rwa [codeParts_l0]) hl ..

/-- The four lines behind one are read ahead. -/
def readAhead (e : Env) (x : State × Pages) (line : Nat) : State × Pages :=
  (List.range 4).foldl (fun x j => prefetchL0 e x (line + 96 * (j + 1))) x

theorem mem_readAhead {e : Env} {x : State × Pages} {y : Nat × Nat × Nat × List Byte} {line : Nat} (hy : y ∈ x.1.l0)
    (hl : y.2.2.1 / 96 * 96 = line) : y ∈ (readAhead e x line).1.l0 :=
  List.foldlRecOn (List.range 4) (fun x j => prefetchL0 e x (line + 96 * (j + 1))) (motive := fun x => y ∈ x.1.l0) hy
    fun _ h _ _ => mem_prefetchL0 h (by omega)

/-! ### Bytes of one part -/

theorem length_rdN (s : State) (k n : Nat) : (rdN s k n).length = n := by simp [rdN, Memory.readN]

theorem take_drop_rdN {s : State} {k o n m : Nat} (h : o + n ≤ m) : ((rdN s k m).drop o).take n = rdN s (k + o) n := by
  apply List.ext_getElem
  · simp [length_rdN]
    omega
  · intro i _ _
    simp [rdN, Memory.readN, Nat.add_assoc]

/-- A range inside one part is what the part holds there. -/
theorem bytesOf_part {a va n : Nat} {bs : List Byte} (hlo : a ≤ va) (hhi : va + n ≤ a + bs.length) :
    bytesOf [(a, bs)] va n = (bs.drop (va - a)).take n := by
  apply List.ext_getElem
  · simp [bytesOf]
    omega
  · intro j hj _
    have hj : j < n := by simpa [bytesOf] using hj
    have hlo' : a ≤ va + j := by omega
    have hhi' : va + j < a + bs.length := by omega
    have hat : va + j - a = va - a + j := by omega
    have hin : va - a + j < bs.length := by omega
    simp [bytesOf, hlo', hhi', List.getElem?_eq_getElem hin, hat]

theorem bytesOf_whole {va n : Nat} {bs : List Byte} (h : bs.length = n) : bytesOf [(va, bs)] va n = bs := by
  rw [bytesOf_part (Nat.le_refl va) (by omega), Nat.sub_self, List.drop_zero, List.take_of_length_le (by omega)]

theorem holdsAll_part {a va n : Nat} {bs : List Byte} (hlo : a ≤ va) (hhi : va + n ≤ a + bs.length) : holdsAll [(a, bs)] va n = true := by
  simp only [holdsAll, List.all_eq_true, List.mem_range, List.any_cons, List.any_nil, Bool.or_false, Bool.and_eq_true, decide_eq_true_eq]
  omega

theorem decode_codeWord_take (bs : List Byte) : decode (codeWord (bs.take 12)) = decodeBytes bs := rfl

/-! ### What a translated page of code gives (07 R119) -/

theorem cut4K_inside {va n : Nat} (h : va % 4096 + n ≤ 4096) : cut4K va n = [(va, n)] := by
  unfold cut4K
  exact if_pos (by omega)

theorem xlatePages_one {s s' : State} {c va unit o n : Nat} {l : Leaf} (hp : pageOf s c va .fetch unit = (s', .ok l)) :
    xlatePages s c .fetch unit [] [(va, o, n)] = (s', [(va, .ok l)], [(va, fits s' n (pageTgt s' l.pte l.shift va))]) := by
  simp [xlatePages, knownPage, hp]

theorem codeParts_codePage {e : Env} {s s' : State} {va n k : Nat} (h : CodePage e s va n s' k) :
    ∃ known, codeParts e s [] (cut4K va n) = (s', known, [(va, .bytes (rdN s' k n))]) := by
  obtain ⟨hin, cx, l, x, hctx, hpaged, hpage, htgt, hspan⟩ := h
  refine ⟨[(va, .ok l)], ?_⟩
  simp [cut4K_inside hin, codeParts, hctx, hpaged, xlatePages_one hpage, xlateOthers, weave, htgt, fits, hspan, codeAt]

/-! ### Bytes through the L0 (07 R102) -/

/-- A line that the L0 does not hold comes from the slice as a whole, and stays in the L0. -/
theorem lineCode_miss {e : Env} {s s' : State} {line va n k : Nat} (hheld : heldL0 e s line = []) (hn : 0 < n) (hlo : line ≤ va)
    (hhi : va + n ≤ line + 96) (hline : line / 96 * 96 = line) (hpage : CodePage e (tick s) line 96 s' k) :
    ∃ t known, lineCode e s [] line va n = (t, known, [(line, .bytes (rdN s' k 96))]) ∧ (e.blk.core, e.grid.ctx, line, rdN s' k 96) ∈ t.l0 := by
  obtain ⟨known, hparts⟩ := codeParts_codePage hpage
  have hmiss : holdsAll [] va n = false := by
    simpa [holdsAll, List.all_eq_false] using ⟨0, hn⟩
  have hmeets : meets (line, 96) (va, n) = true := by
    simp [meets]
    omega
  have hfill : (e.blk.core, e.grid.ctx, line, rdN s' k 96) ∈ (putL0 s' e.blk.core e.grid.ctx line [(line, rdN s' k 96)]).l0 := by
    simp [putL0]
  rw [lineCode, hheld, hmiss, hparts, cut4K_inside hpage.1]
  refine ⟨(readAhead e (putL0 s' e.blk.core e.grid.ctx line [(line, rdN s' k 96)], known) line).1,
    (readAhead e (putL0 s' e.blk.core e.grid.ctx line [(line, rdN s' k 96)], known) line).2, ?_, mem_readAhead hfill hline⟩
  simp [hmeets, arrivedParts, readAhead]

/-- Bytes that the L0 serves. -/
theorem lineCode_hit {e : Env} {s : State} {line va n : Nat} {bs : List Byte} (hheld : heldL0 e s line = [(line, bs)]) (hlo : line ≤ va)
    (hhi : va + n ≤ line + bs.length) : lineCode e s [] line va n = (tick s, [], [(va, .bytes ((bs.drop (va - line)).take n))]) := by
  rw [lineCode, hheld, holdsAll_part hlo hhi, bytesOf_part hlo hhi]
  rfl

/-- Of the one entry that an L0 has of a line it serves the bytes, or it has lost them (07 R102). -/
theorem heldL0_one {e : Env} {s : State} {line : Nat} {x : Nat × Nat × Nat × List Byte}
    (h : (s.l0.filter fun y => y.1 == e.blk.core && y.2.1 == e.grid.ctx && y.2.2.1 / 96 * 96 == line) = [x]) :
    heldL0 e s line = [(x.2.2.1, x.2.2.2)] ∨ heldL0 e s line = [] := by
  unfold heldL0
  cases Config.l0Serves s.freeCtr (line / 96)
  · exact .inr (by simp)
  · exact .inl (by simp [h])

/-! ### The fetch of a fragment -/

theorem codeOf_control {e : Env} {s s' : State} {va n k : Nat} (hcc : e.th.cc = true) (hpage : CodePage e s va n s' k) :
    codeOf e s va n = (s', [(va, .bytes (rdN s' k n))]) := by
  obtain ⟨known, hparts⟩ := codeParts_codePage hpage
  rw [codeOf, if_pos hcc, hparts]

/-- A strand's instruction that lies in one line. -/
theorem codeOf_strand {e : Env} {s t : State} {va : Nat} {known : Pages} {cs : List (Nat × Code)} (hcc : e.th.cc = false)
    (hin : va % 96 + 12 ≤ 96) (hline : lineCode e s [] (va / 96 * 96) va 12 = (t, known, cs)) : codeOf e s va 12 = (t, cs) := by
  have hlo : max va (va / 96 * 96) = va := by omega
  have hlen : min (va + 12) (va / 96 * 96 + 96) - va = 12 := by omega
  simp only [codeOf, hcc, Bool.false_eq_true, if_false, linesAt, if_pos hin, List.foldl_cons, List.foldl_nil, hlo, hlen, hline, List.nil_append]

theorem fetchCode_part {e : Env} {t : State} {a : Nat} {bs : List Byte} (h : codeOf e e.s e.fr.pc.toNat 12 = (t, [(a, .bytes bs)])) :
    ∃ u, fetchCode e = (u, .bytes (bytesOf [(a, bs)] e.fr.pc.toNat 12)) ∧ u.l0 = t.l0 := by
  rw [fetchCode, h]
  exact ⟨_, rfl, rfl⟩

theorem fetchTurn_of_fetchCode {s u : State} {tid fi : Nat} {e : Env} {bs : List Byte} {i : Instr} (hf : Fetches s tid fi e)
    (hcode : fetchCode e = (u, .bytes bs)) (hdec : decode (codeWord bs) = .ok i) : fetchTurn s tid fi = .ok (u, i) := by
  simp [fetchTurn, hf.env, hf.park, hf.frozen, hf.stopped, hf.stage, hcode, hdec]

/-- A control context fetches from the slice. -/
theorem fetchTurn_control {s s' : State} {tid fi k : Nat} {e : Env} {i : Instr} (hf : Fetches s tid fi e) (hcc : e.th.cc = true)
    (hpage : CodePage e e.s e.fr.pc.toNat 12 s' k) (hdec : decodeBytes (rdN s' k 12) = .ok i) : ∃ t, fetchTurn s tid fi = .ok (t, i) := by
  obtain ⟨u, hu, -⟩ := fetchCode_part (codeOf_control hcc hpage)
  refine ⟨u, fetchTurn_of_fetchCode hf hu ?_⟩
  rw [bytesOf_whole (length_rdN ..), ← List.take_of_length_le (Nat.le_of_eq (length_rdN s' k 12)), decode_codeWord_take, hdec]

/-- A strand whose L0 misses fetches from the line that fills it. -/
theorem fetchTurn_miss {s s' : State} {tid fi k : Nat} {e : Env} {i : Instr} (hf : Fetches s tid fi e) (hcc : e.th.cc = false)
    (hin : e.fr.pc.toNat % 96 + 12 ≤ 96) (hheld : heldL0 e e.s (e.fr.pc.toNat / 96 * 96) = [])
    (hpage : CodePage e (tick e.s) (e.fr.pc.toNat / 96 * 96) 96 s' k) (hdec : decodeBytes (rdN s' (k + e.fr.pc.toNat % 96) 12) = .ok i) :
    ∃ t, fetchTurn s tid fi = .ok (t, i) ∧ (e.blk.core, e.grid.ctx, e.fr.pc.toNat / 96 * 96, rdN s' k 96) ∈ t.l0 := by
  obtain ⟨t, known, hline, hmem⟩ := lineCode_miss (va := e.fr.pc.toNat) (n := 12) hheld (by omega) (by omega) (by omega) (by omega) hpage
  obtain ⟨u, hu, hl0⟩ := fetchCode_part (codeOf_strand hcc hin hline)
  have hoff : e.fr.pc.toNat - e.fr.pc.toNat / 96 * 96 = e.fr.pc.toNat % 96 := by omega
  refine ⟨u, fetchTurn_of_fetchCode hf hu ?_, hl0 ▸ hmem⟩
  rw [bytesOf_part (by omega) (by rw [length_rdN]; omega), hoff, decode_codeWord_take]
  rw [← hdec, decodeBytes, decodeBytes, take_drop_rdN hin, List.take_of_length_le (Nat.le_of_eq (length_rdN ..))]

/-- A strand whose L0 serves the line fetches what the L0 holds. -/
theorem fetchTurn_hit {s : State} {tid fi : Nat} {e : Env} {bs : List Byte} {i : Instr} (hf : Fetches s tid fi e) (hcc : e.th.cc = false)
    (hin : e.fr.pc.toNat % 96 + 12 ≤ 96) (hheld : heldL0 e e.s (e.fr.pc.toNat / 96 * 96) = [(e.fr.pc.toNat / 96 * 96, bs)])
    (hlen : bs.length = 96) (hdec : decodeBytes ((bs.drop (e.fr.pc.toNat % 96)).take 12) = .ok i) : ∃ t, fetchTurn s tid fi = .ok (t, i) := by
  have hline := lineCode_hit (va := e.fr.pc.toNat) (n := 12) hheld (by omega) (by omega)
  have hoff : e.fr.pc.toNat - e.fr.pc.toNat / 96 * 96 = e.fr.pc.toNat % 96 := by omega
  obtain ⟨u, hu, -⟩ := fetchCode_part (codeOf_strand hcc hin hline)
  refine ⟨u, fetchTurn_of_fetchCode hf hu ?_⟩
  rw [bytesOf_whole (by simp; omega), hoff, ← hdec, decode_codeWord_take, decodeBytes, decodeBytes, List.take_take, Nat.min_self]

/-! ### The step -/

theorem issueTurn_of_fetch {s s' : State} {tid fi : Nat} {i : Instr} (h : fetchTurn s tid fi = .ok (s', i)) :
    issueTurn tid fi s = exec i { s' with cur := tid, curFrag := fi } := by
  rw [issueTurn, h]

theorem step_agenda {s : State} {t : Turn} {r : List Turn} (h : s.agenda = t :: r) : step s = runTurn t { s with agenda := r } := by
  rw [step, h]

theorem step_due {s s' : State} {t : Turn} (ha : s.agenda = []) (hd : dueTurn s = some (t, s')) : step s = runTurn t s' := by
  rw [step, ha, hd]

theorem step_park {s : State} {p : Nat × Nat} (ha : s.agenda = []) (hd : dueTurn s = none) (hp : firstPark s = some p) :
    step s = issueTurn p.1 p.2 s := by
  rw [step, ha, hd, hp]

theorem step_pick {s : State} {p : Pick} (ha : s.agenda = []) (hd : dueTurn s = none) (hp : firstPark s = none) (hk : firstPick s = some p) :
    step s = issueTurn p.tid p.fi (markIssue s p) := by
  rw [step, ha, hd, hp, hk]

theorem step_cycle {s : State} (ha : s.agenda = []) (hd : dueTurn s = none) (hp : firstPark s = none) (hk : firstPick s = none) :
    step s = .next (cycle s) := by
  rw [step, ha, hd, hp, hk]

/-- Settles O3: one lemma per source of a step's turn, and one per place that an instruction is fetched from; an L0 that holds the line
either serves it or has lost it. -/
theorem stepRunsDecoded : Obligations.StepRunsDecoded := by
  unfold Obligations.StepRunsDecoded
  refine ⟨fun s i r h => step_agenda h, fun s tid fi r s' i h hf => (step_agenda h).trans (issueTurn_of_fetch hf),
    fun s i s' ha hd => step_due ha hd, fun s p => step_park, fun s p s' i ha hd hp hk hf => (step_pick ha hd hp hk).trans (issueTurn_of_fetch hf),
    fun s => step_cycle, fun s tid fi e s' k i => fetchTurn_control, fun s tid fi e s' k i => fetchTurn_miss, ?_⟩
  intro s tid fi e s' k i j bs hf hcc hin hentry hlen hi hpage hj
  obtain hheld | hlost := heldL0_one hentry
  · obtain ⟨t, ht⟩ := fetchTurn_hit hf hcc hin hheld hlen hi
    exact ⟨t, .inl ht⟩
  · obtain ⟨t, ht, -⟩ := fetchTurn_miss hf hcc hin hlost hpage hj
    exact ⟨t, .inr ht⟩

end Sys2Proof.Machine
end

section
/-! O43 (06 R88, 07 R104, 10 R181, R192, 02 R31): a scrub that ends lets a restored block go on, and what its strands then do may write
memory; the claim that a scrub leaves memory alone fails there. -/
namespace Sys2Proof.Machine

/-- The memory after a turn that ends in a next state. -/
def memAfter : Out → Memory
  | .next t => t.mem
  | .fault _ | .refused _ => []

/-- A strand stands at an MWAIT for a word of package 1 (17 R336). -/
def waitsAbroad (th : Thread) : Thread :=
  { th with frags := tmap th.frags fun _ f => { f with park := .mwait 0 4 [{ lane := 0, key := 0, want := 0, pkg := some 1 }] true 0 100 0 } }

/-- A block that comes back waits for Scarab to clear granule 0 of its core. Its strand stands at an MWAIT for a word of package 1, to which
its context has no usable flow, and Lacewing records machine checks (kind 7) in a ring in near memory. -/
def returning : State :=
  let s := placeWord State.reset 0
  { s with
    scrubQ := [(0, [0])]
    lace := [(0, { ring := 0x4000100000, kinds := 2 ^ 7 })]
    blocks := tmap s.blocks fun _ b => { b with stage := .scrubbing, gran := [0] }
    threads := tmod s.threads 256 waitsAbroad }

/-- The block goes on as its last granule is clear, asks for the word again (10 R181), takes the link machine check (02 R31), and Lacewing
writes its entry at the start of the ring's records (10 R192). -/
theorem scarabScrub_returning_writes_trace : (memAfter (exec (.scarabScrub 0) returning)).read 0x4000100040 = 7 := by decide +kernel

theorem returning_ring_unwritten : returning.mem.read 0x4000100040 = 0 := by decide +kernel

/-- Refutes O43: its last clause says that a scrub leaves memory as it is, whatever block waits for it; in `returning` the block that goes
on takes a machine check, which is traced into memory. -/
theorem not_blocksArePlaced : ¬ Obligations.BlocksArePlaced := by
  unfold Obligations.BlocksArePlaced
  rintro ⟨-, -, -, -, -, -, hscrub⟩
  have hqueue : tget returning.scrubQ 0 = some [0] := rfl
  obtain ⟨t, hstep, hmem, -, -⟩ := hscrub returning 0 0 [] hqueue
  have htrace : t.mem.read 0x4000100040 = 7 := by
    simpa [hstep, memAfter] using scarabScrub_returning_writes_trace
  rw [hmem, returning_ring_unwritten] at htrace
  exact absurd htrace (by decide)

end Sys2Proof.Machine
end
